-- ==== Sys2Proof/Word.lean ====
section
/-! DEFINITION. The word types of the station: bytes on the bus, wrapping 32-bit counters, channel numbers, and the
integer division the spec calls "trunc" (spec/00_scope.md, Conventions). -/

namespace Sys2Proof

/-- A byte on the rig bus (R201). -/
abbrev Byte := BitVec 8

/-- An encoder or wheel count: 32 bits that wrap (R162). -/
abbrev Count := BitVec 32

/-- A channel number 0..3. -/
abbrev Chan := Fin 4

/-- "trunc" of the spec: integer division truncated toward zero (00_scope.md, Arithmetic). -/
def trunc (a b : Int) : Int := Int.tdiv a b

end Sys2Proof
end

