-- ==== Sys2Proof/Syntax.lean ====
section
/-! DEFINITION. The commands of the station: one constructor for each row of spec/opcode_table.json. A command is an event
seen by the station or a message arriving at it. Times are absolute counts of the 16 MHz reference (1/16 microsecond).
A time-driven event carries no time: its instant stands in the state. -/

namespace Sys2Proof

/-- Activity on the rig bus as this station receives it: the instants of its beginning and of the end of its last byte,
and the bytes received, the check included (R79, R82, R203). -/
structure Activity where
  began : Nat
  ended : Nat
  bytes : List Byte
deriving DecidableEq, Repr

/-- The 24 line pins as the outside stands to them: which it drives, and at what level. On a pin it leaves alone `level`
is what a pin without a pull reads (R190). -/
structure Pins where
  driven : BitVec 24
  level : BitVec 24
deriving DecidableEq, Repr

/-- The commands. `before` and `after` are two consecutive samples of a synchronized level (R61); `samples` are the
consecutive samples of a synchronized level at the filter (R193), oldest first; `pins` is how the outside
stands to L0..L23 at that instant (R190, R193). -/
inductive Instr where
  /-- RESET (R194): power-on or the RESET pin; straps ST0..ST5 are bits 0..5. -/
  | reset (straps : BitVec 6) (pins : Pins)
  /-- FRAME_EDGE (R61, R63, R64). -/
  | frameEdge (time : Nat) (before after : Bool)
  /-- ROLL_PULSE (R123): the frame edge at which the countdown reaches 0. -/
  | rollPulse (time : Nat) (before after : Bool)
  /-- LAST_TAKE_FRAME (R72): the frame edge at which TF comes to stand at 16,777,215. -/
  | lastTakeFrame (time : Nat) (before after : Bool)
  /-- LOST_FRAME_EXPIRY (R65). -/
  | lostFrameExpiry
  /-- SUB_BEAT (R69). -/
  | subBeat
  /-- FREE_SUB_BEAT (R71). -/
  | freeSubBeat
  /-- STOPPED (R145). -/
  | stopped (c : Chan)
  /-- RECORD_COMPLETE (R6). -/
  | recordComplete (c : Chan)
  /-- ORIGIN reached while evaluating (R14). -/
  | originRecord (c : Chan)
  /-- SHAPE taken (R13). -/
  | shapeRecord (c : Chan)
  /-- SPAN taken (R9). -/
  | spanRecord (c : Chan)
  /-- DWELL taken (R11). -/
  | dwellRecord (c : Chan)
  /-- LOOP_OPEN taken (R15). -/
  | loopOpenRecord (c : Chan)
  /-- LOOP_CLOSE taken (R16). -/
  | loopCloseRecord (c : Chan)
  /-- WAIT_CUE taken (R19). -/
  | waitCueRecord (c : Chan)
  /-- EMIT_CUE taken (R22). -/
  | emitCueRecord (c : Chan)
  /-- END taken (R24). -/
  | endRecord (c : Chan)
  /-- NONE reached (R8). -/
  | noneRecord (c : Chan)
  /-- STALL (R7). -/
  | stall (c : Chan)
  /-- WAIT_STAMP_PASS (R19). -/
  | waitStampPass (c : Chan)
  /-- WAIT_EXPIRY (R21). -/
  | waitExpiry (c : Chan)
  /-- FOLLOW_ERROR (R164). -/
  | followError (c : Chan)
  /-- FOLLOWER_DONE (R171): the frame edge at which follower `c` becomes DONE. -/
  | followerDone (time : Nat) (before after : Bool) (c : Chan)
  /-- STEP_PULSE (R158). -/
  | stepPulse (c : Chan)
  /-- REPORT_SLOT (R81). -/
  | reportSlot
  /-- REPORT_SENT (R96, R80): `mismatch` is the read-back comparison of the whole report. -/
  | reportSent (mismatch : Bool)
  /-- REPORT_ARRIVAL (R96). -/
  | reportArrival (a : Activity)
  /-- ROUND_CLOSE (R98). -/
  | roundClose
  /-- JOINED (R78): the round close at which the listening count reaches 4. -/
  | joined
  /-- ENTRY_ABSENT (R98): the round close at which the missed count of entry `station` reaches 8. -/
  | entryAbsent (station : Nat)
  /-- TURN_START (R75). -/
  | turnStart
  /-- MESSAGE_SENT (R76). -/
  | messageSent
  /-- BUS_ERROR (R83). -/
  | busError (a : Activity)
  /-- SETUP_LINES (R195). -/
  | setupLines (a : Activity)
  /-- SETUP_CHANNEL (R197); `pins` give an assigned encoder or wheel pair its starting levels (R193). -/
  | setupChannel (a : Activity) (pins : Pins)
  /-- ENLIST (R198). -/
  | enlist (a : Activity)
  /-- DISMISS (R199). -/
  | dismiss (a : Activity)
  /-- LOAD (R30). -/
  | load (a : Activity)
  /-- ADVANCE (R33). -/
  | advance (a : Activity)
  /-- RELEASE (R35). -/
  | release (a : Activity)
  /-- CLEAR_RING (R38). -/
  | clearRing (a : Activity)
  /-- ARM (R114). -/
  | arm (a : Activity)
  /-- ROLL (R121). -/
  | roll (a : Activity)
  /-- DISBAND (R129). -/
  | disband (a : Activity)
  /-- CLEAR (R141). -/
  | clear (a : Activity)
  /-- CUE (R90). -/
  | cue (a : Activity)
  /-- QUERY of the ring region (R45). -/
  | queryRing (a : Activity)
  /-- QUERY of the checkpoint region (R60). -/
  | queryCheckpoints (a : Activity)
  /-- QUERY of the roster region (R107). -/
  | queryRoster (a : Activity)
  /-- QUERY of the hold-cause region (R153). -/
  | queryHoldCauses (a : Activity)
  /-- QUERY of the cue board region (R88). -/
  | queryCueBoard (a : Activity)
  /-- QUERY of the lines region (R200); `pins` is how the outside stands to the lines at the arrival. -/
  | queryLines (a : Activity) (pins : Pins)
  /-- QUERY of the sampler region (R182). -/
  | querySampler (a : Activity)
  /-- FETCH (R186). -/
  | fetch (a : Activity)
  /-- SAMPLE (R178). -/
  | sample (a : Activity)
  /-- ANSWER (R84). -/
  | answer (a : Activity)
  /-- A message of an unknown kind (R204). -/
  | unknownKind (a : Activity)
  /-- SCAN_COMPLETE (R54). -/
  | scanComplete (c : Chan)
  /-- SCAN_REFUSAL (R56). -/
  | scanRefusal (c : Chan)
  /-- HOLD_FALL (R131, R140). -/
  | holdFall (time : Nat) (samples : List Bool)
  /-- HOLD_RISE (R140). -/
  | holdRise (time : Nat) (samples : List Bool)
  /-- LIMIT_ACTIVE (R165, R193) of LIMIT+ (`plus`) or LIMIT-. -/
  | limitActive (time : Nat) (c : Chan) (plus : Bool) (samples : List Bool)
  /-- ENCODER_CHANGE (R162): two successive samples of the synchronized pair, A then B. -/
  | encoderChange (time : Nat) (c : Chan) (first second : Bool × Bool)
  /-- WHEEL_CHANGE (R162). -/
  | wheelChange (time : Nat) (c : Chan) (first second : Bool × Bool)
  /-- WAKE_END (R174). -/
  | wakeEnd
  /-- CONVERSION_COMPLETE (R179) with the converter's 12-bit result. -/
  | conversionComplete (result : Nat)
  /-- LIMIT_INACTIVE (R165, R193). -/
  | limitInactive (time : Nat) (c : Chan) (plus : Bool) (samples : List Bool)
  /-- A QUERY naming no known region (R88). -/
  | queryNoKnownRegion (a : Activity)
deriving DecidableEq, Repr

end Sys2Proof
end

