-- ==== Sys2Proof/Decode.lean ====
section
/-! DEFINITION. The reading of a table word. No row of spec/opcode_table.json gives bits ("fields" is empty in every row,
and spec/98_reader.md counts 0 rows with fixed bits), so no word spells a command. The bytes of the bus messages are read
in Sys2Proof/Machine/Operands.lean and written in Sys2Proof/Machine/Formats.lean. -/

namespace Sys2Proof

/-- The command a table word spells: none, since the table gives no row any bits. -/
def decodeTableWord (_nbits _w : Nat) : Option Instr := none

end Sys2Proof
end

