-- ==== Sys2Proof/Config.lean ====
section
/-! DEFINITION. What the spec fixes for every station (instants, bounds) and the free values: constants with no body for
what the spec leaves open. Nothing in Lean can evaluate a free value; a statement that meets one holds whatever it is. -/

namespace Sys2Proof.Config

/-- FREE VALUE (log 8): the 32 bits that stand for a position outside the signed 32-bit format. The spec keeps such a
position in a 32-bit field (analog feedback taken as a set-point, R163; a path set-point in a checkpoint, R201) and
states no result. -/
opaque positionOutOfFormat : Int → BitVec 32

/-- FREE VALUE (log 9): whether a member reporting the take state of the second code agrees with a station in the take
state of the first, in the states for which R102 lists no allowed states. -/
opaque memberStateAllowed : Nat → Nat → Bool

/-- FREE VALUE (log 10): the ring position at which an abandoned scan had its head, drawn with a fresh counter. -/
opaque abandonedScanHead : Nat → Nat

/-- FREE VALUE (log 10): how many sub-beats beyond its start an abandoned scan had come, drawn with a fresh counter. -/
opaque abandonedScanReach : Nat → Nat

/-- Periods of the 16 MHz reference in one microsecond (R61, R158). -/
def tick : Nat := 16
/-- The shortest valid frame period, microseconds (R63). -/
def minPeriod : Nat := 4000
/-- The longest valid frame period, microseconds (R63). -/
def maxPeriod : Nat := 1000000
/-- The largest take frame (R72). -/
def lastTakeFrame : Nat := 16777215
/-- Entries of a path ring (R26). -/
def ringSize : Nat := 1024
/-- Round close, microseconds after the pulse (R74). -/
def roundCloseAt : Nat := 840
/-- First report slot, microseconds after the pulse (R74). -/
def firstSlotAt : Nat := 40
/-- Length of a report slot, microseconds (R74). -/
def slotLength : Nat := 50
/-- Guard before the next pulse, microseconds (R74). -/
def guardLength : Nat := 200
/-- Bytes of a report (R205). -/
def reportBytes : Nat := 45
/-- Idle time that ends a turn, microseconds (R75). -/
def turnIdle : Nat := 4
/-- Records without path time at one sub-beat (R7). -/
def zeroTimeLimit : Nat := 16
/-- Entries of a checkpoint table (R48). -/
def checkpointLimit : Nat := 16
/-- Entries of a loop stack (R3). -/
def loopLimit : Nat := 4
/-- Capture Log entries (R183). -/
def logLimit : Nat := 512
/-- Periods of a conversion without precharge: 3 microseconds (R173). -/
def conversionPeriods : Nat := 48
/-- Periods the precharge adds: 0.5 microseconds (R173). -/
def prechargePeriods : Nat := 8
/-- Periods of a wake: 20 microseconds (R174). -/
def wakePeriods : Nat := 320
/-- Shortest distance of two step pulses: 0.5 microseconds, in periods (R158). -/
def pulseGap : Nat := 8
/-- Length of a step pulse: 0.25 microseconds, in periods (R158). -/
def pulseHigh : Nat := 4

end Sys2Proof.Config
end

