-- ==== Sys2Proof/Machine/State.lean ====
section
/-! DEFINITION. The state of the station as plain data, block by block as the spec gives it, and the state after reset. -/

namespace Sys2Proof.Machine

/-! ## Names -/

/-- Take states, in the order of R109. -/
inductive TakeState where
  | safe | idle | seeking | armed | countdown | rolling | finished | stopping | held
deriving DecidableEq, Repr

/-- Channel states, in the order of R155. -/
inductive ChanState where
  | unset | parked | seeking | ready | playing | done | stopping | stopped | faulted
deriving DecidableEq, Repr

/-- Fault kinds of a channel, in the order of R201; the first five are hard (R166), the others soft (R167). -/
inductive FaultKind where
  | followError | limit | encoderSkip | wireBreak | stepBacklog
  | stepLimit | travel | ringEmpty | pathForm | loopDepth | stall | cueTimeout | cueDrop
deriving DecidableEq, Repr

/-- The six hold causes (R136). -/
inductive Cause where
  | channelFault | memberMissing | disagree | slip | busError | frameFault
deriving DecidableEq, Repr

/-- Result codes of outcomes (R86, R201). -/
inductive Result where
  | accepted | clipped | busy | refusedState | refusedRange | refusedOwned | refusedHold | lineConflict | unknownKind
  | noOrigin | notRetained | ringShort | cueUnresolved | leaderAbsent | travel | channelFaulted | takeReused | aborted
deriving DecidableEq, Repr

/-- Scan results (R58). -/
inductive ScanCode where
  | none | inFlight | positioned | noOrigin | notRetained | ringShort | cueUnresolved | abandoned | discarded
deriving DecidableEq, Repr

/-! ## Path records (chapter 1) -/

/-- Span profiles, in the order of R206. -/
inductive Profile where
  | linear | ease | easeIn | easeOut
deriving DecidableEq, Repr

/-- What an expired wait does (R21). -/
inductive OnTimeout where
  | skip | hold
deriving DecidableEq, Repr

/-- A record's kind with its fields (R1). -/
inductive Record where
  | none
  | origin (position : Int)
  | shape (profile : Profile) (num den : Nat)
  | span (displacement : Int) (frames : Nat)
  | dwell (frames : Nat)
  | loopOpen (count : Nat)
  | loopClose
  | waitCue (cue timeout : Nat) (onTimeout : OnTimeout)
  | emitCue (cue : Nat)
  | pathEnd
deriving DecidableEq, Repr

/-- A stamp: take id, take frame and sub-beat of a completion (R2). -/
structure Stamp where
  takeId : Nat
  frame : Nat
  sub : Nat
deriving DecidableEq, Repr

/-- A ring entry: record, REPORT flag, stamp (R1). -/
structure Entry where
  record : Record
  report : Bool
  stamp : Option Stamp
deriving DecidableEq, Repr

/-- The current shape (R3). -/
structure Shape where
  profile : Profile
  num : Nat
  den : Nat
deriving DecidableEq, Repr

/-- A loop stack entry (R3). -/
structure Loop where
  openAt : Nat
  remaining : Nat
deriving DecidableEq, Repr

/-- The record in progress (R3): a SPAN, a DWELL or a WAIT_CUE. -/
inductive Progress where
  | span (pos t0 : Nat) (start scaled : Int) (profile : Profile) (k j : Nat)
  | dwell (pos t0 : Nat) (start : Int) (k j : Nat)
  | wait (pos began cue : Nat) (expiry : Option Nat) (onTimeout : OnTimeout)
deriving DecidableEq, Repr

/-- A checkpoint (R48). The loop stack copy has its newest entry first. -/
structure Checkpoint where
  t0 : Nat
  pos : Nat
  setPoint : Int
  shape : Shape
  stack : List Loop
  lastReported : Option Nat
deriving DecidableEq, Repr

/-- The part of a Path Engine that a positioning works on a copy of (R3, R51): head, shape, loop stack (newest first),
record in progress, path set-point, zero-time count, last reported position, path end, checkpoint table (oldest first),
and the latest sub-beat evaluated. -/
structure Path where
  head : Nat
  shape : Shape
  stack : List Loop
  progress : Option Progress
  setPoint : Int
  zero : Nat
  lastReported : Option Nat
  ended : Bool
  table : List Checkpoint
  latest : Nat
deriving DecidableEq, Repr

/-- A scan result (R58). -/
structure ScanResult where
  code : ScanCode
  takeId : Nat
  s : Nat
  start : Option Nat
  stopPos : Option Nat
  stopSub : Option Nat
  kind : Option FaultKind
  target : Option Int
deriving DecidableEq, Repr

/-- A positioning in flight (R51): the pending path, the pending stamps, the sub-beat reached and, once the scan has
completed, the target set-point. -/
structure Positioning where
  path : Path
  stamps : List (Nat × Stamp)
  reached : Nat
  target : Option Int
deriving DecidableEq, Repr

/-- A Path Engine: its ring (positions rising, no blank entry listed), release and tail, the committed path, the scan
result and the positioning in flight (R26, R48, R51, R58). -/
structure Engine where
  ring : List (Nat × Entry)
  release : Nat
  tail : Nat
  path : Path
  scan : ScanResult
  positioning : Option Positioning
deriving DecidableEq, Repr

/-! ## Channels (chapters 9 and 12) -/

/-- The setup source of a channel (R196). -/
inductive SetupSource where
  | path
  | follow (leader : Nat) (leaderChannel : Chan) (num den : Nat) (offset : Int)
deriving DecidableEq, Repr

/-- The feedback kind of a channel (R163). -/
inductive Feedback where
  | encoder
  | analog (input : Nat)
  | none
deriving DecidableEq, Repr

/-- The ten channel functions, in the order of R207. -/
inductive LineFunction where
  | step | dir | enable | brake | limitPlus | limitMinus | encA | encB | wheelA | wheelB
deriving DecidableEq, Repr

/-- The lines a channel's functions are placed on (R196). -/
structure LineAssignment where
  step : Option Nat
  dir : Option Nat
  enable : Option Nat
  brake : Option Nat
  limitPlus : Option Nat
  limitMinus : Option Nat
  encA : Option Nat
  encB : Option Nat
  wheelA : Option Nat
  wheelB : Option Nat
deriving DecidableEq, Repr

/-- A channel's setup (R196). -/
structure Setup where
  source : SetupSource
  feedback : Feedback
  lines : LineAssignment
  enableHigh : Bool
  brakeHigh : Bool
  limitHigh : Bool
  followLimit : Nat
  maxStep : Nat
  vmax : Nat
  seekRate : Nat
  stopRate : Nat
  travelMin : Int
  travelMax : Int
  lowMark : Nat
  capture : Bool
  wheelNum : Nat
  wheelDen : Nat
  gainNum : Nat
  gainDen : Nat
  base : Int
  breakCheck : Bool
deriving DecidableEq, Repr

/-- A channel's source in the take (R111). -/
inductive Source where
  | path | follow | wheel
deriving DecidableEq, Repr

/-- A seek (R159): target, direction (`up`), speed of the last step. -/
structure Seek where
  target : Int
  up : Bool
  speed : Nat
deriving DecidableEq, Repr

/-- The follow state (R154): none, waiting for the leader, or the pair of the current frame. -/
inductive Follow where
  | none
  | waiting
  | pair (a b : Int)
deriving DecidableEq, Repr

/-- A stop profile (R145): speed, direction (`up`), stop position. -/
structure Stop where
  speed : Nat
  up : Bool
  position : Int
deriving DecidableEq, Repr

/-- The pulses scheduled at the last issue (R158): start instant and interval in periods, how many were scheduled, how
many of them have been sent. -/
structure PulsePlan where
  start : Nat
  interval : Nat
  count : Nat
  sent : Nat
deriving DecidableEq, Repr

/-- A Channel Drive (R154), with the step output (R158: DIR has the level `dirHigh` from the instant `dirSince` on, and the
other before it), the filtered inputs (R193), the wheel offset (R188) and the take
sub-beat after the last set-point issued while PLAYING (R148). -/
structure Drive where
  state : ChanState
  setPoint : Int
  previous : Option Int
  stepPos : Int
  source : Option Source
  seek : Option Seek
  follow : Follow
  leaderDone : Nat
  stop : Option Stop
  encoder : Count
  wheel : Count
  followErrors : Nat
  kind : Option FaultKind
  holdPoint : Option Nat
  playedNext : Nat
  wheelOffset : Int
  dirHigh : Bool
  dirSince : Option Nat
  pulses : Option PulsePlan
  lastPulse : Option Nat
  limitPlus : Bool
  limitMinus : Bool
  encPair : Bool × Bool
  wheelPair : Bool × Bool
deriving DecidableEq, Repr

/-- A channel: whether it is configured (R197), its setup, its drive, its engine. -/
structure Channel where
  configured : Bool
  setup : Setup
  drive : Drive
  engine : Engine
deriving DecidableEq, Repr

/-- One thing for each of the four channels. -/
structure Quad (α : Type) where
  c0 : α
  c1 : α
  c2 : α
  c3 : α
deriving DecidableEq, Repr

/-! ## Frame Timer (chapter 4) -/

inductive TimerState where
  | absent | locked | lost
deriving DecidableEq, Repr

/-- The Frame Timer (R62). Its times are whole microseconds. `schedule` is the next index and its due time, or none for
complete. -/
structure Timer where
  state : TimerState
  reference : Option Nat
  lastPulse : Option Nat
  period : Option Nat
  tag : Nat
  schedule : Option (Nat × Nat)
  latest : Option Nat
deriving DecidableEq, Repr

/-! ## Reports, outcomes and answers (chapters 5 and 13) -/

/-- The six latched flags (R136), also the cause summary of a report (R81). -/
structure CauseFlags where
  channelFault : Bool
  memberMissing : Bool
  disagree : Bool
  slip : Bool
  busError : Bool
  frameFault : Bool
deriving DecidableEq, Repr

/-- A channel's part of a report (R81, R205); the state is its 4-bit code as received. -/
structure ChannelReport where
  state : Nat
  ringLow : Bool
  lastReported : Option Nat
  setPoint : Int
deriving DecidableEq, Repr

/-- A report without its outcome list (R81, R95); the take state is its 4-bit code as received. -/
structure Report where
  station : Nat
  takeState : Nat
  tag : Nat
  takeId : Nat
  frame : Nat
  causes : CauseFlags
  holdPulled : Bool
  captureGap : Bool
  duplicateFree : Bool
  overflow : Bool
  channels : Quad ChannelReport
deriving DecidableEq, Repr

/-- An outcome (R86): the request's sender and seq, and the result. -/
structure OutcomeEntry where
  station : Nat
  seq : Nat
  result : Result
deriving DecidableEq, Repr

/-- A report as sent (R81): body and outcomes. -/
structure FullReport where
  body : Report
  outcomes : List OutcomeEntry
deriving DecidableEq, Repr

/-- A Roster entry (R95). -/
structure RosterEntry where
  present : Bool
  missed : Nat
  mark : Bool
  receivedTag : Nat
  report : Option Report
deriving DecidableEq, Repr

/-- The round summary (R100). Sets of stations are listed in rising order. -/
structure Summary where
  tag : Nat
  takeState : TakeState
  takeId : Nat
  mask : List Nat
  reported : List Nat
  present : List Nat
  missing : List Nat
  disagreeing : List Nat
  slipping : List Nat
  rollReady : Bool
  allFinished : Bool
  causes : List Cause
  current : Bool
deriving DecidableEq, Repr

/-- The hold-cause record (R136). -/
structure HoldRecord where
  flags : CauseFlags
  first : Option Cause
  sub : Option Nat
  concerned : Option Nat
  kind : Option FaultKind
deriving DecidableEq, Repr

/-- A channel's part of a hold-cause answer (R153). -/
structure HoldView where
  state : ChanState
  kind : Option FaultKind
  holdPoint : Option Nat
  setPoint : Int
deriving DecidableEq, Repr

/-- A Cue Board entry (R18). -/
structure CueEntry where
  isSet : Bool
  tag : Nat
deriving DecidableEq, Repr

/-- A line's plain setting (R190). -/
structure Plain where
  output : Bool
  high : Bool
  pullUp : Bool
  inputEnable : Bool
deriving DecidableEq, Repr

/-- A line's owner (R190). -/
inductive Owner where
  | none
  | function (c : Chan) (f : LineFunction)
  | tally
deriving DecidableEq, Repr

/-- A line's part of a lines answer (R200). -/
structure LineView where
  plain : Plain
  owner : Owner
  output : Bool
  driven : Bool
  input : Bool
deriving DecidableEq, Repr

/-- A channel's part of a lines answer (R200). -/
structure LineChannelView where
  configured : Bool
  limitPlusLevel : Bool
  limitPlusActive : Bool
  limitMinusLevel : Bool
  limitMinusActive : Bool
  encoder : Count
  wheel : Count
deriving DecidableEq, Repr

/-- A result slot of the Analog Sampler (R172). -/
structure Slot where
  result : Nat
  isVoid : Bool
deriving DecidableEq, Repr

inductive SamplerMode where
  | standby | sweep | single
deriving DecidableEq, Repr

/-- A capture entry (R183). -/
structure CaptureEntry where
  takeId : Nat
  tf : Nat
  channel : Nat
  setPoint : Int
  feedback : Option Int
deriving DecidableEq, Repr

/-- The body of an answer, by form (R207). -/
inductive AnswerBody where
  | ring (release head tail start : Nat) (entries : List Entry)
  | checkpoints (count : Nat) (scan : ScanResult) (entries : List Checkpoint)
  | roster (entry : RosterEntry) (summary : Summary)
  | holdCauses (record : HoldRecord) (state : TakeState) (takeId tf : Nat) (hold : Bool) (channels : Quad HoldView)
  | cueBoard (entries : List CueEntry)
  | lines (lines : List LineView) (channels : Quad LineChannelView) (hold : Bool) (station subBeats : Nat)
  | sampler (mode : SamplerMode) (inFlight : Option Nat) (pending : Bool) (slots : List Slot) (breaks enables : List Bool)
      (overrun : Bool)
  | fetch (entries : List CaptureEntry) (left : Nat) (gap : Bool) (firstGap : Option Nat)
  | sample (input result : Nat) (broke : Bool)
deriving DecidableEq, Repr

/-- A place in the answer queue (R87): waiting while `body` is none. `sending` marks the answer a turn has begun to send. -/
structure Place where
  station : Nat
  seq : Nat
  body : Option AnswerBody
  sending : Bool
deriving DecidableEq, Repr

/-! ## Rig Bus Port (chapter 5) -/

/-- Join state (R78); LISTENING with its count and whether a report was heard in the counted rounds. -/
inductive Join where
  | unjoined
  | listening (count : Nat) (heard : Bool)
  | joined
  | duplicate
deriving DecidableEq, Repr

/-- The window (R91): none; settle and report slots; turn `i` with the instant it began and the instant the bus has been
idle since; the silence after the turns. Settle, the slot number and the guard follow from the time since the pulse. -/
inductive Window where
  | none
  | slots
  | turn (i began idleSince : Nat)
  | silence
deriving DecidableEq, Repr

/-- What the station sends (R76). -/
inductive SendingKind where
  | report (r : FullReport)
  | cues (cues : List Nat)
  | answer
deriving DecidableEq, Repr

/-- A transmission: what it is, its bytes, the instant it begins and the instant its last byte leaves. -/
structure Sending where
  what : SendingKind
  bytes : List Byte
  begins : Nat
  ends : Nat
deriving DecidableEq, Repr

/-- The turn that stood when a pulse ended its window: the station that held it, and the instant it began (R75). -/
structure EndedTurn where
  holder : Nat
  began : Nat
deriving DecidableEq, Repr

/-- The open window that the latest accepted pulse ended, from `opens` up to `closes`, with the turn that stood at the pulse:
what a message that began in it and arrives after the pulse is judged by (R82, R83, R107, log 44). -/
structure EndedWindow where
  opens : Nat
  closes : Nat
  turn : Option EndedTurn
deriving DecidableEq, Repr

/-- The Rig Bus Port (R91). No closed cue set is the empty list. -/
structure Port where
  join : Join
  duplicateFree : Bool
  window : Window
  cueSeq : Nat
  outcomes : List OutcomeEntry
  overflow : Bool
  lateOverflow : Bool
  answers : List Place
  openCues : List Nat
  closedCues : List Nat
  snapshot : Option FullReport
  sending : Option Sending
  ended : Option EndedWindow
deriving DecidableEq, Repr

/-- The Roster (R95, R100). -/
structure Roster where
  entries : List RosterEntry
  summary : Summary
deriving DecidableEq, Repr

/-! ## Take Controller, Cue Board, Sampler, Log, Line Map -/

inductive TakeKind where
  | play | recordTake
deriving DecidableEq, Repr

/-- Phases of an ARM in flight (R109). -/
inductive ArmPhase where
  | positioning | moving | unwinding
deriving DecidableEq, Repr

/-- The take record as it stood before an ARM (R109). -/
structure PriorRecord where
  state : TakeState
  id : Nat
  kind : TakeKind
  mask : List Nat
  s : Nat
  tf : Nat
  committed : Bool
deriving DecidableEq, Repr

/-- The ARM in flight (R109), the channel states before it (R115), and whether a DISBAND reached its unwinding (R129). -/
structure ArmFlight where
  station : Nat
  seq : Nat
  phase : ArmPhase
  prior : PriorRecord
  priorStates : Quad ChanState
  disbanded : Bool
deriving DecidableEq, Repr

/-- The Take Controller's take record (R109), the latest take sub-beat issued since SEEKING was entered (R138), and whether
the frame in progress began at take frame TF, so that its sub-beats carry take sub-beats (R73). -/
structure Take where
  state : TakeState
  id : Nat
  kind : TakeKind
  mask : List Nat
  s : Nat
  remaining : Nat
  tf : Nat
  committed : Bool
  lastId : Nat
  arm : Option ArmFlight
  latest : Option Nat
  inTakeFrame : Bool
deriving DecidableEq, Repr

/-- The Cue Board (R18): 64 entries, the pending set, and the cues whose waits passed at the sub-beat being evaluated. -/
structure CueBoard where
  entries : List CueEntry
  pending : List Nat
  consumed : List Nat
deriving DecidableEq, Repr

/-- The conversion in flight (R172). -/
structure Conversion where
  input : Nat
  single : Bool
  precharge : Bool
  completes : Nat
deriving DecidableEq, Repr

/-- The pending single (R172). -/
structure PendingSingle where
  input : Nat
  station : Nat
  seq : Nat
deriving DecidableEq, Repr

/-- The Analog Sampler (R172). -/
structure Sampler where
  mode : SamplerMode
  waking : Option Nat
  conversion : Option Conversion
  pass : Option (List Nat)
  single : Option PendingSingle
  slots : List Slot
  breaks : List Bool
  enables : List Bool
  overrun : Bool
deriving DecidableEq, Repr

/-- The Capture Log (R183). -/
structure CaptureLog where
  entries : List CaptureEntry
  gap : Bool
  firstGap : Option Nat
deriving DecidableEq, Repr

/-- The Line Map (R190): plain settings, the tally line, and how the outside stood to the pins when last seen. The owner
of a line is read from the setups and the tally line. -/
structure LineMap where
  plain : List Plain
  tally : Option Nat
  pins : Pins
deriving DecidableEq, Repr

/-- The state of the station. -/
structure State where
  clock : Nat
  station : Nat
  subBeats : Nat
  timer : Timer
  port : Port
  roster : Roster
  take : Take
  holds : HoldRecord
  holdInput : Bool
  channels : Quad Channel
  board : CueBoard
  sampler : Sampler
  log : CaptureLog
  lines : LineMap
  freeCount : Nat
  pending : List Instr
deriving DecidableEq, Repr

/-- Faults that stop the station. Nothing the spec describes stops it: a channel fault, a hold cause, a refused request
and a dropped message are effects on the state. So there is none. -/
inductive Fault where
deriving DecidableEq, Repr

/-- Reasons a command has no meaning. -/
inductive Refusal where
  /-- Raised by an arm of exec whose row has no meaning yet; safe. No arm raises it. -/
  | notModelled (mnemonic : String)
deriving DecidableEq, Repr

/-! ## Reset values -/

/-- The blank entry: NONE, REPORT clear, no stamp (R1). -/
def Entry.blank : Entry := { record := .none, report := false, stamp := none }

/-- The engine state after reset (R3, R48). -/
def Path.reset : Path :=
  { head := 0, shape := { profile := .linear, num := 1, den := 1 }, stack := [], progress := none, setPoint := 0,
    zero := 0, lastReported := none, ended := false, table := [], latest := 0 }

/-- The scan result after reset (R58). -/
def ScanResult.reset : ScanResult :=
  { code := .none, takeId := 0, s := 0, start := none, stopPos := none, stopSub := none, kind := none, target := none }

/-- A Path Engine after reset (R28). -/
def Engine.reset : Engine :=
  { ring := [], release := 0, tail := 0, path := Path.reset, scan := ScanResult.reset, positioning := none }

/-- No function on any line. -/
def LineAssignment.empty : LineAssignment :=
  { step := none, dir := none, enable := none, brake := none, limitPlus := none, limitMinus := none, encA := none,
    encB := none, wheelA := none, wheelB := none }

/-- A setup with every value zero or none (R197). -/
def Setup.reset : Setup :=
  { source := .path, feedback := .none, lines := LineAssignment.empty, enableHigh := false, brakeHigh := false,
    limitHigh := false, followLimit := 0, maxStep := 0, vmax := 0, seekRate := 0, stopRate := 0, travelMin := 0,
    travelMax := 0, lowMark := 0, capture := false, wheelNum := 0, wheelDen := 0, gainNum := 0, gainDen := 0, base := 0,
    breakCheck := false }

/-- A Channel Drive after reset (R154, R158, R193). -/
def Drive.reset : Drive :=
  { state := .unset, setPoint := 0, previous := none, stepPos := 0, source := none, seek := none, follow := .none,
    leaderDone := 0, stop := none, encoder := 0, wheel := 0, followErrors := 0, kind := none, holdPoint := none,
    playedNext := 0, wheelOffset := 0, dirHigh := false, dirSince := none, pulses := none, lastPulse := none, limitPlus := false,
    limitMinus := false, encPair := (false, false), wheelPair := (false, false) }

/-- A channel after reset. -/
def Channel.reset : Channel :=
  { configured := false, setup := Setup.reset, drive := Drive.reset, engine := Engine.reset }

/-- The Frame Timer after reset (R62). -/
def Timer.reset : Timer :=
  { state := .absent, reference := none, lastPulse := none, period := none, tag := 0, schedule := none, latest := none }

/-- The Rig Bus Port after reset (R91). -/
def Port.reset : Port :=
  { join := .unjoined, duplicateFree := false, window := .none, cueSeq := 0, outcomes := [], overflow := false,
    lateOverflow := false, answers := [], openCues := [], closedCues := [], snapshot := none, sending := none,
    ended := none }

/-- No flag latched. -/
def CauseFlags.clear : CauseFlags :=
  { channelFault := false, memberMissing := false, disagree := false, slip := false, busError := false,
    frameFault := false }

/-- The empty hold-cause record (R136). -/
def HoldRecord.empty : HoldRecord :=
  { flags := CauseFlags.clear, first := none, sub := none, concerned := none, kind := none }

/-- A Roster entry after reset (R95). -/
def RosterEntry.reset : RosterEntry :=
  { present := false, missed := 8, mark := false, receivedTag := 0, report := none }

/-- The round summary after reset (R100). -/
def Summary.reset : Summary :=
  { tag := 0, takeState := .safe, takeId := 0, mask := [], reported := [], present := [], missing := [],
    disagreeing := [], slipping := [], rollReady := false, allFinished := false, causes := [], current := false }

/-- The Roster after reset (R95, R100). -/
def Roster.reset : Roster := { entries := List.replicate 16 RosterEntry.reset, summary := Summary.reset }

/-- The take record after reset (R109). -/
def Take.reset : Take :=
  { state := .safe, id := 0, kind := .play, mask := [], s := 0, remaining := 0, tf := 0, committed := false, lastId := 0,
    arm := none, latest := none, inTakeFrame := false }

/-- The Cue Board after reset (R18). -/
def CueBoard.reset : CueBoard :=
  { entries := List.replicate 64 { isSet := false, tag := 0 }, pending := [], consumed := [] }

/-- The Analog Sampler after reset (R172). -/
def Sampler.reset : Sampler :=
  { mode := .standby, waking := none, conversion := none, pass := none, single := none,
    slots := List.replicate 8 { result := 0, isVoid := true }, breaks := List.replicate 8 false,
    enables := List.replicate 8 false, overrun := false }

/-- The Capture Log after reset (R183). -/
def CaptureLog.reset : CaptureLog := { entries := [], gap := false, firstGap := none }

/-- A line's plain setting after reset (R190). -/
def Plain.reset : Plain := { output := false, high := false, pullUp := false, inputEnable := true }

/-- The station as reset leaves it, strapped as station `station` with `n` sub-beats per frame, the outside standing
to its lines as `pins` says, and `queue` waiting. -/
def State.afterReset (station n : Nat) (pins : Pins) (queue : List Instr) : State :=
  { clock := 0, station := station, subBeats := n, timer := Timer.reset, port := Port.reset, roster := Roster.reset,
    take := Take.reset, holds := HoldRecord.empty, holdInput := true,
    channels := { c0 := Channel.reset, c1 := Channel.reset, c2 := Channel.reset, c3 := Channel.reset },
    board := CueBoard.reset, sampler := Sampler.reset, log := CaptureLog.reset,
    lines := { plain := List.replicate 24 Plain.reset, tally := none, pins := pins }, freeCount := 0, pending := queue }

/-- The machine right after reset: every block at its reset value; the straps all low (log 5): station 0, N = 8; no
pin driven from outside (log 6). -/
def State.reset : State := State.afterReset 0 8 { driven := 0, level := 0 } []

end Sys2Proof.Machine
end

