-- ==== Sys2Proof/Machine/Ops.lean ====
section
/-! DEFINITION. The named operations over the state that every block uses: channels, path rings, the outcome list, the
answer queue, the hold-cause record and sets of stations. -/

namespace Sys2Proof.Machine

/-! ## The four channels -/

/-- The part for channel `c`. -/
def Quad.get {α : Type} (q : Quad α) (c : Chan) : α :=
  match c with
  | 0 => q.c0
  | 1 => q.c1
  | 2 => q.c2
  | 3 => q.c3

/-- The part for channel `c` replaced. -/
def Quad.set {α : Type} (q : Quad α) (c : Chan) (x : α) : Quad α :=
  match c with
  | 0 => { q with c0 := x }
  | 1 => { q with c1 := x }
  | 2 => { q with c2 := x }
  | 3 => { q with c3 := x }

/-- Every part mapped. -/
def Quad.map {α β : Type} (f : α → β) (q : Quad α) : Quad β :=
  { c0 := f q.c0, c1 := f q.c1, c2 := f q.c2, c3 := f q.c3 }

/-- One thing made for each channel number. -/
def Quad.ofFn {α : Type} (f : Chan → α) : Quad α := { c0 := f 0, c1 := f 1, c2 := f 2, c3 := f 3 }

/-- The parts in channel order. -/
def Quad.toList {α : Type} (q : Quad α) : List α := [q.c0, q.c1, q.c2, q.c3]

/-- The channel numbers in channel order. -/
def allChannels : List Chan := [0, 1, 2, 3]

/-- `f` done for each channel in turn, channel 0 first. -/
def eachChannel (f : Chan → State → State) (s : State) : State := f 3 (f 2 (f 1 (f 0 s)))

/-- A channel number from a field; none above 3. -/
def chan? (n : Nat) : Option Chan := if h : n < 4 then some ⟨n, h⟩ else none

/-- Channel `c`. -/
def State.chan (s : State) (c : Chan) : Channel := s.channels.get c

/-- Channel `c` replaced. -/
def State.setChan (s : State) (c : Chan) (x : Channel) : State := { s with channels := s.channels.set c x }

/-- The Channel Drive of channel `c`. -/
def State.drive (s : State) (c : Chan) : Drive := (s.chan c).drive

/-- The Channel Drive of channel `c` replaced. -/
def State.setDrive (s : State) (c : Chan) (d : Drive) : State := s.setChan c { s.chan c with drive := d }

/-- The Path Engine of channel `c`. -/
def State.engine (s : State) (c : Chan) : Engine := (s.chan c).engine

/-- The Path Engine of channel `c` replaced. -/
def State.setEngine (s : State) (c : Chan) (e : Engine) : State := s.setChan c { s.chan c with engine := e }

/-- The setup of channel `c`. -/
def State.setup (s : State) (c : Chan) : Setup := (s.chan c).setup

/-- Channel `c` is a take channel: it has a source in the take (R111). -/
def State.isTakeChannel (s : State) (c : Chan) : Bool := (s.drive c).source.isSome

/-- Every take channel's drive satisfies `p`. -/
def State.allTake (s : State) (p : Drive → Bool) : Bool :=
  allChannels.all fun c => !s.isTakeChannel c || p (s.drive c)

/-- Some channel's drive satisfies `p`. -/
def State.anyDrive (s : State) (p : Drive → Bool) : Bool := allChannels.any fun c => p (s.drive c)

/-! ## Time -/

/-- The clock moved on to `t`; it never runs back (log 1). -/
def State.atTime (s : State) (t : Nat) : State := { s with clock := max s.clock t }

/-- The free-running microsecond count (R61) at a time in periods. -/
def micros (t : Nat) : Nat := t / Config.tick

/-! ## The filters of R193 -/

/-- The filtered level changes to `level` on these samples: the last `n` of them, at least `n`, all show it (R193). -/
def settlesTo (n : Nat) (level : Bool) (samples : List Bool) : Bool :=
  decide (n ≤ samples.length) && (samples.reverse.take n).all (· == level)

/-- The filtered level of one line of a pair after two successive samples (R193, two samples). -/
def filterTwo (old first second : Bool) : Bool := if first = second then second else old

/-! ## Path rings (R26) -/

/-- The entry at position `p`: the listed one, or the blank (R1). -/
def ringGet : List (Nat × Entry) → Nat → Entry
  | [], _ => Entry.blank
  | (q, e) :: r, p => if q = p then e else ringGet r p

/-- Entry `e` written at position `p`, the canonical form kept: a blank entry is not listed. -/
def ringPut : List (Nat × Entry) → Nat → Entry → List (Nat × Entry)
  | [], p, e => if e = Entry.blank then [] else [(p, e)]
  | (q, f) :: r, p, e =>
    if p < q then (if e = Entry.blank then (q, f) :: r else (p, e) :: (q, f) :: r)
    else if p = q then (if e = Entry.blank then r else (p, e) :: r)
    else (q, f) :: ringPut r p e

/-- The canonical form of a ring: positions strictly rising and below 1024, no blank entry listed. -/
def ringWf : List (Nat × Entry) → Bool
  | [] => true
  | [(p, e)] => decide (p < Config.ringSize) && decide (e ≠ Entry.blank)
  | (p, e) :: (q, f) :: r => decide (p < q) && decide (e ≠ Entry.blank) && ringWf ((q, f) :: r)

/-- The ring position `k` places after `p`, modulo 1024. -/
def ringStep (p k : Nat) : Nat := (p + k) % Config.ringSize

/-- The distance of `x` from `r`: (x − r) mod 1024 (R26). -/
def ringDistance (r x : Nat) : Nat := (x + Config.ringSize - r % Config.ringSize) % Config.ringSize

/-- Position `x` lies in the free region (R26): its distance is at least that of tail. -/
def Engine.isFree (e : Engine) (x : Nat) : Bool := decide (ringDistance e.release e.tail ≤ ringDistance e.release x)

/-- The stamp of a record completed at take sub-beat `t` of take `id` with `n` sub-beats per frame (R2). -/
def stampAt (id n t : Nat) : Stamp := { takeId := id, frame := t / n, sub := t % n }

/-- The take sub-beat a stamp names (R2). -/
def Stamp.subBeat (st : Stamp) (n : Nat) : Nat := st.frame * n + st.sub

/-- The entry's stamp when it is one of the current take `id` (R2). -/
def Entry.currentStamp (e : Entry) (id : Nat) : Option Stamp :=
  match e.stamp with
  | some st => if st.takeId = id ∧ id ≠ 0 then some st else none
  | none => none

/-- Stamp `st` written into the entry at `p`. -/
def ringStamp (r : List (Nat × Entry)) (p : Nat) (st : Stamp) : List (Nat × Entry) :=
  ringPut r p { ringGet r p with stamp := some st }

/-! ## Positions in the 32-bit format -/

/-- A value within the signed 32-bit range. -/
def inFormat (x : Int) : Bool := decide (-2147483648 ≤ x) && decide (x ≤ 2147483647)

/-- The 32 bits of a position (R201); of one outside the format a free value (log 8). -/
def positionBits (x : Int) : BitVec 32 := if inFormat x then BitVec.ofInt 32 x else Config.positionOutOfFormat x

/-- A feedback value as a 32-bit set-point (R154, R163); outside the format a free value (log 8). -/
def toSetPoint (x : Int) : Int := if inFormat x then x else (Config.positionOutOfFormat x).toInt

/-! ## Energized channels (R154) -/

/-- A channel is energized while its state is neither UNSET nor FAULTED and the station is not SAFE (R154). -/
def State.energized (s : State) (c : Chan) : Bool :=
  decide ((s.drive c).state ≠ .unset) && decide ((s.drive c).state ≠ .faulted) && decide (s.take.state ≠ .safe)

/-! ## The DIR level (R158) -/

/-- The DIR level at instant `t` (R158). -/
def Drive.dirAt (t : Nat) (d : Drive) : Bool := if d.dirSince.any fun u => decide (t < u) then !d.dirHigh else d.dirHigh

/-- DIR held at the level it has at `t`: a change still ahead is given up (R158, R192). -/
def Drive.holdDir (t : Nat) (d : Drive) : Drive :=
  { d with dirHigh := d.dirAt t, dirSince := d.dirSince.filter fun u => decide (u ≤ t) }

/-! ## Outcomes (R86) -/

/-- An outcome added to the list, or, with 4 held, the overflow flag set (R86). -/
def addOutcome (station seq : Nat) (r : Result) (s : State) : State :=
  if s.port.outcomes.length < 4 then
    { s with port := { s.port with
        outcomes := s.port.outcomes ++ [{ station := station, seq := seq, result := r }] } }
  else { s with port := { s.port with overflow := true, lateOverflow := true } }

/-! ## The answer queue (R87) -/

/-- A place is free: fewer than 4 are taken, waiting ones included (R87). -/
def answerRoom (s : State) : Bool := decide (s.port.answers.length < 4)

/-- A place taken at the end of the queue, complete with a body or waiting (R87). -/
def takePlace (station seq : Nat) (body : Option AnswerBody) (s : State) : State :=
  { s with port := { s.port with
      answers := s.port.answers ++ [{ station := station, seq := seq, body := body, sending := false }] } }

/-- The waiting place filled (R179); at most one place waits, since at most one single is pending or in flight (R178). -/
def fillWaiting (body : AnswerBody) : List Place → List Place
  | [] => []
  | p :: ps => if p.body = none then { p with body := some body } :: ps else p :: fillWaiting body ps

/-- The waiting place given up (R181). -/
def giveUpWaiting (ps : List Place) : List Place := ps.filter fun p => p.body.isSome

/-! ## Hold causes (R136 to R139) -/

/-- Whether a cause is latched. -/
def CauseFlags.has (f : CauseFlags) : Cause → Bool
  | .channelFault => f.channelFault
  | .memberMissing => f.memberMissing
  | .disagree => f.disagree
  | .slip => f.slip
  | .busError => f.busError
  | .frameFault => f.frameFault

/-- A cause's flag set. -/
def CauseFlags.latch (f : CauseFlags) : Cause → CauseFlags
  | .channelFault => { f with channelFault := true }
  | .memberMissing => { f with memberMissing := true }
  | .disagree => { f with disagree := true }
  | .slip => { f with slip := true }
  | .busError => { f with busError := true }
  | .frameFault => { f with frameFault := true }

/-- Some flag is latched. -/
def CauseFlags.any (f : CauseFlags) : Bool :=
  f.channelFault || f.memberMissing || f.disagree || f.slip || f.busError || f.frameFault

/-- The drive of the hold line: low exactly while a cause is latched (R139). -/
def State.pullsHold (s : State) : Bool := s.holds.flags.any

/-- The take states in which the Roster's, the bus's and the timer's causes latch (R137). -/
def TakeState.isRunning : TakeState → Bool
  | .countdown | .rolling | .finished => true
  | .safe | .idle | .seeking | .armed | .stopping | .held => false

/-- The take states in which a raise of this cause is latched (R137). -/
def Cause.latchesIn : Cause → TakeState → Bool
  | .channelFault, st => decide (st ≠ .safe)
  | _, st => st.isRunning

/-- The take sub-beat recorded with a first cause (R138): the latest one issued since SEEKING was entered, else S·N, and
none with no current take. -/
def State.causeSubBeat (s : State) : Option Nat :=
  if s.take.id = 0 then none else some (s.take.latest.getD (s.take.s * s.subBeats))

/-- A cause raised to the Take Controller (R137): latched or let pass by the take state; the first cause of an empty record
fills the other fields (R138). -/
def raiseCause (cause : Cause) (concerned : Option Nat) (kind : Option FaultKind) (s : State) : State :=
  if cause.latchesIn s.take.state then
    if s.holds.flags.any then { s with holds := { s.holds with flags := s.holds.flags.latch cause } }
    else { s with holds :=
            { flags := s.holds.flags.latch cause, first := some cause, sub := s.causeSubBeat, concerned := concerned,
              kind := kind } }
  else s

/-- ARM and ROLL meet no hold: the filtered input is high and no cause is latched (R113, R121). -/
def State.holdFree (s : State) : Bool := s.holdInput && !s.pullsHold

/-! ## Sets of stations -/

/-- The stations 0..15 that satisfy `p`, in rising order. -/
def stationsWhere (p : Nat → Bool) : List Nat := (List.range 16).filter p

/-- The Roster entry of station `n`. -/
def State.entry (s : State) (n : Nat) : RosterEntry := s.roster.entries.getD n RosterEntry.reset

/-- The station is a member of its current take's mask. -/
def State.isMember (s : State) : Bool := s.take.mask.contains s.station

end Sys2Proof.Machine
end

