-- ==== Sys2Proof/Machine/Sampler.lean ====
section
/-! DEFINITION. The Analog Sampler (chapter 10): sweep set, triggers, the converter's order of work, waking and sleeping.
Times are in periods of the 16 MHz reference. -/

namespace Sys2Proof.Machine

/-- The sweep set (R174): the inputs of energized channels with ANALOG feedback, in input order. -/
def sweepSet (s : State) : List Nat :=
  (List.range 8).filter fun n => allChannels.any fun c => s.energized c && decide ((s.setup c).feedback = .analog n)

/-- The converter sleeps when nothing is left for it and the sweep set is empty (R174). -/
def samplerSettle (s : State) : State :=
  if s.sampler.conversion = none ∧ s.sampler.waking = none ∧ s.sampler.pass = none ∧ s.sampler.single = none ∧
      sweepSet s = [] then
    { s with sampler := { s.sampler with mode := .standby } }
  else s

/-- The conversion of input `n` beginning at `t` (R173). -/
def conversionAt (x : Sampler) (n : Nat) (single : Bool) (t : Nat) : Conversion :=
  { input := n, single := single, precharge := x.enables.getD n false,
    completes := t + Config.conversionPeriods + (if x.enables.getD n false then Config.prechargePeriods else 0) }

/-- The freed or idle awake converter begins one conversion (R177): the next input of the pass, else the pending single;
with neither it idles, or sleeps (R174). -/
def samplerBegin (t : Nat) (s : State) : State :=
  match s.sampler.pass with
  | some (n :: rest) =>
    { s with sampler := { s.sampler with
        mode := .sweep, conversion := some (conversionAt s.sampler n false t), pass := some rest } }
  | _ =>
    match s.sampler.single with
    | some x =>
      { s with sampler := { s.sampler with
          mode := .single, conversion := some (conversionAt s.sampler x.input true t), pass := none, single := none } }
    | none =>
      { s with sampler := { s.sampler with mode := if sweepSet s = [] then .standby else .sweep, pass := none } }

/-- A sub-beat's sweep trigger at instant `t` (R175). -/
def samplerTrigger (t : Nat) (s : State) : State :=
  if s.sampler.pass ≠ none then { s with sampler := { s.sampler with overrun := true } }
  else if sweepSet s = [] then s
  else if s.sampler.mode = .standby then
    { s with sampler := { s.sampler with
        mode := .sweep, waking := some (t + Config.wakePeriods), pass := some (sweepSet s) } }
  else if s.sampler.conversion = none ∧ s.sampler.waking = none then
    samplerBegin t { s with sampler := { s.sampler with pass := some (sweepSet s) } }
  else { s with sampler := { s.sampler with pass := some (sweepSet s) } }

/-- An accepted SAMPLE of input `n` at instant `t` (R178): its waiting place is taken, and the single begins, starts a wake,
or waits. -/
def samplerAccept (n station seq t : Nat) (s : State) : State :=
  let s1 := takePlace station seq none s
  let s2 := { s1 with sampler := { s1.sampler with single := some { input := n, station := station, seq := seq } } }
  if s.sampler.mode = .standby then
    { s2 with sampler := { s2.sampler with mode := .sweep, waking := some (t + Config.wakePeriods) } }
  else if s.sampler.conversion = none ∧ s.sampler.waking = none then samplerBegin t s2
  else s2

/-- Entry into SAFE stops the sampler (R181): a conversion in flight is voided and its single's place given up, the pass
ends, and a pending single begins at once if the converter is awake, else after the wake it needs. DESIGN CHOICE (log
46): a wake in progress goes on for a pending single, whatever began it; with none it ends with the pass. -/
def samplerSafeStop (t : Nat) (s : State) : State :=
  let slots := match s.sampler.conversion with
    | some v => s.sampler.slots.set v.input { s.sampler.slots.getD v.input { result := 0, isVoid := true } with isVoid := true }
    | none => s.sampler.slots
  let answers := match s.sampler.conversion with
    | some v => if v.single then giveUpWaiting s.port.answers else s.port.answers
    | none => s.port.answers
  let s1 := { s with
    sampler := { s.sampler with slots := slots, conversion := none, pass := none }, port := { s.port with answers := answers } }
  match s.sampler.single with
  | some _ => if s.sampler.waking = none then samplerBegin t s1 else s1
  | none => { s1 with sampler := { s1.sampler with mode := .standby, waking := none } }

/-- A channel's feedback value (R163): the encoder count, the scaled slot of its input, or none. -/
def State.feedback (s : State) (c : Chan) : Option Int :=
  match (s.setup c).feedback with
  | .encoder => some (s.drive c).encoder.toInt
  | .analog n =>
    let slot := s.sampler.slots.getD n { result := 0, isVoid := true }
    if slot.isVoid then none
    else some (trunc ((slot.result : Int) * (s.setup c).gainNum) (s.setup c).gainDen + (s.setup c).base)
  | .none => none

end Sys2Proof.Machine
end

