-- ==== Sys2Proof/Machine/TakeOps.lean ====
section
/-! DEFINITION. What the Take Controller does when motion has ended: the ways into HELD and IDLE, the end of an unwinding,
FINISHED and ARMED (chapter 7). -/

namespace Sys2Proof.Machine

/-- A channel that parks when its take ends (R118, R129): any but UNSET, FAULTED, and STOPPED with a fault kind. -/
def Drive.parks (d : Drive) : Bool :=
  match d.state with
  | .unset | .faulted => false
  | .stopped => d.kind.isNone
  | .parked | .seeking | .ready | .playing | .done | .stopping => true

/-- The channel PARKED at its set-point. -/
def Drive.park (d : Drive) : Drive := { d with state := .parked, seek := none, follow := .none, stop := none }

/-- Every take channel that parks becomes PARKED. -/
def parkTakeChannels (s : State) : State :=
  eachChannel (fun c s => if s.isTakeChannel c && (s.drive c).parks then s.setDrive c (s.drive c).park else s) s

/-- The channels lose their source: the station has no current take (R154). -/
def clearSources (s : State) : State := eachChannel (fun c s => s.setDrive c { s.drive c with source := none }) s

/-- The take is left for IDLE (R127, R129, R118): a committed take's id becomes the last take id, and the record is cleared. -/
def leaveTake (s : State) : State :=
  clearSources { s with take := { s.take with
    state := .idle, id := 0, mask := [], s := 0, remaining := 0, tf := 0, committed := false, arm := none, latest := none,
    inTakeFrame := false, lastId := if s.take.committed then s.take.id else s.take.lastId } }

/-- The end of an unwinding (R118, R129). -/
def endUnwinding (a : ArmFlight) (s : State) : State :=
  let s1 := parkTakeChannels s
  if a.disbanded ∨ a.prior.state = .idle then leaveTake s1
  else { s1 with take := { s1.take with
    state := .held, s := a.prior.s, tf := a.prior.tf, committed := true, arm := none } }

/-- The event at which no take channel is STOPPING any more: STOPPING becomes HELD (R132), an unwinding ends (R118). -/
def checkRest (s : State) : State :=
  if s.allTake fun d => decide (d.state ≠ .stopping) then
    match s.take.state, s.take.arm with
    | .stopping, _ => { s with take := { s.take with state := .held } }
    | .seeking, some a => if a.phase = .unwinding then endUnwinding a s else s
    | _, _ => s
  else s

/-- ROLLING becomes FINISHED when every take channel is DONE (R126). -/
def checkFinished (s : State) : State :=
  if s.take.state = .rolling ∧ s.allTake (fun d => decide (d.state = .done)) then
    { s with take := { s.take with state := .finished } }
  else s

/-- The ARM ends ACCEPTED when every take channel is READY after the commit (R117). -/
def checkArmed (s : State) : State :=
  match s.take.arm with
  | some a =>
    if s.take.state = .seeking ∧ a.phase = .moving ∧ s.allTake (fun d => decide (d.state = .ready)) then
      addOutcome a.station a.seq .accepted { s with take := { s.take with state := .armed, arm := none } }
    else s
  | none => s

end Sys2Proof.Machine
end

