-- ==== Sys2Proof/Machine/Faults.lean ====
section
/-! DEFINITION. What a channel does when it stops or faults (chapters 8 and 9): entering STOPPING, the end of a stop
profile, hard faults, soft faults, and taking the set-point from feedback. -/

namespace Sys2Proof.Machine

/-- The speed and direction a stop profile begins with: from the last two issued set-points (R144). -/
def Drive.stopSpeed (d : Drive) : Nat :=
  match d.previous with
  | some p => (d.setPoint - p).natAbs
  | none => 0

/-- The hold point a channel leaves PLAYING with (R148); otherwise the one it has. -/
def Drive.leavingHoldPoint (d : Drive) : Option Nat := if d.state = .playing then some d.playedNext else d.holdPoint

/-- The channel enters STOPPING, or, with v = 0, is STOPPED at the entry (R144, R145). -/
def Drive.enterStop (d : Drive) : Drive :=
  let d1 := { d with holdPoint := d.leavingHoldPoint, seek := none, follow := .none }
  if d.stopSpeed = 0 then { d1 with state := .stopped, stop := none }
  else { d1 with state := .stopping,
                 stop := some { speed := d.stopSpeed, up := decide (d.previous.getD d.setPoint < d.setPoint),
                                position := d.setPoint } }

/-- The channel STOPPED at its last issued set-point (R145). -/
def Drive.becomeStopped (d : Drive) : Drive := { d with state := .stopped, stop := none }

/-- A hard fault of an energized channel (R166): FAULTED, its kind recorded, motion ended, step output stopped. -/
def Drive.hardFault (k : FaultKind) (d : Drive) : Drive :=
  { d with state := .faulted, kind := some k, holdPoint := d.leavingHoldPoint, seek := none, follow := .none, stop := none,
           pulses := none }

/-- A hard fault taken by the station (R166, R120, R132): the drive faults, CHANNEL_FAULT is raised, an ARMED station
becomes HELD, and the fault may end a stop. A channel not energized takes none. -/
def hardFault (c : Chan) (k : FaultKind) (s : State) : State :=
  if s.energized c then
    let s1 := raiseCause .channelFault (some c.val) (some k) (s.setDrive c (((s.drive c).holdDir s.clock).hardFault k))
    let s2 := if s1.take.state = .armed ∧ s1.isTakeChannel c then { s1 with take := { s1.take with state := .held } } else s1
    samplerSettle (checkRest s2)
  else s

/-- The channel records a soft fault kind if it has none (R146, R167). -/
def Drive.recordKind (k : FaultKind) (d : Drive) : Drive := { d with kind := some (d.kind.getD k) }

/-- A soft fault (R167): recorded and raised; a channel not yet STOPPING starts its stop profile. -/
def softFault (c : Chan) (k : FaultKind) (s : State) : State :=
  let d := (s.drive c).recordKind k
  let d' := if d.state = .stopping then d else d.enterStop
  checkRest (raiseCause .channelFault (some c.val) (some k) (s.setDrive c d'))

/-- The channel starts a new energized period at its feedback value (R163); with feedback none it keeps its set-point. -/
def energize (c : Chan) (st : ChanState) (s : State) : State :=
  let d := s.drive c
  let sp := match s.feedback c with
    | some x => toSetPoint x
    | none => d.setPoint
  s.setDrive c { d with state := st, setPoint := sp, previous := none, stepPos := sp, followErrors := 0, pulses := none }

end Sys2Proof.Machine
end

