-- ==== Sys2Proof/Machine/Records.lean ====
section
/-! DEFINITION. Taking a record and advancing the record in progress (chapter 1), on the copy of the engine state a play or
a scan works on. Each kind of record has one operation; play (Machine/Play.lean) and the scan (Machine/Scan.lean) share them. -/

namespace Sys2Proof.Machine

/-- Where an evaluation stands: the take id, N, and the take sub-beat evaluated. -/
structure EvalAt where
  takeId : Nat
  n : Nat
  t : Nat

/-- How taking a record ends (R5): taking goes on; a record is left in progress; the path ended; a fault is raised; an
unstamped wait in a scan (R55). -/
inductive Taking where
  | goesOn
  | stops
  | ends
  | faults (k : FaultKind)
  | unresolved
deriving DecidableEq, Repr

/-- What taking a record gives: the new path state, the stamp written, the cue placed in the cue set, the cue whose entry a
wait consumes. -/
structure Taken where
  path : Path
  stamp : Option (Nat × Stamp) := none
  emitted : Option Nat := none
  consumed : Option Nat := none
  taking : Taking

/-- A record that raises a fault is not taken: head stays on it and no stamp is written (R5, R2). -/
def raises (k : FaultKind) (p : Path) : Taken := { path := p, taking := .faults k }

/-- Head moved past the record just read (R5). -/
def Path.past (p : Path) : Path := { p with head := ringStep p.head 1 }

/-- A record at `pos` completes: a REPORT record becomes the last reported position (R25). -/
def Path.reported (p : Path) (pos : Nat) (report : Bool) : Path :=
  if report then { p with lastReported := some pos } else p

/-- A record without path time completes and counts toward the zero-time limit (R7). -/
def Path.counted (p : Path) : Path := { p with zero := p.zero + 1 }

/-- A checkpoint of the state at `t` offered for the SPAN or DWELL at `pos` (R49). -/
def Path.offer (p : Path) (t pos : Nat) : Path :=
  if p.table.any fun q => decide (q.t0 = t) then p
  else
    let kept := if Config.checkpointLimit ≤ p.table.length then p.table.tail else p.table
    { p with table := kept ++ [{ t0 := t, pos := pos, setPoint := p.setPoint, shape := p.shape, stack := p.stack,
                                 lastReported := p.lastReported }] }

/-- The path set-point's share of a span at offset `j` of `k` (R10). -/
def carve (pr : Profile) (d : Int) (j k : Nat) : Int :=
  match pr with
  | .linear => trunc (d * j) k
  | .easeIn => trunc (d * (j : Int) ^ 2) ((k : Int) ^ 2)
  | .easeOut => trunc (d * (2 * (j : Int) * k - (j : Int) ^ 2)) ((k : Int) ^ 2)
  | .ease => trunc (d * ((j : Int) ^ 2 * (3 * (k : Int) - 2 * j))) ((k : Int) ^ 3)

/-- The scaled displacement D' (R9). -/
def scaled (sh : Shape) (d : Int) : Int := trunc (d * sh.num) sh.den

/-- SHAPE taken (R13). -/
def takeShape (a : EvalAt) (pr : Profile) (num den : Nat) (report : Bool) (p : Path) : Taken :=
  if Config.zeroTimeLimit ≤ p.zero then raises .stall p
  else { path := ({ p.past with shape := { profile := pr, num := num, den := den } }.reported p.head report).counted,
         stamp := some (p.head, stampAt a.takeId a.n a.t), taking := .goesOn }

/-- SPAN taken (R9): all the span will do is fixed, and a checkpoint is offered. -/
def takeSpan (a : EvalAt) (d : Int) (l : Nat) (p : Path) : Taken :=
  { path := (({ p with
        progress := some (.span p.head a.t p.setPoint (scaled p.shape d) p.shape.profile (l * a.n) 0) }.offer a.t
          p.head)).past,
    taking := .stops }

/-- DWELL taken (R11). -/
def takeDwell (a : EvalAt) (l : Nat) (p : Path) : Taken :=
  { path := (({ p with progress := some (.dwell p.head a.t p.setPoint (l * a.n) 0) }.offer a.t p.head)).past,
    taking := .stops }

/-- LOOP_OPEN taken (R15). -/
def takeLoopOpen (a : EvalAt) (count : Nat) (report : Bool) (p : Path) : Taken :=
  if Config.zeroTimeLimit ≤ p.zero then raises .stall p
  else if Config.loopLimit ≤ p.stack.length then raises .loopDepth p
  else { path := ({ p.past with
             stack := { openAt := ringStep p.head 1, remaining := count } :: p.stack }.reported p.head report).counted,
         stamp := some (p.head, stampAt a.takeId a.n a.t), taking := .goesOn }

/-- LOOP_CLOSE taken (R16). -/
def takeLoopClose (a : EvalAt) (report : Bool) (p : Path) : Taken :=
  if Config.zeroTimeLimit ≤ p.zero then raises .stall p
  else match p.stack with
    | [] => raises .pathForm p
    | l :: rest =>
      let p1 := if 1 < l.remaining then
          { p with head := l.openAt, stack := { l with remaining := l.remaining - 1 } :: rest }
        else { p.past with stack := rest }
      { path := (p1.reported p.head report).counted,
        stamp := some (p.head, stampAt a.takeId a.n a.t), taking := .goesOn }

/-- A wait passed at the sub-beat at which it began (R19, R7), stamped `st`. -/
def passAtOnce (st : Stamp) (report : Bool) (consumed : Option Nat) (p : Path) : Taken :=
  if Config.zeroTimeLimit ≤ p.zero then raises .stall p
  else { path := (p.past.reported p.head report).counted, stamp := some (p.head, st), consumed := consumed,
         taking := .goesOn }

/-- A wait begun and left in progress (R19). -/
def beginWait (a : EvalAt) (cue timeout : Nat) (act : OnTimeout) (p : Path) : Taken :=
  { path := { p.past with
      progress := some (.wait p.head a.t cue (if timeout = 0 then none else some (a.t + timeout * a.n)) act) },
    taking := .stops }

/-- WAIT_CUE taken in play (R19, R20): `board` tells whether the cue's entry is set. -/
def takeWaitInPlay (a : EvalAt) (board : Bool) (e : Entry) (cue timeout : Nat) (act : OnTimeout) (p : Path) : Taken :=
  if p.stack ≠ [] then raises .pathForm p
  else match e.currentStamp a.takeId with
    | some st =>
      if st.subBeat a.n ≤ a.t then passAtOnce (stampAt a.takeId a.n a.t) e.report none p else beginWait a cue timeout act p
    | none =>
      if board then passAtOnce (stampAt a.takeId a.n a.t) e.report (some cue) p else beginWait a cue timeout act p

/-- WAIT_CUE taken by a scan (R55): one whose stamp names an earlier sub-beat passes here and keeps that stamp. -/
def takeWaitInScan (a : EvalAt) (e : Entry) (cue timeout : Nat) (act : OnTimeout) (p : Path) : Taken :=
  if p.stack ≠ [] then raises .pathForm p
  else match e.currentStamp a.takeId with
    | some st =>
      if st.subBeat a.n ≤ a.t then passAtOnce st e.report none p else beginWait a cue timeout act p
    | none => { path := p, taking := .unresolved }

/-- EMIT_CUE taken in play with the frame's cue set `cues` (R22). -/
def takeEmitInPlay (a : EvalAt) (cues : List Nat) (cue : Nat) (report : Bool) (p : Path) : Taken :=
  if Config.zeroTimeLimit ≤ p.zero then raises .stall p
  else if !cues.contains cue && decide (4 ≤ cues.length) then raises .cueDrop p
  else { path := (p.past.reported p.head report).counted, stamp := some (p.head, stampAt a.takeId a.n a.t),
         emitted := some cue, taking := .goesOn }

/-- EMIT_CUE taken by a scan (R22, R56): completed and stamped, never sent. -/
def takeEmitInScan (a : EvalAt) (report : Bool) (p : Path) : Taken :=
  if Config.zeroTimeLimit ≤ p.zero then raises .stall p
  else { path := (p.past.reported p.head report).counted, stamp := some (p.head, stampAt a.takeId a.n a.t),
         taking := .goesOn }

/-- END taken (R24). -/
def takeEnd (a : EvalAt) (report : Bool) (p : Path) : Taken :=
  { path := { p.past with ended := true }.reported p.head report,
    stamp := some (p.head, stampAt a.takeId a.n a.t), taking := .ends }

/-- The record at head taken in play (R5). -/
def takeInPlay (a : EvalAt) (board : Nat → Bool) (cues : List Nat) (e : Entry) (p : Path) : Taken :=
  match e.record with
  | .none => raises .pathForm p
  | .origin _ => raises .pathForm p
  | .shape pr num den => takeShape a pr num den e.report p
  | .span d l => takeSpan a d l p
  | .dwell l => takeDwell a l p
  | .loopOpen count => takeLoopOpen a count e.report p
  | .loopClose => takeLoopClose a e.report p
  | .waitCue cue timeout act => takeWaitInPlay a (board cue) e cue timeout act p
  | .emitCue cue => takeEmitInPlay a cues cue e.report p
  | .pathEnd => takeEnd a e.report p

/-- The record at head taken by a scan (R54 to R56). -/
def takeInScan (a : EvalAt) (e : Entry) (p : Path) : Taken :=
  match e.record with
  | .none => raises .pathForm p
  | .origin _ => raises .pathForm p
  | .shape pr num den => takeShape a pr num den e.report p
  | .span d l => takeSpan a d l p
  | .dwell l => takeDwell a l p
  | .loopOpen count => takeLoopOpen a count e.report p
  | .loopClose => takeLoopClose a e.report p
  | .waitCue cue timeout act => takeWaitInScan a e cue timeout act p
  | .emitCue _ => takeEmitInScan a e.report p
  | .pathEnd => takeEnd a e.report p

/-- The record in progress moved to take sub-beat `t` (R6): offset and path set-point; a wait is left as it is. -/
def Path.advanceTo (p : Path) (t : Nat) : Path :=
  match p.progress with
  | some (.span pos t0 start d pr k _) =>
    { p with progress := some (.span pos t0 start d pr k (t - t0)), setPoint := start + carve pr d (t - t0) k }
  | some (.dwell pos t0 start k _) => { p with progress := some (.dwell pos t0 start k (t - t0)), setPoint := start }
  | _ => p

/-- The ring position of a SPAN or DWELL that stands at offset K (R6). -/
def Path.completing (p : Path) : Option Nat :=
  match p.progress with
  | some (.span pos _ _ _ _ k j) => if k ≤ j then some pos else none
  | some (.dwell pos _ _ k j) => if k ≤ j then some pos else none
  | _ => none

/-- The record at `pos` in progress completes (R6, R19, R25): none is in progress afterwards. -/
def Path.complete (p : Path) (pos : Nat) (report : Bool) : Path := { p with progress := none }.reported pos report

/-- How a wait in progress is examined (R19 to R21). -/
inductive Examined where
  | holds
  | passes (consumed : Option Nat)
  | expires
deriving DecidableEq, Repr

/-- A wait in progress examined at take sub-beat `a.t` (R19, R20, R21). -/
def examineWait (a : EvalAt) (board : Bool) (e : Entry) (cue : Nat) (expiry : Option Nat) (act : OnTimeout) : Examined :=
  match e.currentStamp a.takeId with
  | some st => if st.subBeat a.n ≤ a.t then .passes none else .holds
  | none =>
    if board then .passes (some cue)
    else match expiry with
      | some x => if x ≤ a.t then (match act with | .skip => .passes none | .hold => .expires) else .holds
      | none => .holds

end Sys2Proof.Machine
end

