-- ==== Sys2Proof/Machine/Play.lean ====
section
/-! DEFINITION. The Path Engine in play (R4 to R8, R19 to R22): evaluating one sub-beat of a channel's path, and the single
record steps that an evaluation is made of, each of which is a row of the command table. -/

namespace Sys2Proof.Machine

/-- What an evaluation works on: the path state, the ring, the frame's open cue set, the cues consumed at this sub-beat. -/
structure PlayState where
  path : Path
  ring : List (Nat × Entry)
  cues : List Nat
  consumed : List Nat
deriving DecidableEq, Repr

/-- How an evaluation ends: with the path standing, at its END, or at a record fault. -/
inductive PlayEnd where
  | stands
  | ends
  | faults (k : FaultKind)
deriving DecidableEq, Repr

/-- A cue joins a cue set that does not hold it (R22). -/
def addCue (cues : List Nat) (cue : Nat) : List Nat := if cues.contains cue then cues else cues ++ [cue]

/-- A stamp written into the ring, if there is one. -/
def PlayState.stamped (x : PlayState) (st : Option (Nat × Stamp)) : PlayState :=
  match st with
  | some (p, v) => { x with ring := ringStamp x.ring p v }
  | none => x

/-- What taking a record leaves (R5): path, stamp, cue set, consumed cues. -/
def PlayState.took (x : PlayState) (k : Taken) : PlayState :=
  { x with path := k.path,
           cues := match k.emitted with | some q => addCue x.cues q | none => x.cues,
           consumed := match k.consumed with | some q => q :: x.consumed | none => x.consumed }.stamped k.stamp

/-- The record at head taken (R5), with RING_EMPTY when head equals tail (R43). -/
def PlayState.takeHead (a : EvalAt) (board : Nat → Bool) (tail : Nat) (x : PlayState) : Taken :=
  if x.path.head = tail then raises .ringEmpty x.path
  else takeInPlay a board x.cues (ringGet x.ring x.path.head) x.path

/-- Records taken at one sub-beat until one is left in progress, the path ends or a fault is raised (R5). The fuel bounds
the takings; 17 are enough, since 16 count toward the zero-time limit (R7). -/
def playLoop (a : EvalAt) (board : Nat → Bool) (tail : Nat) : Nat → PlayState → PlayState × PlayEnd
  | 0, x => (x, .stands)
  | fuel + 1, x =>
    let k := x.takeHead a board tail
    match k.taking with
    | .goesOn => playLoop a board tail fuel (x.took k)
    | .stops => (x.took k, .stands)
    | .ends => (x.took k, .ends)
    | .faults f => (x.took k, .faults f)
    | .unresolved => (x, .stands)

/-- The takings of one sub-beat. -/
def goOn (a : EvalAt) (board : Nat → Bool) (tail : Nat) (x : PlayState) : PlayState × PlayEnd :=
  playLoop a board tail 18 x

/-- The record in progress at `pos` completes at `a.t`, is stamped, and consumes a cue if it passed by one. -/
def PlayState.completed (a : EvalAt) (pos : Nat) (consumed : Option Nat) (x : PlayState) : PlayState :=
  { x with path := x.path.complete pos (ringGet x.ring pos).report,
           consumed := match consumed with | some q => q :: x.consumed | none => x.consumed }.stamped
    (some (pos, stampAt a.takeId a.n a.t))

/-- One sub-beat evaluated (R4, R6, R19): the record in progress advanced (not at the roll pulse, `first`), a record that
ends there completed, and records taken if none remains in progress. -/
def playEval (a : EvalAt) (first : Bool) (board : Nat → Bool) (tail : Nat) (x : PlayState) : PlayState × PlayEnd :=
  let x0 := { x with path := { x.path with zero := 0, latest := a.t } }
  let x1 := if first then x0 else { x0 with path := x0.path.advanceTo a.t }
  if x1.path.ended then (x1, .stands)
  else match x1.path.completing with
    | some pos => goOn a board tail (x1.completed a pos none)
    | none =>
      match x1.path.progress with
      | none => goOn a board tail x1
      | some (.wait pos _ cue expiry act) =>
        match examineWait a (board cue) (ringGet x1.ring pos) cue expiry act with
        | .holds => (x1, .stands)
        | .passes consumed => goOn a board tail (x1.completed a pos consumed)
        | .expires => (x1, .faults .cueTimeout)
      | some _ => (x1, .stands)

/-! ## On the state -/

/-- The Cue Board's set flags. -/
def State.cueSet (s : State) (cue : Nat) : Bool := (s.board.entries.getD cue { isSet := false, tag := 0 }).isSet

/-- Where channel `c`'s engine stands at take sub-beat `t`. -/
def State.evalAt (s : State) (t : Nat) : EvalAt := { takeId := s.take.id, n := s.subBeats, t := t }

/-- What channel `c`'s evaluation works on. -/
def State.playState (s : State) (c : Chan) : PlayState :=
  { path := (s.engine c).path, ring := (s.engine c).ring, cues := s.port.openCues, consumed := s.board.consumed }

/-- What channel `c`'s evaluation left, put back. -/
def State.putPlay (s : State) (c : Chan) (x : PlayState) : State :=
  let s1 := s.setEngine c { s.engine c with path := x.path, ring := x.ring }
  { s1 with port := { s1.port with openCues := x.cues }, board := { s1.board with consumed := x.consumed } }

/-- The channel plays its path: PLAYING with source PATH (R4). -/
def State.playsPath (s : State) (c : Chan) : Bool :=
  decide ((s.drive c).state = .playing) && decide ((s.drive c).source = some .path)

/-- The engine of channel `c` stands needing a record at its latest sub-beat (R5, R43). -/
def State.needsRecord (s : State) (c : Chan) : Bool :=
  s.playsPath c && (s.engine c).path.progress.isNone && !(s.engine c).path.ended

/-- A PLAYING channel becomes DONE (R24, R171). -/
def becomeDone (c : Chan) (s : State) : State :=
  checkFinished (s.setDrive c { s.drive c with state := .done, follow := .none })

/-- What the end of an evaluation brings the channel: nothing, DONE (R24), or a record fault (R8). -/
def endPlay (c : Chan) (e : PlayEnd) (s : State) : State :=
  match e with
  | .stands => s
  | .ends => becomeDone c s
  | .faults k => softFault c k s

/-- The evaluation end that a taking gives. -/
def Taking.playEnd : Taking → PlayEnd
  | .goesOn => .stands
  | .stops => .stands
  | .ends => .ends
  | .faults k => .faults k
  | .unresolved => .stands

/-- What taking the record at head of channel `c` gives, at the engine's latest sub-beat. -/
def State.headTaken (s : State) (c : Chan) : Taken :=
  (s.playState c).takeHead (s.evalAt (s.engine c).path.latest) s.cueSet (s.engine c).tail

/-- The record at head of channel `c`. -/
def State.headRecord (s : State) (c : Chan) : Record := (ringGet (s.engine c).ring (s.engine c).path.head).record

/-- The engine of channel `c` stands on a record at head that satisfies `p` and is not turned away by STALL (R7). -/
def State.standsOn (s : State) (c : Chan) (p : Record → Bool) : Bool :=
  s.needsRecord c && decide ((s.engine c).path.head ≠ (s.engine c).tail) && p (s.headRecord c) &&
    decide ((s.headTaken c).taking ≠ .faults .stall)

/-- The one record at head taken by channel `c`, with what its end brings (R5, R8, R24). -/
def takeOne (c : Chan) (s : State) : State :=
  endPlay c (s.headTaken c).taking.playEnd (s.putPlay c ((s.playState c).took (s.headTaken c)))

/-- The record in progress of channel `c` at `pos` ends at the engine's latest sub-beat, and the engine goes on (R6, R20). -/
def completeAndGoOn (c : Chan) (pos : Nat) (consumed : Option Nat) (s : State) : State :=
  let a := s.evalAt (s.engine c).path.latest
  let r := goOn a s.cueSet (s.engine c).tail ((s.playState c).completed a pos consumed)
  endPlay c r.2 (s.putPlay c r.1)

end Sys2Proof.Machine
end

