-- ==== Sys2Proof/Machine/Drive.lean ====
section
/-! DEFINITION. The Channel Drive at a sub-beat (chapter 9, chapter 8.4): the following monitor, the new set-point, the issue
checks, the step output, seek steps and stop steps. -/

namespace Sys2Proof.Machine

/-! ## Issuing a set-point (R157, R158) -/

/-- The checks a new set-point meets before it is issued, in order (R157, R165); none when it passes. -/
def offerCheck (d : Drive) (u : Setup) (x : Int) : Option FaultKind :=
  if x = d.setPoint then none
  else if x < u.travelMin ∨ u.travelMax < x then some .travel
  else if u.maxStep < (x - d.setPoint).natAbs then some .stepLimit
  else if (d.setPoint < x ∧ d.limitPlus) ∨ (x < d.setPoint ∧ d.limitMinus) then some .limit
  else none

/-- A fault kind is hard (R166). -/
def FaultKind.isHard : FaultKind → Bool
  | .followError | .limit | .encoderSkip | .wireBreak | .stepBacklog => true
  | .stepLimit | .travel | .ringEmpty | .pathForm | .loopDepth | .stall | .cueTimeout | .cueDrop => false

/-- The backlog of the step output: set-point minus step position (R158). -/
def Drive.backlog (d : Drive) : Int := d.setPoint - d.stepPos

/-- The instant from which the output is free at an issue at `t` (R158): 0.5 µs after the last pulse began. -/
def Drive.outputFree (t : Nat) (d : Drive) : Nat := max t ((d.lastPulse.map fun b => b + Config.pulseGap).getD 0)

/-- The backlog asks for the direction that DIR does not have at `t` (R158). -/
def Drive.turns (t : Nat) (d : Drive) : Bool := decide (d.backlog ≠ 0) && (decide (0 < d.backlog) != d.dirAt t)

/-- DIR after an issue at `t` (R158): it turns when the output is free, or stays as it is. -/
def Drive.setDir (t : Nat) (d : Drive) : Drive :=
  if d.turns t then { d with dirHigh := decide (0 < d.backlog), dirSince := some (d.outputFree t) } else d.holdDir t

/-- The pulses scheduled at an issue at instant `t` for a sub-beat interval of `interval` periods (R158), DIR set: the first
when the output is free, and at least 1 µs after DIR's last change. -/
def Drive.schedule (t interval : Nat) (d : Drive) : Option PulsePlan :=
  if d.backlog = 0 then none
  else some { start := max (d.outputFree t) ((d.dirSince.map fun u => u + Config.tick).getD 0), interval := interval,
              count := d.backlog.natAbs, sent := 0 }

/-- The instant at which the next scheduled pulse begins (R158). -/
def PulsePlan.next (p : PulsePlan) : Nat :=
  if Config.pulseGap * p.count ≤ p.interval then p.start + p.sent * p.interval / p.count
  else p.start + Config.pulseGap * p.sent

/-- The sub-beat interval I of R158 in periods. -/
def State.interval (s : State) : Nat := s.timer.period.getD 0 / s.subBeats * Config.tick

/-- Set-point `x` issued at instant `t` (step 5 of R156): previous and set-point move on, DIR is set and the pulses are
scheduled anew. -/
def Drive.issue (t interval : Nat) (x : Int) (d : Drive) : Drive :=
  let d1 := { d with previous := some d.setPoint, setPoint := x }.setDir t
  { d1 with pulses := d1.schedule t interval }

/-- Set-point `x` issued by channel `c`, STEP_BACKLOG found after it (R158). -/
def issueSetPoint (c : Chan) (t : Nat) (x : Int) (s : State) : State :=
  let s1 := s.setDrive c ((s.drive c).issue t s.interval x)
  if 2 * (s.setup c).maxStep < (s1.drive c).backlog.natAbs then hardFault c .stepBacklog s1 else s1

/-- A channel that holds reissues its set-point (R155). -/
def holdStill (c : Chan) (t : Nat) (s : State) : State := issueSetPoint c t (s.drive c).setPoint s

/-! ## The following monitor (R164) -/

/-- The comparison of the following monitor: none when there is nothing to compare. -/
def followingError (s : State) (c : Chan) : Option Bool :=
  match s.feedback c with
  | some x => some (decide ((s.setup c).followLimit < (x - (s.drive c).setPoint).natAbs))
  | none => none

/-- The following-error count reaching 2 is hard fault FOLLOW_ERROR (R164). -/
def faultOnFollow (c : Chan) (s : State) : State :=
  if 2 ≤ (s.drive c).followErrors then hardFault c .followError s else s

/-- The following monitor of channel `c` (R164). -/
def monitor (c : Chan) (s : State) : State :=
  match followingError s c with
  | some true => faultOnFollow c (s.setDrive c { s.drive c with followErrors := (s.drive c).followErrors + 1 })
  | some false => s.setDrive c { s.drive c with followErrors := 0 }
  | none => s

/-! ## Seek (R160) -/

/-- The distance covered by a step of `w` and braking at rate `a` after it: w + (w − a) + … over the positive terms. -/
def brakeDistance (w a : Nat) : Nat :=
  let terms := (w + a - 1) / a
  terms * w - a * (terms * (terms - 1) / 2)

/-- The seek speed chosen at distance `d` after a step of speed `v` (R160). -/
def seekSpeed (a vmax v d : Nat) : Nat :=
  let u := min (v + a) vmax
  if brakeDistance u a ≤ d then u
  else if 0 < v ∧ brakeDistance v a ≤ d then v
  else max (v - a) (min a vmax)

/-- A signed step of `n` upward or downward. -/
def signedStep (up : Bool) (n : Nat) : Int := if up then (n : Int) else -(n : Int)

/-- A channel in SEEKING becomes READY (R161, R159). -/
def becomeReady (c : Chan) (s : State) : State :=
  s.setDrive c { s.drive c with state := .ready, seek := none, follow := .none }

/-- The next step of a seek (R160, R161). -/
def seekStep (c : Chan) (t : Nat) (k : Seek) (s : State) : State :=
  let d := s.drive c
  let dist := (k.target - d.setPoint).natAbs
  let v := seekSpeed (s.setup c).seekRate (s.setup c).vmax k.speed dist
  let x := d.setPoint + signedStep k.up (min v dist)
  match offerCheck d (s.setup c) x with
  | some f => if f.isHard then hardFault c f s else softFault c f s
  | none =>
    let s1 := issueSetPoint c t x (s.setDrive c { d with seek := some { k with speed := v } })
    if (s1.drive c).state = .seeking ∧ x = k.target then checkArmed (becomeReady c s1) else s1

/-! ## Stop (R145, R146) -/

/-- The channel becomes STOPPED, and the station may become HELD or end its unwinding (R145, R132, R118). -/
def finishStop (c : Chan) (s : State) : State := checkRest (s.setDrive c (s.drive c).becomeStopped)

/-- The next step of a stop profile (R145, R146). -/
def stopStep (c : Chan) (t : Nat) (k : Stop) (s : State) : State :=
  let v := k.speed - (s.setup c).stopRate
  if v = 0 then finishStop c s
  else
    let x := k.position + signedStep k.up v
    let s1 := s.setDrive c { s.drive c with stop := some { k with speed := v, position := x } }
    match offerCheck (s1.drive c) (s.setup c) x with
    | some f => if f.isHard then hardFault c f s1 else softFault c f s1
    | none => issueSetPoint c t x s1

/-! ## Play (R4, R170, R189) -/

/-- The follow function g (R168). -/
def followValue (u : Setup) (x : Int) : Int :=
  match u.source with
  | .follow _ _ num den offset => offset + trunc (x * num) den
  | .path => x

/-- What a wheel count gives at the channel's wheel ratio (R188). -/
def wheelValue (u : Setup) (w : Count) : Int := trunc (w.toInt * u.wheelNum) u.wheelDen

/-- The set-point a PLAYING follower's source gives at sub-beat `k` of the frame (R170). -/
def followSetPoint (d : Drive) (n k : Nat) : Int :=
  match d.follow with
  | .pair a b => a + trunc ((b - a) * k) n
  | _ => d.setPoint

/-- A PLAYING channel's set-point `x` of take sub-beat `t` offered and issued (R156 steps 3 to 5, R167). -/
def playSetPoint (c : Chan) (now t : Nat) (x : Int) (s : State) : State :=
  match offerCheck (s.drive c) (s.setup c) x with
  | some f => if f.isHard then hardFault c f s else softFault c f s
  | none => issueSetPoint c now x (s.setDrive c { s.drive c with playedNext := t + 1 })

/-- A record fault found by the evaluation of `t` (R8, R43, R148): recorded and raised, then the set-point of `t` issued,
then the stop profile started. DESIGN CHOICE (log 42): where that set-point also fails an issue check, the record fault's
kind is recorded and raised first and kept, since the spec does not say which of the two is. -/
def playFault (c : Chan) (now t : Nat) (k : FaultKind) (x : Int) (s : State) : State :=
  let s1 := raiseCause .channelFault (some c.val) (some k) (s.setDrive c ((s.drive c).recordKind k))
  let s2 := playSetPoint c now t x s1
  if (s2.drive c).state = .playing then checkRest (s2.setDrive c (s2.drive c).enterStop) else s2

/-- A PATH channel in play at take sub-beat `t` (R4, R6, R8, R24); `first` at the roll pulse. DESIGN CHOICE (log 41): where
the set-point of an END's sub-beat fails an issue check the channel is still PLAYING at the check, so the fault stands
and it does not become DONE; the spec does not say which of the two it is. -/
def playPath (c : Chan) (now t : Nat) (first : Bool) (s : State) : State :=
  let r := playEval (s.evalAt t) first s.cueSet (s.engine c).tail (s.playState c)
  let s1 := s.putPlay c r.1
  let x := r.1.path.setPoint
  match r.2 with
  | .stands => playSetPoint c now t x s1
  | .ends =>
    let s2 := playSetPoint c now t x s1
    if (s2.drive c).state = .playing then becomeDone c s2 else s2
  | .faults k => playFault c now t k x s1

/-- A PLAYING channel at take sub-beat `t`, sub-beat `k` of its frame (R156 step 2). -/
def playBeat (c : Chan) (now t k : Nat) (first : Bool) (s : State) : State :=
  match (s.drive c).source with
  | some .path => playPath c now t first s
  | some .follow => playSetPoint c now t (followSetPoint (s.drive c) s.subBeats k) s
  | some .wheel => playSetPoint c now t ((s.drive c).wheelOffset + wheelValue (s.setup c) (s.drive c).wheel) s
  | none => holdStill c now s

/-! ## A sub-beat at one drive (R155, R156) -/

/-- What the channel's state supplies at a scheduled sub-beat, after the monitor (R155). -/
def stateBeat (c : Chan) (now : Nat) (t : Option Nat) (k : Nat) (first : Bool) (s : State) : State :=
  match (s.drive c).state with
  | .unset => s
  | .faulted => s
  | .parked => holdStill c now s
  | .ready => holdStill c now s
  | .done => holdStill c now s
  | .stopped => holdStill c now s
  | .seeking =>
    match (s.drive c).seek with
    | some x => seekStep c now x s
    | none => holdStill c now s
  | .stopping =>
    match (s.drive c).stop with
    | some x => stopStep c now x s
    | none => s
  | .playing =>
    match t with
    | some t => playBeat c now t k first s
    | none => holdStill c now s

/-- A scheduled sub-beat at channel `c` (R156): nothing for a channel not energized. -/
def driveBeat (now : Nat) (t : Option Nat) (k : Nat) (first : Bool) (c : Chan) (s : State) : State :=
  if s.energized c then stateBeat c now t k first (monitor c s) else s

/-- A free-running sub-beat at channel `c`: it reaches STOPPING channels alone (R71). -/
def driveFreeBeat (now : Nat) (c : Chan) (s : State) : State :=
  if s.energized c ∧ (s.drive c).state = .stopping then stateBeat c now none 0 false (monitor c s) else s

end Sys2Proof.Machine
end

