-- ==== Sys2Proof/Machine/Formats.lean ====
section
/-! DEFINITION. The byte layouts of chapter 13 as the station sends them: codes, little-endian fields, the check, headers,
ring entries, the report, and the forms of an answer. -/

namespace Sys2Proof.Machine

/-! ## Codes (R201, R205, R206, R207) -/

def TakeState.code : TakeState → Nat
  | .safe => 0 | .idle => 1 | .seeking => 2 | .armed => 3 | .countdown => 4 | .rolling => 5 | .finished => 6
  | .stopping => 7 | .held => 8

def ChanState.code : ChanState → Nat
  | .unset => 0 | .parked => 1 | .seeking => 2 | .ready => 3 | .playing => 4 | .done => 5 | .stopping => 6
  | .stopped => 7 | .faulted => 8

def FaultKind.code : FaultKind → Nat
  | .followError => 1 | .limit => 2 | .encoderSkip => 3 | .wireBreak => 4 | .stepBacklog => 5 | .stepLimit => 6
  | .travel => 7 | .ringEmpty => 8 | .pathForm => 9 | .loopDepth => 10 | .stall => 11 | .cueTimeout => 12 | .cueDrop => 13

def Cause.code : Cause → Nat
  | .channelFault => 1 | .memberMissing => 2 | .disagree => 3 | .slip => 4 | .busError => 5 | .frameFault => 6

def Result.code : Result → Nat
  | .accepted => 0 | .clipped => 1 | .busy => 2 | .refusedState => 3 | .refusedRange => 4 | .refusedOwned => 5
  | .refusedHold => 6 | .lineConflict => 7 | .unknownKind => 8 | .noOrigin => 9 | .notRetained => 10 | .ringShort => 11
  | .cueUnresolved => 12 | .leaderAbsent => 13 | .travel => 14 | .channelFaulted => 15 | .takeReused => 16 | .aborted => 17

def ScanCode.code : ScanCode → Nat
  | .none => 0 | .inFlight => 1 | .positioned => 2 | .noOrigin => 3 | .notRetained => 4 | .ringShort => 5
  | .cueUnresolved => 6 | .abandoned => 7 | .discarded => 8

def Profile.code : Profile → Nat
  | .linear => 0 | .ease => 1 | .easeIn => 2 | .easeOut => 3

def OnTimeout.code : OnTimeout → Nat
  | .skip => 0 | .hold => 1

/-- DESIGN CHOICE (log 47): R182 and R207 give no codes for the sampler's mode; the order of R172 is taken. -/
def SamplerMode.code : SamplerMode → Nat
  | .standby => 0 | .sweep => 1 | .single => 2

def LineFunction.code : LineFunction → Nat
  | .step => 0 | .dir => 1 | .enable => 2 | .brake => 3 | .limitPlus => 4 | .limitMinus => 5 | .encA => 6 | .encB => 7
  | .wheelA => 8 | .wheelB => 9

/-! ## Fields -/

/-- A byte with this value modulo 256. -/
def byte (n : Nat) : Byte := BitVec.ofNat 8 n

/-- `n` bytes of a value, least significant first (R201). -/
def leBytes : Nat → Nat → List Byte
  | 0, _ => []
  | n + 1, v => byte v :: leBytes n (v / 256)

/-- The value of bytes, least significant first (R201). -/
def leValue : List Byte → Nat
  | [] => 0
  | b :: bs => b.toNat + 256 * leValue bs

/-- A one-bit field. -/
def bit (b : Bool) : Nat := if b then 1 else 0

/-- A position in 4 bytes, signed (R201). -/
def posBytes (x : Int) : List Byte := leBytes 4 (positionBits x).toNat

/-- A ring position or 0xFFFF for none (R201). -/
def ringPosBytes (p : Option Nat) : List Byte := leBytes 2 (p.getD 0xFFFF)

/-- A take sub-beat or all ones for none (R201). -/
def subBeatBytes (t : Option Nat) : List Byte := leBytes 4 (t.getD 0xFFFFFFFF)

/-- A fault kind or 0 for none (R201). -/
def kindByte (k : Option FaultKind) : Byte := byte ((k.map FaultKind.code).getD 0)

/-- A set of stations as a mask, bit s for station s (R207). -/
def maskValue : List Nat → Nat
  | [] => 0
  | n :: ns => 2 ^ n + maskValue ns

/-- Fields packed from bit 0 upward, each with its width (R205). -/
def packBits : List (Nat × Nat) → Nat
  | [] => 0
  | (w, v) :: fs => v % 2 ^ w + 2 ^ w * packBits fs

/-- Flags in bits, the first in bit 0. -/
def flagBits (bs : List Bool) : Nat := packBits (bs.map fun b => (1, bit b))

/-! ## The check (R203) -/

/-- One bit of the CRC with polynomial 0x1021. -/
def crcBit (crc : BitVec 16) : BitVec 16 := if crc.getMsbD 0 then (crc <<< 1) ^^^ 0x1021#16 else crc <<< 1

/-- One byte of the CRC, most significant bit first. -/
def crcByte (crc : BitVec 16) (b : Byte) : BitVec 16 :=
  let c := crc ^^^ ((b.zeroExtend 16) <<< 8)
  crcBit (crcBit (crcBit (crcBit (crcBit (crcBit (crcBit (crcBit c)))))))

/-- The check over bytes in the order sent, initial value 0xFFFF (R203). -/
def crc16 (bs : List Byte) : BitVec 16 := bs.foldl crcByte 0xFFFF#16

/-- Bytes closed by their check, sent least significant byte first (R203). -/
def withCheck (bs : List Byte) : List Byte := bs ++ leBytes 2 (crc16 bs).toNat

/-! ## Traffic (R202) -/

/-- A traffic message: header, payload, check. A target of none is ALL. -/
def message (kind sender : Nat) (target : Option Nat) (seq : Nat) (payload : List Byte) : List Byte :=
  withCheck ([byte (kind + (if target.isNone then 128 else 0)), byte (sender + 16 * target.getD 0), byte seq,
    byte payload.length] ++ payload)

/-! ## Ring entries (R206) -/

/-- A record's kind code. -/
def Record.code : Record → Nat
  | .none => 0 | .origin _ => 1 | .shape _ _ _ => 2 | .span _ _ => 3 | .dwell _ => 4 | .loopOpen _ => 5 | .loopClose => 6
  | .waitCue _ _ _ => 7 | .emitCue _ => 8 | .pathEnd => 9

/-- A record's fields, before the padding to bytes 2..9. -/
def Record.fieldBytes : Record → List Byte
  | .none => []
  | .origin x => posBytes x
  | .shape p num den => [byte p.code] ++ leBytes 2 num ++ leBytes 2 den
  | .span d l => posBytes d ++ leBytes 2 l
  | .dwell l => leBytes 2 l
  | .loopOpen count => leBytes 2 count
  | .loopClose => []
  | .waitCue cue timeout act => [byte cue] ++ leBytes 2 timeout ++ [byte act.code]
  | .emitCue cue => [byte cue]
  | .pathEnd => []

/-- Bytes padded with zeros to length `n`. -/
def padTo (n : Nat) (bs : List Byte) : List Byte := bs ++ List.replicate (n - bs.length) 0

/-- A stamp's six bytes; no stamp is take id 0 (R206). -/
def stampBytes : Option Stamp → List Byte
  | none => List.replicate 6 0
  | some st => leBytes 2 st.takeId ++ leBytes 3 st.frame ++ leBytes 1 st.sub

/-- The 16 bytes of a ring entry (R206). -/
def Entry.bytes (e : Entry) : List Byte :=
  [byte e.record.code, byte (bit e.report)] ++ padTo 8 e.record.fieldBytes ++ stampBytes e.stamp

/-! ## The report (R205) -/

/-- The cause summary, CHANNEL_FAULT in bit 0. -/
def CauseFlags.value (f : CauseFlags) : Nat :=
  flagBits [f.channelFault, f.memberMissing, f.disagree, f.slip, f.busError, f.frameFault]

/-- A channel's fields of a report. -/
def ChannelReport.fields (c : ChannelReport) : List (Nat × Nat) :=
  [(4, c.state), (1, bit c.ringLow), (11, c.lastReported.getD 2047), (32, (positionBits c.setPoint).toNat)]

/-- The fields of a report before the outcome count. -/
def Report.leading (r : Report) : List (Nat × Nat) :=
  [(4, r.station), (4, r.takeState), (8, r.tag), (16, r.takeId), (24, r.frame), (6, r.causes.value),
    (1, bit r.holdPulled), (1, bit r.captureGap), (1, bit r.duplicateFree), (1, bit r.overflow)]

/-- The fields of a report after the outcomes. DEDUCED (log 52): R205's rows "per channel" are read channel by channel, all
four fields of channel 0 first; they also admit row by row. -/
def Report.trailing (r : Report) : List (Nat × Nat) := (r.channels.toList.map ChannelReport.fields).flatten

/-- An outcome's fields. -/
def OutcomeEntry.fields (o : OutcomeEntry) : List (Nat × Nat) := [(4, o.station), (5, o.result.code), (8, o.seq)]

/-- The outcome places, 17 bits each, those beyond the count zero. -/
def outcomeFields (os : List OutcomeEntry) : List (Nat × Nat) :=
  ((os.take 4).map OutcomeEntry.fields).flatten ++ List.replicate (4 - os.length) (17, 0)

/-- The 45 bytes of a report (R205). DEDUCED (log 49): the check covers the kind byte, one of "every byte of the message
before the check" (R203). -/
def FullReport.bytes (r : FullReport) : List Byte :=
  withCheck (byte 0x30 ::
    leBytes 42 (packBits (r.body.leading ++ [(3, r.outcomes.length)] ++ outcomeFields r.outcomes ++ r.body.trailing)))

/-- The kept report in a roster answer: the report's packing without outcome count and outcomes, 33 bytes (R207); of none,
zeros (log 22). -/
def keptBytes : Option Report → List Byte
  | some r => leBytes 33 (packBits (r.leading ++ r.trailing))
  | none => List.replicate 33 0

/-! ## Answers (R207) -/

/-- The 21 bytes of a scan result. -/
def ScanResult.bytes (r : ScanResult) : List Byte :=
  [byte r.code.code] ++ leBytes 2 r.takeId ++ leBytes 3 r.s ++ subBeatBytes r.start ++ ringPosBytes r.stopPos ++
    subBeatBytes r.stopSub ++ [kindByte r.kind] ++ (match r.target with | some x => posBytes x | none => leBytes 4 0)

/-- The four loop places of a checkpoint, newest first; empty places zero (log 22). -/
def loopBytes (stack : List Loop) : List Byte :=
  padTo 16 ((stack.map fun l => leBytes 2 l.openAt ++ leBytes 2 l.remaining).flatten)

/-- The 33 bytes of a checkpoint. -/
def Checkpoint.bytes (q : Checkpoint) : List Byte :=
  leBytes 4 q.t0 ++ leBytes 2 q.pos ++ posBytes q.setPoint ++ [byte (packBits [(2, q.shape.profile.code), (3, q.stack.length)])]
    ++ leBytes 2 q.shape.num ++ leBytes 2 q.shape.den ++ loopBytes q.stack ++ ringPosBytes q.lastReported

/-- The 18 bytes of a round summary: its fields in the order of R100 (the places are log 22). -/
def Summary.bytes (m : Summary) : List Byte :=
  leBytes 1 m.tag ++ leBytes 1 m.takeState.code ++ leBytes 2 m.takeId ++ leBytes 2 (maskValue m.mask) ++
    leBytes 2 (maskValue m.reported) ++ leBytes 2 (maskValue m.present) ++ leBytes 2 (maskValue m.missing) ++
    leBytes 2 (maskValue m.disagreeing) ++ leBytes 2 (maskValue m.slipping) ++
    leBytes 2 (flagBits [m.rollReady, m.allFinished, m.causes.contains .memberMissing, m.causes.contains .disagree,
      m.causes.contains .slip, m.current])

/-- A plain setting with the line's effective direction, driven level and input level (R207). -/
def LineView.bytes (v : LineView) : List Byte :=
  [byte (flagBits [v.plain.output, v.plain.high, v.plain.pullUp, v.plain.inputEnable, v.output, v.driven, v.input]),
   byte (match v.owner with
     | .none => 0xFF
     | .tally => 0x40
     | .function c f => 16 * c.val + f.code)]

/-- A channel's 9 bytes of a lines answer (the bit places are log 22). -/
def LineChannelView.bytes (v : LineChannelView) : List Byte :=
  [byte (flagBits [v.configured, v.limitPlusLevel, v.limitPlusActive, v.limitMinusLevel, v.limitMinusActive])] ++
    leBytes 4 v.encoder.toNat ++ leBytes 4 v.wheel.toNat

/-- N as the two strap bits ST5 ST4 (R194). -/
def strapCode (n : Nat) : Nat := if n = 8 then 0 else if n = 16 then 1 else if n = 32 then 2 else 3

/-- A capture entry's 14 bytes (R206). -/
def CaptureEntry.bytes (e : CaptureEntry) : List Byte :=
  leBytes 2 e.takeId ++ leBytes 3 e.tf ++ [byte (packBits [(2, e.channel), (1, bit e.feedback.isNone)])] ++
    posBytes e.setPoint ++ (match e.feedback with | some x => posBytes x | none => leBytes 4 0)

/-- A channel's 10 bytes of a hold-cause answer. -/
def HoldView.bytes (v : HoldView) : List Byte :=
  [byte v.state.code, kindByte v.kind] ++ subBeatBytes v.holdPoint ++ posBytes v.setPoint

/-- The payload of an ANSWER: form code and body (R207). DESIGN CHOICE (log 48): a first-gap frame of none is sent as 0,
since R201 gives no code for it. DESIGN CHOICE (log 53): the entry flags of the roster answer are present, round mark, and
"a report is kept", bit 0 first, since R207 names none. -/
def AnswerBody.payload : AnswerBody → List Byte
  | .ring rel head tail start es =>
    [byte 1] ++ leBytes 2 rel ++ leBytes 2 head ++ leBytes 2 tail ++ leBytes 2 start ++ [byte es.length] ++
      (es.map Entry.bytes).flatten
  | .checkpoints count scan es => [byte 2, byte count] ++ scan.bytes ++ (es.map Checkpoint.bytes).flatten
  | .roster e m =>
    [byte 3, byte (flagBits [e.present, e.mark, e.report.isSome]), byte e.missed, byte e.receivedTag] ++
      keptBytes e.report ++ m.bytes
  | .holdCauses r st id tf hold cs =>
    [byte 4, byte r.flags.value, byte ((r.first.map Cause.code).getD 0)] ++ subBeatBytes r.sub ++
      [byte (r.concerned.getD 0xFF), kindByte r.kind, byte st.code] ++ leBytes 2 id ++ leBytes 3 tf ++ [byte (bit hold)] ++
      (cs.toList.map HoldView.bytes).flatten
  | .cueBoard es => [byte 5] ++ leBytes 8 (flagBits (es.map CueEntry.isSet)) ++ es.map fun e => byte e.tag
  | .lines ls cs hold station n =>
    [byte 6] ++ (ls.map LineView.bytes).flatten ++ (cs.toList.map LineChannelView.bytes).flatten ++
      [byte (packBits [(1, bit hold), (4, station), (2, strapCode n)])]
  | .sampler mode inFlight pending slots breaks enables overrun =>
    [byte 7, byte mode.code, byte (inFlight.getD 0xFF), byte (bit pending)] ++
      ((slots.zip (breaks.zip enables)).map fun x =>
        leBytes 2 (packBits [(12, x.1.result), (1, bit x.1.isVoid), (1, bit x.2.1), (1, bit x.2.2)])).flatten ++
      [byte (bit overrun)]
  | .fetch es left gap first =>
    [byte 8, byte (packBits [(3, es.length), (1, bit gap), (2, left / 256)]), byte left] ++ leBytes 3 (first.getD 0) ++
      (es.map CaptureEntry.bytes).flatten
  | .sample input result broke => [byte 9, byte input] ++ leBytes 2 result ++ [byte (bit broke)]

end Sys2Proof.Machine
end

