-- ==== Sys2Proof/Machine/Flags.lean ====
section
/-! DEFINITION. The flags and fields a report and the lines show, computed from the state: RING_LOW (R41), the report of a
frame (R81), the owners and effective settings of the lines (R190 to R192). -/

namespace Sys2Proof.Machine

/-! ## The report (R41, R81) -/

/-- The loaded count of a channel (R26). -/
def Engine.loaded (e : Engine) : Nat := ringDistance e.path.head e.tail

/-- The channel's RING_LOW flag (R41). -/
def State.ringLow (s : State) (c : Chan) : Bool :=
  (decide ((s.drive c).state = .seeking) || decide ((s.drive c).state = .ready) || decide ((s.drive c).state = .playing)) &&
    decide ((s.drive c).source = some .path) && decide ((s.engine c).loaded ≤ (s.setup c).lowMark)

/-- The take frame field of a report (R81). -/
def State.frameField (s : State) : Nat :=
  match s.take.state with
  | .countdown => s.take.remaining
  | .seeking | .armed => s.take.s
  | .rolling | .finished | .stopping | .held => s.take.tf
  | .safe | .idle => 0

/-- A channel's part of a report (R81). -/
def State.channelReport (s : State) (c : Chan) : ChannelReport :=
  { state := (s.drive c).state.code, ringLow := s.ringLow c, lastReported := (s.engine c).path.lastReported,
    setPoint := (s.drive c).setPoint }

/-- The report of the frame, as it stands (R81). -/
def State.report (s : State) : FullReport :=
  { body := { station := s.station, takeState := s.take.state.code, tag := s.timer.tag, takeId := s.take.id,
              frame := s.frameField, causes := s.holds.flags, holdPulled := s.pullsHold, captureGap := s.log.gap,
              duplicateFree := s.port.duplicateFree, overflow := s.port.overflow, channels := Quad.ofFn s.channelReport },
    outcomes := s.port.outcomes }

/-! ## Lines (R190 to R193) -/

/-- The functions a channel may place on lines, with the line each is on. -/
def LineAssignment.pairs (l : LineAssignment) : List (LineFunction × Option Nat) :=
  [(.step, l.step), (.dir, l.dir), (.enable, l.enable), (.brake, l.brake), (.limitPlus, l.limitPlus),
    (.limitMinus, l.limitMinus), (.encA, l.encA), (.encB, l.encB), (.wheelA, l.wheelA), (.wheelB, l.wheelB)]

/-- The lines an assignment uses, in the order of the functions. -/
def LineAssignment.used (l : LineAssignment) : List Nat := l.pairs.filterMap fun x => x.2

/-- The channel function of channel `c` on line `i`, if there is one. -/
def State.functionOn (s : State) (i : Nat) (c : Chan) : Option LineFunction :=
  if (s.chan c).configured then ((s.setup c).lines.pairs.find? fun x => decide (x.2 = some i)).map fun x => x.1 else none

/-- The owner of line `i` (R190). -/
def State.lineOwner (s : State) (i : Nat) : Owner :=
  if s.lines.tally = some i then .tally
  else match allChannels.findSome? fun c => (s.functionOn i c).map fun f => (c, f) with
    | some (c, f) => .function c f
    | none => .none

/-- Line `i`'s plain setting. -/
def State.plainOf (s : State) (i : Nat) : Plain := s.lines.plain.getD i Plain.reset

/-- STEP is high for the length of a pulse, and low in SAFE (R158, R191, R192). -/
def State.stepHigh (s : State) (c : Chan) : Bool :=
  decide (s.take.state ≠ .safe) &&
    (match (s.drive c).lastPulse with
     | some b => decide (b ≤ s.clock) && decide (s.clock < b + Config.pulseHigh)
     | none => false)

/-- The level channel `c` supplies for an output function; none for an input function (R191, R192). -/
def State.functionLevel (s : State) (c : Chan) (f : LineFunction) : Option Bool :=
  match f with
  | .step => some (s.stepHigh c)
  | .dir => some ((s.drive c).dirAt s.clock)
  | .enable => some (if s.energized c then (s.setup c).enableHigh else !(s.setup c).enableHigh)
  | .brake => some (if s.energized c then !(s.setup c).brakeHigh else (s.setup c).brakeHigh)
  | .limitPlus | .limitMinus | .encA | .encB | .wheelA | .wheelB => none

/-- The effective setting of line `i` (R190 to R192): its plain setting with its owner's overrides; an output has no pull. -/
def State.effective (s : State) (i : Nat) : Plain :=
  let p := s.plainOf i
  match s.lineOwner i with
  | .none => { p with pullUp := p.pullUp && !p.output }
  | .tally => { p with output := true, high := decide (s.take.state = .rolling), pullUp := false }
  | .function c f =>
    match s.functionLevel c f with
    | some v => { p with output := true, high := v, pullUp := false }
    | none => { p with output := false, inputEnable := true }

/-- The level line `i` drives when an output; low for an input. -/
def State.drivenLevel (s : State) (i : Nat) : Bool := (s.effective i).output && (s.effective i).high

/-- The level of the pin of an input line `i` (R190): the outside's where it drives the pin, else the pull-up's, else what
the pin reads without either (log 6). -/
def State.pinLevel (s : State) (i : Nat) : Bool :=
  (!s.lines.pins.driven.getLsbD i && (s.effective i).pullUp) || s.lines.pins.level.getLsbD i

/-- The synchronized input level of line `i` (R190): low with input enable off, its own level when an output, else that
of its pin. -/
def State.inputLevel (s : State) (i : Nat) : Bool :=
  if !(s.effective i).inputEnable then false
  else if (s.effective i).output then (s.effective i).high
  else s.pinLevel i

/-- The synchronized level of an assigned line; low for none. -/
def State.assignedLevel (s : State) (l : Option Nat) : Bool :=
  match l with
  | some i => s.inputLevel i
  | none => false

/-- Line `i` as a lines answer shows it (R200). -/
def State.lineView (s : State) (i : Nat) : LineView :=
  { plain := s.plainOf i, owner := s.lineOwner i, output := (s.effective i).output, driven := s.drivenLevel i,
    input := s.inputLevel i }

/-- The filtered level of a limit input that is `active` or not (R193). -/
def limitLevel (u : Setup) (active : Bool) : Bool := if active then u.limitHigh else !u.limitHigh

/-- Channel `c` as a lines answer shows it (R200). -/
def State.lineChannelView (s : State) (c : Chan) : LineChannelView :=
  { configured := (s.chan c).configured,
    limitPlusLevel := limitLevel (s.setup c) (s.drive c).limitPlus, limitPlusActive := (s.drive c).limitPlus,
    limitMinusLevel := limitLevel (s.setup c) (s.drive c).limitMinus, limitMinusActive := (s.drive c).limitMinus,
    encoder := (s.drive c).encoder, wheel := (s.drive c).wheel }

end Sys2Proof.Machine
end

