-- ==== Sys2Proof/Machine/Motion.lean ====
section
/-! DEFINITION. The commands of a Channel Drive and its inputs (chapter 9, R193): the end of a stop, the following error, step
pulses, limit inputs, encoder and wheel. -/

namespace Sys2Proof.Machine

/-- STOPPED (R145): a stop profile whose speed has reached 0 ends. -/
def execStopped (c : Chan) (s : State) : Host.Outcome State Fault Refusal :=
  match (s.drive c).state, (s.drive c).stop with
  | .stopping, some k => .next (if k.speed = 0 then finishStop c s else s)
  | _, _ => .next s

/-- FOLLOW_ERROR (R164): a following-error count of 2 on an energized channel. -/
def execFollowError (c : Chan) (s : State) : Host.Outcome State Fault Refusal := .next (faultOnFollow c s)

/-! ## Step pulses (R158) -/

/-- The next scheduled pulse sent (R158): the step position moves by 1 toward the set-point. DIR was set at the issue. -/
def Drive.pulse (p : PulsePlan) (d : Drive) : Drive :=
  { d with stepPos := if 0 < d.backlog then d.stepPos + 1 else d.stepPos - 1, lastPulse := some p.next,
           pulses := if p.sent + 1 < p.count then some { p with sent := p.sent + 1 } else none }

/-- STEP_PULSE (R158): an energized channel with a pulse scheduled and a backlog sends it. -/
def execStepPulse (c : Chan) (s : State) : Host.Outcome State Fault Refusal :=
  match (s.drive c).pulses with
  | some p =>
    .next (if s.energized c ∧ (s.drive c).backlog ≠ 0 then (s.setDrive c ((s.drive c).pulse p)).atTime p.next else s)
  | none => .next s

/-! ## Limit inputs (R165, R193) -/

/-- The line of channel `c`'s LIMIT+ or LIMIT−. -/
def State.limitLine (s : State) (c : Chan) (plus : Bool) : Option Nat :=
  if plus then (s.setup c).lines.limitPlus else (s.setup c).lines.limitMinus

/-- The filtered LIMIT+ or LIMIT− of a drive. -/
def Drive.limit (d : Drive) (plus : Bool) : Bool := if plus then d.limitPlus else d.limitMinus

/-- The filtered LIMIT+ or LIMIT− set. -/
def Drive.setLimit (plus v : Bool) (d : Drive) : Drive := if plus then { d with limitPlus := v } else { d with limitMinus := v }

/-- The samples change the filtered limit input to `active` (R193): the limit has a line, stands the other way, and 8 samples
show the level. -/
def State.limitChanges (s : State) (c : Chan) (plus active : Bool) (samples : List Bool) : Bool :=
  (s.chan c).configured && (s.limitLine c plus).isSome && ((s.drive c).limit plus != active) &&
    settlesTo 8 (limitLevel (s.setup c) active) samples

/-- LIMIT_ACTIVE (R165): hard fault LIMIT on an energized channel. -/
def execLimitActive (time : Nat) (c : Chan) (plus : Bool) (samples : List Bool) (s : State) :
    Host.Outcome State Fault Refusal :=
  .next (if s.limitChanges c plus true samples then
      let s1 := s.atTime time
      hardFault c .limit (s1.setDrive c ((s1.drive c).setLimit plus true))
    else s)

/-- LIMIT_INACTIVE (R165). -/
def execLimitInactive (time : Nat) (c : Chan) (plus : Bool) (samples : List Bool) (s : State) :
    Host.Outcome State Fault Refusal :=
  .next (if s.limitChanges c plus false samples then
      let s1 := s.atTime time
      s1.setDrive c ((s1.drive c).setLimit plus false)
    else s)

/-! ## Encoder and wheel (R162) -/

/-- The place of a pair (A, B) in the sequence 00, 10, 11, 01 (R162). -/
def pairPlace : Bool × Bool → Nat
  | (false, false) => 0
  | (true, false) => 1
  | (true, true) => 2
  | (false, true) => 3

/-- The count after the filtered pair changes (R162): forward, backward, or unchanged. -/
def countPair (old new : Bool × Bool) (n : Count) : Count :=
  match (pairPlace new + 4 - pairPlace old) % 4 with
  | 1 => n + 1
  | 3 => n - 1
  | _ => n

/-- Both lines of the pair change (R162). -/
def skips (old new : Bool × Bool) : Bool := decide ((pairPlace new + 4 - pairPlace old) % 4 = 2)

/-- The filtered pair after two successive samples (R193). -/
def filterPair (old first second : Bool × Bool) : Bool × Bool :=
  (filterTwo old.1 first.1 second.1, filterTwo old.2 first.2 second.2)

/-- ENCODER_CHANGE (R162): the count follows assigned encoder lines; a skip faults an energized channel. -/
def execEncoderChange (time : Nat) (c : Chan) (first second : Bool × Bool) (s : State) :
    Host.Outcome State Fault Refusal :=
  .next (if (s.chan c).configured ∧ (s.setup c).lines.encA.isSome ∧ (s.setup c).lines.encB.isSome then
      let s1 := s.atTime time
      let old := (s.drive c).encPair
      let new := filterPair old first second
      let s2 := s1.setDrive c { s1.drive c with encPair := new, encoder := countPair old new (s.drive c).encoder }
      if skips old new then hardFault c .encoderSkip s2 else s2
    else s)

/-- WHEEL_CHANGE (R162): the wheel count follows assigned wheel lines, with no fault. -/
def execWheelChange (time : Nat) (c : Chan) (first second : Bool × Bool) (s : State) :
    Host.Outcome State Fault Refusal :=
  .next (if (s.chan c).configured ∧ (s.setup c).lines.wheelA.isSome ∧ (s.setup c).lines.wheelB.isSome then
      let s1 := s.atTime time
      let old := (s.drive c).wheelPair
      let new := filterPair old first second
      s1.setDrive c { s1.drive c with wheelPair := new, wheel := countPair old new (s.drive c).wheel }
    else s)

end Sys2Proof.Machine
end

