-- ==== Sys2Proof/Machine/Path.lean ====
section
/-! DEFINITION. The record commands (chapter 1): each is one step of the evaluation that a sub-beat makes (log 3), taken when
the engine stands before it and changing nothing otherwise (log 2). -/

namespace Sys2Proof.Machine

/-- The record at head of channel `c` taken, when it satisfies `p` and the engine stands needing it. -/
def takeWhen (p : Record → Bool) (c : Chan) (s : State) : State := if s.standsOn c p then takeOne c s else s

/-- ORIGIN reached while evaluating (R14): PATH_FORM. -/
def execOriginRecord (c : Chan) (s : State) : Host.Outcome State Fault Refusal :=
  .next (takeWhen (fun | .origin _ => true | _ => false) c s)

/-- SHAPE taken (R13). -/
def execShapeRecord (c : Chan) (s : State) : Host.Outcome State Fault Refusal :=
  .next (takeWhen (fun | .shape _ _ _ => true | _ => false) c s)

/-- SPAN taken (R9). -/
def execSpanRecord (c : Chan) (s : State) : Host.Outcome State Fault Refusal :=
  .next (takeWhen (fun | .span _ _ => true | _ => false) c s)

/-- DWELL taken (R11). -/
def execDwellRecord (c : Chan) (s : State) : Host.Outcome State Fault Refusal :=
  .next (takeWhen (fun | .dwell _ => true | _ => false) c s)

/-- LOOP_OPEN taken (R15). -/
def execLoopOpenRecord (c : Chan) (s : State) : Host.Outcome State Fault Refusal :=
  .next (takeWhen (fun | .loopOpen _ => true | _ => false) c s)

/-- LOOP_CLOSE taken (R16). -/
def execLoopCloseRecord (c : Chan) (s : State) : Host.Outcome State Fault Refusal :=
  .next (takeWhen (fun | .loopClose => true | _ => false) c s)

/-- WAIT_CUE taken (R19). -/
def execWaitCueRecord (c : Chan) (s : State) : Host.Outcome State Fault Refusal :=
  .next (takeWhen (fun | .waitCue _ _ _ => true | _ => false) c s)

/-- EMIT_CUE taken (R22). -/
def execEmitCueRecord (c : Chan) (s : State) : Host.Outcome State Fault Refusal :=
  .next (takeWhen (fun | .emitCue _ => true | _ => false) c s)

/-- END taken (R24). -/
def execEndRecord (c : Chan) (s : State) : Host.Outcome State Fault Refusal :=
  .next (takeWhen (fun | .pathEnd => true | _ => false) c s)

/-- NONE reached (R8): PATH_FORM. -/
def execNoneRecord (c : Chan) (s : State) : Host.Outcome State Fault Refusal :=
  .next (takeWhen (fun | .none => true | _ => false) c s)

/-- The engine of channel `c` stands before a record that the zero-time limit turns away (R7). -/
def State.stalls (s : State) (c : Chan) : Bool :=
  s.needsRecord c && decide ((s.engine c).path.head ≠ (s.engine c).tail) &&
    decide ((s.headTaken c).taking = .faults .stall)

/-- STALL (R7). -/
def execStall (c : Chan) (s : State) : Host.Outcome State Fault Refusal :=
  .next (if s.stalls c then takeOne c s else s)

/-- RECORD_COMPLETE (R6): the SPAN or DWELL standing at offset K completes, and the engine goes on. -/
def execRecordComplete (c : Chan) (s : State) : Host.Outcome State Fault Refusal :=
  match (s.engine c).path.completing with
  | some pos => .next (if s.playsPath c then completeAndGoOn c pos none s else s)
  | none => .next s

/-- The wait in progress of channel `c`, with its ring position, when the channel plays its path: its stamp of the current
take, cue, expiry and on-timeout action. -/
def State.waitStanding (s : State) (c : Chan) : Option (Nat × Option Stamp × Nat × Option Nat × OnTimeout) :=
  match (s.engine c).path.progress with
  | some (.wait pos _ cue expiry act) =>
    if s.playsPath c then some (pos, (ringGet (s.engine c).ring pos).currentStamp s.take.id, cue, expiry, act) else none
  | _ => none

/-- WAIT_STAMP_PASS (R19): a stamped wait at or past its stamp passes. -/
def execWaitStampPass (c : Chan) (s : State) : Host.Outcome State Fault Refusal :=
  match s.waitStanding c with
  | some (pos, some st, _, _, _) =>
    .next (if st.subBeat s.subBeats ≤ (s.engine c).path.latest then completeAndGoOn c pos none s else s)
  | _ => .next s

/-- An expired unstamped wait at `pos` (R21): the cue first, then SKIP or HOLD. -/
def expireWait (c : Chan) (pos cue : Nat) (act : OnTimeout) (s : State) : State :=
  if s.cueSet cue then completeAndGoOn c pos (some cue) s
  else match act with
    | .skip => completeAndGoOn c pos none s
    | .hold => softFault c .cueTimeout s

/-- WAIT_EXPIRY (R21). -/
def execWaitExpiry (c : Chan) (s : State) : Host.Outcome State Fault Refusal :=
  match s.waitStanding c with
  | some (pos, none, cue, some x, act) =>
    .next (if x ≤ (s.engine c).path.latest then expireWait c pos cue act s else s)
  | _ => .next s

end Sys2Proof.Machine
end

