-- ==== Sys2Proof/Machine/Beat.lean ====
section
/-! DEFINITION. What a sub-beat does in the whole station (R69, R71, R73, R156), the Cue Board at pulses and sub-beats
(R18, R20), and the Capture Log at a pulse (R184, R185). Microsecond times are those of the Frame Timer. -/

namespace Sys2Proof.Machine

/-! ## The Cue Board (R18, R20) -/

/-- The entry of cue `q` set with tag `g`; one already set keeps its tag (R18). -/
def latchCue (g : Nat) (es : List CueEntry) (q : Nat) : List CueEntry :=
  if (es.getD q { isSet := true, tag := 0 }).isSet then es else es.set q { isSet := true, tag := g }

/-- At an accepted pulse the board sets the entries of the pending set and empties it (R18). -/
def latchPending (g : Nat) (s : State) : State :=
  { s with board := { s.board with entries := s.board.pending.foldl (latchCue g) s.board.entries, pending := [] } }

/-- The entry of cue `q` cleared: its set flag alone (R20). -/
def clearCue (es : List CueEntry) (q : Nat) : List CueEntry :=
  es.set q { es.getD q { isSet := false, tag := 0 } with isSet := false }

/-- At the end of a sub-beat the entries that waits passed at are consumed (R20). -/
def consumeCues (s : State) : State :=
  { s with board := { s.board with entries := s.board.consumed.foldl clearCue s.board.entries, consumed := [] } }

/-- The board cleared: 64 entries clear with tag 0, the pending set empty (R18). -/
def clearBoard (s : State) : State := { s with board := CueBoard.reset }

/-- Cue numbers join the pending set; one above 63 is ignored, one already there is not added twice (R90, R18). -/
def pendCues (cues : List Nat) (s : State) : State :=
  { s with board := { s.board with pending := (cues.filter (· < 64)).foldl addCue s.board.pending } }

/-! ## Sub-beats -/

/-- The take sub-beat that scheduled sub-beat `k` carries (R73): in ROLLING, FINISHED and STOPPING, and in HELD for what is
left of the frame that began at take frame TF (log 12). -/
def State.takeSubBeat (s : State) (k : Nat) : Option Nat :=
  match s.take.state with
  | .rolling | .finished | .stopping => some (s.take.tf * s.subBeats + k)
  | .held => if s.take.inTakeFrame then some (s.take.tf * s.subBeats + k) else none
  | .safe | .idle | .seeking | .armed | .countdown => none

/-- A take sub-beat becomes the latest issued in the take (R138). -/
def noteTakeSubBeat (t : Option Nat) (s : State) : State :=
  match t with
  | some x => { s with take := { s.take with latest := some x } }
  | none => s

/-- Scheduled sub-beat `k` issued at microsecond `e` carrying take sub-beat `t` (R69, R156, log 11): the drives and their
engines in channel order, the cues consumed, FINISHED judged, the sampler triggered. -/
def issueBeat (e k : Nat) (t : Option Nat) (first : Bool) (s : State) : State :=
  let s1 := consumeCues (noteTakeSubBeat t { s with timer := { s.timer with latest := some e } })
  let s2 := eachChannel (driveBeat (e * Config.tick) t k first) s1
  samplerTrigger (e * Config.tick) (checkFinished (consumeCues s2))

/-- A free-running sub-beat issued at microsecond `e` (R71). -/
def issueFreeBeat (e : Nat) (s : State) : State :=
  samplerTrigger (e * Config.tick)
    (eachChannel (driveFreeBeat (e * Config.tick)) { s with timer := { s.timer with latest := some e } })

/-- The catch-up sub-beats: those of the schedule not yet issued, at microsecond `e` (R69). -/
def catchUp (e : Nat) (s : State) : State :=
  match s.timer.schedule with
  | some (k, _) =>
    let s1 := (List.range' k (s.subBeats - k)).foldl (fun s j => issueBeat e j (s.takeSubBeat j) false s) s
    { s1 with timer := { s1.timer with schedule := none } }
  | none => s

/-! ## The Capture Log (R184, R185) -/

/-- An entry offered to the log (R185). -/
def offerCapture (x : CaptureEntry) (l : CaptureLog) : CaptureLog :=
  if l.entries.length < Config.logLimit then { l with entries := l.entries ++ [x] }
  else if l.gap then l
  else { l with gap := true, firstGap := some x.tf }

/-- The channel gives a capture entry (R184). -/
def State.captures (s : State) (c : Chan) : Bool :=
  (s.chan c).configured && (s.setup c).capture && decide ((s.drive c).state ≠ .unset)

/-- Channel `c`'s capture entry as it stands (R183). -/
def State.captureEntry (s : State) (c : Chan) : CaptureEntry :=
  { takeId := s.take.id, tf := s.take.tf, channel := c.val, setPoint := (s.drive c).setPoint, feedback := s.feedback c }

/-- A capturing pulse: in ROLLING or FINISHED every flagged channel offers one entry, in channel order (R184). -/
def capturePulse (s : State) : State :=
  if s.take.state = .rolling ∨ s.take.state = .finished then
    eachChannel (fun c s => if s.captures c then { s with log := offerCapture (s.captureEntry c) s.log } else s) s
  else s

end Sys2Proof.Machine
end

