-- ==== Sys2Proof/WellFormed.lean ====
section
/-! DEFINITION. When a command is well formed: its operands are ones the event or message of its row can have. An ill-formed
command is none of the row's events; the machine leaves the state as it is on one (log 2). -/

namespace Sys2Proof

/-- The kind code of received bytes: bits 0..6 of byte 0 (R202); none for no bytes. -/
def Activity.kind? (a : Activity) : Option Nat := (a.bytes.head?).map fun b => b.toNat % 128

/-- The received message bears kind code `k` and ends no earlier than it began. -/
def Activity.bears (a : Activity) (k : Nat) : Bool := a.kind? == some k && decide (a.began ≤ a.ended)

/-- The byte after the header: the region of a QUERY (R207). -/
def Activity.region? (a : Activity) : Option Nat :=
  if a.bytes.length ≤ 6 then none else (a.bytes[4]?).map BitVec.toNat

/-- The kind codes of R202, the report's among them. -/
def knownKinds : List Nat :=
  [0x01, 0x02, 0x03, 0x04, 0x08, 0x09, 0x0A, 0x0B, 0x10, 0x11, 0x12, 0x13, 0x18, 0x20, 0x21, 0x22, 0x23, 0x30]

/-- A filter can be settled by these samples: there are at least `n` (R193). -/
def enoughSamples (n : Nat) (samples : List Bool) : Bool := decide (n ≤ samples.length)

/-- Well-formed commands. -/
def Instr.wellFormed : Instr → Bool
  | .reset _ _ => true
  | .frameEdge _ b a => !b && a
  | .rollPulse _ b a => !b && a
  | .lastTakeFrame _ b a => !b && a
  | .lostFrameExpiry => true
  | .subBeat => true
  | .freeSubBeat => true
  | .stopped _ => true
  | .recordComplete _ => true
  | .originRecord _ => true
  | .shapeRecord _ => true
  | .spanRecord _ => true
  | .dwellRecord _ => true
  | .loopOpenRecord _ => true
  | .loopCloseRecord _ => true
  | .waitCueRecord _ => true
  | .emitCueRecord _ => true
  | .endRecord _ => true
  | .noneRecord _ => true
  | .stall _ => true
  | .waitStampPass _ => true
  | .waitExpiry _ => true
  | .followError _ => true
  | .followerDone _ b a _ => !b && a
  | .stepPulse _ => true
  | .reportSlot => true
  | .reportSent _ => true
  | .reportArrival a => decide (a.began ≤ a.ended)
  | .roundClose => true
  | .joined => true
  | .entryAbsent n => decide (n < 16)
  | .turnStart => true
  | .messageSent => true
  | .busError a => decide (a.began ≤ a.ended)
  | .setupLines a => a.bears 0x01
  | .setupChannel a _ => a.bears 0x02
  | .enlist a => a.bears 0x03
  | .dismiss a => a.bears 0x04
  | .load a => a.bears 0x08
  | .advance a => a.bears 0x09
  | .release a => a.bears 0x0A
  | .clearRing a => a.bears 0x0B
  | .arm a => a.bears 0x10
  | .roll a => a.bears 0x11
  | .disband a => a.bears 0x12
  | .clear a => a.bears 0x13
  | .cue a => a.bears 0x18
  | .queryRing a => a.bears 0x20 && a.region? == some 1
  | .queryCheckpoints a => a.bears 0x20 && a.region? == some 2
  | .queryRoster a => a.bears 0x20 && a.region? == some 3
  | .queryHoldCauses a => a.bears 0x20 && a.region? == some 4
  | .queryCueBoard a => a.bears 0x20 && a.region? == some 5
  | .queryLines a _ => a.bears 0x20 && a.region? == some 6
  | .querySampler a => a.bears 0x20 && a.region? == some 7
  | .fetch a => a.bears 0x22
  | .sample a => a.bears 0x23
  | .answer a => a.bears 0x21
  | .unknownKind a => decide (a.began ≤ a.ended) && (a.kind?.any fun k => !knownKinds.contains k)
  | .scanComplete _ => true
  | .scanRefusal _ => true
  | .holdFall _ ss => enoughSamples 2 ss
  | .holdRise _ ss => enoughSamples 2 ss
  | .limitActive _ _ _ ss => enoughSamples 8 ss
  | .encoderChange _ _ _ _ => true
  | .wheelChange _ _ _ _ => true
  | .wakeEnd => true
  | .conversionComplete r => decide (r < 4096)
  | .limitInactive _ _ _ ss => enoughSamples 8 ss
  | .queryNoKnownRegion a => a.bears 0x20 && !(a.region?.any fun r => decide (1 ≤ r ∧ r ≤ 7))

end Sys2Proof
end

