-- ==== Sys2Proof/Machine/Operands.lean ====
section
/-! DEFINITION. Reading what arrives (chapter 13): the header and check of a message, the payload of every kind, and the
report. A payload whose length does not match its form reads as none (R201). -/

namespace Sys2Proof.Machine

/-- A field's bytes `at`..`at + n − 1`, as a value (R201). -/
def field (bs : List Byte) (start n : Nat) : Nat := leValue ((bs.drop start).take n)

/-- A signed 4-byte field (R201). -/
def signedField (bs : List Byte) (start : Nat) : Int := (BitVec.ofNat 32 (field bs start 4)).toInt

/-- A traffic message as routed: sender, target (none is ALL), seq, payload. -/
structure Arrival where
  sender : Nat
  target : Option Nat
  seq : Nat
  payload : List Byte
  time : Nat
deriving DecidableEq, Repr

/-- The closing check agrees with the bytes before it (R203). -/
def checkPasses (bs : List Byte) : Bool :=
  decide (2 ≤ bs.length) && decide ((crc16 (bs.take (bs.length - 2))).toNat = leValue (bs.drop (bs.length - 2)))

/-- The length test of R82: the length field agrees, and the message is at most 96 bytes. -/
def lengthPasses (bs : List Byte) : Bool :=
  decide (6 ≤ bs.length) && decide (bs.length ≤ 96) && decide (field bs 3 1 + 6 = bs.length)

/-- The sender a message names (R202). -/
def senderOf (bs : List Byte) : Nat := field bs 1 1 % 16

/-- The arrival that received bytes make (R202). -/
def arrivalOf (a : Activity) : Arrival :=
  { sender := senderOf a.bytes,
    target := if field a.bytes 0 1 < 128 then some (field a.bytes 1 1 / 16) else none,
    seq := field a.bytes 2 1,
    payload := (a.bytes.drop 4).take (a.bytes.length - 6),
    time := a.ended }

/-- A set of stations from a 16-bit mask (R207). -/
def maskSet (v : Nat) : List Nat := stationsWhere fun n => v.testBit n

/-! ## Payloads (R207) -/

/-- A channel and a ring position: ADVANCE, RELEASE. -/
def readChannelPosition (p : List Byte) : Option (Nat × Nat) :=
  if p.length = 3 then some (field p 0 1, field p 1 2) else none

/-- One byte: CLEAR_RING, FETCH, SAMPLE. -/
def readByte (p : List Byte) : Option Nat := if p.length = 1 then some (field p 0 1) else none

/-- An ARM's fields (R112). -/
structure ArmRequest where
  id : Nat
  kind : Nat
  mask : List Nat
  s : Nat
deriving DecidableEq, Repr

def readArm (p : List Byte) : Option ArmRequest :=
  if p.length = 8 then some { id := field p 0 2, kind := field p 2 1, mask := maskSet (field p 3 2), s := field p 5 3 }
  else none

/-- A ROLL's take id and lead. -/
def readRoll (p : List Byte) : Option (Nat × Nat) := if p.length = 3 then some (field p 0 2, field p 2 1) else none

/-- A DISBAND's take id. -/
def readDisband (p : List Byte) : Option Nat := if p.length = 2 then some (field p 0 2) else none

/-- The CUE numbers of a CUE message: 1..4 bytes; a number above 63 is ignored (R90). -/
def readCues (p : List Byte) : Option (List Nat) :=
  if 1 ≤ p.length ∧ p.length ≤ 4 then some ((p.map BitVec.toNat).filter (· < 64)) else none

/-- `v` within `lo..hi`. -/
def within (lo hi v : Nat) : Bool := decide (lo ≤ v) && decide (v ≤ hi)

/-- The record of a ring entry's bytes 0 and 2..9 when it is well formed (R1, R206). -/
def readRecord (e : List Byte) : Option Record :=
  match field e 0 1 with
  | 0 => some .none
  | 1 => some (.origin (signedField e 2))
  | 2 =>
    let pr := match field e 2 1 with
      | 0 => some Profile.linear
      | 1 => some Profile.ease
      | 2 => some Profile.easeIn
      | 3 => some Profile.easeOut
      | _ => none
    pr.bind fun q => if within 1 4096 (field e 3 2) && within 1 4096 (field e 5 2) then
      some (.shape q (field e 3 2) (field e 5 2)) else none
  | 3 =>
    if (signedField e 2).natAbs ≤ 2 ^ 30 ∧ within 1 65535 (field e 6 2) then some (.span (signedField e 2) (field e 6 2))
    else none
  | 4 => if within 1 65535 (field e 2 2) then some (.dwell (field e 2 2)) else none
  | 5 => if within 1 65535 (field e 2 2) then some (.loopOpen (field e 2 2)) else none
  | 6 => some .loopClose
  | 7 =>
    let act := match field e 5 1 with
      | 0 => some OnTimeout.skip
      | 1 => some OnTimeout.hold
      | _ => none
    act.bind fun q => if field e 2 1 < 64 then some (.waitCue (field e 2 1) (field e 3 2) q) else none
  | 8 => if field e 2 1 < 64 then some (.emitCue (field e 2 1)) else none
  | 9 => some .pathEnd
  | _ => none

/-- A loaded entry: record and REPORT flag; whatever stamp the payload holds is dropped (R31). -/
def readEntry (e : List Byte) : Option Entry :=
  (readRecord e).map fun r => { record := r, report := (field e 1 1).testBit 0, stamp := none }

/-- A LOAD's fields (R30): channel, start, count, and each record, none where it is not well formed. -/
structure LoadRequest where
  channel : Nat
  start : Nat
  records : List (Option Entry)
deriving DecidableEq, Repr

/-- The `n` 16-byte pieces of bytes. -/
def pieces : Nat → List Byte → List (List Byte)
  | 0, _ => []
  | n + 1, bs => bs.take 16 :: pieces n (bs.drop 16)

def readLoad (p : List Byte) : Option LoadRequest :=
  let n := field p 3 1
  if p.length = 4 + 16 * n then
    some { channel := field p 0 1, start := field p 1 2, records := (pieces n (p.drop 4)).map readEntry }
  else none

/-- A plain setting from its byte (R207). -/
def readPlain (v : Nat) : Plain :=
  { output := v.testBit 0, high := v.testBit 1, pullUp := v.testBit 2, inputEnable := v.testBit 3 }

/-- A SETUP_LINES (R195): the tally byte and the entries. -/
structure LinesRequest where
  tally : Nat
  entries : List (Nat × Plain)
deriving DecidableEq, Repr

/-- `n` two-byte line entries. -/
def lineEntries : Nat → List Byte → List (Nat × Plain)
  | 0, _ => []
  | n + 1, bs => (field bs 0 1, readPlain (field bs 1 1)) :: lineEntries n (bs.drop 2)

def readLines (p : List Byte) : Option LinesRequest :=
  if 2 ≤ p.length ∧ p.length = 2 + 2 * field p 0 1 then
    some { tally := field p 1 1, entries := lineEntries (field p 0 1) (p.drop 2) }
  else none

/-- A line field of SETUP_CHANNEL: a line, none (0xFF), or out of range. -/
def readLine (v : Nat) : Option (Option Nat) := if v < 24 then some (some v) else if v = 0xFF then some none else none

/-- The ten line fields of SETUP_CHANNEL, bytes 14..23; none when one is out of range. -/
def readAssignment (p : List Byte) : Option LineAssignment := do
  let step ← readLine (field p 14 1)
  let dir ← readLine (field p 15 1)
  let enable ← readLine (field p 16 1)
  let brake ← readLine (field p 17 1)
  let limitPlus ← readLine (field p 18 1)
  let limitMinus ← readLine (field p 19 1)
  let encA ← readLine (field p 20 1)
  let encB ← readLine (field p 21 1)
  let wheelA ← readLine (field p 22 1)
  let wheelB ← readLine (field p 23 1)
  return { step := step, dir := dir, enable := enable, brake := brake, limitPlus := limitPlus, limitMinus := limitMinus,
           encA := encA, encB := encB, wheelA := wheelA, wheelB := wheelB }

/-- The source fields of SETUP_CHANNEL, bytes 1..11 (R196); a PATH channel's leader fields are ignored (R207). -/
def readSource (p : List Byte) : Option SetupSource :=
  match field p 1 1 with
  | 0 => some .path
  | 1 =>
    match chan? (field p 3 1) with
    | some c =>
      if field p 2 1 < 16 ∧ within 1 4096 (field p 4 2) ∧ within 1 4096 (field p 6 2) then
        some (.follow (field p 2 1) c (field p 4 2) (field p 6 2) (signedField p 8))
      else none
    | none => none
  | _ => none

/-- The feedback fields of SETUP_CHANNEL, bytes 12 and 13. -/
def readFeedback (p : List Byte) : Option Feedback :=
  match field p 12 1 with
  | 0 => some .encoder
  | 1 => if field p 13 1 < 8 then some (.analog (field p 13 1)) else none
  | 2 => some .none
  | _ => none

/-- The numeric fields of SETUP_CHANNEL within their ranges (R196). -/
def setupNumbersInRange (p : List Byte) : Bool :=
  decide (field p 25 4 ≤ 2147483647) && within 1 65535 (field p 29 2) && within 1 65535 (field p 31 2) &&
    within 1 65535 (field p 33 2) && within 1 65535 (field p 35 2) && decide (field p 45 2 ≤ 1023) &&
    within 1 4096 (field p 48 2) && within 1 4096 (field p 50 2) && within 1 4096 (field p 52 2) &&
    within 1 4096 (field p 54 2)

/-- A SETUP_CHANNEL (R196): the channel field, and the setup when every field is within its range. -/
structure ChannelRequest where
  channel : Nat
  setup : Option Setup
deriving DecidableEq, Repr

/-- The setup of a 60-byte SETUP_CHANNEL payload, when every field is within its range (R196, R207). -/
def readSetup (p : List Byte) : Option Setup := do
  let source ← readSource p
  let feedback ← readFeedback p
  let lines ← readAssignment p
  if setupNumbersInRange p then
    return { source := source, feedback := feedback, lines := lines, enableHigh := (field p 24 1).testBit 0,
             brakeHigh := (field p 24 1).testBit 1, limitHigh := (field p 24 1).testBit 2, followLimit := field p 25 4,
             maxStep := field p 29 2, vmax := field p 31 2, seekRate := field p 33 2, stopRate := field p 35 2,
             travelMin := signedField p 37, travelMax := signedField p 41, lowMark := field p 45 2,
             capture := (field p 47 1).testBit 0, breakCheck := (field p 47 1).testBit 1, wheelNum := field p 48 2,
             wheelDen := field p 50 2, gainNum := field p 52 2, gainDen := field p 54 2, base := signedField p 56 }
  else none

def readChannelSetup (p : List Byte) : Option ChannelRequest :=
  if p.length = 60 then some { channel := field p 0 1, setup := readSetup p } else none

/-! ## Reports (R205) -/

/-- `w` bits of a value from bit `start`. -/
def bitsAt (v start w : Nat) : Nat := v / 2 ^ start % 2 ^ w

/-- A channel's part of a report body, its fields beginning at bit `start`. -/
def readChannelReport (v start : Nat) : ChannelReport :=
  { state := bitsAt v start 4, ringLow := decide (bitsAt v (start + 4) 1 = 1),
    lastReported := if bitsAt v (start + 5) 11 = 2047 then none else some (bitsAt v (start + 5) 11),
    setPoint := (BitVec.ofNat 32 (bitsAt v (start + 16) 32)).toInt }

/-- The flags of a cause summary. -/
def readCauses (v : Nat) : CauseFlags :=
  { channelFault := v.testBit 0, memberMissing := v.testBit 1, disagree := v.testBit 2, slip := v.testBit 3,
    busError := v.testBit 4, frameFault := v.testBit 5 }

/-- The report of a body value, its outcome list left out (R95). -/
def readReportBody (v : Nat) : Report :=
  { station := bitsAt v 0 4, takeState := bitsAt v 4 4, tag := bitsAt v 8 8, takeId := bitsAt v 16 16,
    frame := bitsAt v 32 24, causes := readCauses (bitsAt v 56 6), holdPulled := decide (bitsAt v 62 1 = 1),
    captureGap := decide (bitsAt v 63 1 = 1), duplicateFree := decide (bitsAt v 64 1 = 1),
    overflow := decide (bitsAt v 65 1 = 1),
    channels := { c0 := readChannelReport v 137, c1 := readChannelReport v 185, c2 := readChannelReport v 233,
                  c3 := readChannelReport v 281 } }

/-- The report that received bytes make: 45 bytes, the report's kind, a passing check (R79). -/
def readReport (a : Activity) : Option Report :=
  if a.bytes.length = Config.reportBytes ∧ a.kind? = some 0x30 ∧ checkPasses a.bytes then
    some (readReportBody (leValue ((a.bytes.drop 1).take 42)))
  else none

end Sys2Proof.Machine
end

