-- ==== Sys2Proof/Machine/Roster.lean ====
section
/-! DEFINITION. The Roster (chapter 6): writing entries, ageing, judging the round, the round summary, the causes handed over,
the leader-done counts, and the tag's realignment. -/

namespace Sys2Proof.Machine

/-- Roster entry `n` replaced. -/
def State.setEntry (s : State) (n : Nat) (e : RosterEntry) : State :=
  { s with roster := { s.roster with entries := s.roster.entries.set n e } }

/-- A report written into the entry of the station it names (R96). -/
def rosterWrite (r : Report) (s : State) : State :=
  s.setEntry r.station { present := true, missed := 0, mark := true, receivedTag := s.timer.tag, report := some r }

/-- The round marks cleared, and the last summary no longer current (R97). -/
def startRound (s : State) : State :=
  { s with roster := { entries := s.roster.entries.map fun e => { e with mark := false },
                       summary := { s.roster.summary with current := false } } }

/-- The round summary marked not current (R97). -/
def staleSummary (s : State) : State :=
  { s with roster := { s.roster with summary := { s.roster.summary with current := false } } }

/-- An entry aged at round close (R98): a clear round mark raises the missed count up to 8; at 8 it is absent. -/
def RosterEntry.aged (e : RosterEntry) : RosterEntry :=
  if e.mark then e
  else
    let m := min (e.missed + 1) 8
    { e with missed := m, present := e.present && decide (m < 8) }

/-- Every entry aged (R98). -/
def ageEntries (s : State) : State :=
  { s with roster := { s.roster with entries := s.roster.entries.map RosterEntry.aged } }

/-! ## Judging (R99, R102) -/

/-- The take states R102 allows a member while this station is COUNTDOWN, ROLLING or FINISHED; for the other states R102
lists none: equal states agree and ARMED against COUNTDOWN disagrees, as the worked examples show; the rest is a free
value (log 9). -/
def memberStateAllowed (own : TakeState) (member : Nat) : Bool :=
  match own with
  | .countdown => decide (member = TakeState.countdown.code)
  | .rolling | .finished => decide (member = TakeState.rolling.code) || decide (member = TakeState.finished.code)
  | .safe | .idle | .seeking | .armed | .stopping | .held =>
    if member = own.code then true
    else if own = .armed ∧ member = TakeState.countdown.code then false
    else Config.memberStateAllowed own.code member

/-- Step 2 of R99 for a member whose report is `r`, the own report being `own`. -/
def agrees (st : TakeState) (own r : Report) : Bool := decide (r.takeId = own.takeId) && memberStateAllowed st r.takeState

/-- Step 3 of R99: the tags, and in COUNTDOWN, ROLLING and FINISHED alone the take frame fields (R102). -/
def slips (st : TakeState) (own r : Report) : Bool :=
  decide (r.tag ≠ own.tag) || (st.isRunning && agrees st own r && decide (r.frame ≠ own.frame))

/-- Member `n` other than this station is judged (R99). -/
def State.judges (s : State) (n : Nat) : Bool :=
  decide (s.take.id ≠ 0) && s.take.mask.contains n && decide (n ≠ s.station)

/-- A judged member fails comparison `p` of its report with the own report. A member whose mark is set has a report. -/
def State.memberFails (s : State) (p : Report → Report → Bool) (n : Nat) : Bool :=
  s.judges n && (s.entry n).mark &&
    (match (s.entry s.station).report, (s.entry n).report with
     | some own, some r => p own r
     | _, _ => true)

/-- The missing members (R99 step 1). -/
def State.missingMembers (s : State) : List Nat := stationsWhere fun n => s.judges n && !(s.entry n).mark

/-- The disagreeing members (R99 step 2). -/
def State.disagreeingMembers (s : State) : List Nat :=
  stationsWhere (s.memberFails fun own r => !agrees s.take.state own r)

/-- The slipping members (R99 step 3). -/
def State.slippingMembers (s : State) : List Nat := stationsWhere (s.memberFails (slips s.take.state))

/-- Every member's round mark is set and its report satisfies `p` (R104). -/
def State.everyMember (s : State) (p : Report → Bool) : Bool :=
  decide (s.take.id ≠ 0) && s.take.mask.all fun n =>
    (s.entry n).mark && (match (s.entry n).report with | some r => p r | none => false)

/-- roll-ready (R104). -/
def State.rollReady (s : State) : Bool :=
  match (s.entry s.station).report with
  | some own => s.everyMember fun r => decide (r.takeState = TakeState.armed.code) && decide (r.takeId = s.take.id) &&
      decide (r.frame = s.take.s) && decide (r.tag = own.tag)
  | none => false

/-- all-finished (R104). -/
def State.allFinished (s : State) : Bool :=
  s.everyMember (fun r => decide (r.takeState = TakeState.finished.code) && decide (r.takeId = s.take.id)) &&
    s.missingMembers.isEmpty && s.disagreeingMembers.isEmpty && s.slippingMembers.isEmpty

/-- The causes handed to the Take Controller at this round close, in order, each with the member it names (R103). -/
def State.handedCauses (s : State) : List (Cause × Option Nat) :=
  if s.take.state.isRunning then
    (if s.missingMembers.isEmpty then [] else [(Cause.memberMissing, s.missingMembers.head?)]) ++
      (if s.disagreeingMembers.isEmpty then [] else [(Cause.disagree, s.disagreeingMembers.head?)]) ++
      (if s.slippingMembers.isEmpty then [] else [(Cause.slip, s.slippingMembers.head?)])
  else []

/-- The round summary of this round close (R100), after ageing. -/
def State.judged (s : State) : Summary :=
  { tag := s.timer.tag, takeState := s.take.state, takeId := s.take.id,
    mask := if s.take.id = 0 then [] else s.take.mask,
    reported := stationsWhere fun n => (s.entry n).mark, present := stationsWhere fun n => (s.entry n).present,
    missing := s.missingMembers, disagreeing := s.disagreeingMembers, slipping := s.slippingMembers,
    rollReady := s.rollReady, allFinished := s.allFinished, causes := s.handedCauses.map fun x => x.1, current := true }

/-- The causes handed are raised to the Take Controller in order (R103). -/
def raiseAll (cs : List (Cause × Option Nat)) (s : State) : State :=
  cs.foldl (fun s x => raiseCause x.1 x.2 none s) s

/-! ## Leaders (R106, R168, R171) -/

/-- The leader of a FOLLOW channel's setup. -/
def Setup.leader (u : Setup) : Option (Nat × Chan) :=
  match u.source with
  | .follow st ch _ _ _ => some (st, ch)
  | .path => none

/-- The leader's report shows its channel DONE in this take and round (R171). -/
def State.leaderIsDone (s : State) (c : Chan) : Bool :=
  match (s.setup c).leader with
  | some (st, ch) =>
    (s.entry st).mark && (match (s.entry st).report with
      | some r => decide (r.takeId = s.take.id) && decide ((r.channels.get ch).state = ChanState.done.code)
      | none => false)
  | none => false

/-- A PLAYING follower's leader-done count at a round close (R171). -/
def countLeaderDone (c : Chan) (s : State) : State :=
  let d := s.drive c
  if d.state = .playing ∧ d.source = some .follow then
    s.setDrive c { d with leaderDone := if s.leaderIsDone c then min (d.leaderDone + 1) 2 else 0 }
  else s

/-! ## The tag (R78, R101) -/

/-- The tag in the report of the lowest-numbered station whose round mark is set (R78, R101). -/
def State.lowestTag (s : State) : Option Nat :=
  match (stationsWhere fun n => (s.entry n).mark).head? with
  | some n => (s.entry n).report.map fun r => r.tag
  | none => none

/-- The tag realigned outside COUNTDOWN, ROLLING and FINISHED (R101). -/
def realign (s : State) : State :=
  if s.take.state.isRunning then s
  else match s.lowestTag with
    | some g => { s with timer := { s.timer with tag := g } }
    | none => s

/-- The end of a listening round (R78): the count rises, the tag is adopted, and at 4 the port is JOINED. -/
def listenRound (count : Nat) (heard : Bool) (s : State) : State :=
  let s1 := match s.lowestTag with
    | some g => { s with timer := { s.timer with tag := g } }
    | none => if count + 1 = 4 ∧ heard = false then { s with timer := { s.timer with tag := 0 } } else s
  let heard' := heard || s.lowestTag.isSome
  if 4 ≤ count + 1 then { s1 with port := { s1.port with join := .joined, duplicateFree := true } }
  else { s1 with port := { s1.port with join := .listening (count + 1) heard' } }

end Sys2Proof.Machine
end

