-- ==== Sys2Proof/Machine/Scan.lean ====
section
/-! DEFINITION. Positioning (chapter 3) and the end of an ARM (R115 to R118): the start of a positioning, the scan, the commit,
the discard, the unwinding. -/

namespace Sys2Proof.Machine

/-! ## The start of a positioning (R52, R53) -/

/-- The pending path of a new take whose ORIGIN at `rel` gives position `x` (R52, R14). DESIGN CHOICE (log 45): an ORIGIN
with REPORT set leaves the last reported position none, as R52 builds it, though R25 would set it where R2 has the
ORIGIN complete. -/
def originPath (rel : Nat) (x : Int) : Path := { Path.reset with head := ringStep rel 1, setPoint := x }

/-- The pending path restored from checkpoint `q` of the committed path `p` (R53). -/
def restoredPath (p : Path) (q : Checkpoint) : Path :=
  { p with head := q.pos, shape := q.shape, stack := q.stack, progress := none, setPoint := q.setPoint, zero := 0,
           lastReported := q.lastReported, ended := false, table := p.table.filter (fun r => decide (r.t0 ≤ q.t0)),
           latest := q.t0 }

/-- The newest checkpoint at or before take sub-beat `goal` (R53); the table stands in rising order of T0. -/
def newestAtOrBefore (table : List Checkpoint) (goal : Nat) : Option Checkpoint :=
  (table.filter fun q => decide (q.t0 ≤ goal)).getLast?

/-- The scan result of a positioning of take `id` from start frame `s`, refused at its start at ring position `pos` (R58).
DESIGN CHOICE (log 55): the stop sub-beat is none, no scan having begun. -/
def refusedAtStart (code : ScanCode) (id s pos : Nat) : ScanResult :=
  { ScanResult.reset with code := code, takeId := id, s := s, stopPos := some pos }

/-- The scan result of a positioning in flight from `start` (R58). DESIGN CHOICE (log 56): the stop position and the stop
sub-beat are none until the scan has ended. -/
def inFlightFrom (id s start : Nat) : ScanResult :=
  { ScanResult.reset with code := .inFlight, takeId := id, s := s, start := some start }

/-- A new-take positioning of an engine (R52), and its refusal. -/
def positionNew (id n s : Nat) (e : Engine) : Engine × Option Result :=
  match (ringGet e.ring e.release).record with
  | .origin x =>
    if e.release = e.tail then ({ e with scan := refusedAtStart .noOrigin id s e.release, positioning := none }, some .noOrigin)
    else
      ({ e with scan := inFlightFrom id s 0,
                positioning := some { path := originPath e.release x, stamps := [(e.release, stampAt id n (s * n))],
                                      reached := 0, target := none } }, none)
  | _ => ({ e with scan := refusedAtStart .noOrigin id s e.release, positioning := none }, some .noOrigin)

/-- A pickup or re-arm positioning of an engine (R53), and its refusal. -/
def positionRestore (id n s : Nat) (e : Engine) : Engine × Option Result :=
  match newestAtOrBefore e.path.table (s * n) with
  | some q =>
    ({ e with scan := inFlightFrom id s q.t0,
              positioning := some { path := restoredPath e.path q, stamps := [], reached := q.t0, target := none } }, none)
  | none => ({ e with scan := refusedAtStart .notRetained id s e.path.head, positioning := none }, some .notRetained)

/-! ## The scan (R54 to R56) -/

/-- How a scan ends. -/
inductive ScanEnd where
  | reached
  | short (k : FaultKind)
  | unresolved
deriving DecidableEq, Repr

/-- A scan at take sub-beat `u`: its path and the stamps written so far. -/
structure ScanState where
  path : Path
  stamps : List (Nat × Stamp)
  u : Nat
deriving DecidableEq, Repr

/-- The scan's record in progress at `pos` completes at `u`, a new sub-beat (R54). -/
def ScanState.completed (id n : Nat) (ring : List (Nat × Entry)) (pos u : Nat) (x : ScanState) : ScanState :=
  { path := { (x.path.advanceTo u).complete pos (ringGet ring pos).report with zero := 0 },
    stamps := x.stamps ++ [(pos, stampAt id n u)], u := u }

/-- The sub-beat at which the record in progress ends, with its ring position: offset K of a SPAN or DWELL, the stamp of a
WAIT_CUE (R54, R55). -/
def endsAt (id n : Nat) (ring : List (Nat × Entry)) : Progress → Option (Nat × Nat)
  | .span pos t0 _ _ _ k _ => some (pos, t0 + k)
  | .dwell pos t0 _ k _ => some (pos, t0 + k)
  | .wait pos _ _ _ _ => ((ringGet ring pos).currentStamp id).map fun st => (pos, st.subBeat n)

/-- A wait is examined below `goal` alone; a SPAN or DWELL completes at `goal` too (R54, R55). -/
def endsWithin (goal : Nat) (pr : Progress) (t : Nat) : Bool :=
  match pr with
  | .wait _ _ _ _ _ => decide (t < goal)
  | .span _ _ _ _ _ _ _ => decide (t ≤ goal)
  | .dwell _ _ _ _ _ => decide (t ≤ goal)

/-- The scan of a path to take sub-beat `goal` (R54). Between sub-beats it moves a record in progress straight to its end or
to `goal`. The fuel bounds the moves: at one sub-beat at most 18 are made (R7). -/
def scanLoop (id n goal tail : Nat) (ring : List (Nat × Entry)) : Nat → ScanState → ScanState × ScanEnd
  | 0, x => (x, .reached)
  | fuel + 1, x =>
    match x.path.progress with
    | some pr =>
      match endsAt id n ring pr with
      | some (pos, t) =>
        if endsWithin goal pr t then scanLoop id n goal tail ring fuel (x.completed id n ring pos t)
        else ({ x with path := x.path.advanceTo goal, u := goal }, .reached)
      | none => (x, .unresolved)
    | none =>
      if goal ≤ x.u ∨ x.path.ended = true then ({ x with u := goal }, .reached)
      else if x.path.head = tail then (x, .short .ringEmpty)
      else
        let k := takeInScan { takeId := id, n := n, t := x.u } (ringGet ring x.path.head) x.path
        let y := { x with path := k.path, stamps := x.stamps ++ k.stamp.toList }
        match k.taking with
        | .goesOn => scanLoop id n goal tail ring fuel y
        | .stops => scanLoop id n goal tail ring fuel y
        | .ends => scanLoop id n goal tail ring fuel y
        | .faults f => (x, .short f)
        | .unresolved => (x, .unresolved)

/-- The whole scan of positioning `p` of an engine (R54). -/
def Engine.scanRun (e : Engine) (id n goal : Nat) (p : Positioning) : ScanState × ScanEnd :=
  scanLoop id n goal e.tail e.ring ((goal + 1 - p.reached) * 20) { path := p.path, stamps := p.stamps, u := p.reached }

/-! ## Discard (R51, R58, R115) -/

/-- The scan result when the ARM ends by discard (R58). What an abandoned scan had reached is free (log 10): `k` counts the
free values drawn, `goal` is S·N. -/
def ScanResult.discarded (code : ScanCode) (k goal : Nat) (r : ScanResult) : ScanResult :=
  match r.code with
  | .inFlight =>
    { r with code := code, stopPos := some (Config.abandonedScanHead k % Config.ringSize),
             stopSub := some (r.start.getD 0 + Config.abandonedScanReach k % (goal + 1 - r.start.getD 0)) }
  | .positioned => { r with code := code, target := none }
  | _ => r

/-- The positioning of channel `c` discarded (R51). -/
def discardChannel (code : ScanCode) (goal : Nat) (c : Chan) (s : State) : State :=
  match (s.engine c).positioning with
  | some _ =>
    { s.setEngine c { s.engine c with positioning := none, scan := (s.engine c).scan.discarded code s.freeCount goal } with
      freeCount := s.freeCount + 1 }
  | none => s

/-- A take channel's state as it was before the ARM, but FAULTED when it has become so (R115, R166). -/
def restoreChannel (prior : Quad ChanState) (c : Chan) (s : State) : State :=
  if s.isTakeChannel c ∧ (s.drive c).state ≠ .faulted then
    s.setDrive c { s.drive c with state := prior.get c, seek := none, follow := .none }
  else s

/-- The ARM in flight ends by discard with outcome `r` (R115); `code` is what becomes of the scans (R58). -/
def discardArm (a : ArmFlight) (r : Result) (code : ScanCode) (s : State) : State :=
  let s1 := eachChannel (discardChannel code (s.take.s * s.subBeats)) s
  let s2 := eachChannel (restoreChannel a.priorStates) s1
  let s3 := { s2 with take := { s2.take with
    state := a.prior.state, id := a.prior.id, kind := a.prior.kind, mask := a.prior.mask, s := a.prior.s,
    tf := a.prior.tf, committed := a.prior.committed, arm := none } }
  addOutcome a.station a.seq r (if a.prior.id = 0 then clearSources s3 else s3)

/-! ## Commit (R51, R116) -/

/-- A seek toward `x` begins, or the channel is READY at once for a seek of no distance (R159). -/
def Drive.beginSeek (x : Int) (d : Drive) : Drive :=
  if x = d.setPoint then { d with state := .ready, seek := none, follow := .none }
  else { d with seek := some { target := x, up := decide (d.setPoint < x), speed := 0 }, follow := .none }

/-- A positioned engine's pending state replaces its committed state, stamps written (R51). -/
def Engine.commit (e : Engine) (goal : Nat) (p : Positioning) : Engine :=
  { e with ring := p.stamps.foldl (fun r x => ringStamp r x.1 x.2) e.ring, path := { p.path with latest := goal },
           positioning := none }

/-- What the commit does to take channel `c` (R116); `goal` is S·N. -/
def commitChannel (goal : Nat) (c : Chan) (s : State) : State :=
  let s1 := match (s.engine c).positioning with
    | some p => s.setEngine c ((s.engine c).commit goal p)
    | none => s
  let d := s.drive c
  if d.state = .faulted then s1
  else match d.source with
    | some .path => s1.setDrive c (d.beginSeek (((s.engine c).positioning.bind Positioning.target).getD d.setPoint))
    | some .follow => s1.setDrive c { d with follow := .waiting }
    | some .wheel => s1.setDrive c { d with state := .ready }
    | none => s1

/-- The Capture Log emptied at the commit of a new take (R187). -/
def clearLog (s : State) : State := { s with log := CaptureLog.reset }

/-- The commit of the ARM in flight (R51, R116), which may end it at once (R117). -/
def commitArm (a : ArmFlight) (s : State) : State :=
  let s1 := eachChannel (commitChannel (s.take.s * s.subBeats)) s
  let s2 := { s1 with take := { s1.take with
    committed := true, tf := s1.take.s, arm := some { a with phase := .moving } } }
  checkArmed (if a.prior.state = .idle then clearLog s2 else s2)

/-! ## Unwinding (R118) -/

/-- A take channel at the start of an unwinding: seek motion starts its stop profile, a wait for the leader ends. -/
def unwindChannel (c : Chan) (s : State) : State :=
  let d := s.drive c
  if s.isTakeChannel c ∧ d.state = .seeking then
    s.setDrive c (if d.seek.isSome then d.enterStop else { d with follow := .none })
  else s

/-- The ARM in flight ends by unwinding with outcome `r` (R118). -/
def unwindArm (a : ArmFlight) (r : Result) (s : State) : State :=
  let s1 := { s with take := { s.take with arm := some { a with phase := .unwinding } } }
  checkRest (addOutcome a.station a.seq r (eachChannel unwindChannel s1))

/-! ## The scan commands -/

/-- Every positioned channel has its target (R51). -/
def State.allTargets (s : State) : Bool :=
  allChannels.all fun c => match (s.engine c).positioning with
    | some p => p.target.isSome
    | none => true

/-- The scan of channel `c` in flight, with the ARM it serves. -/
def State.scanStanding (s : State) (c : Chan) : Option (ArmFlight × Positioning) :=
  match s.take.state, s.take.arm, (s.engine c).positioning with
  | .seeking, some a, some p => if a.phase = .positioning ∧ p.target = none then some (a, p) else none
  | _, _, _ => none

/-- The scan of channel `c` run to its end. -/
def State.scanOf (s : State) (c : Chan) (p : Positioning) : ScanState × ScanEnd :=
  (s.engine c).scanRun s.take.id s.subBeats (s.take.s * s.subBeats) p

/-- A scan that completed with its path state `x` (R54, R58): POSITIONED. -/
def positioned (c : Chan) (p : Positioning) (x : ScanState) (s : State) : State :=
  let e := s.engine c
  s.setEngine c { e with
    scan := { e.scan with code := .positioned, stopPos := some x.path.head, stopSub := some x.u,
                          target := some x.path.setPoint },
    positioning := some { p with path := x.path, stamps := x.stamps, reached := x.u, target := some x.path.setPoint } }

/-- A target outside the channel's travel (R159). -/
def Setup.outside (u : Setup) (x : Int) : Bool := decide (x < u.travelMin) || decide (u.travelMax < x)

/-- SCAN_COMPLETE (R54, R51): the target is checked against travel, and the last completion commits. -/
def execScanComplete (c : Chan) (s : State) : Host.Outcome State Fault Refusal :=
  match s.scanStanding c with
  | some (a, p) =>
    match s.scanOf c p with
    | (x, .reached) =>
      let s1 := positioned c p x s
      .next (if (s.setup c).outside x.path.setPoint then discardArm a .travel .discarded s1
        else if s1.allTargets then commitArm a s1 else s1)
    | _ => .next s
  | none => .next s

/-- The refusal of channel `c`'s scan noted in its scan result (R56, R58). -/
def scanRefused (c : Chan) (code : ScanCode) (k : Option FaultKind) (x : ScanState) (s : State) : State :=
  let e := s.engine c
  s.setEngine c { e with
    scan := { e.scan with code := code, stopPos := some x.path.head, stopSub := some x.u, kind := k }, positioning := none }

/-- SCAN_REFUSAL (R55, R56): the ARM ends by discard. -/
def execScanRefusal (c : Chan) (s : State) : Host.Outcome State Fault Refusal :=
  match s.scanStanding c with
  | some (a, p) =>
    match s.scanOf c p with
    | (_, .reached) => .next s
    | (x, .short k) => .next (discardArm a .ringShort .discarded (scanRefused c .ringShort (some k) x s))
    | (x, .unresolved) => .next (discardArm a .cueUnresolved .discarded (scanRefused c .cueUnresolved none x s))
  | none => .next s

end Sys2Proof.Machine
end

