-- ==== Sys2Proof/Machine/Bus.lean ====
section
/-! DEFINITION. The Rig Bus Port (chapter 5): which activity is valid, how a message is routed, turns, sending, reports in
slots and round close. -/

namespace Sys2Proof.Machine

/-! ## Checking what arrives (R74, R79, R82, R83) -/

/-- What the port makes of activity: a valid message, a bus error, or activity dropped without either. -/
inductive Admission where
  | valid
  | failed
  | dropped
deriving DecidableEq, Repr

/-- The station that holds turn `i` (R75). -/
def State.holder (s : State) (i : Nat) : Nat := (s.timer.tag + i) % 16

/-- The instant the guard of the present window begins (R74), in periods. -/
def State.guardAt (s : State) : Option Nat :=
  match s.timer.lastPulse, s.timer.period with
  | some q, some p => some ((q + p - Config.guardLength) * Config.tick)
  | _, _ => none

/-- The instant `t` lies before the guard, or on its beginning (R74). -/
def State.beforeGuard (s : State) (t : Nat) : Bool := s.guardAt.any fun g => decide (t ≤ g)

/-- Activity that began in the open window (R74), in periods. -/
def State.inOpenWindow (s : State) (began : Nat) : Bool :=
  (s.timer.lastPulse.any fun q => decide ((q + Config.roundCloseAt) * Config.tick ≤ began)) &&
    s.guardAt.any fun g => decide (began < g)

/-- The check, the length and a traffic kind (R82, R83). -/
def isSound (a : Activity) : Bool :=
  checkPasses a.bytes && lengthPasses a.bytes && decide (a.kind? ≠ some 0x30)

/-- The open window that a pulse accepted at microsecond `e` ends (R74, R75): none without a window laid out. -/
def State.endedWindow (s : State) (e : Nat) : Option EndedWindow :=
  match s.timer.lastPulse, s.guardAt with
  | some q, some g =>
    let w : EndedWindow :=
      { opens := (q + Config.roundCloseAt) * Config.tick, closes := min g (e * Config.tick), turn := none }
    match s.port.window with
    | .none => none
    | .slots => some w
    | .turn i began _ => some { w with turn := some { holder := s.holder i, began := began } }
    | .silence => some w
  | _, _ => none

/-- An instant of the ended open window. -/
def EndedWindow.has (w : EndedWindow) (t : Nat) : Bool := decide (w.opens ≤ t) && decide (t < w.closes)

/-- Activity that began in the open window the latest pulse ended. -/
def State.beganInEnded (s : State) (a : Activity) : Bool := s.port.ended.any fun w => w.has a.began

/-- Activity that fails R82 (R83): a bus error when it began in the open window, of this frame or of the one before. -/
def State.failing (s : State) (a : Activity) : Admission :=
  if s.inOpenWindow a.began || s.beganInEnded a then .failed else .dropped

/-- A message that arrives in the slots, having begun before the pulse in the turn of its sender (R82, R107, log 44). -/
def State.beganInEndedTurn (s : State) (a : Activity) : Bool :=
  s.port.ended.any fun w => w.has a.began && w.turn.any fun x => decide (x.began ≤ a.began) && senderOf a.bytes = x.holder

/-- A CUE that joins the pending set though the port is not JOINED: the timer being ABSENT or LOST (R18). DESIGN CHOICE (log
43): R78 has an UNJOINED and a LISTENING port drop traffic, and R18's own sentence on cues goes before it; a DUPLICATE port
drops every message (R79). -/
def State.takesCue (s : State) (a : Activity) : Bool :=
  decide (s.timer.state ≠ .locked) && decide (s.port.join ≠ .duplicate) && a.bears 0x18 && isSound a

/-- What a message is to the port (R82, R83, R78, R79). A message that begins in the slots began in no turn, and is dropped;
one that began in a turn before the pulse is taken (log 44). -/
def State.admission (s : State) (a : Activity) : Admission :=
  if s.port.join = .joined then
    match s.port.window with
    | .none => if isSound a then .valid else .dropped
    | .slots =>
      if s.beganInEndedTurn a ∧ isSound a = true then .valid else if s.beganInEnded a then .failed else .dropped
    | .turn i began _ =>
      if began ≤ a.began ∧ s.inOpenWindow a.began = true ∧ isSound a = true ∧ senderOf a.bytes = s.holder i then .valid
      else s.failing a
    | .silence => s.failing a
  else if s.takesCue a then .valid else .dropped

/-- The instant the bus went idle, kept for the turn (R75). -/
def Window.heard (t : Nat) : Window → Window
  | .turn i began idle => .turn i began (max idle t)
  | .none => .none
  | .slots => .slots
  | .silence => .silence

/-- Activity heard: the clock moves on, and the turn's idle count begins anew at its end (R75). -/
def State.heard (s : State) (a : Activity) : State :=
  { s.atTime a.ended with port := { s.port with window := s.port.window.heard a.ended } }

/-- The station holding the turn in which activity ended at `t` (R138): none outside a turn, and none in the guard, on whose
beginning it has not yet ended in it (log 25). -/
def State.turnHolder (s : State) (t : Nat) : Option Nat :=
  match s.port.window with
  | .turn i _ _ => if s.beforeGuard t then some (s.holder i) else none
  | .none => none
  | .slots => none
  | .silence => none

/-- A bus error at the end of activity (R83, R138). -/
def busErrorAt (a : Activity) (s : State) : State := raiseCause .busError (s.turnHolder a.ended) none (s.heard a)

/-- A message received (R82, R83): acted on when valid. -/
def receive (a : Activity) (act : Arrival → State → State) (s : State) : State :=
  match s.admission a with
  | .valid => act (arrivalOf a) (s.heard a)
  | .failed => busErrorAt a s
  | .dropped => s.heard a

/-- A message of the kind a row names, received; other bytes are not the row's event (log 2). -/
def receiveKind (k : Nat) (a : Activity) (act : Arrival → State → State) (s : State) : State :=
  if a.bears k then receive a act s else s

/-! ## Routing (R84, R86) -/

/-- A request settled at its arrival: its result as an outcome, its effect on the station. -/
abbrev Settled := Result × State

/-- A kind addressed to one station (R84): settled here, dropped elsewhere, REFUSED_RANGE for target ALL. -/
def addressed (f : Arrival → State → Settled) (m : Arrival) (s : State) : State :=
  match m.target with
  | some n => if n = s.station then addOutcome m.sender m.seq (f m s).1 (f m s).2 else s
  | none => addOutcome m.sender m.seq .refusedRange s

/-- A take kind, sent to ALL (R84): REFUSED_RANGE when addressed to this station alone. -/
def broadcast (f : Arrival → State → State) (m : Arrival) (s : State) : State :=
  match m.target with
  | some n => if n = s.station then addOutcome m.sender m.seq .refusedRange s else s
  | none => f m s

/-- A request refused: nothing changes but the outcome. -/
def refuse (r : Result) (s : State) : Settled := (r, s)

/-! ## Rows of the port's own -/

/-- BUS_ERROR (R83). -/
def execBusError (a : Activity) (s : State) : Host.Outcome State Fault Refusal :=
  .next (if a.began ≤ a.ended ∧ s.admission a = .failed then busErrorAt a s else s)

/-- An addressed message of an unknown kind (R204). -/
def settleUnknown (m : Arrival) (s : State) : State :=
  if m.target = some s.station then addOutcome m.sender m.seq .unknownKind s else s

/-- UNKNOWN_KIND (R204). -/
def execUnknownKind (a : Activity) (s : State) : Host.Outcome State Fault Refusal :=
  .next (if a.began ≤ a.ended ∧ (a.kind?.any fun k => !knownKinds.contains k) then receive a settleUnknown s else s)

/-- ANSWER (R84): dropped at its arrival. -/
def execAnswer (a : Activity) (s : State) : Host.Outcome State Fault Refusal := .next (receiveKind 0x21 a (fun _ s => s) s)

/-- A CUE's numbers join the pending set (R90); a CUE to one station, or of the wrong length, is dropped (R84, R201). -/
def settleCue (m : Arrival) (s : State) : State :=
  match m.target, readCues m.payload with
  | none, some cues => pendCues cues s
  | _, _ => s

/-- CUE (R90, R18). -/
def execCue (a : Activity) (s : State) : Host.Outcome State Fault Refusal := .next (receiveKind 0x18 a settleCue s)

/-! ## Turns and sending (R75, R76) -/

/-- The oldest complete answer marked as being sent, with its message (R76, R85, R87). -/
def markOldest (station : Nat) : List Place → Option (List Byte × List Place)
  | [] => none
  | p :: ps =>
    match p.body with
    | some b => some (message 0x21 station (some p.station) p.seq b.payload, { p with sending := true } :: ps)
    | none => (markOldest station ps).map fun x => (x.1, p :: x.2)

/-- What is sent from the instant `t` on (R93). -/
def sendingFrom (t : Nat) (what : SendingKind) (bytes : List Byte) : Sending :=
  { what := what, bytes := bytes, begins := t, ends := t + bytes.length * Config.tick }

/-- The message of the station's own turn that begins at `t`, with the answer queue as sending it leaves it (R76): a closed
cue set, else the oldest complete answer. -/
def State.turnMessage (s : State) (t : Nat) : Option (Sending × List Place) :=
  if s.port.closedCues ≠ [] then
    some (sendingFrom t (.cues s.port.closedCues)
      (message 0x18 s.station none s.port.cueSeq (s.port.closedCues.map byte)), s.port.answers)
  else (markOldest s.station s.port.answers).map fun x => (sendingFrom t .answer x.1, x.2)

/-- The station's own turn, begun at `t`: it begins a message 1 µs later, or stays silent (R75, R76), as it does when the
message would not be over before the guard (R74, log 40). -/
def sendInTurn (t : Nat) (s : State) : State :=
  match s.turnMessage (t + Config.tick) with
  | some (x, places) =>
    if s.beforeGuard x.ends then { s with port := { s.port with answers := places, sending := some x } } else s
  | none => s

/-- Turn `i` begins at `t` (R75). -/
def beginTurn (i t : Nat) (s : State) : State :=
  let s1 := { s with port := { s.port with window := .turn i t t } }
  if s1.port.join = .joined ∧ s1.timer.state = .locked ∧ s1.holder i = s1.station then sendInTurn t s1 else s1

/-- The turn ends at `t`, and the next begins; after turn 15 the window is silent (R75). -/
def nextTurn (i t : Nat) (s : State) : State :=
  if i < 15 then beginTurn (i + 1) t (s.atTime t)
  else { s.atTime t with port := { s.port with window := .silence } }

/-- TURN_START (R75): 4 µs after the bus went idle. -/
def execTurnStart (s : State) : Host.Outcome State Fault Refusal :=
  match s.port.window, s.port.sending with
  | .turn i _ idle, none => .next (nextTurn i (idle + Config.turnIdle * Config.tick) s)
  | _, _ => .next s

/-- The transmission leaves the port at `t`: the bus has been busy until then. -/
def endSending (t : Nat) (s : State) : State :=
  { s.atTime t with port := { s.port with sending := none, window := s.port.window.heard t } }

/-- A CUE message has been sent (R76, R84, R85, R89): its cues leave the closed set and reach the own Cue Board. -/
def cuesSent (cues : List Nat) (s : State) : State :=
  pendCues cues { s with port := { s.port with
    closedCues := s.port.closedCues.filter (fun q => !cues.contains q), cueSeq := (s.port.cueSeq + 1) % 256 } }

/-- An answer has been sent (R87): its place leaves the queue. -/
def answerSent (s : State) : State :=
  { s with port := { s.port with answers := s.port.answers.filter fun p => !p.sending } }

/-- MESSAGE_SENT (R76). -/
def execMessageSent (s : State) : Host.Outcome State Fault Refusal :=
  match s.port.sending with
  | some x =>
    match x.what with
    | .cues cues => .next (cuesSent cues (endSending x.ends s))
    | .answer => .next (answerSent (endSending x.ends s))
    | .report _ => .next s
  | none => .next s

/-! ## Reports in slots (R79 to R81, R96) -/

/-- The instant report slot `n` opens, in periods, after a pulse at microsecond `q` (R74). -/
def slotOpens (q n : Nat) : Nat := (q + Config.firstSlotAt + Config.slotLength * n) * Config.tick

/-- The report of the frame begins 2 µs into the station's slot (R74, R81). -/
def beginReport (q : Nat) (r : FullReport) (s : State) : State :=
  let t := slotOpens q s.station + 2 * Config.tick
  { s.atTime t with port := { s.port with
      sending := some (sendingFrom t (.report r) r.bytes) } }

/-- REPORT_SLOT (R81): in a laid-out window of a JOINED station, once. -/
def execReportSlot (s : State) : Host.Outcome State Fault Refusal :=
  match s.port.join, s.port.window, s.port.snapshot, s.port.sending, s.timer.lastPulse with
  | .joined, .slots, some r, none, some q => .next (beginReport q r s)
  | _, _, _, _, _ => .next s

/-- The follower's target in a leader report, when the report shows the leader READY in this take (R169). -/
def State.followTarget (s : State) (ch : Chan) (c : Chan) (r : Report) : Option Int :=
  if (r.takeState = TakeState.seeking.code ∨ r.takeState = TakeState.armed.code) ∧ r.takeId = s.take.id ∧
      (r.channels.get ch).state = ChanState.ready.code then
    some (followValue (s.setup c) (r.channels.get ch).setPoint)
  else none

/-- Channel `c` waits for its leader's channel of station `n`: that channel, with the ARM in flight (R116, R169). -/
def State.waitsFor (s : State) (c : Chan) (n : Nat) : Option (ArmFlight × Chan) :=
  match s.take.state, s.take.arm, (s.drive c).follow, (s.setup c).leader with
  | .seeking, some a, .waiting, some (st, ch) =>
    if a.phase = .moving ∧ (s.drive c).state = .seeking ∧ st = n then some (a, ch) else none
  | _, _, _, _ => none

/-- A report examined by follower `c` (R169, R159, R117, R118). -/
def examineReport (r : Report) (c : Chan) (s : State) : State :=
  match s.waitsFor c r.station with
  | some (a, ch) =>
    match s.followTarget ch c r with
    | some x =>
      if (s.setup c).outside x then unwindArm a .travel s
      else checkArmed (s.setDrive c ((s.drive c).beginSeek x))
    | none => s
  | none => s

/-- A report given to the Roster, and examined by the waiting followers (R96, R169). -/
def takeReport (r : Report) (s : State) : State := eachChannel (examineReport r) (rosterWrite r s)

/-- The outcomes a report carried are removed, and its overflow flag if nothing was refused room since (R86). -/
def reportedOutcomes (r : FullReport) (s : State) : State :=
  { s with port := { s.port with
      outcomes := s.port.outcomes.drop r.outcomes.length, snapshot := none,
      overflow := s.port.overflow && !(r.body.overflow && !s.port.lateOverflow) } }

/-- A read-back mismatch clears the duplicate-free flag (R80). -/
def readBack (mismatch : Bool) (s : State) : State :=
  if mismatch then { s with port := { s.port with duplicateFree := false } } else s

/-- REPORT_SENT (R96, R86, R80). The own entry is written while a window is laid out (log 18). -/
def execReportSent (mismatch : Bool) (s : State) : Host.Outcome State Fault Refusal :=
  match s.port.sending with
  | some x =>
    match x.what with
    | .report r =>
      let s1 := readBack mismatch (reportedOutcomes r (endSending x.ends s))
      .next (if s.port.window = .none then s1 else takeReport r.body s1)
    | .cues _ => .next s
    | .answer => .next s
  | none => .next s

/-- The slot in which activity began (R74, R79). -/
def slotOf (q began : Nat) : Option Nat :=
  if slotOpens q 0 ≤ began ∧ began < slotOpens q 16 then some ((began - slotOpens q 0) / (Config.slotLength * Config.tick))
  else none

/-- The last byte of the activity arrives by round close (R96). -/
def inRound (q : Nat) (a : Activity) : Bool :=
  decide (a.began ≤ a.ended) && decide (a.ended ≤ (q + Config.roundCloseAt) * Config.tick)

/-- The valid report that activity is, by the checks of R79, arrived in its round (R96). -/
def State.slotReport (s : State) (a : Activity) : Option Report :=
  match s.port.window, s.timer.lastPulse, readReport a with
  | .slots, some q, some r => if slotOf q a.began = some r.station ∧ inRound q a = true then some r else none
  | _, _, _ => none

/-- REPORT_ARRIVAL (R79, R96): in LISTENING and JOINED. A report that is not valid in its slot is dropped, and one in a turn is
a bus error (R83). -/
def execReportArrival (a : Activity) (s : State) : Host.Outcome State Fault Refusal :=
  match s.slotReport a, s.port.join with
  | some r, .listening _ _ =>
    .next (if r.station = s.station then
        { s.heard a with port := { s.port with join := .duplicate, window := .none } }
      else takeReport r (s.heard a))
  | some r, .joined => .next (takeReport r (s.heard a))
  | _, _ => .next (if a.began ≤ a.ended then receive a (fun _ t => t) s else s)

/-! ## Round close (R98 to R104, R78, R127, R171) -/

/-- The take is complete at this station (R127). -/
def completeTake (s : State) : State :=
  if s.take.state = .finished ∧ s.roster.summary.allFinished = true then leaveTake (parkTakeChannels s) else s

/-- The round summary written anew (R100). -/
def writeSummary (s : State) : State := { s with roster := { s.roster with summary := s.judged } }

/-- The round judged (R98 to R100, R103, R171): entries aged, the summary written, leader-done counts, causes raised. -/
def judgeRound (s : State) : State :=
  let s1 := writeSummary (ageEntries s)
  raiseAll s1.handedCauses (eachChannel countLeaderDone s1)

/-- The tag at round close: adopted while joining (R78), realigned afterwards (R101). -/
def settleTag (s : State) : State :=
  match s.port.join with
  | .listening count heard => listenRound count heard s
  | .joined => realign s
  | .unjoined => s
  | .duplicate => s

/-- Round close of the frame begun at microsecond `q` (R74, R98): judging, the tag, completion, and turn 0 (R75, log 16). -/
def closeRound (q : Nat) (s : State) : State :=
  let t := (q + Config.roundCloseAt) * Config.tick
  beginTurn 0 t (completeTake (settleTag (judgeRound (s.atTime t))))

/-- The round of a laid-out window may close (R74). -/
def State.roundStands (s : State) : Option Nat :=
  match s.port.window, s.timer.lastPulse with
  | .slots, some q => some q
  | _, _ => none

/-- ROUND_CLOSE (R98). -/
def execRoundClose (s : State) : Host.Outcome State Fault Refusal :=
  match s.roundStands with
  | some q => .next (closeRound q s)
  | none => .next s

/-- JOINED (R78): the round close at which the listening count reaches 4 (log 3). -/
def execJoined (s : State) : Host.Outcome State Fault Refusal :=
  match s.roundStands, s.port.join with
  | some q, .listening _ _ => .next (if (closeRound q s).port.join = .joined then closeRound q s else s)
  | _, _ => .next s

/-- ENTRY_ABSENT (R98): the round close at which entry `n` becomes absent (log 3). -/
def execEntryAbsent (n : Nat) (s : State) : Host.Outcome State Fault Refusal :=
  match s.roundStands with
  | some q => .next (if (s.entry n).present ∧ ((closeRound q s).entry n).present = false then closeRound q s else s)
  | none => .next s

end Sys2Proof.Machine
end

