-- ==== Sys2Proof/Machine/Queries.lean ====
section
/-! DEFINITION. The requests that are answered (R45, R60, R88, R107, R153, R178, R182, R186, R200): the QUERY of each region, FETCH
and SAMPLE, and the two events of the converter. -/

namespace Sys2Proof.Machine

/-! ## QUERY -/

/-- A QUERY whose parameters hold (R87, R88): a place is taken and filled with `body`, or BUSY. -/
def answerWith (m : Arrival) (body : AnswerBody) (s : State) : Settled :=
  if answerRoom s then (.accepted, takePlace m.sender m.seq (some body) s) else refuse .busy s

/-- The parameters after the region byte, when they are `n` bytes (R201, R207). -/
def params (n : Nat) (p : List Byte) : Option (List Byte) := if p.length = n + 1 then some (p.drop 1) else none

/-- A QUERY of a region without parameters (R207). -/
def plainQuery (body : State → AnswerBody) (m : Arrival) (s : State) : Settled :=
  match params 0 m.payload with
  | some _ => answerWith m (body s) s
  | none => refuse .refusedRange s

/-- The received bytes are a QUERY naming region `r`. -/
def queries (r : Nat) (a : Activity) : Bool := a.bears 0x20 && a.region? == some r

/-- The ring answer of channel `c` (R45). -/
def ringBody (s : State) (c : Chan) (start count : Nat) : AnswerBody :=
  let e := s.engine c
  .ring e.release e.path.head e.tail start ((List.range count).map fun k => ringGet e.ring (ringStep start k))

/-- A QUERY of the ring region (R45). -/
def settleQueryRing (m : Arrival) (s : State) : Settled :=
  match params 4 m.payload with
  | some p =>
    match chan? (field p 0 1) with
    | some c =>
      if field p 1 2 < Config.ringSize ∧ 1 ≤ field p 3 1 ∧ field p 3 1 ≤ 4 then
        answerWith m (ringBody s c (field p 1 2) (field p 3 1)) s
      else refuse .refusedRange s
    | none => refuse .refusedRange s
  | none => refuse .refusedRange s

/-- QUERY_RING (R45). -/
def execQueryRing (a : Activity) (s : State) : Host.Outcome State Fault Refusal :=
  .next (if queries 1 a then receive a (addressed settleQueryRing) s else s)

/-- The checkpoint answer of channel `c` (R60). -/
def checkpointBody (s : State) (c : Chan) (first count : Nat) : AnswerBody :=
  let e := s.engine c
  .checkpoints e.path.table.length e.scan ((e.path.table.drop first).take count)

/-- A QUERY of the checkpoint region (R60). -/
def settleQueryCheckpoints (m : Arrival) (s : State) : Settled :=
  match params 3 m.payload with
  | some p =>
    match chan? (field p 0 1) with
    | some c =>
      if field p 1 1 < 16 ∧ 1 ≤ field p 2 1 ∧ field p 2 1 ≤ 2 then
        answerWith m (checkpointBody s c (field p 1 1) (field p 2 1)) s
      else refuse .refusedRange s
    | none => refuse .refusedRange s
  | none => refuse .refusedRange s

/-- QUERY_CHECKPOINTS (R60). -/
def execQueryCheckpoints (a : Activity) (s : State) : Host.Outcome State Fault Refusal :=
  .next (if queries 2 a then receive a (addressed settleQueryCheckpoints) s else s)

/-- A QUERY of the roster region (R107). -/
def settleQueryRoster (m : Arrival) (s : State) : Settled :=
  match params 1 m.payload with
  | some p =>
    if field p 0 1 < 16 then answerWith m (.roster (s.entry (field p 0 1)) s.roster.summary) s else refuse .refusedRange s
  | none => refuse .refusedRange s

/-- QUERY_ROSTER (R107). -/
def execQueryRoster (a : Activity) (s : State) : Host.Outcome State Fault Refusal :=
  .next (if queries 3 a then receive a (addressed settleQueryRoster) s else s)

/-- Channel `c`'s part of the hold-cause answer (R153). -/
def State.holdView (s : State) (c : Chan) : HoldView :=
  { state := (s.drive c).state, kind := (s.drive c).kind, holdPoint := (s.drive c).holdPoint,
    setPoint := (s.drive c).setPoint }

/-- The hold-cause answer (R153). -/
def holdBody (s : State) : AnswerBody :=
  .holdCauses s.holds s.take.state s.take.id s.take.tf s.holdInput (Quad.ofFn s.holdView)

/-- QUERY_HOLD_CAUSES (R153). -/
def execQueryHoldCauses (a : Activity) (s : State) : Host.Outcome State Fault Refusal :=
  .next (if queries 4 a then receive a (addressed (plainQuery holdBody)) s else s)

/-- QUERY_CUE_BOARD (R88, R18). -/
def execQueryCueBoard (a : Activity) (s : State) : Host.Outcome State Fault Refusal :=
  .next (if queries 5 a then receive a (addressed (plainQuery fun s => .cueBoard s.board.entries)) s else s)

/-- The lines answer (R200). -/
def linesBody (s : State) : AnswerBody :=
  .lines ((List.range 24).map s.lineView) (Quad.ofFn s.lineChannelView) s.holdInput s.station s.subBeats

/-- How the outside stands to the lines, as last seen. -/
def State.withPins (s : State) (pins : Pins) : State := { s with lines := { s.lines with pins := pins } }

/-- QUERY_LINES (R200). -/
def execQueryLines (a : Activity) (pins : Pins) (s : State) : Host.Outcome State Fault Refusal :=
  .next (if queries 6 a then receive a (addressed (plainQuery linesBody)) (s.withPins pins) else s)

/-- The sampler answer (R182). -/
def samplerBody (s : State) : AnswerBody :=
  let x := s.sampler
  .sampler x.mode (x.conversion.map Conversion.input) x.single.isSome x.slots x.breaks x.enables x.overrun

/-- The overrun flag cleared (R176). -/
def clearOverrun (s : State) : State := { s with sampler := { s.sampler with overrun := false } }

/-- A QUERY of the sampler region (R182): once answered, the overrun flag is cleared. -/
def settleQuerySampler (m : Arrival) (s : State) : Settled :=
  let r := plainQuery samplerBody m s
  if r.1 = .accepted then (r.1, clearOverrun r.2) else r

/-- QUERY_SAMPLER (R182). -/
def execQuerySampler (a : Activity) (s : State) : Host.Outcome State Fault Refusal :=
  .next (if queries 7 a then receive a (addressed settleQuerySampler) s else s)

/-- A QUERY naming no known region (R88): no region byte, or a code outside 1..7. -/
def queriesNothing (a : Activity) : Bool := a.bears 0x20 && !(a.region?.any fun r => decide (1 ≤ r ∧ r ≤ 7))

/-- QUERY_NO_KNOWN_REGION (R88). -/
def execQueryNoKnownRegion (a : Activity) (s : State) : Host.Outcome State Fault Refusal :=
  .next (if queriesNothing a then receive a (addressed fun _ s => refuse .refusedRange s) s else s)

/-! ## FETCH (R186) -/

/-- The capture entries of an accepted FETCH of `n`, removed into an answer (R186). -/
def fetchEntries (m : Arrival) (n : Nat) (s : State) : State :=
  let rest := s.log.entries.drop n
  takePlace m.sender m.seq (some (.fetch (s.log.entries.take n) rest.length s.log.gap s.log.firstGap))
    { s with log := { s.log with entries := rest } }

/-- A FETCH (R186). -/
def settleFetch (m : Arrival) (s : State) : Settled :=
  match readByte m.payload with
  | some n =>
    if n < 1 ∨ 6 < n then refuse .refusedRange s
    else if answerRoom s then (.accepted, fetchEntries m n s) else refuse .busy s
  | none => refuse .refusedRange s

/-- FETCH (R186). -/
def execFetch (a : Activity) (s : State) : Host.Outcome State Fault Refusal :=
  .next (receiveKind 0x22 a (addressed settleFetch) s)

/-! ## SAMPLE and the converter (R174, R178, R179) -/

/-- A single is pending or in flight (R178). -/
def State.singleBusy (s : State) : Bool := s.sampler.single.isSome || s.sampler.conversion.any Conversion.single

/-- A SAMPLE (R178). -/
def settleSample (m : Arrival) (s : State) : Settled :=
  match readByte m.payload with
  | some n =>
    if 7 < n then refuse .refusedRange s
    else if s.singleBusy then refuse .busy s
    else if answerRoom s then (.accepted, samplerAccept n m.sender m.seq m.time s) else refuse .busy s
  | none => refuse .refusedRange s

/-- SAMPLE (R178). -/
def execSample (a : Activity) (s : State) : Host.Outcome State Fault Refusal :=
  .next (receiveKind 0x23 a (addressed settleSample) s)

/-- A wake ended at `t` (R174, R177). -/
def endWake (t : Nat) (s : State) : State :=
  samplerBegin t { s.atTime t with sampler := { s.sampler with waking := none } }

/-- WAKE_END (R174). -/
def execWakeEnd (s : State) : Host.Outcome State Fault Refusal :=
  match s.sampler.waking with
  | some t => .next (endWake t s)
  | none => .next s

/-- A completed conversion `v` finds a break (R179). -/
def Conversion.breaks (v : Conversion) (result : Nat) : Bool := v.precharge && decide (result = 4095)

/-- The break flag after conversion `v` (R179). -/
def Conversion.flag (v : Conversion) (result : Nat) (old : Bool) : Bool := if v.precharge then decide (result = 4095) else old

/-- The slot, the break flag and a single's answer written (R173, R179). -/
def writeConversion (v : Conversion) (result : Nat) (s : State) : State :=
  { s with
    sampler := { s.sampler with
      conversion := none, slots := s.sampler.slots.set v.input { result := result, isVoid := false },
      breaks := s.sampler.breaks.set v.input (v.flag result (s.sampler.breaks.getD v.input false)) },
    port := { s.port with
      answers := if v.single then fillWaiting (.sample v.input result (v.breaks result)) s.port.answers else s.port.answers } }

/-- WIRE_BREAK at channel `c` when it reads input `n` (R166, R179). -/
def wireBreak (n : Nat) (c : Chan) (s : State) : State :=
  if (s.setup c).feedback = .analog n then hardFault c .wireBreak s else s

/-- Conversion `v` completed with `result` (R179), and the converter freed (R177). DESIGN CHOICE (log 51): a break that reaches
several channels is raised to them in channel order, 0 first, since R179 and R137 fix no order. -/
def completeConversion (v : Conversion) (result : Nat) (s : State) : State :=
  let s1 := writeConversion v result (s.atTime v.completes)
  samplerBegin v.completes (if v.breaks result then eachChannel (wireBreak v.input) s1 else s1)

/-- CONVERSION_COMPLETE (R179). -/
def execConversionComplete (result : Nat) (s : State) : Host.Outcome State Fault Refusal :=
  match s.sampler.conversion with
  | some v => .next (if result < 4096 then completeConversion v result s else s)
  | none => .next s

end Sys2Proof.Machine
end

