-- ==== Sys2Proof/Machine/RingRequests.lean ====
section
/-! DEFINITION. The ring requests (R29 to R38): LOAD, ADVANCE, RELEASE, CLEAR_RING. -/

namespace Sys2Proof.Machine

/-! ## LOAD (R30, R31) -/

/-- Records written into consecutive entries from position `p`, modulo 1024 (R30). -/
def writeEntries (ring : List (Nat × Entry)) (p : Nat) : List Entry → List (Nat × Entry)
  | [] => ring
  | e :: es => writeEntries (ringPut ring p e) (ringStep p 1) es

/-- The `n` entries from position `p` all lie in the free region (R30). -/
def Engine.freeFrom (e : Engine) (p n : Nat) : Bool := (List.range n).all fun k => e.isFree (ringStep p k)

/-- The records of a LOAD, when every one is well formed (R30). -/
def wellFormedRecords : List (Option Entry) → Option (List Entry)
  | [] => some []
  | none :: _ => none
  | some e :: es => (wellFormedRecords es).map fun r => e :: r

/-- A LOAD (R30). -/
def settleLoad (m : Arrival) (s : State) : Settled :=
  match readLoad m.payload with
  | none => refuse .refusedRange s
  | some q =>
    match chan? q.channel, wellFormedRecords q.records with
    | some c, some es =>
      if Config.ringSize ≤ q.start ∨ es.length = 0 ∨ 4 < es.length then refuse .refusedRange s
      else if (s.engine c).freeFrom q.start es.length then
        (.accepted, s.setEngine c { s.engine c with ring := writeEntries (s.engine c).ring q.start es })
      else refuse .refusedOwned s
    | _, _ => refuse .refusedRange s

/-- LOAD (R30). -/
def execLoad (a : Activity) (s : State) : Host.Outcome State Fault Refusal :=
  .next (receiveKind 0x08 a (addressed settleLoad) s)

/-! ## ADVANCE (R33) -/

/-- The new tail lies cyclically within [tail, release − 1] (R33). -/
def Engine.mayAdvance (e : Engine) (x : Nat) : Bool :=
  decide (x < Config.ringSize) && decide (ringDistance e.release e.tail ≤ ringDistance e.release x)

/-- An ADVANCE (R33). -/
def settleAdvance (m : Arrival) (s : State) : Settled :=
  match readChannelPosition m.payload with
  | some (n, x) =>
    match chan? n with
    | some c =>
      if (s.engine c).mayAdvance x then (.accepted, s.setEngine c { s.engine c with tail := x })
      else refuse .refusedRange s
    | none => refuse .refusedRange s
  | none => refuse .refusedRange s

/-- ADVANCE (R33). -/
def execAdvance (a : Activity) (s : State) : Host.Outcome State Fault Refusal :=
  .next (receiveKind 0x09 a (addressed settleAdvance) s)

/-! ## RELEASE (R34 to R36) -/

/-- The ring position of a record in progress. -/
def Progress.position : Progress → Nat
  | .span pos _ _ _ _ _ _ => pos
  | .dwell pos _ _ _ _ => pos
  | .wait pos _ _ _ _ => pos

/-- The positions that limit RELEASE (R35): open positions of the loop stack and the record in progress. -/
def Engine.limits (e : Engine) : List Nat :=
  (e.path.stack.map Loop.openAt) ++ (e.path.progress.map Progress.position).toList

/-- R' lies at or before every limit (R35). -/
def Engine.releasable (e : Engine) (x : Nat) : Bool :=
  e.limits.all fun p => decide (ringDistance e.release x ≤ ringDistance e.release p)

/-- The nearer to release of two positions. -/
def Engine.nearer (e : Engine) (x p : Nat) : Nat := if ringDistance e.release p < ringDistance e.release x then p else x

/-- Where a RELEASE to `x` moves release (R35): the nearest of `x` and the limits. -/
def Engine.releaseTo (e : Engine) (x : Nat) : Nat := e.limits.foldl e.nearer x

/-- A checkpoint can still be restored once release has moved to `x` (R36, R50). -/
def Engine.keepsCheckpoint (e : Engine) (x : Nat) (q : Checkpoint) : Bool :=
  decide (ringDistance e.release x ≤ ringDistance e.release q.pos) &&
    q.stack.all fun l => decide (ringDistance e.release x ≤ ringDistance e.release l.openAt)

/-- Release moved to `x`, the checkpoints behind it removed (R36). -/
def Engine.moveRelease (e : Engine) (x : Nat) : Engine :=
  { e with release := x, path := { e.path with table := e.path.table.filter (e.keepsCheckpoint x) } }

/-- Channel `c` is SEEKING, or its positioning stands, as it does when a hard fault meets it (R39, R59, R116). DESIGN CHOICE
(log 54): a FAULTED channel whose scan has completed counts too, until the commit or the discard. -/
def State.positions (s : State) (c : Chan) : Bool :=
  decide ((s.drive c).state = .seeking) || (s.engine c).positioning.isSome

/-- A RELEASE (R34, R35, R39). -/
def settleRelease (m : Arrival) (s : State) : Settled :=
  match readChannelPosition m.payload with
  | some (n, x) =>
    match chan? n with
    | some c =>
      let e := s.engine c
      if Config.ringSize ≤ x then refuse .refusedRange s
      else if s.positions c then refuse .busy s
      else if ringDistance e.release e.path.head < ringDistance e.release x then refuse .refusedRange s
      else (if e.releasable x then .accepted else .clipped, s.setEngine c (e.moveRelease (e.releaseTo x)))
    | none => refuse .refusedRange s
  | none => refuse .refusedRange s

/-- RELEASE (R35). -/
def execRelease (a : Activity) (s : State) : Host.Outcome State Fault Refusal :=
  .next (receiveKind 0x0A a (addressed settleRelease) s)

/-! ## CLEAR_RING (R38) -/

/-- A ring cleared (R38): shape, path set-point and path end stand. -/
def Engine.cleared (e : Engine) : Engine :=
  { e with ring := [], release := 0, tail := 0,
           path := { e.path with head := 0, table := [], stack := [], progress := none, lastReported := none } }

/-- A CLEAR_RING (R38, R29): the channel first, then the take state (log 19). -/
def settleClearRing (m : Arrival) (s : State) : Settled :=
  match (readByte m.payload).bind chan? with
  | some c =>
    if s.take.state = .idle ∨ s.take.state = .safe then (.accepted, s.setEngine c (s.engine c).cleared)
    else refuse .refusedState s
  | none => refuse .refusedRange s

/-- CLEAR_RING (R38). -/
def execClearRing (a : Activity) (s : State) : Host.Outcome State Fault Refusal :=
  .next (receiveKind 0x0B a (addressed settleClearRing) s)

end Sys2Proof.Machine
end

