-- ==== Sys2Proof/Machine/SetupRequests.lean ====
section
/-! DEFINITION. Reset and the setup requests (chapter 12): RESET, SETUP_LINES, SETUP_CHANNEL, ENLIST, DISMISS. -/

namespace Sys2Proof.Machine

/-! ## RESET (R194) -/

/-- The station number of straps ST0..ST3 (R194). -/
def strapStation (straps : BitVec 6) : Nat := straps.toNat % 16

/-- N of straps ST5 ST4 (R194). -/
def strapSubBeats (straps : BitVec 6) : Nat :=
  match straps.toNat / 16 with
  | 0 => 8
  | 1 => 16
  | 2 => 32
  | _ => 64

/-- RESET (R194): every block at its reset values. The queue of commands is the model's own and stands. -/
def execReset (straps : BitVec 6) (pins : Pins) (s : State) : Host.Outcome State Fault Refusal :=
  .next (State.afterReset (strapStation straps) (strapSubBeats straps) pins s.pending)

/-! ## SETUP_LINES (R195) -/

/-- The tally field of a SETUP_LINES (R207): left unchanged, off every line, a line named, or out of range. -/
inductive TallyField where
  | unchanged
  | off
  | line (i : Nat)
  | outOfRange
deriving DecidableEq, Repr

def tallyField (v : Nat) : TallyField :=
  if v < 24 then .line v else if v = 0xFE then .off else if v = 0xFF then .unchanged else .outOfRange

/-- Line `i` is owned by a channel function. -/
def State.functionOwned (s : State) (i : Nat) : Bool := allChannels.any fun c => (s.functionOn i c).isSome

/-- The entries of a SETUP_LINES are in range (R195): 1..8, every line below 24, none twice. -/
def entriesInRange (es : List (Nat × Plain)) : Bool :=
  decide (1 ≤ es.length) && decide (es.length ≤ 8) && es.all (fun x => decide (x.1 < 24)) &&
    decide ((es.map fun x => x.1).Nodup)

/-- The plain settings written (R195). -/
def writePlain (es : List (Nat × Plain)) (ps : List Plain) : List Plain := es.foldl (fun ps x => ps.set x.1 x.2) ps

/-- The plain settings and TALLY of an accepted SETUP_LINES (R195). -/
def applyLines (es : List (Nat × Plain)) (tally : Option Nat) (s : State) : State :=
  { s with lines := { s.lines with plain := writePlain es s.lines.plain, tally := tally } }

/-- A SETUP_LINES (R195). -/
def settleSetupLines (m : Arrival) (s : State) : Settled :=
  match readLines m.payload with
  | none => refuse .refusedRange s
  | some q =>
    if s.take.state ≠ .safe then refuse .refusedState s
    else if !entriesInRange q.entries then refuse .refusedRange s
    else match tallyField q.tally with
      | .outOfRange => refuse .refusedRange s
      | .unchanged => (.accepted, applyLines q.entries s.lines.tally s)
      | .off => (.accepted, applyLines q.entries none s)
      | .line i => if s.functionOwned i then refuse .lineConflict s else (.accepted, applyLines q.entries (some i) s)

/-- SETUP_LINES (R195). -/
def execSetupLines (a : Activity) (s : State) : Host.Outcome State Fault Refusal :=
  .next (receiveKind 0x01 a (addressed settleSetupLines) s)

/-! ## SETUP_CHANNEL (R196, R197) -/

/-- The second check of R196: an encoder pair for ENCODER feedback, wheel lines both or neither, a leader other than this
channel of this station. -/
def setupConsistent (station : Nat) (c : Chan) (u : Setup) : Bool :=
  (decide (u.feedback ≠ .encoder) || (u.lines.encA.isSome && u.lines.encB.isSome)) &&
    (u.lines.wheelA.isSome == u.lines.wheelB.isSome) && decide (u.leader ≠ some (station, c))

/-- The lines that functions of channels other than `c` own. -/
def State.linesOfOthers (s : State) (c : Chan) : List Nat :=
  ((allChannels.filter fun d => decide (d ≠ c) && (s.chan d).configured).map fun d => (s.setup d).lines.used).flatten

/-- The third check of R196: no line twice, none owned by another channel's function or TALLY. -/
def State.linesFree (s : State) (c : Chan) (u : Setup) : Bool :=
  decide (u.lines.used.Nodup) &&
    u.lines.used.all fun i => !(s.linesOfOthers c).contains i && decide (s.lines.tally ≠ some i)

/-- The fourth check of R196. -/
def setupRelations (u : Setup) : Bool := decide (u.vmax ≤ u.maxStep) && decide (u.travelMin ≤ u.travelMax)

/-- The break-check enable of input `n` (R197). -/
def State.breakEnable (s : State) (n : Nat) : Bool :=
  allChannels.any fun c => (s.chan c).configured && decide ((s.setup c).feedback = .analog n) && (s.setup c).breakCheck

/-- The levels of a pair of lines (R193). -/
def State.pairLevel (s : State) (a b : Option Nat) : Bool × Bool := (s.assignedLevel a, s.assignedLevel b)

/-- The inputs of channel `c` after its lines were assigned (R193): limits inactive, pairs at their present levels. -/
def startInputs (c : Chan) (s : State) : State :=
  let u := s.setup c
  s.setDrive c { s.drive c with
    limitPlus := false, limitMinus := false, encPair := s.pairLevel u.lines.encA u.lines.encB,
    wheelPair := s.pairLevel u.lines.wheelA u.lines.wheelB }

/-- An accepted SETUP_CHANNEL (R197). -/
def applySetup (c : Chan) (u : Setup) (pins : Pins) (s : State) : State :=
  let s1 := { s.setChan c { s.chan c with configured := true, setup := u } with lines := { s.lines with pins := pins } }
  let s2 := startInputs c s1
  { s2 with sampler := { s2.sampler with enables := (List.range 8).map s2.breakEnable } }

/-- A SETUP_CHANNEL (R196). -/
def settleSetupChannel (pins : Pins) (m : Arrival) (s : State) : Settled :=
  match readChannelSetup m.payload with
  | none => refuse .refusedRange s
  | some q =>
    if s.take.state ≠ .safe then refuse .refusedState s
    else match chan? q.channel, q.setup with
      | some c, some u =>
        if !setupConsistent s.station c u then refuse .refusedRange s
        else if !s.linesFree c u then refuse .lineConflict s
        else if !setupRelations u then refuse .refusedRange s
        else (.accepted, applySetup c u pins s)
      | _, _ => refuse .refusedRange s

/-- SETUP_CHANNEL (R197). -/
def execSetupChannel (a : Activity) (pins : Pins) (s : State) : Host.Outcome State Fault Refusal :=
  .next (receiveKind 0x02 a (addressed (settleSetupChannel pins)) s)

/-! ## ENLIST and DISMISS (R198, R199) -/

/-- An accepted ENLIST at channel `c` (R198). -/
def enlistChannel (c : Chan) (s : State) : State :=
  match (s.drive c).state with
  | .unset => if (s.chan c).configured then energize c .parked s else s
  | .faulted => s
  | st => energize c st s

/-- An ENLIST (R198). -/
def settleEnlist (m : Arrival) (s : State) : Settled :=
  if m.payload ≠ [] then refuse .refusedRange s
  else if s.take.state = .safe then
    (.accepted, eachChannel enlistChannel { s with take := { s.take with state := .idle } })
  else refuse .refusedState s

/-- ENLIST (R198). -/
def execEnlist (a : Activity) (s : State) : Host.Outcome State Fault Refusal :=
  .next (receiveKind 0x03 a (addressed settleEnlist) s)

/-- The step output of channel `c` stops emitting, DIR held at its level (R199, R192). -/
def stopPulses (c : Chan) (s : State) : State := s.setDrive c { (s.drive c).holdDir s.clock with pulses := none }

/-- The station enters SAFE at `t` (R199, R181). -/
def enterSafe (t : Nat) (s : State) : State :=
  samplerSafeStop t (eachChannel stopPulses { s with take := { s.take with state := .safe } })

/-- A DISMISS (R199). -/
def settleDismiss (m : Arrival) (s : State) : Settled :=
  if m.payload ≠ [] then refuse .refusedRange s
  else if s.take.state = .idle then (.accepted, enterSafe m.time s)
  else refuse .refusedState s

/-- DISMISS (R199). -/
def execDismiss (a : Activity) (s : State) : Host.Outcome State Fault Refusal :=
  .next (receiveKind 0x04 a (addressed settleDismiss) s)

end Sys2Proof.Machine
end

