-- ==== Sys2Proof/Machine/TakeRequests.lean ====
section
/-! DEFINITION. The take requests and the hold line (chapters 7 and 8): ARM, ROLL, DISBAND, CLEAR, the fall and the rise of the
hold input. -/

namespace Sys2Proof.Machine

/-! ## ARM (R111 to R119) -/

/-- The take kind of an ARM's kind byte. -/
def takeKind? (n : Nat) : Option TakeKind :=
  match n with
  | 0 => some .play
  | 1 => some .recordTake
  | _ => none

/-- The kind and the mask of an ARM against those of the take it names again (R113). -/
def State.sameTake (s : State) (k : TakeKind) (mask : List Nat) : Option Result :=
  if s.take.kind = k ∧ s.take.mask = mask then none else some .refusedRange

/-- The take-state check of an ARM (R113); none when it is taken. -/
def State.armStateCheck (s : State) (id : Nat) (k : TakeKind) (mask : List Nat) : Option Result :=
  match s.take.state with
  | .safe | .countdown | .rolling | .finished | .stopping => some .refusedState
  | .idle => if id = s.take.lastId then some .takeReused else none
  | .held | .armed => if id = s.take.id then s.sameTake k mask else some .refusedState
  | .seeking =>
    match s.take.arm with
    | some a => if a.phase = .positioning ∧ id = s.take.id then s.sameTake k mask else some .refusedState
    | none => some .refusedState

/-- The source in the take that setup `u` gives under kind `k` (R111). -/
def Setup.takeSource (u : Setup) (k : TakeKind) : Source :=
  if k = .recordTake ∧ u.lines.wheelA.isSome ∧ u.lines.wheelB.isSome then .wheel
  else match u.source with
    | .path => .path
    | .follow _ _ _ _ _ => .follow

/-- Channel `c` becomes a take channel, its source fixed and its state SEEKING (R111, R114 step 4), unless UNSET. -/
def takeChannel (k : TakeKind) (c : Chan) (s : State) : State :=
  let d := s.drive c
  if d.state = .unset then s.setDrive c { d with source := none }
  else s.setDrive c { d with source := some ((s.setup c).takeSource k), state := .seeking, seek := none, follow := .none }

/-- The prior record (R109, R114 step 2). -/
def State.priorRecord (s : State) : PriorRecord :=
  { state := s.take.state, id := s.take.id, kind := s.take.kind, mask := s.take.mask, s := s.take.s, tf := s.take.tf,
    committed := s.take.committed }

/-- The fault check at entry (R114), on the drive as it stood before the ARM (log 17). -/
def entryFaulted (state : ChanState) (kind : Option FaultKind) : Bool :=
  decide (state = .faulted) || (decide (state = .stopped) && kind.isSome)

/-- The leader check at entry (R114, R169): in the mask and present. -/
def State.leaderThere (s : State) (c : Chan) : Bool :=
  match (s.setup c).leader with
  | some (st, _) => s.take.mask.contains st && (s.entry st).present
  | none => true

/-- The positioning of channel `c` begun (R51): new for a take from IDLE, else restored. -/
def positionChannel (a : ArmFlight) (c : Chan) (s : State) : State × Option Result :=
  let r := if a.prior.state = .idle then positionNew s.take.id s.subBeats s.take.s (s.engine c)
    else positionRestore s.take.id s.subBeats s.take.s (s.engine c)
  (s.setEngine c r.1, r.2)

/-- The entry checks of take channel `c` (R114 step 5). -/
def entryCheck (a : ArmFlight) (c : Chan) (s : State) : State × Option Result :=
  match (s.drive c).source with
  | none => (s, none)
  | some src =>
    if entryFaulted (a.priorStates.get c) (s.drive c).kind then (s, some .channelFaulted)
    else match src with
      | .path => positionChannel a c s
      | .follow => if s.leaderThere c then (s, none) else (s, some .leaderAbsent)
      | .wheel => (s, none)

/-- The entry checks in channel order, up to the first that refuses (R114). -/
def entryChecks (a : ArmFlight) : List Chan → State → State × Option Result
  | [], s => (s, none)
  | c :: cs, s =>
    match entryCheck a c s with
    | (s1, none) => entryChecks a cs s1
    | (s1, some r) => (s1, some r)

/-- Steps 1 to 4 of R114. -/
def enterSeeking (a : ArmFlight) (id : Nat) (k : TakeKind) (mask : List Nat) (start : Nat) (s : State) : State :=
  let s1 := eachChannel (takeChannel k) (clearBoard s)
  { s1 with take := { s1.take with
      state := .seeking, id := id, kind := k, mask := mask, s := start, arm := some a, latest := none,
      inTakeFrame := false, committed := if a.prior.state = .idle then false else s1.take.committed } }

/-- Some take channel is positioned by its Path Engine. -/
def State.hasPathChannel (s : State) : Bool := allChannels.any fun c => decide ((s.drive c).source = some .path)

/-- An ARM accepted in IDLE, HELD or ARMED (R114), which ends at once when an entry check refuses, and commits at once
without a PATH take channel. -/
def acceptArm (m : Arrival) (id : Nat) (k : TakeKind) (mask : List Nat) (start : Nat) (s : State) : State :=
  let a : ArmFlight :=
    { station := m.sender, seq := m.seq, phase := .positioning, prior := s.priorRecord,
      priorStates := Quad.ofFn (fun c => (s.drive c).state), disbanded := false }
  match entryChecks a allChannels (enterSeeking a id k mask start s) with
  | (s1, some r) => discardArm a r .discarded s1
  | (s1, none) => if s1.hasPathChannel then s1 else commitArm a s1

/-- The ARM in flight that a further ARM replaces is ended first (R119). -/
def replaceArm (s : State) : State :=
  match s.take.state, s.take.arm with
  | .seeking, some a => discardArm a .aborted .abandoned s
  | _, _ => s

/-- An ARM at a member (R112, R113, R114, R119). -/
def armMember (m : Arrival) (q : ArmRequest) (s : State) : State :=
  match takeKind? q.kind with
  | none => addOutcome m.sender m.seq .refusedRange s
  | some k =>
    if q.id = 0 then addOutcome m.sender m.seq .refusedRange s
    else if !s.holdFree then addOutcome m.sender m.seq .refusedHold s
    else match s.armStateCheck q.id k q.mask with
      | some r => addOutcome m.sender m.seq r s
      | none => acceptArm m q.id k q.mask q.s (replaceArm s)

/-- An ARM (R112): ignored outside its mask; REFUSED_RANGE for a payload of the wrong length (R201, log 19). -/
def settleArm (m : Arrival) (s : State) : State :=
  match readArm m.payload with
  | some q => if q.mask.contains s.station then armMember m q s else s
  | none => addOutcome m.sender m.seq .refusedRange s

/-- ARM (R114). -/
def execArm (a : Activity) (s : State) : Host.Outcome State Fault Refusal :=
  .next (receiveKind 0x10 a (broadcast settleArm) s)

/-! ## ROLL (R121) -/

/-- The station is a member for a take request naming `id` (R121, R129). -/
def State.namesTake (s : State) (id : Nat) : Bool := decide (s.take.id ≠ 0) && decide (s.take.id = id)

/-- The checks of a ROLL with lead `l`, in order (R121). -/
def State.rollCheck (s : State) (l : Nat) : Option Result :=
  if l < 2 ∨ 15 < l then some .refusedRange
  else if !s.holdFree then some .refusedHold
  else if s.take.state ≠ .armed then some .refusedState
  else if s.roster.summary.current && s.roster.summary.rollReady then none
  else some .refusedState

/-- The countdown started (R121). -/
def startCountdown (l : Nat) (s : State) : State := { s with take := { s.take with state := .countdown, remaining := l } }

/-- A ROLL (R121). -/
def settleRoll (m : Arrival) (s : State) : State :=
  match readRoll m.payload with
  | some (id, l) =>
    if s.namesTake id then
      match s.rollCheck l with
      | some r => addOutcome m.sender m.seq r s
      | none => addOutcome m.sender m.seq .accepted (startCountdown l s)
    else s
  | none => addOutcome m.sender m.seq .refusedRange s

/-- ROLL (R121). -/
def execRoll (a : Activity) (s : State) : Host.Outcome State Fault Refusal :=
  .next (receiveKind 0x11 a (broadcast settleRoll) s)

/-! ## DISBAND (R129) -/

/-- The take ended with nothing in motion (R129). -/
def disbandAtRest (s : State) : State := leaveTake (parkTakeChannels s)

/-- A DISBAND accepted while the ARM `a` is in flight (R129). -/
def disbandSeeking (m : Arrival) (a : ArmFlight) (s : State) : State :=
  match a.phase with
  | .positioning => addOutcome m.sender m.seq .accepted (disbandAtRest (discardArm a .aborted .abandoned s))
  | .moving => addOutcome m.sender m.seq .accepted (unwindArm { a with disbanded := true } .aborted s)
  | .unwinding =>
    addOutcome m.sender m.seq .accepted { s with take := { s.take with arm := some { a with disbanded := true } } }

/-- A DISBAND at a member (R129). -/
def disbandMember (m : Arrival) (s : State) : State :=
  match s.take.state, s.take.arm with
  | .rolling, _ => addOutcome m.sender m.seq .refusedState s
  | .stopping, _ => addOutcome m.sender m.seq .refusedState s
  | .seeking, some a => disbandSeeking m a s
  | _, _ => addOutcome m.sender m.seq .accepted (disbandAtRest s)

/-- A DISBAND (R129). -/
def settleDisband (m : Arrival) (s : State) : State :=
  match readDisband m.payload with
  | some id => if s.namesTake id then disbandMember m s else s
  | none => addOutcome m.sender m.seq .refusedRange s

/-- DISBAND (R129). -/
def execDisband (a : Activity) (s : State) : Host.Outcome State Fault Refusal :=
  .next (receiveKind 0x12 a (broadcast settleDisband) s)

/-! ## CLEAR (R141, R142) -/

/-- The take states in which CLEAR is accepted (R141). -/
def TakeState.clears : TakeState → Bool
  | .safe | .idle | .armed | .held => true
  | .seeking | .countdown | .rolling | .finished | .stopping => false

/-- An accepted CLEAR at channel `c` (R142). -/
def clearChannel (c : Chan) (s : State) : State :=
  let d := s.drive c
  match d.state with
  | .faulted => energize c .parked (s.setDrive c { d with kind := none })
  | .stopped =>
    if s.take.state = .held ∨ s.take.state = .armed then s.setDrive c { d with kind := none }
    else s.setDrive c { d.park with kind := none }
  | _ => s.setDrive c { d with kind := none }

/-- A CLEAR (R141). -/
def settleClear (m : Arrival) (s : State) : Settled :=
  if m.payload ≠ [] then refuse .refusedRange s
  else if s.take.state.clears then (.accepted, eachChannel clearChannel { s with holds := HoldRecord.empty })
  else refuse .refusedState s

/-- CLEAR (R141). -/
def execClear (a : Activity) (s : State) : Host.Outcome State Fault Refusal :=
  .next (receiveKind 0x13 a (addressed settleClear) s)

/-! ## The hold line (R131, R132, R140) -/

/-- A take channel at the entry of STOPPING from ROLLING (R132). -/
def stopPlaying (c : Chan) (s : State) : State :=
  if s.isTakeChannel c ∧ (s.drive c).state = .playing then s.setDrive c (s.drive c).enterStop else s

/-- STOPPING entered, with HELD at the same event when nothing is STOPPING (R131, R132). -/
def enterStopping (s : State) : State :=
  checkRest (eachChannel stopPlaying { s with take := { s.take with state := .stopping } })

/-- The fall of the hold input while an ARM is in flight (R131). -/
def holdSeeking (s : State) : State :=
  match s.take.arm with
  | some a =>
    match a.phase with
    | .positioning => discardArm a .aborted .abandoned s
    | .moving => unwindArm a .aborted s
    | .unwinding => s
  | none => s

/-- The fall of the hold input, by take state (R131). -/
def holdFalls (s : State) : State :=
  match s.take.state with
  | .safe | .idle | .armed | .stopping | .held => s
  | .seeking => holdSeeking s
  | .countdown | .rolling | .finished => enterStopping s

/-- HOLD_FALL (R131, R140): the filtered input goes from high to low after two low samples. -/
def execHoldFall (time : Nat) (samples : List Bool) (s : State) : Host.Outcome State Fault Refusal :=
  .next (if s.holdInput ∧ settlesTo 2 false samples then holdFalls { s.atTime time with holdInput := false } else s)

/-- HOLD_RISE (R140): the filtered input goes from low to high after two high samples. -/
def execHoldRise (time : Nat) (samples : List Bool) (s : State) : Host.Outcome State Fault Refusal :=
  .next (if s.holdInput = false ∧ settlesTo 2 true samples then { s.atTime time with holdInput := true } else s)

end Sys2Proof.Machine
end

