-- ==== Sys2Proof/Machine/Timer.lean ====
section
/-! DEFINITION. The Frame Timer (chapter 4): edges, the frame pulse with all it brings (R62 to R73, R123, R170, R184),
losing lock, and the issue of scheduled and free-running sub-beats. -/

namespace Sys2Proof.Machine

/-! ## Losing lock -/

/-- The open cue set closes (R89): an empty one closes to nothing; one that meets an unsent closed set joins it while
there is room for four. -/
def closeCues (s : State) : State :=
  { s with port := { s.port with
      closedCues := (s.port.openCues.foldl addCue s.port.closedCues).take 4, openCues := [] } }

/-- What the port keeps of its join state when the timer leaves LOCKED: a listening count returns to 0 (R78). -/
def Join.lostLock : Join → Join
  | .listening _ _ => .listening 0 false
  | .unjoined => .unjoined
  | .joined => .joined
  | .duplicate => .duplicate

/-- A message of the own turn that has not begun when its window ends is not sent; it stays held (R77, R74). DEDUCED (log
50): one due to begin at that very instant counts as begun. -/
def keepUnbegun (s : State) : State :=
  match s.port.sending with
  | some x =>
    if s.clock < x.begins then
      { s with port := { s.port with
          sending := none, answers := s.port.answers.map fun p => { p with sending := false } } }
    else s
  | none => s

/-- The timer leaves LOCKED (R70, R77, R78, R89, R97): the schedule completes, the window ends, the open cue set closes, the
round summary is no longer current. -/
def leaveLocked (s : State) : State :=
  let s1 := staleSummary (closeCues (keepUnbegun s))
  { s1 with timer := { s1.timer with state := .lost, schedule := none },
            port := { s1.port with window := .none, join := s1.port.join.lostLock } }

/-- FRAME_FAULT raised (R66). -/
def raiseFrameFault (s : State) : State := raiseCause .frameFault none none s

/-! ## The roll (R123, R188) -/

/-- A take channel leaves READY at the roll pulse (R123), its hold point none (R148), its leader-done count 0 (R171). DESIGN
CHOICE (log 57): a take channel that is not READY then keeps its state. -/
def Drive.rolled (d : Drive) (u : Setup) (pathEnded : Bool) (t : Nat) : Drive :=
  let d1 := { d with holdPoint := none, leaderDone := 0, follow := .none, playedNext := t,
                     wheelOffset := d.setPoint - wheelValue u d.wheel }
  if d.state = .ready then
    { d1 with state := if d.source = some .path ∧ pathEnded = true then .done else .playing }
  else d1

/-- Channel `c` at the roll pulse. -/
def rollChannel (c : Chan) (s : State) : State :=
  if s.isTakeChannel c then
    s.setDrive c ((s.drive c).rolled (s.setup c) (s.engine c).path.ended (s.take.s * s.subBeats))
  else s

/-- The station begins to roll (R123): ROLLING with TF = S, every take channel leaving READY. -/
def rollStart (s : State) : State :=
  eachChannel rollChannel { s with take := { s.take with state := .rolling, tf := s.take.s, remaining := 0 } }

/-- The pulse takes a countdown on (R122). -/
def countDown (s : State) : State :=
  if s.take.state = .countdown then
    let s1 := { s with take := { s.take with remaining := s.take.remaining - 1 } }
    if s1.take.remaining = 0 then rollStart s1 else s1
  else s

/-- The pulse is the roll pulse (R122, R123). -/
def State.rolls (s : State) : Bool := decide (s.take.state = .countdown) && decide (s.take.remaining ≤ 1)

/-! ## Followers at a pulse (R170, R171) -/

/-- The target b of the follower's pair (R170): g of the leader's set-point in the report of the frame just ended, whose
tag is `tag`; none when the entry does not hold it. -/
def State.followGoal (s : State) (c : Chan) (tag : Nat) : Option Int :=
  match (s.setup c).leader with
  | some (st, ch) =>
    match (s.entry st).report with
    | some r => if (s.entry st).receivedTag = tag then some (followValue (s.setup c) (r.channels.get ch).setPoint) else none
    | none => none
  | none => none

/-- A PLAYING follower after sub-beat N of a pulse: DONE with leader-done count 2 (R171), else its pair fixed (R170). -/
def followerPulse (tag : Nat) (c : Chan) (s : State) : State :=
  let d := s.drive c
  if d.state = .playing ∧ d.source = some .follow then
    if d.leaderDone = 2 then becomeDone c s
    else s.setDrive c { d with follow := .pair d.setPoint ((s.followGoal c tag).getD d.setPoint) }
  else s

/-! ## The pulse -/

/-- TF rises at a pulse in ROLLING, FINISHED and STOPPING, up to 16,777,215 (R72). -/
def riseTF (s : State) : State :=
  match s.take.state with
  | .rolling | .finished | .stopping => { s with take := { s.take with tf := min (s.take.tf + 1) Config.lastTakeFrame } }
  | .safe | .idle | .seeking | .armed | .countdown | .held => s

/-- The take states in which a frame begins at take frame TF (R72, R73). -/
def TakeState.countsFrames : TakeState → Bool
  | .rolling | .finished | .stopping => true
  | .safe | .idle | .seeking | .armed | .countdown | .held => false

/-- The frame that begins at the pulse is one of the take, or not (R73). -/
def markTakeFrame (s : State) : State := { s with take := { s.take with inTakeFrame := s.take.state.countsFrames } }

/-- At the last take frame FRAME_FAULT is raised (R72, R66). -/
def lastFrameFault (s : State) : State :=
  if (s.take.state = .rolling ∨ s.take.state = .finished) ∧ s.take.tf = Config.lastTakeFrame then raiseFrameFault s else s

/-- The port at a pulse (R74, R78, R81, R97): joining begins at the first lock, the window is laid out, and a JOINED
station takes its report snapshot. -/
def layOutWindow (s : State) : State :=
  let join := match s.port.join with
    | .unjoined => Join.listening 0 false
    | j => j
  let s1 := { s with port := { s.port with join := join } }
  match join with
  | .unjoined => s1
  | .duplicate => s1
  | .listening _ _ => startRound { s1 with port := { s1.port with window := .slots, snapshot := none } }
  | .joined =>
    let s2 := startRound { s1 with port := { s1.port with window := .slots } }
    { s2 with port := { s2.port with snapshot := some s2.report, lateOverflow := false } }

/-- The tag after a pulse (R67). -/
def nextTag (g : Nat) : Nat := (g + 1) % 256

/-- What comes before sub-beat N at an accepted pulse at microsecond `e`: the catch-up sub-beats (R69) and then the latch
of pending cues (R18). -/
def beforeBeatN (e : Nat) (s : State) : State := latchPending (nextTag s.timer.tag) (catchUp e s)

/-- The countdown and the roll (R122, R123), then sub-beat N (R69); `rolled` when this is the roll pulse. A pulse that locks
the timer ends no frame and issues no sub-beat N (R70, log 14). -/
def beatN (locking rolled : Bool) (e : Nat) (s : State) : State :=
  let s1 := countDown s
  let t := if rolled then some (s1.take.s * s1.subBeats) else s1.takeSubBeat s1.subBeats
  if locking then s1 else issueBeat e s1.subBeats t rolled s1

/-- What follows sub-beat N at an accepted pulse: followers (R170, R171), the cue set (R89), TF (R72), the last take frame,
the Capture Log (R184). -/
def afterBeats (locking rolled : Bool) (tag : Nat) (s : State) : State :=
  let s1 := eachChannel (followerPulse tag) s
  let s2 := if locking then s1 else closeCues s1
  let s3 := markTakeFrame (if rolled then s2 else riseTF s2)
  capturePulse (lastFrameFault s3)

/-- The timer begins the frame of the pulse at microsecond `e` with period `d` (R63, R64, R67, R69). -/
def beginFrame (e d : Nat) (s : State) : State :=
  { s with timer := { s.timer with
      state := .locked, reference := none, lastPulse := some e, period := some d, tag := nextTag s.timer.tag,
      schedule := some (1, e + d / s.subBeats) } }

/-- The open window that a pulse ended, kept by the port (log 44). -/
def State.withEnded (s : State) (w : Option EndedWindow) : State := { s with port := { s.port with ended := w } }

/-- A pulse accepted at microsecond `e` after interval `d`; `locking` when it locks the timer from ABSENT or LOST. The new
period stands for the sub-beats issued at the pulse (log 13). -/
def framePulse (locking : Bool) (e d : Nat) (s : State) : State :=
  let s1 := beforeBeatN e { s with timer := { s.timer with period := some d } }
  (layOutWindow (keepUnbegun (beginFrame e d (afterBeats locking s1.rolls s1.timer.tag
    (beatN locking s1.rolls e s1))))).withEnded (s.endedWindow e)

/-! ## Edges (R61, R63, R64) -/

/-- An interval within 4,000..1,000,000 microseconds. -/
def validPeriod (d : Nat) : Bool := decide (Config.minPeriod ≤ d) && decide (d ≤ Config.maxPeriod)

/-- An edge at microsecond `e` while ABSENT or LOST (R63). -/
def edgeUnlocked (e : Nat) (s : State) : State :=
  match s.timer.reference with
  | none => { s with timer := { s.timer with reference := some e } }
  | some r =>
    if validPeriod (e - r) then framePulse true e (e - r) s
    else { s with timer := { s.timer with reference := some e } }

/-- An edge at microsecond `e` while LOCKED, `d` after the last pulse, the period being `p` (R64). -/
def edgeLocked (e d p : Nat) (s : State) : State :=
  if 4 * d < 3 * p then raiseFrameFault s
  else if validPeriod d then framePulse false e d s
  else
    let s1 := leaveLocked s
    raiseFrameFault { s1 with timer := { s1.timer with reference := some e } }

/-- A rising edge seen at `time` (R61). -/
def risingEdge (time : Nat) (s : State) : State :=
  let s1 := s.atTime time
  let e := micros s1.clock
  match s1.timer.state, s1.timer.lastPulse, s1.timer.period with
  | .locked, some q, some p => edgeLocked e (e - q) p s1
  | .locked, _, _ => edgeUnlocked e s1
  | .absent, _, _ => edgeUnlocked e s1
  | .lost, _, _ => edgeUnlocked e s1

/-- Two consecutive samples of the synchronized FRAME level show a rising edge (R61). -/
def isEdge (before after : Bool) : Bool := !before && after

/-- FRAME_EDGE (R61, R63, R64). -/
def execFrameEdge (time : Nat) (before after : Bool) (s : State) : Host.Outcome State Fault Refusal :=
  .next (if isEdge before after then risingEdge time s else s)

/-- ROLL_PULSE (R123): the edge, when it is accepted as the roll pulse (log 3). -/
def execRollPulse (time : Nat) (before after : Bool) (s : State) : Host.Outcome State Fault Refusal :=
  let s1 := risingEdge time s
  .next (if isEdge before after ∧ s.take.state = .countdown ∧
      (s1.take.state = .rolling ∨ s1.take.state = .finished) then s1 else s)

/-- The station plays or has finished at the last take frame (R72). -/
def State.atLastFrame (s : State) : Bool :=
  (decide (s.take.state = .rolling) || decide (s.take.state = .finished)) && decide (s.take.tf = Config.lastTakeFrame)

/-- LAST_TAKE_FRAME (R72): the edge, when it is accepted as a pulse after which TF stands at 16,777,215 (log 3). -/
def execLastTakeFrame (time : Nat) (before after : Bool) (s : State) : Host.Outcome State Fault Refusal :=
  let s1 := risingEdge time s
  .next (if isEdge before after ∧ s1.timer.lastPulse ≠ s.timer.lastPulse ∧ s1.atLastFrame then s1 else s)

/-- FOLLOWER_DONE (R171): the edge, when follower `c` becomes DONE at it (log 3). -/
def execFollowerDone (time : Nat) (before after : Bool) (c : Chan) (s : State) : Host.Outcome State Fault Refusal :=
  let s1 := risingEdge time s
  .next (if isEdge before after ∧ (s.drive c).state = .playing ∧ (s.drive c).source = some .follow ∧
      (s1.drive c).state = .done then s1 else s)

/-- The lost-frame expiry at last pulse `q` with period `p` (R65). -/
def expireFrame (q p : Nat) (s : State) : State :=
  let s1 := leaveLocked (s.atTime ((q + 2 * p) * Config.tick))
  raiseFrameFault { s1 with timer := { s1.timer with reference := none } }

/-- LOST_FRAME_EXPIRY (R65): taken in LOCKED with every scheduled sub-beat issued. -/
def execLostFrameExpiry (s : State) : Host.Outcome State Fault Refusal :=
  match s.timer.state, s.timer.schedule, s.timer.lastPulse, s.timer.period with
  | .locked, none, some q, some p => .next (expireFrame q p s)
  | _, _, _, _ => .next s

/-! ## Sub-beats -/

/-- The schedule after sub-beat `k` of the frame begun at `q` with period `p` (R69). -/
def nextDue (n q p k : Nat) : Option (Nat × Nat) := if k + 1 < n then some (k + 1, q + (k + 1) * p / n) else none

/-- Scheduled sub-beat `k`, due at microsecond `due`, issued: at `due`, or now if the clock is past it (log 32). -/
def scheduledBeat (k due q p : Nat) (s : State) : State :=
  let e := max (micros s.clock) due
  let s1 := s.atTime (e * Config.tick)
  let s2 := issueBeat e k (s1.takeSubBeat k) false s1
  { s2 with timer := { s2.timer with schedule := nextDue s.subBeats q p k } }

/-- SUB_BEAT (R69). -/
def execSubBeat (s : State) : Host.Outcome State Fault Refusal :=
  match s.timer.schedule, s.timer.lastPulse, s.timer.period with
  | some (k, due), some q, some p => .next (scheduledBeat k due q p s)
  | _, _, _ => .next s

/-- The microsecond at which the next free-running sub-beat falls (R71). -/
def freeDue (n q p latest : Nat) : Nat := max (q + p) (latest + p / n)

/-- A free-running sub-beat issued at its time, or at once when that has passed (R71). -/
def freeBeat (q p : Nat) (s : State) : State :=
  let e := max (micros s.clock) (freeDue s.subBeats q p (s.timer.latest.getD q))
  issueFreeBeat e (s.atTime (e * Config.tick))

/-- FREE_SUB_BEAT (R71). -/
def execFreeSubBeat (s : State) : Host.Outcome State Fault Refusal :=
  match s.timer.schedule, s.timer.lastPulse, s.timer.period with
  | none, some q, some p => .next (if s.anyDrive (fun d => decide (d.state = .stopping)) then freeBeat q p s else s)
  | _, _, _ => .next s

end Sys2Proof.Machine
end

