-- ==== Sys2Proof/Machine/Dispatch.lean ====
section
/-! DEFINITION. The meaning of each command: one arm per constructor of Instr. -/

namespace Sys2Proof.Machine

/-- A command's effect on everything but the queue. -/
def exec (i : Instr) (s : State) : Host.Outcome State Fault Refusal :=
  match i with
  | .reset straps pins => Sys2Proof.Machine.execReset straps pins s
  | .frameEdge time before after => Sys2Proof.Machine.execFrameEdge time before after s
  | .rollPulse time before after => Sys2Proof.Machine.execRollPulse time before after s
  | .lastTakeFrame time before after => Sys2Proof.Machine.execLastTakeFrame time before after s
  | .lostFrameExpiry => Sys2Proof.Machine.execLostFrameExpiry s
  | .subBeat => Sys2Proof.Machine.execSubBeat s
  | .freeSubBeat => Sys2Proof.Machine.execFreeSubBeat s
  | .stopped c => Sys2Proof.Machine.execStopped c s
  | .recordComplete c => Sys2Proof.Machine.execRecordComplete c s
  | .originRecord c => Sys2Proof.Machine.execOriginRecord c s
  | .shapeRecord c => Sys2Proof.Machine.execShapeRecord c s
  | .spanRecord c => Sys2Proof.Machine.execSpanRecord c s
  | .dwellRecord c => Sys2Proof.Machine.execDwellRecord c s
  | .loopOpenRecord c => Sys2Proof.Machine.execLoopOpenRecord c s
  | .loopCloseRecord c => Sys2Proof.Machine.execLoopCloseRecord c s
  | .waitCueRecord c => Sys2Proof.Machine.execWaitCueRecord c s
  | .emitCueRecord c => Sys2Proof.Machine.execEmitCueRecord c s
  | .endRecord c => Sys2Proof.Machine.execEndRecord c s
  | .noneRecord c => Sys2Proof.Machine.execNoneRecord c s
  | .stall c => Sys2Proof.Machine.execStall c s
  | .waitStampPass c => Sys2Proof.Machine.execWaitStampPass c s
  | .waitExpiry c => Sys2Proof.Machine.execWaitExpiry c s
  | .followError c => Sys2Proof.Machine.execFollowError c s
  | .followerDone time before after c => Sys2Proof.Machine.execFollowerDone time before after c s
  | .stepPulse c => Sys2Proof.Machine.execStepPulse c s
  | .reportSlot => Sys2Proof.Machine.execReportSlot s
  | .reportSent mismatch => Sys2Proof.Machine.execReportSent mismatch s
  | .reportArrival a => Sys2Proof.Machine.execReportArrival a s
  | .roundClose => Sys2Proof.Machine.execRoundClose s
  | .joined => Sys2Proof.Machine.execJoined s
  | .entryAbsent station => Sys2Proof.Machine.execEntryAbsent station s
  | .turnStart => Sys2Proof.Machine.execTurnStart s
  | .messageSent => Sys2Proof.Machine.execMessageSent s
  | .busError a => Sys2Proof.Machine.execBusError a s
  | .setupLines a => Sys2Proof.Machine.execSetupLines a s
  | .setupChannel a pins => Sys2Proof.Machine.execSetupChannel a pins s
  | .enlist a => Sys2Proof.Machine.execEnlist a s
  | .dismiss a => Sys2Proof.Machine.execDismiss a s
  | .load a => Sys2Proof.Machine.execLoad a s
  | .advance a => Sys2Proof.Machine.execAdvance a s
  | .release a => Sys2Proof.Machine.execRelease a s
  | .clearRing a => Sys2Proof.Machine.execClearRing a s
  | .arm a => Sys2Proof.Machine.execArm a s
  | .roll a => Sys2Proof.Machine.execRoll a s
  | .disband a => Sys2Proof.Machine.execDisband a s
  | .clear a => Sys2Proof.Machine.execClear a s
  | .cue a => Sys2Proof.Machine.execCue a s
  | .queryRing a => Sys2Proof.Machine.execQueryRing a s
  | .queryCheckpoints a => Sys2Proof.Machine.execQueryCheckpoints a s
  | .queryRoster a => Sys2Proof.Machine.execQueryRoster a s
  | .queryHoldCauses a => Sys2Proof.Machine.execQueryHoldCauses a s
  | .queryCueBoard a => Sys2Proof.Machine.execQueryCueBoard a s
  | .queryLines a pins => Sys2Proof.Machine.execQueryLines a pins s
  | .querySampler a => Sys2Proof.Machine.execQuerySampler a s
  | .fetch a => Sys2Proof.Machine.execFetch a s
  | .sample a => Sys2Proof.Machine.execSample a s
  | .answer a => Sys2Proof.Machine.execAnswer a s
  | .unknownKind a => Sys2Proof.Machine.execUnknownKind a s
  | .scanComplete c => Sys2Proof.Machine.execScanComplete c s
  | .scanRefusal c => Sys2Proof.Machine.execScanRefusal c s
  | .holdFall time samples => Sys2Proof.Machine.execHoldFall time samples s
  | .holdRise time samples => Sys2Proof.Machine.execHoldRise time samples s
  | .limitActive time c plus samples => Sys2Proof.Machine.execLimitActive time c plus samples s
  | .encoderChange time c first second => Sys2Proof.Machine.execEncoderChange time c first second s
  | .wheelChange time c first second => Sys2Proof.Machine.execWheelChange time c first second s
  | .wakeEnd => Sys2Proof.Machine.execWakeEnd s
  | .conversionComplete result => Sys2Proof.Machine.execConversionComplete result s
  | .limitInactive time c plus samples => Sys2Proof.Machine.execLimitInactive time c plus samples s
  | .queryNoKnownRegion a => Sys2Proof.Machine.execQueryNoKnownRegion a s

end Sys2Proof.Machine
end

