-- ==== Sys2Proof/Machine/Step.lean ====
section
/-! DEFINITION. One step of the station: the command at the front of its queue is taken; with none waiting the block idles
(log 4). -/

namespace Sys2Proof.Machine

/-- The queue replaced. -/
def State.withPending (s : State) (q : List Instr) : State := { s with pending := q }

/-- One step: the front command's effect on the station with the rest of the queue; next s on an empty queue (log 4). -/
def step (s : State) : Host.Outcome State Fault Refusal :=
  match s.pending with
  | [] => .next s
  | c :: rest => exec c (s.withPending rest)

/-- The command a table word spells put at the front of the queue; no word spells one (Sys2Proof/Decode.lean). -/
def State.withFetchWord (s : State) (nbits w : Nat) : State :=
  match decodeTableWord nbits w with
  | some c => s.withPending (c :: s.pending)
  | none => s

end Sys2Proof.Machine
end

