-- ==== Sys2Proof/Safety.lean ====
section
/-! DEFINITION. What a safe station is, in the terms the claims use: invariants of the state that every step is to keep. -/

namespace Sys2Proof.Machine

/-- A path state whose ring positions are 0..1023 and whose stack, table and zero-time count keep the bounds of R3, R7 and
R48. -/
structure Path.Ok (p : Path) : Prop where
  head : p.head < Config.ringSize
  stack : p.stack.length ≤ Config.loopLimit
  opens : ∀ l ∈ p.stack, l.openAt < Config.ringSize
  progress : ∀ x ∈ p.progress, x.position < Config.ringSize
  zero : p.zero ≤ Config.zeroTimeLimit
  table : p.table.length ≤ Config.checkpointLimit
  places : ∀ q ∈ p.table, q.pos < Config.ringSize
  copies : ∀ q ∈ p.table, q.stack.length ≤ Config.loopLimit ∧ ∀ l ∈ q.stack, l.openAt < Config.ringSize

/-- A Path Engine in order (R3, R26, R48): its ring in the canonical form (log 27), its pointers ring positions, its path and
its pending path in order, its pending stamps at ring positions. -/
structure Engine.Ok (e : Engine) : Prop where
  ring : ringWf e.ring = true
  release : e.release < Config.ringSize
  tail : e.tail < Config.ringSize
  path : e.path.Ok
  pendingPath : ∀ p ∈ e.positioning, p.path.Ok
  pendingStamps : ∀ p ∈ e.positioning, ∀ x ∈ p.stamps, x.1 < Config.ringSize

/-- All four Path Engines are in order. -/
def State.enginesOk (s : State) : Prop := ∀ c : Chan, (s.engine c).Ok

/-- The ring positions a path state names: head, the open positions of its loops, the record in progress, and what its
checkpoints copy of them (R3, R48). -/
def Path.positions (p : Path) : List Nat :=
  p.head :: p.stack.map Loop.openAt ++ (p.progress.map Progress.position).toList ++
    (p.table.map fun q => q.pos :: q.stack.map Loop.openAt).flatten

/-- Position `x` lies in `[release, tail]` of the ring (R26, R27). -/
def Engine.holds (e : Engine) (x : Nat) : Prop := ringDistance e.release x ≤ ringDistance e.release e.tail

/-- R27's order: head, and every position the engine may move head back to, lies within `[release, tail]`, in the committed
path state and in the pending one. -/
structure Engine.Ordered (e : Engine) : Prop where
  path : ∀ x ∈ e.path.positions, e.holds x
  pendingPath : ∀ p ∈ e.positioning, ∀ x ∈ p.path.positions, e.holds x

/-- Positionings are in flight only while an ARM is, in its phase POSITIONING (R51, R109). -/
def State.positionsInArm (s : State) : Prop :=
  (∃ c, (s.engine c).positioning ≠ none) →
    s.take.state = .seeking ∧ ∃ a, s.take.arm = some a ∧ a.phase = .positioning

/-- The four rings in R27's order: release, head and tail stand in that cyclic order. -/
structure State.RingsInOrder (s : State) : Prop where
  ok : s.enginesOk
  ordered : ∀ c : Chan, (s.engine c).Ordered
  positioning : s.positionsInArm

/-- The bounded lists of the port and the log hold no more than the spec gives them (R86, R87, R183). -/
def State.listsBounded (s : State) : Prop :=
  s.port.outcomes.length ≤ 4 ∧ s.port.answers.length ≤ 4 ∧ s.log.entries.length ≤ Config.logLimit

/-- What no command but RESET changes, and what no command's effect touches: the strapped station number, N, and the queue. -/
def State.fixed (s : State) : Nat × Nat × List Instr := (s.station, s.subBeats, s.pending)

/-- A step of the station is one of its sender's commands taken, or idling: it never stops the station. -/
def stepsOn (s : State) : Prop := ∃ t, step s = .next t

/-! ## Names the statements use -/

/-- Channel `c` plays its path, needs a record, and the loaded record at head is `r` (R4, R5). -/
def State.needs (s : State) (c : Chan) (r : Record) : Prop :=
  (s.drive c).state = .playing ∧ (s.drive c).source = some .path ∧ (s.engine c).path.progress = none ∧
    (s.engine c).path.ended = false ∧ (s.engine c).path.head ≠ (s.engine c).tail ∧
    (ringGet (s.engine c).ring (s.engine c).path.head).record = r

/-- The stamp of a completion at the latest sub-beat of channel `c`'s engine (R2). -/
def State.stampHere (s : State) (c : Chan) : Stamp :=
  { takeId := s.take.id, frame := (s.engine c).path.latest / s.subBeats, sub := (s.engine c).path.latest % s.subBeats }

/-- The last reported position once the record at `pos` has completed (R25). -/
def Engine.reportedAt (e : Engine) (pos : Nat) : Option Nat :=
  if (ringGet e.ring pos).report then some pos else e.path.lastReported

/-- Channel `c`'s engine with path `p`, the record at `pos` stamped at the latest sub-beat. -/
def State.stampedWith (s : State) (c : Chan) (pos : Nat) (p : Path) : State :=
  s.setEngine c { s.engine c with path := p, ring := ringStamp (s.engine c).ring pos (s.stampHere c) }

/-- Channel `c`'s engine with path `p`, its ring as it stands. -/
def State.withPath (s : State) (c : Chan) (p : Path) : State := s.setEngine c { s.engine c with path := p }

/-- The checkpoint table after an offer at `t` for the record at `pos` (R49). -/
def Path.tableAfterOffer (p : Path) (t pos : Nat) : List Checkpoint :=
  if p.table.any (fun q => decide (q.t0 = t)) then p.table
  else (if Config.checkpointLimit ≤ p.table.length then p.table.drop 1 else p.table) ++
    [{ t0 := t, pos := pos, setPoint := p.setPoint, shape := p.shape, stack := p.stack, lastReported := p.lastReported }]

/-- A valid message of kind `k` addressed to this station reaches its owner (R82, R84). -/
def State.reaches (s : State) (k : Nat) (a : Activity) : Prop :=
  a.bears k = true ∧ s.admission a = .valid ∧ (arrivalOf a).target = some s.station

/-- A valid message of kind `k` sent to ALL reaches its owner (R82, R84). -/
def State.reachesAll (s : State) (k : Nat) (a : Activity) : Prop :=
  a.bears k = true ∧ s.admission a = .valid ∧ (arrivalOf a).target = none

/-- The request that arrived with `a` settled with result `r` on the state `t` its effect left (R86). -/
def State.settled (a : Activity) (r : Result) (t : State) : State :=
  addOutcome (arrivalOf a).sender (arrivalOf a).seq r t

/-- A frame pulse at `time` would be accepted in LOCKED (R64): its interval is no runt and within the valid range. -/
def State.acceptsPulse (s : State) (time : Nat) : Prop :=
  ∃ q p, s.timer.state = .locked ∧ s.timer.lastPulse = some q ∧ s.timer.period = some p ∧
    3 * p ≤ 4 * (micros (max s.clock time) - q) ∧ 4000 ≤ micros (max s.clock time) - q ∧
    micros (max s.clock time) - q ≤ 1000000

/-! ## What the statements about sub-beats, turns and an ARM's entry share -/

/-- Channel `c`'s following-error count once the monitor has compared (R164). -/
def State.errorsAfter (s : State) (c : Chan) : Nat :=
  match s.feedback c with
  | some y => if (s.setup c).followLimit < (y - (s.drive c).setPoint).natAbs then (s.drive c).followErrors + 1 else 0
  | none => (s.drive c).followErrors

/-- Channel `c`'s drive once the monitor has compared (R164). -/
def State.monitored (s : State) (c : Chan) : Drive := { s.drive c with followErrors := s.errorsAfter c }

/-- The following monitor lets channel `c` go on (R164). -/
def State.follows (s : State) (c : Chan) : Prop := ∀ y, s.feedback c = some y → s.errorsAfter c < 2

/-- Channel `c` alone is energized. -/
def State.alone (s : State) (c : Chan) : Prop := s.energized c = true ∧ ∀ b, b ≠ c → s.energized b = false

/-- Scheduled sub-beat `k` stands to be issued at microsecond `e` (R69, log 32). -/
def State.dueAt (s : State) (k e : Nat) : Prop :=
  ∃ due q p, s.timer.schedule = some (k, due) ∧ s.timer.lastPulse = some q ∧ s.timer.period = some p ∧
    e = max (micros s.clock) due

/-- The free-running sub-beat stands to be issued at microsecond `e` (R71). -/
def State.freeAt (s : State) (e : Nat) : Prop :=
  ∃ q p, s.timer.schedule = none ∧ s.timer.lastPulse = some q ∧ s.timer.period = some p ∧
    e = max (micros s.clock) (max (q + p) (s.timer.latest.getD q + p / s.subBeats))

/-- The drive `d` once it has issued set-point `x` at microsecond `e` (R158, the interval I being trunc(P/N) µs). -/
def State.issued (s : State) (e : Nat) (x : Int) (d : Drive) : Drive :=
  d.issue (e * 16) (s.timer.period.getD 0 / s.subBeats * 16) x

/-- What the offer of set-point `x` comes to at channel `c` (steps 3 to 5 of R156, R157, R158): a drive `d` whose offer passes
the checks becomes `n`, or takes STEP_BACKLOG; one whose offer fails keeps its set-point and takes the fault. -/
structure State.Offered (s t : State) (c : Chan) (x : Int) (d n : Drive) : Prop where
  issues : offerCheck d (s.setup c) x = none → (x - d.stepPos).natAbs ≤ 2 * (s.setup c).maxStep → t.drive c = n
  backlog : offerCheck d (s.setup c) x = none → 2 * (s.setup c).maxStep < (x - d.stepPos).natAbs →
    (t.drive c).state = .faulted ∧ (t.drive c).kind = some .stepBacklog ∧ (t.drive c).setPoint = x
  fails : ∀ f, offerCheck d (s.setup c) x = some f →
    (t.drive c).setPoint = d.setPoint ∧ (t.drive c).previous = d.previous ∧
    (f.isHard = true → (t.drive c).state = .faulted ∧ (t.drive c).kind = some f) ∧
    (f.isHard = false → ((t.drive c).state = .stopping ∨ (t.drive c).state = .stopped) ∧
      (t.drive c).kind = some (d.kind.getD f))

/-- What the port of a station that leaves its window at `now` does with a message not begun (R77): it is not sent and stays
held; one begun goes on. -/
def Port.KeepsUnbegun (p t : Port) (now : Nat) : Prop :=
  (∀ x, p.sending = some x → now < x.begins →
    t.sending = none ∧ t.answers = p.answers.map fun a => { a with sending := false }) ∧
  ((∀ x, p.sending = some x → x.begins ≤ now) → t.sending = p.sending ∧ t.answers = p.answers)

/-- What the own turn begun at `b` leaves the port `t`, from `p`, with the guard beginning at `g` (R74, R75, R76): a closed cue
set goes first, else the oldest complete answer; a message that would not be over before the guard is not begun (log 40). -/
structure Port.OwnTurn (p t : Port) (station b g : Nat) : Prop where
  cues : p.closedCues ≠ [] →
    let bytes := message 0x18 station none p.cueSeq (p.closedCues.map byte)
    (b + 16 + bytes.length * 16 ≤ g → t.answers = p.answers ∧ t.sending =
      some { what := .cues p.closedCues, bytes := bytes, begins := b + 16, ends := b + 16 + bytes.length * 16 }) ∧
    (g < b + 16 + bytes.length * 16 → t.sending = p.sending ∧ t.answers = p.answers)
  silence : p.closedCues = [] → (∀ a ∈ p.answers, a.body = none) → t.sending = p.sending ∧ t.answers = p.answers
  answer : ∀ ws a ps x, p.closedCues = [] → p.answers = ws ++ a :: ps → (∀ w ∈ ws, w.body = none) → a.body = some x →
    let bytes := message 0x21 station (some a.station) a.seq x.payload
    (b + 16 + bytes.length * 16 ≤ g → t.answers = ws ++ { a with sending := true } :: ps ∧
      t.sending = some { what := .answer, bytes := bytes, begins := b + 16, ends := b + 16 + bytes.length * 16 }) ∧
    (g < b + 16 + bytes.length * 16 → t.sending = p.sending ∧ t.answers = p.answers)

/-- The ARM in flight `f` begins to unwind in `s` with outcome `r`, and leaves `u` (R118): the phase is UNWINDING and the outcome
is added; a take channel in seek motion starts its stop profile from its last two issued set-points (R144), or is STOPPED where
they give no speed; one with no seek waits no more; everything else stands. -/
structure State.UnwindingBegun (s u : State) (f : ArmFlight) (r : Result) : Prop where
  take : u.take = { s.take with arm := some { f with phase := .unwinding } }
  outcome : u.port = (addOutcome f.station f.seq r s).port
  moving : ∀ c p, s.isTakeChannel c = true → (s.drive c).state = .seeking → (s.drive c).seek ≠ none →
    (s.drive c).previous = some p → p ≠ (s.drive c).setPoint →
    u.drive c = { s.drive c with
      state := .stopping, seek := none, follow := .none,
      stop := some { speed := ((s.drive c).setPoint - p).natAbs, up := decide (p < (s.drive c).setPoint),
                     position := (s.drive c).setPoint } }
  still : ∀ c, s.isTakeChannel c = true → (s.drive c).state = .seeking → (s.drive c).seek ≠ none →
    (s.drive c).previous = none ∨ (s.drive c).previous = some (s.drive c).setPoint →
    u.drive c = { s.drive c with state := .stopped, seek := none, follow := .none, stop := none }
  waiting : ∀ c, s.isTakeChannel c = true → (s.drive c).state = .seeking → (s.drive c).seek = none →
    u.drive c = { s.drive c with follow := .none }
  others : ∀ c, s.isTakeChannel c = false ∨ (s.drive c).state ≠ .seeking → u.drive c = s.drive c
  engines : ∀ c, u.engine c = s.engine c
  rest : u.holds = s.holds ∧ u.board = s.board ∧ u.log = s.log ∧ u.timer = s.timer ∧ u.roster = s.roster

/-- The take of `u` left for IDLE in `t` (R118, R127, R129): the record cleared, its id kept as the last one when committed, and
no channel keeps a source. -/
def State.leftForIdle (u t : State) : Prop :=
  t.take = { u.take with
    state := .idle, id := 0, mask := [], s := 0, remaining := 0, tf := 0, committed := false, arm := none, latest := none,
    inTakeFrame := false, lastId := if u.take.committed then u.take.id else u.take.lastId } ∧
  ∀ c, (t.drive c).source = none

/-- Some take channel is STOPPING. -/
def State.someStopping (s : State) : Prop := ∃ c, s.isTakeChannel c = true ∧ (s.drive c).state = .stopping

/-- Every take channel of `u` is PARKED in `t` at its set-point, but for those FAULTED, UNSET, or STOPPED with a fault kind
(R118, R129); hold points, fault kinds and engines stand. -/
structure State.Parked (u t : State) : Prop where
  parks : ∀ c, u.isTakeChannel c = true → (u.drive c).state ≠ .unset → (u.drive c).state ≠ .faulted →
    (u.drive c).state ≠ .stopped ∨ (u.drive c).kind = none → (t.drive c).state = .parked
  stays : ∀ c, u.isTakeChannel c = false ∨ (u.drive c).state = .unset ∨ (u.drive c).state = .faulted ∨
    ((u.drive c).state = .stopped ∧ (u.drive c).kind ≠ none) → (t.drive c).state = (u.drive c).state
  keeps : ∀ c, t.engine c = u.engine c ∧ (t.drive c).setPoint = (u.drive c).setPoint ∧
    (t.drive c).kind = (u.drive c).kind ∧ (t.drive c).holdPoint = (u.drive c).holdPoint

/-- The unwinding of `f` is over in `u`, and leaves `t` (R118, R129): the take channels park, and the take is left for IDLE when
its prior state was IDLE or a DISBAND reached it, and is HELD again else, with the prior record's S and TF. -/
structure State.Unwound (u t : State) (f : ArmFlight) : Prop where
  parked : u.Parked t
  idle : f.disbanded = true ∨ f.prior.state = .idle → u.leftForIdle t
  held : f.disbanded = false → f.prior.state ≠ .idle →
    t.take = { u.take with state := .held, s := f.prior.s, tf := f.prior.tf, committed := true, arm := none } ∧
    ∀ c, (t.drive c).source = (u.drive c).source
  rest : t.port = u.port ∧ t.holds = u.holds ∧ t.log = u.log

/-- Channel `c` has no fault that R114 turns away, and, following, its leader in `mask` and present (R114, R169). -/
def State.mayEnter (s : State) (k : TakeKind) (mask : List Nat) (c : Chan) : Prop :=
  (s.drive c).state ≠ .faulted ∧ ((s.drive c).state = .stopped → (s.drive c).kind = none) ∧
  ((s.setup c).takeSource k = .follow → ∀ st ch, (s.setup c).leader = some (st, ch) →
    mask.contains st = true ∧ (s.entry st).present = true)

/-- A loaded ORIGIN stands at release (R52). -/
def Engine.onOrigin (e : Engine) : Prop := e.release ≠ e.tail ∧ ∃ x, (ringGet e.ring e.release).record = .origin x

/-- Channel `c` is no take channel, or passes the entry checks of an ARM of a new take (R111, R114). -/
def State.entersNew (s : State) (k : TakeKind) (mask : List Nat) (c : Chan) : Prop :=
  (s.drive c).state ≠ .unset → s.mayEnter k mask c ∧ ((s.setup c).takeSource k = .path → (s.engine c).onOrigin)

/-- Channel `c` is no take channel, or passes the entry checks of an ARM that picks the take up at sub-beat `goal` (R53,
R111, R114). -/
def State.entersAgain (s : State) (k : TakeKind) (mask : List Nat) (goal : Nat) (c : Chan) : Prop :=
  (s.drive c).state ≠ .unset → s.mayEnter k mask c ∧
    ((s.setup c).takeSource k = .path → ∃ q ∈ (s.engine c).path.table, q.t0 ≤ goal)

end Sys2Proof.Machine
end

