-- ==== Sys2Proof/Certificates/Slice0/Obligations.lean ====
section
/-! DEFINITION. The statements for the provers. Each cites the rules of spec/ it rests on in OBLIGATIONS.json. -/

open Sys2Proof Sys2Proof.Machine

/-! ## The station as a whole -/

/-- A step takes the front command, with the rest of the queue left waiting; on an empty queue the station idles (log 4). -/
def Obligations.StepTakesTheFrontCommand : Prop :=
  ∀ (s : State) (c : Instr) (q : List Instr),
    step (s.withPending (c :: q)) = exec c (s.withPending q) ∧ step (s.withPending []) = .next (s.withPending [])

/-- No command stops the station: each answers a next state, in every state.
Station number and N stand until RESET (R194), and no command's effect touches the queue.
That a command whose event does not stand answers next too is the model's choice (log 2). -/
def Obligations.EveryCommandAnswersAndKeepsStrapsAndQueue : Prop :=
  ((∀ (c : Instr) (s : State), ∃ t, exec c s = .next t) ∧ ∀ s : State, stepsOn s) ∧
  (∀ (c : Instr) (s t : State), exec c s = .next t →
     t.pending = s.pending ∧ ((∀ straps pins, c ≠ .reset straps pins) → t.station = s.station ∧ t.subBeats = s.subBeats))

/-- Every step keeps the four Path Engines in order (R3, R26, R48). -/
def Obligations.EveryStepKeepsTheEnginesInOrder : Prop :=
  ∀ s t : State, s.enginesOk → step s = .next t → t.enginesOk

/-- The engines are in order after reset. -/
def Obligations.ResetLeavesTheEnginesInOrder : Prop :=
 State.reset.enginesOk

/-- Every step keeps the outcome list, the answer queue and the Capture Log within their bounds (R86, R87, R183). -/
def Obligations.EveryStepKeepsTheListsBounded : Prop :=
  (∀ s t : State, s.listsBounded → step s = .next t → t.listsBounded) ∧ State.reset.listsBounded

/-- RESET takes station and N from the straps and gives every block its reset values: R194, and the reset columns of R3, R48,
R58, R62, R91, R95, R100, R109, R136, R154 and R172, with R18, R28, R158, R183, R190, R193 and R197.
What the spec gives no reset value (log 36) is left open here. -/
def Obligations.ResetGivesTheResetValues : Prop :=
  ∀ (straps : BitVec 6) (pins : Pins) (s : State), ∃ t, exec (.reset straps pins) s = .next t ∧
    t.station = straps.toNat % 16 ∧
    (straps.toNat / 16 = 0 → t.subBeats = 8) ∧ (straps.toNat / 16 = 1 → t.subBeats = 16) ∧
    (straps.toNat / 16 = 2 → t.subBeats = 32) ∧ (straps.toNat / 16 = 3 → t.subBeats = 64) ∧
    t.timer = { state := .absent, reference := none, lastPulse := none, period := none, tag := 0, schedule := none,
                latest := none } ∧
    t.port = { t.port with
      join := .unjoined, duplicateFree := false, window := .none, cueSeq := 0, outcomes := [], overflow := false,
      answers := [], openCues := [], closedCues := [] } ∧
    (∀ n < 16, t.entry n = { present := false, missed := 8, mark := false, receivedTag := 0, report := none }) ∧
    t.roster.summary =
      { tag := 0, takeState := .safe, takeId := 0, mask := [], reported := [], present := [], missing := [],
        disagreeing := [], slipping := [], rollReady := false, allFinished := false, causes := [], current := false } ∧
    t.take = { t.take with
      state := .safe, id := 0, kind := .play, mask := [], s := 0, remaining := 0, tf := 0, committed := false,
      lastId := 0, arm := none } ∧
    t.holds =
      { flags := { channelFault := false, memberMissing := false, disagree := false, slip := false, busError := false,
                   frameFault := false },
        first := none, sub := none, concerned := none, kind := none } ∧
    t.pullsHold = false ∧ t.holdInput = true ∧
    (∀ c : Chan, (t.chan c).configured = false ∧
      t.setup c = { t.setup c with
        lines := { step := none, dir := none, enable := none, brake := none, limitPlus := none, limitMinus := none,
                   encA := none, encB := none, wheelA := none, wheelB := none },
        followLimit := 0, maxStep := 0, vmax := 0, seekRate := 0, stopRate := 0, travelMin := 0, travelMax := 0,
        lowMark := 0, capture := false, wheelNum := 0, wheelDen := 0, gainNum := 0, gainDen := 0, base := 0,
        breakCheck := false } ∧
      t.drive c = { t.drive c with
        state := .unset, setPoint := 0, previous := none, stepPos := 0, source := none, seek := none, follow := .none,
        leaderDone := 0, stop := none, encoder := 0, wheel := 0, followErrors := 0, kind := none, holdPoint := none,
        limitPlus := false, limitMinus := false } ∧
      (∀ u, (t.drive c).dirAt u = false) ∧ t.stepHigh c = false ∧
      (∀ p < 1024, ringGet (t.engine c).ring p = { record := .none, report := false, stamp := none }) ∧
      (t.engine c).release = 0 ∧ (t.engine c).tail = 0 ∧ (t.engine c).positioning = none ∧
      (t.engine c).path = { (t.engine c).path with
        head := 0, shape := { profile := .linear, num := 1, den := 1 }, stack := [], progress := none, setPoint := 0,
        zero := 0, lastReported := none, ended := false, table := [] } ∧
      (t.engine c).scan =
        { code := .none, takeId := 0, s := 0, start := none, stopPos := none, stopSub := none, kind := none,
          target := none }) ∧
    (∀ q < 64, t.board.entries[q]? = some { isSet := false, tag := 0 }) ∧ t.board.pending = [] ∧
    t.sampler =
      { mode := .standby, waking := none, conversion := none, pass := none, single := none,
        slots := List.replicate 8 { result := 0, isVoid := true }, breaks := List.replicate 8 false,
        enables := List.replicate 8 false, overrun := false } ∧
    t.log = { entries := [], gap := false, firstGap := none } ∧ t.lines.tally = none ∧
    ∀ i < 24, t.plainOf i = { output := false, high := false, pullUp := false, inputEnable := true } ∧
      t.lineOwner i = .none

/-! ## Frame timing (chapter 4) -/

/-- FRAME_EDGE in ABSENT and LOST (R63): the reference edge is kept, replaced, or met at a valid spacing, which locks.
A falling or steady level is no edge (R61): nothing changes.
What the locking pulse does to the port (R74, R78, R81, R97): UNJOINED becomes LISTENING with count 0; the window is laid out, a
JOINED station takes its snapshot, and a DUPLICATE one lays out none. -/
def Obligations.EdgesWhileUnlocked : Prop :=
  (∀ (s : State) (time e : Nat), s.timer.state = .absent ∨ s.timer.state = .lost → e = micros (max s.clock time) →
     (s.timer.reference = none → exec (.frameEdge time false true) s =
       .next { s.atTime time with timer := { s.timer with reference := some e } }) ∧
     (∀ r, s.timer.reference = some r → e - r < 4000 ∨ 1000000 < e - r → exec (.frameEdge time false true) s =
       .next { s.atTime time with timer := { s.timer with reference := some e } }) ∧
     (∀ r, s.timer.reference = some r → s.timer.schedule = none → 4000 ≤ e - r → e - r ≤ 1000000 →
       ∃ t, exec (.frameEdge time false true) s = .next t ∧
         t.timer = { s.timer with
           state := .locked, reference := none, lastPulse := some e, period := some (e - r), tag := (s.timer.tag + 1) % 256,
           schedule := some (1, e + (e - r) / s.subBeats) } ∧ (∀ c, t.engine c = s.engine c) ∧
         t.port.outcomes = s.port.outcomes ∧
         (s.port.join = .unjoined → t.port.join = .listening 0 false) ∧
         (s.port.join ≠ .unjoined → t.port.join = s.port.join) ∧
         (s.port.join ≠ .duplicate → t.port.window = .slots ∧ (∀ n, (t.entry n).mark = false) ∧
           t.roster.summary.current = false) ∧
         (s.port.join = .duplicate → t.port.window = s.port.window) ∧
         (s.port.join = .joined → t.port.snapshot = some t.report))) ∧
  (∀ (s : State) (time : Nat) (before after : Bool), ¬(before = false ∧ after = true) →
     exec (.frameEdge time before after) s = .next s)

/-- FRAME_EDGE in LOCKED, not accepted (R64, R66): a runt is ignored; an interval out of range loses lock and keeps the edge;
FRAME_FAULT latches in COUNTDOWN, ROLLING and FINISHED alone.
LOST_FRAME_EXPIRY (R65, R66, R70): at last pulse + 2P the timer is LOST, keeping period, last pulse and tag.
At the loss a message of the port not begun stays held (R77), the open cue set joins the closed one (R89), and a listening
count returns to 0 (R78).
That a message due to begin at that very instant counts as begun is the model's choice (log 50). -/
def Obligations.RuntsAndLossOfLock : Prop :=
  let keeps (s t : State) : Prop := s.port.KeepsUnbegun t.port t.clock ∧ t.port.window = .none ∧ t.port.openCues = [] ∧
    (∀ n heard, s.port.join = .listening n heard → t.port.join = .listening 0 false) ∧
    ((∀ n heard, s.port.join ≠ .listening n heard) → t.port.join = s.port.join) ∧
    (s.port.closedCues.length ≤ 4 → s.port.closedCues <+: t.port.closedCues) ∧
    (s.port.closedCues = [] → s.port.openCues.Nodup → s.port.openCues.length ≤ 4 → t.port.closedCues = s.port.openCues)
  (∀ (s : State) (time e q p : Nat), s.timer.state = .locked → s.timer.lastPulse = some q → s.timer.period = some p →
     e = micros (max s.clock time) →
     (4 * (e - q) < 3 * p → ∃ t, exec (.frameEdge time false true) s = .next t ∧ t.timer = s.timer ∧
       t.channels = s.channels ∧ t.port = s.port ∧ t.roster = s.roster ∧ t.take = s.take ∧
       t.holds.flags = { s.holds.flags with frameFault := s.holds.flags.frameFault || s.take.state.isRunning }) ∧
     (3 * p ≤ 4 * (e - q) → e - q < 4000 ∨ 1000000 < e - q → ∃ t, exec (.frameEdge time false true) s = .next t ∧
       t.timer = { s.timer with state := .lost, reference := some e, schedule := none } ∧
       t.clock = max s.clock time ∧ t.channels = s.channels ∧ t.take = s.take ∧ keeps s t ∧
       t.port.outcomes = s.port.outcomes ∧
       t.roster = { s.roster with summary := { s.roster.summary with current := false } } ∧
       t.holds.flags = { s.holds.flags with frameFault := s.holds.flags.frameFault || s.take.state.isRunning })) ∧
  (∀ (s : State) (q p : Nat), s.timer.state = .locked → s.timer.schedule = none → s.timer.lastPulse = some q →
     s.timer.period = some p → ∃ t, exec .lostFrameExpiry s = .next t ∧
       t.timer = { s.timer with state := .lost, reference := none } ∧ t.clock = max s.clock ((q + 2 * p) * 16) ∧
       t.channels = s.channels ∧ t.take = s.take ∧ t.log = s.log ∧ t.board = s.board ∧ keeps s t ∧
       t.port.outcomes = s.port.outcomes ∧ t.roster.entries = s.roster.entries ∧
       t.roster.summary.current = false ∧
       t.holds.flags = { s.holds.flags with frameFault := s.holds.flags.frameFault || s.take.state.isRunning })

/-- FRAME_EDGE accepted in LOCKED (R64, R67, R69, R72, R122): a new frame begins; TF rises in ROLLING and FINISHED; a
countdown with frames left falls by one.
What the pulse does, in order (R18, R69, R77, R81, R89, R122, R170, R184): the catch-up sub-beats, the latch of the pending
cues with the tag the pulse gives, the countdown and sub-beat N, what follows it, the new frame, a message not begun left held,
and the window laid out. The port keeps the open window that ended, with the turn that stood (R82, R83, R107, log 44).
That the catch-up and sub-beat N stand under the new period, and that a message due to begin at that very instant counts as
begun, are the model's choice (logs 13, 50). -/
def Obligations.PulseAcceptedWhileLocked : Prop :=
  ∀ (s : State) (time e q : Nat), s.acceptsPulse time → e = micros (max s.clock time) → s.timer.lastPulse = some q →
    (∃ t, exec (.frameEdge time false true) s = .next t ∧
      t.timer = { state := .locked, reference := none, lastPulse := some e, period := some (e - q),
                  tag := (s.timer.tag + 1) % 256, schedule := some (1, e + (e - q) / s.subBeats), latest := some e } ∧
      (s.take.state = .rolling ∨ s.take.state = .finished →
        (t.take.state = .rolling ∨ t.take.state = .finished) ∧ t.take.tf = min (s.take.tf + 1) 16777215) ∧
      (s.take.state = .countdown → 1 < s.take.remaining →
        t.take.state = .countdown ∧ t.take.remaining = s.take.remaining - 1 ∧ t.take.tf = s.take.tf) ∧
      (s.port.window = .none → t.port.ended = none) ∧
      ∀ p, s.timer.period = some p →
        let w (x : Option EndedTurn) : EndedWindow :=
          { opens := (q + 840) * 16, closes := min ((q + p - 200) * 16) (e * 16), turn := x }
        (s.port.window = .slots ∨ s.port.window = .silence → t.port.ended = some (w none)) ∧
        ∀ i began idle, s.port.window = .turn i began idle →
          t.port.ended = some (w (some { holder := (s.timer.tag + i) % 16, began := began }))) ∧
    let u := latchPending ((s.timer.tag + 1) % 256)
      (catchUp e { s.atTime time with timer := { s.timer with period := some (e - q) } })
    exec (.frameEdge time false true) s = .next ((layOutWindow (keepUnbegun (beginFrame e (e - q)
      (afterBeats false u.rolls u.timer.tag (beatN false u.rolls e u))))).withEnded ((s.atTime time).endedWindow e))

/-- ROLL_PULSE (R123): the accepted pulse that takes the countdown to 0 begins the roll with TF = S.
The take channels at the roll (R123, R148, R171, R188): a READY one plays, or is DONE with path end; hold points go.
That ROLL_PULSE is the whole edge is the model's choice (log 3). -/
def Obligations.TheRoll : Prop :=
  (∀ (s : State) (time : Nat), s.acceptsPulse time → s.take.state = .countdown → s.take.remaining ≤ 1 →
     ∃ t, exec (.rollPulse time false true) s = .next t ∧ exec (.frameEdge time false true) s = .next t ∧
       (t.take.state = .rolling ∨ t.take.state = .finished) ∧ t.take.tf = s.take.s ∧ t.take.id = s.take.id ∧
       t.timer.tag = (s.timer.tag + 1) % 256) ∧
  (∀ (s : State) (c : Chan), s.isTakeChannel c = true →
     ((rollStart s).take.state = .rolling ∧ (rollStart s).take.tf = s.take.s) ∧
     ((rollStart s).drive c).holdPoint = none ∧ ((rollStart s).drive c).leaderDone = 0 ∧
     ((rollStart s).drive c).setPoint = (s.drive c).setPoint ∧
     ((rollStart s).drive c).wheelOffset = (s.drive c).setPoint - wheelValue (s.setup c) (s.drive c).wheel ∧
     ((s.drive c).state = .ready → ((rollStart s).drive c).state =
       if (s.drive c).source = some .path ∧ (s.engine c).path.ended = true then .done else .playing) ∧
     ((s.drive c).state ≠ .ready → ((rollStart s).drive c).state = (s.drive c).state))

/-- LAST_TAKE_FRAME (R72): the accepted pulse at which TF comes to 16,777,215 in ROLLING or FINISHED latches FRAME_FAULT.
That LAST_TAKE_FRAME is the whole edge, and that TF stands at its greatest value, are the model's choice (logs 3, 15). -/
def Obligations.LastTakeFrameFaults : Prop :=
  ∀ (s : State) (time : Nat), s.acceptsPulse time → s.take.state = .rolling ∨ s.take.state = .finished →
    16777215 ≤ s.take.tf + 1 →
    ∃ t, exec (.lastTakeFrame time false true) s = .next t ∧ exec (.frameEdge time false true) s = .next t ∧
      t.take.tf = 16777215 ∧ t.holds.flags.frameFault = true ∧ t.pullsHold = true

/-- SUB_BEAT (R69, R73, R138): sub-beat k is issued, the schedule moves to k + 1 or completes; while the take runs, and in HELD
for what is left of a frame of the take (log 12), it carries TF·N + k, the latest take sub-beat.
FREE_SUB_BEAT (R71): issued at the later of last pulse + P and latest + trunc(P/N); it reaches no engine, no log, no cue
board, and in STOPPING no channel but those STOPPING.
What SUB_BEAT does to a drive that holds (R155, R156): the monitor compares first (R164), and a count of 2 is FOLLOW_ERROR
with nothing issued; else the set-point is issued again. The other states' set-points are in the statements on spans, records,
stops, seeks and followers; a channel not energized gets none.
What either does to the sampler (R174, R175, R176): with a pass in flight the trigger is dropped and overrun set; with an empty
sweep set it is dropped; else a pass of the sweep set is created, which wakes the converter, begins, or waits.
That an instant is the due time, or the clock when it is later, is the model's choice (log 32). -/
def Obligations.SubBeats : Prop :=
  (∀ (s : State) (k due q p : Nat), s.timer.schedule = some (k, due) → s.timer.lastPulse = some q →
     s.timer.period = some p → ∃ t, exec .subBeat s = .next t ∧
       t.timer = { s.timer with
         schedule := if k + 1 < s.subBeats then some (k + 1, q + (k + 1) * p / s.subBeats) else none,
         latest := some (max (micros s.clock) due) } ∧
       t.log = s.log ∧ t.roster = s.roster ∧
       (s.take.state = .rolling ∨ s.take.state = .finished →
         t.take.latest = some (s.take.tf * s.subBeats + k) ∧ t.take.tf = s.take.tf) ∧
       (s.take.state = .stopping ∨ (s.take.state = .held ∧ s.take.inTakeFrame = true) →
         t.take.latest = some (s.take.tf * s.subBeats + k)) ∧
       (s.take.state = .held → s.take.inTakeFrame = false → t.take.latest = s.take.latest) ∧
       (s.take.state ≠ .seeking → ∀ c, s.energized c = false → t.chan c = s.chan c)) ∧
  (∀ (s : State) (q p : Nat), s.timer.schedule = none → s.timer.lastPulse = some q → s.timer.period = some p →
     (∃ c, (s.drive c).state = .stopping) → ∃ t, exec .freeSubBeat s = .next t ∧
       t.timer = { s.timer with
         latest := some (max (micros s.clock) (max (q + p) (s.timer.latest.getD q + p / s.subBeats))) } ∧
       t.log = s.log ∧ t.board = s.board ∧ t.roster = s.roster ∧ (∀ c, t.engine c = s.engine c) ∧
       (s.take.state = .stopping → ∀ c, (s.drive c).state ≠ .stopping → t.drive c = s.drive c)) ∧
  (∀ (s : State) (c : Chan) (k e : Nat), s.dueAt k e → s.alone c →
     let d := s.monitored c
     ((s.drive c).state = .parked ∨ (s.drive c).state = .ready ∨ (s.drive c).state = .done ∨
         (s.drive c).state = .stopped → s.follows c →
       ∃ t, exec .subBeat s = .next t ∧ t.engine c = s.engine c ∧
         s.Offered t c d.setPoint d (s.issued e d.setPoint d)) ∧
     (∀ y, s.feedback c = some y → 2 ≤ s.errorsAfter c → ∃ t, exec .subBeat s = .next t ∧ t.engine c = s.engine c ∧
       (t.drive c).state = .faulted ∧ (t.drive c).kind = some .followError ∧ (t.drive c).setPoint = (s.drive c).setPoint ∧
       (t.drive c).previous = (s.drive c).previous ∧ (t.drive c).stepPos = (s.drive c).stepPos ∧
       (t.drive c).pulses = none)) ∧
  (∀ (s : State) (e : Nat) (row : Instr),
     (row = .subBeat ∧ ∃ k, s.dueAt k e) ∨ (row = .freeSubBeat ∧ s.freeAt e ∧ ∃ c, (s.drive c).state = .stopping) →
     ∃ t, exec row s = .next t ∧
       (∀ n, n ∈ sweepSet t ↔ n < 8 ∧ ∃ c, t.energized c = true ∧ (t.setup c).feedback = .analog n) ∧
       (sweepSet t).Pairwise (· < ·) ∧
       (s.sampler.pass ≠ none → t.sampler = { s.sampler with overrun := true }) ∧
       (s.sampler.pass = none → sweepSet t = [] → t.sampler = { s.sampler with mode := t.sampler.mode }) ∧
       (s.sampler.pass = none → sweepSet t ≠ [] →
         (s.sampler.mode = .standby → t.sampler = { s.sampler with
           mode := .sweep, waking := some (e * 16 + 320), pass := some (sweepSet t) }) ∧
         (s.sampler.mode ≠ .standby → s.sampler.conversion ≠ none ∨ s.sampler.waking ≠ none →
           t.sampler = { s.sampler with pass := some (sweepSet t) }) ∧
         (s.sampler.mode ≠ .standby → s.sampler.conversion = none → s.sampler.waking = none →
           ∀ n rest, sweepSet t = n :: rest →
             let check := s.sampler.enables.getD n false
             let first : Conversion := { input := n, single := false, precharge := check,
                                         completes := e * 16 + 48 + (if check then 8 else 0) }
             t.sampler = { s.sampler with mode := .sweep, conversion := some first, pass := some rest })))

/-! ## Path records (chapter 1) -/

/-- Span carving (R10): the set-point at offset j of a span in progress, the four profiles, f(0) = 0, f(K) = D', and the mirror
of −D'.
SUB_BEAT evaluates it (R4, R6, R156): inside a span of a PLAYING channel, the span stands at its offset, the path set-point is
start + f, and that set-point is offered (R157, R158) once the monitor lets it (R164).
That the sub-beat's instant is the due time, or the clock when it is later, is the model's choice (log 32). -/
def Obligations.SpanCarving : Prop :=
  (∀ (d : Int) (j k : Nat), 0 < k → j ≤ k →
    carve .linear d j k = (d * j).tdiv k ∧
    carve .easeIn d j k = (d * (j : Int) ^ 2).tdiv ((k : Int) ^ 2) ∧
    carve .easeOut d j k = (d * (2 * j * k - (j : Int) ^ 2)).tdiv ((k : Int) ^ 2) ∧
    carve .ease d j k = (d * ((j : Int) ^ 2 * (3 * k - 2 * j))).tdiv ((k : Int) ^ 3) ∧
    ∀ pr : Profile, (carve pr d 0 k = 0 ∧ carve pr d k k = d ∧ carve pr (-d) j k = -carve pr d j k) ∧
      ∀ (p : Path) (pos t0 i : Nat) (start : Int), p.progress = some (.span pos t0 start d pr k i) →
        p.advanceTo (t0 + j) = { p with progress := some (.span pos t0 start d pr k j), setPoint := start + carve pr d j k }) ∧
  (∀ (s : State) (c : Chan) (n e pos t0 k j i : Nat) (start d : Int) (pr : Profile),
    s.dueAt n e → s.alone c → s.follows c → s.take.state = .rolling ∨ s.take.state = .finished →
    (s.drive c).state = .playing → (s.drive c).source = some .path →
    (s.engine c).path.progress = some (.span pos t0 start d pr k i) → s.take.tf * s.subBeats + n = t0 + j → j < k →
    ∃ t, exec .subBeat s = .next t ∧
      t.engine c = { s.engine c with path := { (s.engine c).path with
        progress := some (.span pos t0 start d pr k j), setPoint := start + carve pr d j k, zero := 0, latest := t0 + j } } ∧
      s.Offered t c (start + carve pr d j k) (s.monitored c)
        (s.issued e (start + carve pr d j k) { s.monitored c with playedNext := t0 + j + 1 }))

/-- SHAPE taken (R13, R5, R7, R25): the current shape replaced, the record stamped, the count raised; a span in progress,
there being none, cannot be touched. Everything else stands.
DWELL taken (R11, R49): the set-point is held for L·N sub-beats, a checkpoint is offered. -/
def Obligations.ShapeAndDwellTaken : Prop :=
  (∀ (s : State) (c : Chan) (pr : Profile) (num den : Nat), s.needs c (.shape pr num den) → (s.engine c).path.zero < 16 →
     exec (.shapeRecord c) s = .next (s.stampedWith c (s.engine c).path.head { (s.engine c).path with
       head := ((s.engine c).path.head + 1) % 1024, shape := { profile := pr, num := num, den := den },
       zero := (s.engine c).path.zero + 1, lastReported := (s.engine c).reportedAt (s.engine c).path.head })) ∧
  (∀ (s : State) (c : Chan) (l : Nat), s.needs c (.dwell l) →
     exec (.dwellRecord c) s = .next (s.withPath c { (s.engine c).path with
       head := ((s.engine c).path.head + 1) % 1024,
       progress := some (.dwell (s.engine c).path.head (s.engine c).path.latest (s.engine c).path.setPoint
         (l * s.subBeats) 0),
       table := (s.engine c).path.tableAfterOffer (s.engine c).path.latest (s.engine c).path.head }))

/-- SPAN taken (R9, R49): all the span will do is fixed, a checkpoint is offered, nothing is stamped. -/
def Obligations.SpanTaken : Prop :=
  ∀ (s : State) (c : Chan) (d : Int) (l : Nat), s.needs c (.span d l) →
    exec (.spanRecord c) s = .next (s.withPath c { (s.engine c).path with
      head := ((s.engine c).path.head + 1) % 1024,
      progress := some (.span (s.engine c).path.head (s.engine c).path.latest (s.engine c).path.setPoint
        ((d * (s.engine c).path.shape.num).tdiv (s.engine c).path.shape.den) (s.engine c).path.shape.profile
        (l * s.subBeats) 0),
      table := (s.engine c).path.tableAfterOffer (s.engine c).path.latest (s.engine c).path.head })

/-- LOOP_OPEN taken (R15): an entry is pushed; with four on the stack it is LOOP_DEPTH and head stays.
LOOP_CLOSE taken (R16): a repeat, a pop, or PATH_FORM with the stack empty. -/
def Obligations.LoopsOpenedAndClosed : Prop :=
  (∀ (s : State) (c : Chan) (count : Nat), s.needs c (.loopOpen count) → (s.engine c).path.zero < 16 →
     ((s.engine c).path.stack.length < 4 →
       exec (.loopOpenRecord c) s = .next (s.stampedWith c (s.engine c).path.head { (s.engine c).path with
         head := ((s.engine c).path.head + 1) % 1024,
         stack := { openAt := ((s.engine c).path.head + 1) % 1024, remaining := count } :: (s.engine c).path.stack,
         zero := (s.engine c).path.zero + 1, lastReported := (s.engine c).reportedAt (s.engine c).path.head })) ∧
     (4 ≤ (s.engine c).path.stack.length → exec (.loopOpenRecord c) s = .next (softFault c .loopDepth s))) ∧
  (∀ (s : State) (c : Chan), s.needs c .loopClose → (s.engine c).path.zero < 16 →
     ((s.engine c).path.stack = [] → exec (.loopCloseRecord c) s = .next (softFault c .pathForm s)) ∧
     (∀ l rest, (s.engine c).path.stack = l :: rest → 1 < l.remaining →
       exec (.loopCloseRecord c) s = .next (s.stampedWith c (s.engine c).path.head { (s.engine c).path with
         head := l.openAt, stack := { l with remaining := l.remaining - 1 } :: rest,
         zero := (s.engine c).path.zero + 1, lastReported := (s.engine c).reportedAt (s.engine c).path.head })) ∧
     (∀ l rest, (s.engine c).path.stack = l :: rest → l.remaining ≤ 1 →
       exec (.loopCloseRecord c) s = .next (s.stampedWith c (s.engine c).path.head { (s.engine c).path with
         head := ((s.engine c).path.head + 1) % 1024, stack := rest,
         zero := (s.engine c).path.zero + 1, lastReported := (s.engine c).reportedAt (s.engine c).path.head })))

/-- WAIT_CUE taken in play (R19, R20): PATH_FORM inside a loop; a stamp of the current take decides alone; without one the
Cue Board does. A wait that holds becomes the record in progress.
R20 clears the entry of a cue that passed a wait at the end of the sub-beat: that the row leaves the entry set and puts the cue
in the consumed set, which the next sub-beat clears first, is the model's choice (log 31). -/
def Obligations.WaitCueTaken : Prop :=
  ∀ (s : State) (c : Chan) (cue timeout : Nat) (act : OnTimeout), s.needs c (.waitCue cue timeout act) →
    let p := (s.engine c).path
    let e := ringGet (s.engine c).ring p.head
    let stamped := e.currentStamp s.take.id
    let passed := s.stampedWith c p.head { p with
      head := (p.head + 1) % 1024, zero := p.zero + 1, lastReported := (s.engine c).reportedAt p.head }
    let held := s.withPath c { p with
      head := (p.head + 1) % 1024,
      progress := some (.wait p.head p.latest cue (if timeout = 0 then none else some (p.latest + timeout * s.subBeats)) act) }
    (p.stack ≠ [] → exec (.waitCueRecord c) s = .next (softFault c .pathForm s)) ∧
    (∀ st, p.stack = [] → stamped = some st → p.latest < st.subBeat s.subBeats →
      exec (.waitCueRecord c) s = .next held) ∧
    (∀ st, p.stack = [] → stamped = some st → st.subBeat s.subBeats ≤ p.latest → p.zero < 16 →
      exec (.waitCueRecord c) s = .next passed) ∧
    (p.stack = [] → stamped = none → s.cueSet cue = false → exec (.waitCueRecord c) s = .next held) ∧
    (p.stack = [] → stamped = none → s.cueSet cue = true → p.zero < 16 →
      exec (.waitCueRecord c) s =
        .next { passed with board := { s.board with consumed := cue :: s.board.consumed } })

/-- EMIT_CUE taken in play (R22): the cue joins the frame's cue set while it holds fewer than four, or is there already; else
CUE_DROP.
END taken (R24, R126): path end, the channel DONE, and FINISHED when every take channel is DONE. -/
def Obligations.EmitCueAndEndTaken : Prop :=
  (∀ (s : State) (c : Chan) (cue : Nat), s.needs c (.emitCue cue) → (s.engine c).path.zero < 16 →
     let p := (s.engine c).path
     let done := s.stampedWith c p.head { p with
       head := (p.head + 1) % 1024, zero := p.zero + 1, lastReported := (s.engine c).reportedAt p.head }
     (s.port.openCues.contains cue = true → exec (.emitCueRecord c) s = .next done) ∧
     (s.port.openCues.contains cue = false → s.port.openCues.length < 4 → exec (.emitCueRecord c) s =
       .next { done with port := { s.port with openCues := s.port.openCues ++ [cue] } }) ∧
     (s.port.openCues.contains cue = false → 4 ≤ s.port.openCues.length →
       exec (.emitCueRecord c) s = .next (softFault c .cueDrop s))) ∧
  (∀ (s : State) (c : Chan), s.needs c .pathEnd →
     let p := (s.engine c).path
     let u := (s.stampedWith c p.head { p with
       head := (p.head + 1) % 1024, ended := true, lastReported := (s.engine c).reportedAt p.head }).setDrive c
         { s.drive c with state := .done, follow := .none }
     exec (.endRecord c) s = .next { u with take := { s.take with
       state := if s.take.state = .rolling ∧ u.allTake (fun d => decide (d.state = .done)) then .finished
                else s.take.state } })

/-- NONE or ORIGIN reached is PATH_FORM (R8, R14), and a SHAPE, LOOP_OPEN, LOOP_CLOSE or EMIT_CUE, or a WAIT_CUE that would be
passed at once, reached at a count of 16 is STALL (R7); head stays on the record. A SPAN, DWELL, END, NONE or ORIGIN at that
count, a WAIT_CUE that holds or stands in a loop, and any record below it, are no STALL.
That the row STALL changes nothing there, its event not standing, is the model's choice (log 2). -/
def Obligations.RecordFormFaults : Prop :=
  ∀ (s : State) (c : Chan),
    (s.needs c .none → exec (.noneRecord c) s = .next (softFault c .pathForm s)) ∧
    (∀ x, s.needs c (.origin x) → exec (.originRecord c) s = .next (softFault c .pathForm s)) ∧
    ((s.engine c).path.zero = 16 →
      (∀ pr num den, s.needs c (.shape pr num den) → exec (.stall c) s = .next (softFault c .stall s)) ∧
      (∀ count, s.needs c (.loopOpen count) → exec (.stall c) s = .next (softFault c .stall s)) ∧
      (s.needs c .loopClose → exec (.stall c) s = .next (softFault c .stall s)) ∧
      (∀ cue, s.needs c (.emitCue cue) → exec (.stall c) s = .next (softFault c .stall s)) ∧
      (∀ cue timeout act, s.needs c (.waitCue cue timeout act) →
        let p := (s.engine c).path
        let stamped := (ringGet (s.engine c).ring p.head).currentStamp s.take.id
        (∀ st, p.stack = [] → stamped = some st → st.subBeat s.subBeats ≤ p.latest →
          exec (.stall c) s = .next (softFault c .stall s)) ∧
        (p.stack = [] → stamped = none → s.cueSet cue = true → exec (.stall c) s = .next (softFault c .stall s)) ∧
        (∀ st, p.stack = [] → stamped = some st → p.latest < st.subBeat s.subBeats → exec (.stall c) s = .next s) ∧
        (p.stack = [] → stamped = none → s.cueSet cue = false → exec (.stall c) s = .next s) ∧
        (p.stack ≠ [] → exec (.stall c) s = .next s)) ∧
      (∀ d l, s.needs c (.span d l) → exec (.stall c) s = .next s) ∧
      (∀ l, s.needs c (.dwell l) → exec (.stall c) s = .next s) ∧
      (s.needs c .pathEnd → exec (.stall c) s = .next s) ∧ (s.needs c .none → exec (.stall c) s = .next s) ∧
      (∀ x, s.needs c (.origin x) → exec (.stall c) s = .next s)) ∧
    ((s.engine c).path.zero < 16 → exec (.stall c) s = .next s)

/-- RECORD_COMPLETE, WAIT_STAMP_PASS and WAIT_EXPIRY (R6, R19, R21) complete the record in progress and go on, or, for an
expired HOLD with the cue clear, raise CUE_TIMEOUT.
What a completion does (R2, R6, R31, R43): the entry is stamped with the sub-beat, every record and REPORT flag stands,
and the engine goes on: a SPAN at head begins at once, and with head on tail it is RING_EMPTY.
SUB_BEAT of a PLAYING channel (R4, R20, R24, R156) is one evaluation of its path: engine, cue set and board are as it leaves
them, and the set-point is offered, then DONE at an END or the fault's stop; a record that ends there completes as above.
That the rows go on taking records is the model's choice (log 3). -/
def Obligations.RecordsInProgressEndAndGoOn : Prop :=
  (∀ (s : State) (c : Chan), (s.drive c).state = .playing → (s.drive c).source = some .path →
     (∀ pos t0 st d pr k j, (s.engine c).path.progress = some (.span pos t0 st d pr k j) → k ≤ j →
       exec (.recordComplete c) s = .next (completeAndGoOn c pos none s)) ∧
     (∀ pos t0 st k j, (s.engine c).path.progress = some (.dwell pos t0 st k j) → k ≤ j →
       exec (.recordComplete c) s = .next (completeAndGoOn c pos none s)) ∧
     ∀ pos began cue expiry act, (s.engine c).path.progress = some (.wait pos began cue expiry act) →
       (∀ st, (ringGet (s.engine c).ring pos).currentStamp s.take.id = some st →
         st.subBeat s.subBeats ≤ (s.engine c).path.latest →
         exec (.waitStampPass c) s = .next (completeAndGoOn c pos none s)) ∧
       (∀ x, (ringGet (s.engine c).ring pos).currentStamp s.take.id = none → expiry = some x →
         x ≤ (s.engine c).path.latest →
         (s.cueSet cue = true → exec (.waitExpiry c) s = .next (completeAndGoOn c pos (some cue) s)) ∧
         (s.cueSet cue = false → act = .skip → exec (.waitExpiry c) s = .next (completeAndGoOn c pos none s)) ∧
         (s.cueSet cue = false → act = .hold → exec (.waitExpiry c) s = .next (softFault c .cueTimeout s)))) ∧
  (∀ (s : State) (c : Chan) (pos : Nat), s.enginesOk → pos < 1024 →
     let e := s.engine c
     let u := s.stampedWith c pos { e.path with progress := none, lastReported := e.reportedAt pos }
     (∀ q, ((ringGet ((completeAndGoOn c pos q s).engine c).ring pos).stamp = some (s.stampHere c)) ∧
       ∀ x, (ringGet ((completeAndGoOn c pos q s).engine c).ring x).record = (ringGet e.ring x).record ∧
         (ringGet ((completeAndGoOn c pos q s).engine c).ring x).report = (ringGet e.ring x).report) ∧
     (e.path.head = e.tail → completeAndGoOn c pos none s = softFault c .ringEmpty u) ∧
     (∀ d l, e.path.head ≠ e.tail → (ringGet e.ring e.path.head).record = .span d l →
       completeAndGoOn c pos none s = u.withPath c { (u.engine c).path with
         head := (e.path.head + 1) % 1024,
         progress := some (.span e.path.head e.path.latest e.path.setPoint
           ((d * e.path.shape.num).tdiv e.path.shape.den) e.path.shape.profile (l * s.subBeats) 0),
         table := (u.engine c).path.tableAfterOffer e.path.latest e.path.head })) ∧
  (∀ (s : State) (c : Chan) (k e : Nat), s.dueAt k e → s.alone c → s.follows c →
     s.take.state = .rolling ∨ s.take.state = .finished → (s.drive c).state = .playing →
     (s.drive c).source = some .path → s.board.consumed = [] →
     let now := s.take.tf * s.subBeats + k
     let r := playEval { takeId := s.take.id, n := s.subBeats, t := now } false s.cueSet (s.engine c).tail
       { path := (s.engine c).path, ring := (s.engine c).ring, cues := s.port.openCues, consumed := [] }
     let x := r.1.path.setPoint
     let d := s.monitored c
     let passes := offerCheck d (s.setup c) x = none ∧ (x - d.stepPos).natAbs ≤ 2 * (s.setup c).maxStep
     let path := { (s.engine c).path with zero := 0, latest := now }.advanceTo now
     ∃ t, exec .subBeat s = .next t ∧ t.engine c = { s.engine c with path := r.1.path, ring := r.1.ring } ∧
       t.port.openCues = r.1.cues ∧ (∀ q, t.cueSet q = (s.cueSet q && !r.1.consumed.contains q)) ∧
       (r.2 = .stands → s.Offered t c x d (s.issued e x { d with playedNext := now + 1 })) ∧
       (r.2 = .ends → passes → t.drive c =
         { s.issued e x { d with playedNext := now + 1 } with state := .done, follow := .none }) ∧
       (∀ f, r.2 = .faults f → passes → t.drive c =
         (s.issued e x { d with playedNext := now + 1, kind := some (d.kind.getD f) }).enterStop) ∧
       (∀ pos, path.ended = false → path.completing = some pos →
         t.engine c = (completeAndGoOn c pos none (s.withPath c path)).engine c))

/-! ## Faults and drives (chapters 8 and 9) -/

/-- A soft fault of a PLAYING channel while the station rolls (R144, R145, R148, R167, R137): the kind is recorded, the hold
point set, the stop profile begun from the last two issued set-points (STOPPED at once when they give no speed),
CHANNEL_FAULT latched; the take stands, and so do the other channels.
A hard fault (R166, R147, R120, R137): an energized channel becomes FAULTED with the kind, keeping set-point, step
position and the level of DIR (R158); a channel not energized takes none. In SEEKING the take stands, but an unwinding is over
when no other take channel is STOPPING (R118), the FAULTED channel staying so. -/
def Obligations.SoftAndHardFaults : Prop :=
  (∀ (s : State) (c : Chan) (k : FaultKind), s.take.state = .rolling → (s.drive c).state = .playing →
     let d := s.drive c
     let t := softFault c k s
     (t.drive c).kind = some (d.kind.getD k) ∧ (t.drive c).holdPoint = some d.playedNext ∧
     (t.drive c).setPoint = d.setPoint ∧ (t.drive c).previous = d.previous ∧
     (∀ p, d.previous = some p → p ≠ d.setPoint → (t.drive c).state = .stopping ∧
       (t.drive c).stop = some { speed := (d.setPoint - p).natAbs, up := decide (p < d.setPoint), position := d.setPoint }) ∧
     (d.previous = none ∨ d.previous = some d.setPoint → (t.drive c).state = .stopped ∧ (t.drive c).stop = none) ∧
     t.take = s.take ∧ t.holds.flags = { s.holds.flags with channelFault := true } ∧
     (∀ b, b ≠ c → t.chan b = s.chan b) ∧ t.engine c = s.engine c) ∧
  (∀ (s : State) (c : Chan) (k : FaultKind),
     (s.energized c = false → hardFault c k s = s) ∧
     (s.energized c = true → s.take.state ≠ .seeking →
       let d := s.drive c
       let t := hardFault c k s
       t.drive c = { d with state := .faulted, kind := some k, seek := none, follow := .none, stop := none, pulses := none,
                            holdPoint := if d.state = .playing then some d.playedNext else d.holdPoint,
                            dirHigh := (t.drive c).dirHigh, dirSince := (t.drive c).dirSince } ∧
       (∀ u, s.clock ≤ u → (t.drive c).dirAt u = d.dirAt s.clock) ∧
       t.energized c = false ∧ t.holds.flags = { s.holds.flags with channelFault := true } ∧
       (s.take.state = .armed → s.isTakeChannel c = true → t.take.state = .held) ∧
       (s.take.state = .rolling ∨ s.take.state = .finished ∨ s.take.state = .idle ∨ s.take.state = .held →
         t.take = s.take) ∧
       (∀ b, b ≠ c → t.chan b = s.chan b) ∧ t.engine c = s.engine c ∧ t.timer = s.timer ∧ t.log = s.log) ∧
     (s.energized c = true → s.take.state = .seeking →
       let d := s.drive c
       let t := hardFault c k s
       ∃ u : State,
         u.drive c = { d with
           state := .faulted, kind := some k, seek := none, follow := .none, stop := none, pulses := none,
           dirHigh := (u.drive c).dirHigh, dirSince := (u.drive c).dirSince,
           holdPoint := if d.state = .playing then some d.playedNext else d.holdPoint } ∧
         (∀ b, b ≠ c → u.chan b = s.chan b) ∧ u.engine c = s.engine c ∧ u.take = s.take ∧ u.port = s.port ∧
         u.log = s.log ∧ u.holds.flags = { s.holds.flags with channelFault := true } ∧
         (∀ f, s.take.arm = some f → f.phase = .unwinding → ¬u.someStopping → u.Unwound t f) ∧
         ((∀ f, s.take.arm = some f → f.phase ≠ .unwinding) ∨ u.someStopping →
           t.take = u.take ∧ t.channels = u.channels ∧ t.holds = u.holds)))

/-- STOPPED (R145, R132): a STOPPING channel whose speed has reached 0 is STOPPED at its last issued set-point, and STOPPING
becomes HELD, and an unwinding is over (R118), when no take channel is STOPPING any more.
FOLLOW_ERROR (R164): a count of 2 is the hard fault.
SUB_BEAT and FREE_SUB_BEAT of a STOPPING channel (R145, R146, R71): the speed falls by the stop rate; at 0 it is STOPPED, else
the stop position moves on by the speed and is offered; a soft fault there is recorded and the profile goes on. -/
def Obligations.StopEndsAndFollowErrorFaults : Prop :=
  (∀ (s : State) (c : Chan),
    (∀ k, (s.drive c).state = .stopping → (s.drive c).stop = some k → k.speed = 0 → s.take.state = .stopping →
      ∃ t, exec (.stopped c) s = .next t ∧ t.drive c = { s.drive c with state := .stopped, stop := none } ∧
        (∀ b, b ≠ c → t.chan b = s.chan b) ∧ t.engine c = s.engine c ∧
        (t.allTake (fun d => decide (d.state ≠ .stopping)) = true → t.take = { s.take with state := .held }) ∧
        (t.allTake (fun d => decide (d.state ≠ .stopping)) = false → t.take = s.take) ∧ t.holds = s.holds) ∧
    (∀ k f, (s.drive c).state = .stopping → (s.drive c).stop = some k → k.speed = 0 → s.take.state = .seeking →
      s.take.arm = some f → f.phase = .unwinding →
      let u := s.setDrive c { s.drive c with state := .stopped, stop := none }
      (u.someStopping → exec (.stopped c) s = .next u) ∧
      (¬u.someStopping → ∃ t, exec (.stopped c) s = .next t ∧ u.Unwound t f)) ∧
    ((s.drive c).followErrors = 2 → exec (.followError c) s = .next (hardFault c .followError s))) ∧
  ∀ (s : State) (c : Chan) (e k : Nat) (y : Stop) (row : Instr),
    (row = .subBeat ∧ s.dueAt k e) ∨ (row = .freeSubBeat ∧ s.freeAt e) → s.alone c → s.follows c →
    (s.drive c).state = .stopping → (s.drive c).stop = some y →
    let v := y.speed - (s.setup c).stopRate
    let x := y.position + (if y.up then (v : Int) else -(v : Int))
    let d := { s.monitored c with stop := some { speed := v, up := y.up, position := x } }
    ∃ t, exec row s = .next t ∧ t.engine c = s.engine c ∧
      (v = 0 → s.take.state ≠ .seeking → t.drive c = { s.monitored c with state := .stopped, stop := none }) ∧
      (∀ f, v = 0 → s.take.state = .seeking → s.take.arm = some f → f.phase = .unwinding →
        ∃ u : State, u.take = s.take ∧ (∀ b, b ≠ c → u.chan b = s.chan b) ∧ u.engine c = s.engine c ∧
          u.drive c = { s.monitored c with state := .stopped, stop := none } ∧ u.Unwound t f) ∧
      (v ≠ 0 → s.Offered t c x d (s.issued e x d) ∧
        ∀ f, offerCheck d (s.setup c) x = some f → f.isHard = false → t.drive c = { d with kind := some (d.kind.getD f) })

/-- STEP_PULSE (R158): one scheduled pulse moves the step position by 1 toward the set-point.
The instants of the pulses (R158): pulse i + 1 of m begins i·I/m after the first where 8 periods (0.5 µs) times m fit into the
interval I, rounded down to a period, and 8·i periods after it where they do not; so pulses begin at least 8 periods apart.
An issue of set-point x at t for the interval I (R158): m is the magnitude of the new backlog, and pulses not yet sent are
cancelled; the first begins at t, or 8 periods after the last pulse sent began; where DIR has to turn it turns at that instant
and the first pulse is 16 periods (1 µs) later; DIR stays otherwise, and a turn of it not yet reached is given up.
That a pulse keeps 1 µs from the last change of DIR whichever issue made it is the model's reading (log 24). -/
def Obligations.StepPulses : Prop :=
  (∀ (s : State) (c : Chan) (p : PulsePlan), (s.drive c).pulses = some p → s.energized c = true →
     let d := s.drive c
     let rest := if p.sent + 1 < p.count then some { p with sent := p.sent + 1 } else none
     (d.stepPos < d.setPoint → exec (.stepPulse c) s = .next ((s.setDrive c { d with
       stepPos := d.stepPos + 1, lastPulse := some p.next, pulses := rest }).atTime p.next)) ∧
     (d.setPoint < d.stepPos → exec (.stepPulse c) s = .next ((s.setDrive c { d with
       stepPos := d.stepPos - 1, lastPulse := some p.next, pulses := rest }).atTime p.next)) ∧
     (d.stepPos = d.setPoint → exec (.stepPulse c) s = .next s)) ∧
  (∀ p : PulsePlan, 0 < p.count →
     (8 * p.count ≤ p.interval → p.next = p.start + p.sent * p.interval / p.count) ∧
     (p.interval < 8 * p.count → p.next = p.start + 8 * p.sent) ∧
     p.next + 8 ≤ { p with sent := p.sent + 1 }.next) ∧
  (∀ (d : Drive) (t i : Nat) (x : Int),
     let e := d.issue t i x
     let free := match d.lastPulse with
       | some b => max t (b + 8)
       | none => t
     let turns := x ≠ d.stepPos ∧ decide (d.stepPos < x) ≠ d.dirAt t
     e.setPoint = x ∧ e.previous = some d.setPoint ∧ e.stepPos = d.stepPos ∧ e.lastPulse = d.lastPulse ∧
     (x = d.stepPos → e.pulses = none) ∧
     (x ≠ d.stepPos → ∃ p, e.pulses = some p ∧ p.interval = i ∧ p.count = (x - d.stepPos).natAbs ∧ p.sent = 0 ∧
       (turns → p.start = free + 16) ∧
       (¬turns → p.start = match d.dirSince with
         | some v => if v ≤ t then max free (v + 16) else free
         | none => free)) ∧
     (turns → (∀ u, t ≤ u → u < free → e.dirAt u = d.dirAt t) ∧ ∀ u, free ≤ u → e.dirAt u = decide (d.stepPos < x)) ∧
     (¬turns → ∀ u, t ≤ u → e.dirAt u = d.dirAt t))

/-- The checks of a new set-point (R157, R165): it is issued when it changes nothing, or when it lies within travel, moves no
more than max step, and does not move toward an active limit; the faults are found in that order.
The seek profile (R160): b(w) is w + b(w − a); the speed never exceeds vmax, each step is at least 1 and none passes the
target, and a step that raises or holds the speed leaves room to brake.
SUB_BEAT of a SEEKING channel (R156, R160, R161): the next step of the profile is offered; on the target the channel is READY. -/
def Obligations.IssueChecksAndSeekProfile : Prop :=
  (∀ (d : Drive) (u : Setup) (x : Int),
     (offerCheck d u x = none ↔ x = d.setPoint ∨ (u.travelMin ≤ x ∧ x ≤ u.travelMax ∧ (x - d.setPoint).natAbs ≤ u.maxStep ∧
       (d.setPoint < x → d.limitPlus = false) ∧ (x < d.setPoint → d.limitMinus = false))) ∧
     (x ≠ d.setPoint → x < u.travelMin ∨ u.travelMax < x → offerCheck d u x = some .travel) ∧
     (x ≠ d.setPoint → u.travelMin ≤ x → x ≤ u.travelMax → u.maxStep < (x - d.setPoint).natAbs →
       offerCheck d u x = some .stepLimit) ∧
     (u.travelMin ≤ x → x ≤ u.travelMax → (x - d.setPoint).natAbs ≤ u.maxStep →
       (d.setPoint < x ∧ d.limitPlus = true) ∨ (x < d.setPoint ∧ d.limitMinus = true) → offerCheck d u x = some .limit) ∧
     (offerCheck d u x = none ∨ offerCheck d u x = some .travel ∨ offerCheck d u x = some .stepLimit ∨
       offerCheck d u x = some .limit)) ∧
  ((∀ a, brakeDistance 0 a = 0) ∧ (∀ w a, 0 < w → 0 < a → brakeDistance w a = w + brakeDistance (w - a) a) ∧
   ∀ a vmax v d, 0 < a → 0 < vmax → 0 < d → v ≤ vmax →
     seekSpeed a vmax v d ≤ vmax ∧ 1 ≤ min (seekSpeed a vmax v d) d ∧
     (brakeDistance (min (v + a) vmax) a ≤ d → seekSpeed a vmax v d = min (v + a) vmax) ∧
     (d < brakeDistance (min (v + a) vmax) a → 0 < v → brakeDistance v a ≤ d → seekSpeed a vmax v d = v) ∧
     (d < brakeDistance (min (v + a) vmax) a → v = 0 ∨ d < brakeDistance v a →
       seekSpeed a vmax v d = max (v - a) (min a vmax))) ∧
  (∀ (s : State) (c : Chan) (k e : Nat) (y : Seek), s.dueAt k e → s.alone c → s.follows c →
     (s.drive c).state = .seeking → (s.drive c).seek = some y →
     let d := s.monitored c
     let u := s.setup c
     let dist := (y.target - d.setPoint).natAbs
     let v := seekSpeed u.seekRate u.vmax y.speed dist
     let x := d.setPoint + (if y.up then ((min v dist : Nat) : Int) else -((min v dist : Nat) : Int))
     let n := s.issued e x { d with seek := some { y with speed := v } }
     ∃ t, exec .subBeat s = .next t ∧ t.engine c = s.engine c ∧
       (x ≠ y.target → s.Offered t c x d n) ∧
       (x = y.target → s.Offered t c x d { n with state := .ready, seek := none, follow := .none }))

/-- LIMIT_ACTIVE and LIMIT_INACTIVE (R165, R193): a limit with a line changes after 8 samples of the other level; becoming
active is hard fault LIMIT.
Samples as operands are the model's choice (log 7). -/
def Obligations.LimitInputs : Prop :=
  ∀ (s : State) (time : Nat) (c : Chan) (samples : List Bool), (s.chan c).configured = true → 8 ≤ samples.length →
    let u := s.setup c
    let shows (level : Bool) := (samples.reverse.take 8).all (· == level) = true
    (u.lines.limitPlus.isSome = true → (s.drive c).limitPlus = false → shows u.limitHigh →
      exec (.limitActive time c true samples) s =
        .next (hardFault c .limit ((s.atTime time).setDrive c { s.drive c with limitPlus := true }))) ∧
    (u.lines.limitMinus.isSome = true → (s.drive c).limitMinus = false → shows u.limitHigh →
      exec (.limitActive time c false samples) s =
        .next (hardFault c .limit ((s.atTime time).setDrive c { s.drive c with limitMinus := true }))) ∧
    (u.lines.limitPlus.isSome = true → (s.drive c).limitPlus = true → shows (!u.limitHigh) →
      exec (.limitInactive time c true samples) s =
        .next ((s.atTime time).setDrive c { s.drive c with limitPlus := false })) ∧
    (u.lines.limitMinus.isSome = true → (s.drive c).limitMinus = true → shows (!u.limitHigh) →
      exec (.limitInactive time c false samples) s =
        .next ((s.atTime time).setDrive c { s.drive c with limitMinus := false }))

/-- ENCODER_CHANGE and WHEEL_CHANGE (R162): with both samples showing `new`, one step along 00, 10, 11, 01 counts forward, one
against it backward, both lines at once skip, and the count wraps in 32 bits.
Samples as operands are the model's choice (log 7). -/
def Obligations.EncoderAndWheelCount : Prop :=
  ∀ (s : State) (time : Nat) (c : Chan) (old new : Bool × Bool), (s.chan c).configured = true →
    let forward (a b : Bool × Bool) : Prop := b = (!a.2, a.1)
    let d := s.drive c
    let h := s.atTime time
    ((s.setup c).lines.encA.isSome = true → (s.setup c).lines.encB.isSome = true → d.encPair = old →
      (forward old new → exec (.encoderChange time c new new) s =
        .next (h.setDrive c { d with encPair := new, encoder := d.encoder + 1 })) ∧
      (forward new old → exec (.encoderChange time c new new) s =
        .next (h.setDrive c { d with encPair := new, encoder := d.encoder - 1 })) ∧
      (new = (!old.1, !old.2) → exec (.encoderChange time c new new) s =
        .next (hardFault c .encoderSkip (h.setDrive c { d with encPair := new }))) ∧
      (new = old → exec (.encoderChange time c new new) s = .next h)) ∧
    ((s.setup c).lines.wheelA.isSome = true → (s.setup c).lines.wheelB.isSome = true → d.wheelPair = old →
      (forward old new → exec (.wheelChange time c new new) s =
        .next (h.setDrive c { d with wheelPair := new, wheel := d.wheel + 1 })) ∧
      (forward new old → exec (.wheelChange time c new new) s =
        .next (h.setDrive c { d with wheelPair := new, wheel := d.wheel - 1 })) ∧
      (new = (!old.1, !old.2) → exec (.wheelChange time c new new) s =
        .next (h.setDrive c { d with wheelPair := new })) ∧
      (new = old → exec (.wheelChange time c new new) s = .next h))

/-- FOLLOWER_DONE (R171): the accepted pulse at which a PLAYING follower with leader-done count 2, standing on its target, has
issued sub-beat N makes it DONE, holding its set-point; with a lower count the pair of the new frame is fixed (R170): from its
set-point to g of the leader's in the report of the frame just ended, or to where it stands.
ROUND_CLOSE counts the rounds in which the leader is done (R171).
SUB_BEAT offers a PLAYING follower a + trunc((b − a)·k/N) (R170), and a WHEEL channel its offset + trunc(count·num/den) (R188,
R189).
That FOLLOWER_DONE is the whole edge is the model's choice (log 3). -/
def Obligations.FollowerBecomesDone : Prop :=
  (∀ (s : State) (time : Nat) (c : Chan), s.acceptsPulse time → s.timer.schedule = none → s.take.state = .rolling →
    (s.drive c).state = .playing → (s.drive c).source = some .follow →
    (s.drive c).follow = .pair (s.drive c).setPoint (s.drive c).setPoint → (s.setup c).feedback = .none →
    (s.drive c).stepPos = (s.drive c).setPoint →
    ((s.drive c).leaderDone = 2 →
      ∃ t, exec (.followerDone time false true c) s = .next t ∧ exec (.frameEdge time false true) s = .next t ∧
        (t.drive c).state = .done ∧ (t.drive c).setPoint = (s.drive c).setPoint ∧ t.engine c = s.engine c) ∧
    ((s.drive c).leaderDone ≠ 2 → ∀ st ch, (s.setup c).leader = some (st, ch) →
      ∃ t, exec (.frameEdge time false true) s = .next t ∧ (t.drive c).state = .playing ∧
        (∀ r, (s.entry st).report = some r → (s.entry st).receivedTag = s.timer.tag → (t.drive c).follow =
          .pair (s.drive c).setPoint (followValue (s.setup c) (r.channels.get ch).setPoint)) ∧
        ((s.entry st).report = none ∨ (s.entry st).receivedTag ≠ s.timer.tag →
          (t.drive c).follow = .pair (s.drive c).setPoint (s.drive c).setPoint))) ∧
  (∀ (s : State) (q st : Nat) (c ch : Chan), s.port.window = .slots → s.timer.lastPulse = some q →
    (s.drive c).state = .playing → (s.drive c).source = some .follow → (s.setup c).leader = some (st, ch) →
    let done (r : Report) : Prop := r.takeId = s.take.id ∧ (r.channels.get ch).state = 5
    ∃ t, exec .roundClose s = .next t ∧
      (∀ r, (s.entry st).mark = true → (s.entry st).report = some r → done r →
        (t.drive c).leaderDone = min ((s.drive c).leaderDone + 1) 2) ∧
      ((s.entry st).mark = false ∨ (∃ r, (s.entry st).report = some r ∧ ¬done r) → (t.drive c).leaderDone = 0)) ∧
  (∀ (s : State) (c : Chan) (k e : Nat), s.dueAt k e → s.alone c → s.follows c →
    s.take.state = .rolling ∨ s.take.state = .finished → (s.drive c).state = .playing →
    let d := s.monitored c
    let offers (x : Int) : Prop := ∃ t, exec .subBeat s = .next t ∧ t.engine c = s.engine c ∧
      s.Offered t c x d (s.issued e x { d with playedNext := s.take.tf * s.subBeats + k + 1 })
    (∀ a b, (s.drive c).source = some .follow → (s.drive c).follow = .pair a b →
      offers (a + ((b - a) * k).tdiv s.subBeats)) ∧
    ((s.drive c).source = some .wheel → offers ((s.drive c).wheelOffset +
      ((s.drive c).wheel.toInt * (s.setup c).wheelNum).tdiv (s.setup c).wheelDen)))

/-! ## The rig bus and the Roster (chapters 5 and 6) -/

/-- The outcome list (R86): an outcome joins while fewer than 4 are held; the fifth is not kept and sets the overflow flag.
A message meets no owner (R78, R79, R82, R84): outside JOINED, begun within the report slots, and for another station it only
passes the time; said for LOAD.
That a CUE while the timer is ABSENT or LOST is taken outside JOINED too (R18) is the model's choice (log 43); what arrives in
the slots, having begun in its sender's turn before the pulse, is taken (R82, R107, log 44). -/
def Obligations.OutcomesAndUnroutedTraffic : Prop :=
  (∀ (s : State) (station seq : Nat) (r : Result),
     (s.port.outcomes.length < 4 → addOutcome station seq r s = { s with port := { s.port with
       outcomes := s.port.outcomes ++ [{ station := station, seq := seq, result := r }] } }) ∧
     (4 ≤ s.port.outcomes.length → (addOutcome station seq r s).port.outcomes = s.port.outcomes ∧
       (addOutcome station seq r s).port.overflow = true ∧ (addOutcome station seq r s).channels = s.channels ∧
       (addOutcome station seq r s).take = s.take)) ∧
  (∀ (s : State) (a : Activity),
     (s.port.join ≠ .joined →
       (s.timer.state = .locked ∨ s.port.join = .duplicate ∨ a.bears 0x18 = false ∨ isSound a = false →
         s.admission a = .dropped) ∧
       (s.timer.state ≠ .locked → s.port.join ≠ .duplicate → a.bears 0x18 = true → isSound a = true →
         s.admission a = .valid)) ∧
     (s.port.join = .joined → s.port.window = .slots →
       (s.port.ended = none → s.admission a = .dropped) ∧
       ∀ w, s.port.ended = some w →
         (a.began < w.opens ∨ w.closes ≤ a.began → s.admission a = .dropped) ∧
         (w.opens ≤ a.began → a.began < w.closes →
           (∀ x, w.turn = some x → x.began ≤ a.began → isSound a = true → senderOf a.bytes = x.holder →
             s.admission a = .valid) ∧
           (w.turn = none → s.admission a = .failed))) ∧
     (a.bears 0x08 = true → s.admission a = .dropped → exec (.load a) s = .next (s.heard a)) ∧
     (∀ n, a.bears 0x08 = true → s.admission a = .valid → (arrivalOf a).target = some n → n ≠ s.station →
       exec (.load a) s = .next (s.heard a)) ∧
     (a.bears 0x08 = true → s.admission a = .valid → (arrivalOf a).target = none →
       exec (.load a) s = .next (State.settled a .refusedRange (s.heard a))))

/-- UNKNOWN_KIND (R204): UNKNOWN_KIND for this station's number and nothing else; dropped for another; ignored for ALL. -/
def Obligations.UnknownKindRouting : Prop :=
  ∀ (s : State) (a : Activity) (k : Nat), a.began ≤ a.ended → a.kind? = some k → knownKinds.contains k = false →
    s.admission a = .valid →
    ((arrivalOf a).target = some s.station →
      exec (.unknownKind a) s = .next (State.settled a .unknownKind (s.heard a))) ∧
    (∀ n, (arrivalOf a).target = some n → n ≠ s.station → exec (.unknownKind a) s = .next (s.heard a)) ∧
    ((arrivalOf a).target = none → exec (.unknownKind a) s = .next (s.heard a))

/-- ANSWER (R84): dropped on arrival. BUS_ERROR (R83, R137, R138): in the open window a message that fails its check or its
length, or comes from a station not holding the turn, raises BUS_ERROR naming the holder; it latches by the take state.
So do a message begun before its turn, one of the report's kind, and any in the silence after the turns. Activity that ended
in the guard, in the silence, or in the settle time or slots of the next frame names none.
What counts as the open window, and that the guard's beginning itself is still the turn's, is the model's choice (log 25), and so
is what began before a pulse and ended after it (log 44). -/
def Obligations.AnswersAndFailedActivity : Prop :=
  ∀ (s : State) (a : Activity),
    (a.bears 0x21 = true → s.admission a = .valid → exec (.answer a) s = .next (s.heard a)) ∧
    (a.began ≤ a.ended → s.port.join = .joined →
      let raised (t : State) (who : Option Nat) : Prop := exec (.busError a) s = .next t ∧ t.channels = s.channels ∧
        t.take = s.take ∧ t.roster = s.roster ∧ t.port.outcomes = s.port.outcomes ∧ t.clock = max s.clock a.ended ∧
        t.holds.flags = { s.holds.flags with busError := s.holds.flags.busError || s.take.state.isRunning } ∧
        (s.take.state.isRunning = true → s.holds.flags.any = false →
          t.holds.first = some .busError ∧ t.holds.concerned = who)
      let report : Prop := a.kind? = some 0x30
      (∀ i b idle q p, s.port.window = .turn i b idle → s.timer.lastPulse = some q → s.timer.period = some p →
        s.inOpenWindow a.began = true →
        a.began < b ∨ report ∨ isSound a = false ∨ senderOf a.bytes ≠ (s.timer.tag + i) % 16 →
        ∃ t, raised t (if a.ended ≤ (q + p - 200) * 16 then some ((s.timer.tag + i) % 16) else none)) ∧
      (s.port.window = .silence → s.inOpenWindow a.began = true → ∃ t, raised t none) ∧
      (report → s.port.window = .silence ∨ (∃ i b idle, s.port.window = .turn i b idle) →
        s.inOpenWindow a.began = true → exec (.reportArrival a) s = exec (.busError a) s) ∧
      ∀ w, s.port.window = .slots → s.port.ended = some w → w.opens ≤ a.began → a.began < w.closes →
        report ∨ isSound a = false ∨ (∀ x, w.turn = some x → a.began < x.began ∨ senderOf a.bytes ≠ x.holder) →
        ∃ t, raised t none)

/-- REPORT_SLOT (R74, R81): the frame's snapshot begins 2 µs into the station's slot and lasts 45 µs.
REPORT_SENT (R86, R96, R80): the outcomes carried leave the list, the overflow flag is cleared if it was carried and none was
refused room since, a mismatch clears duplicate-free, and the own entry takes the report while a window is laid out; the
station's own waiting followers examine it (R169), which changes nothing outside SEEKING.
That the own entry is written only while a window is laid out (log 18), that the read-back is an operand of REPORT_SENT and acts
at the report's end (log 34), and that a follower of its own station looks then (log 30), are the model's choice. -/
def Obligations.ReportIsSentInItsSlotAndSettles : Prop :=
  (∀ (s : State) (r : FullReport) (q : Nat), s.port.join = .joined → s.port.window = .slots → s.port.snapshot = some r →
     s.port.sending = none → s.timer.lastPulse = some q →
     let begins := (q + 40 + 50 * s.station + 2) * 16
     exec .reportSlot s = .next { s.atTime begins with port := { s.port with
       sending := some { what := .report r, bytes := r.bytes, begins := begins, ends := begins + 45 * 16 } } }) ∧
  (∀ (s : State) (r : FullReport) (bytes : List Byte) (begins ends : Nat) (mismatch : Bool),
     s.port.sending = some { what := .report r, bytes := bytes, begins := begins, ends := ends } →
     s.port.window ≠ .none → r.body.station < s.roster.entries.length →
     ∃ t, exec (.reportSent mismatch) s = .next t ∧ t.clock = max s.clock ends ∧ t.port.sending = none ∧
       t.port.snapshot = none ∧
       t.port.duplicateFree = (s.port.duplicateFree && !mismatch) ∧ t.port.answers = s.port.answers ∧
       t.entry r.body.station = { present := true, missed := 0, mark := true, receivedTag := s.timer.tag,
                                  report := some r.body } ∧
       (∀ n, n ≠ r.body.station → t.entry n = s.entry n) ∧
       (s.take.state ≠ .seeking → t.port.outcomes = s.port.outcomes.drop r.outcomes.length ∧
         t.port.overflow = (s.port.overflow && !(r.body.overflow && !s.port.lateOverflow)) ∧
         t.channels = s.channels ∧ t.take = s.take)) ∧
  (∀ (s : State) (r : FullReport) (bytes : List Byte) (begins ends : Nat) (mismatch : Bool),
     s.port.sending = some { what := .report r, bytes := bytes, begins := begins, ends := ends } →
     s.port.window ≠ .none →
     let u := rosterWrite r.body { s.atTime ends with port := { s.port with
       sending := none, snapshot := none, window := s.port.window.heard ends,
       outcomes := s.port.outcomes.drop r.outcomes.length,
       overflow := s.port.overflow && !(r.body.overflow && !s.port.lateOverflow),
       duplicateFree := s.port.duplicateFree && !mismatch } }
     exec (.reportSent mismatch) s = .next
       (examineReport r.body 3 (examineReport r.body 2 (examineReport r.body 1 (examineReport r.body 0 u)))))

/-- REPORT_ARRIVAL (R79, R96): a valid report in its slot is written into the entry it names, and examined by the waiting
followers (R169), which changes nothing outside SEEKING; in LISTENING the station's own number makes it DUPLICATE and writes
nothing. A report whose last byte arrives after round close is dropped. -/
def Obligations.ReportArrivalWritesTheRoster : Prop :=
  ∀ (s : State) (a : Activity) (q : Nat) (r : Report), s.port.window = .slots → s.timer.lastPulse = some q →
    readReport a = some r → (q + 40 + 50 * r.station) * 16 ≤ a.began → a.began < (q + 90 + 50 * r.station) * 16 →
    a.began ≤ a.ended → r.station < 16 → s.roster.entries.length = 16 →
    (∀ count heard, a.ended ≤ (q + 840) * 16 → s.port.join = .listening count heard → r.station = s.station →
      ∃ t, exec (.reportArrival a) s = .next t ∧ t.port.join = .duplicate ∧ t.port.window = .none ∧
        t.roster = s.roster ∧ t.channels = s.channels ∧ t.take = s.take) ∧
    (a.ended ≤ (q + 840) * 16 →
      s.port.join = .joined ∨ (∃ count heard, s.port.join = .listening count heard ∧ r.station ≠ s.station) →
      ∃ t, exec (.reportArrival a) s = .next t ∧
        t = examineReport r 3 (examineReport r 2 (examineReport r 1 (examineReport r 0 (rosterWrite r (s.heard a))))) ∧
        t.entry r.station = { present := true, missed := 0, mark := true, receivedTag := s.timer.tag, report := some r } ∧
        (∀ n, n ≠ r.station → t.entry n = s.entry n) ∧ t.roster.summary = s.roster.summary ∧ t.port.join = s.port.join ∧
        (s.take.state ≠ .seeking → t.channels = s.channels ∧ t.take = s.take)) ∧
    ((q + 840) * 16 < a.ended → exec (.reportArrival a) s = .next (s.heard a))

/-- A follower waiting for its leader (R169, R159, R117): a report of the leader READY in this take gives the target g of its
set-point; the seek begins, or READY at once for a seek of no distance. -/
def Obligations.FollowerTakesItsTarget : Prop :=
  ∀ (s : State) (c ch : Chan) (r : Report) (a : ArmFlight), s.waitsFor c r.station = some (a, ch) →
    s.isTakeChannel c = true →
    let x := followValue (s.setup c) (r.channels.get ch).setPoint
    let d := s.drive c
    (r.takeId = s.take.id → r.takeState = 2 ∨ r.takeState = 3 → (r.channels.get ch).state = 3 →
      (s.setup c).travelMin ≤ x → x ≤ (s.setup c).travelMax →
      (x ≠ d.setPoint → examineReport r c s =
        s.setDrive c { d with seek := some { target := x, up := decide (d.setPoint < x), speed := 0 }, follow := .none }) ∧
      (x = d.setPoint → ((examineReport r c s).drive c).state = .ready)) ∧
    (r.takeId = s.take.id → r.takeState = 2 ∨ r.takeState = 3 → (r.channels.get ch).state = 3 →
      x < (s.setup c).travelMin ∨ (s.setup c).travelMax < x → examineReport r c s = unwindArm a .travel s) ∧
    (r.takeId ≠ s.take.id ∨ (r.takeState ≠ 2 ∧ r.takeState ≠ 3) ∨ (r.channels.get ch).state ≠ 3 →
      examineReport r c s = s)

/-- ROUND_CLOSE (R98 to R104, R127, R75, R76): entries whose mark is clear age, at 8 they are absent; the summary is written
anew and is current, its sets in rising order; turn 0 begins at 840 µs, and its holder sends.
In COUNTDOWN, ROLLING and FINISHED a member missing, disagreeing or slipping latches MEMBER_MISSING, DISAGREE or SLIP, in that
order, the first cause naming the lowest-numbered one when the record was empty (R102, R103, R138); in the other take states
nothing is latched and a JOINED station's tag is realigned (R101). A FINISHED station whose round is all-finished completes.
That turn 0 begins within the round close (log 16), that an instant is the one given or the clock when it is later (log 32), and
that a message which would meet the guard is not begun (log 40), are the model's choice. Which other take states agree outside
COUNTDOWN, ROLLING and FINISHED is left open (log 9). -/
def Obligations.RoundCloseJudgesTheRound : Prop :=
  (∀ (s : State) (q : Nat), s.port.window = .slots → s.timer.lastPulse = some q →
     let close := (q + 840) * 16
     let judged (n : Nat) : Prop := n < 16 ∧ s.take.id ≠ 0 ∧ s.take.mask.contains n = true ∧ n ≠ s.station
     let running : Prop := s.take.state = .countdown ∨ s.take.state = .rolling ∨ s.take.state = .finished
     let allowed (st : Nat) : Prop := (s.take.state = .countdown ∧ st = 4) ∨
       ((s.take.state = .rolling ∨ s.take.state = .finished) ∧ (st = 5 ∨ st = 6))
     let all (p : Report → Prop) : Prop := s.take.id ≠ 0 ∧ ∀ n ∈ s.take.mask, (s.entry n).mark = true ∧
       ∃ r, (s.entry n).report = some r ∧ p r
     ∃ t, exec .roundClose s = .next t ∧ t.clock = max s.clock close ∧ t.port.window = .turn 0 close close ∧
       t.roster.entries.length = s.roster.entries.length ∧
       (∀ n < s.roster.entries.length,
         ((s.entry n).mark = true → t.entry n = s.entry n) ∧
         ((s.entry n).mark = false → t.entry n = { s.entry n with
           missed := min ((s.entry n).missed + 1) 8,
           present := (s.entry n).present && decide ((s.entry n).missed + 1 < 8) })) ∧
       (let y := t.roster.summary
        y.current = true ∧ y.tag = s.timer.tag ∧ y.takeId = s.take.id ∧ y.takeState = s.take.state ∧
        y.mask = (if s.take.id = 0 then [] else s.take.mask) ∧
        y.reported = (List.range 16).filter (fun n => (s.entry n).mark) ∧
        y.present = (List.range 16).filter (fun n => (t.entry n).present) ∧
        (∀ n, n ∈ y.missing ↔ judged n ∧ (s.entry n).mark = false) ∧ y.missing.Pairwise (· < ·) ∧
        (running → ∀ n own r, (s.entry s.station).report = some own → (s.entry n).report = some r →
          ((n ∈ y.disagreeing ↔ judged n ∧ (s.entry n).mark = true ∧ (r.takeId ≠ own.takeId ∨ ¬allowed r.takeState)) ∧
           (n ∈ y.slipping ↔ judged n ∧ (s.entry n).mark = true ∧ (r.tag ≠ own.tag ∨
             (r.takeId = own.takeId ∧ allowed r.takeState ∧ r.frame ≠ own.frame))))) ∧
        (¬running → ∀ n own r, (s.entry s.station).report = some own → (s.entry n).report = some r →
          ((n ∈ y.disagreeing → judged n ∧ (s.entry n).mark = true) ∧
           (judged n → (s.entry n).mark = true → r.takeId ≠ own.takeId → n ∈ y.disagreeing) ∧
           (r.takeId = own.takeId → r.takeState = s.take.state.code → n ∉ y.disagreeing) ∧
           (n ∈ y.slipping ↔ judged n ∧ (s.entry n).mark = true ∧ r.tag ≠ own.tag))) ∧
        y.disagreeing.Pairwise (· < ·) ∧ y.slipping.Pairwise (· < ·) ∧
        (y.rollReady = true ↔ ∃ own, (s.entry s.station).report = some own ∧ all fun r =>
          r.takeState = 3 ∧ r.takeId = s.take.id ∧ r.frame = s.take.s ∧ r.tag = own.tag) ∧
        (y.allFinished = true ↔ (all fun r => r.takeState = 6 ∧ r.takeId = s.take.id) ∧
          y.missing = [] ∧ y.disagreeing = [] ∧ y.slipping = []) ∧
        (¬running → y.causes = [] ∧ t.holds = s.holds) ∧
        (running →
          y.causes = (if y.missing = [] then [] else [Cause.memberMissing]) ++
            (if y.disagreeing = [] then [] else [Cause.disagree]) ++ (if y.slipping = [] then [] else [Cause.slip]) ∧
          t.holds.flags = { s.holds.flags with
            memberMissing := s.holds.flags.memberMissing || decide (y.missing ≠ []),
            disagree := s.holds.flags.disagree || decide (y.disagreeing ≠ []),
            slip := s.holds.flags.slip || decide (y.slipping ≠ []) } ∧
          (s.holds.flags.any = true → t.holds = { s.holds with flags := t.holds.flags }) ∧
          (s.holds.flags.any = false → ∀ x xs, y.causes = x :: xs → t.holds = { t.holds with
            first := some x, kind := none, sub := some (s.take.latest.getD (s.take.s * s.subBeats)),
            concerned := (match x with
              | .memberMissing => y.missing.head?
              | .disagree => y.disagreeing.head?
              | _ => y.slipping.head?) })) ∧
        (s.take.state = .finished → y.allFinished = true →
          t.take.state = .idle ∧ t.take.id = 0 ∧ t.take.mask = [] ∧ t.take.s = 0 ∧ t.take.remaining = 0 ∧ t.take.tf = 0 ∧
          t.take.committed = false ∧ t.take.lastId = (if s.take.committed then s.take.id else s.take.lastId) ∧
          (∀ c, t.engine c = s.engine c ∧ (t.drive c).source = none ∧ (t.drive c).setPoint = (s.drive c).setPoint ∧
            (s.isTakeChannel c = true → (s.drive c).state = .done → (t.drive c).state = .parked))) ∧
        (s.take.state ≠ .finished ∨ y.allFinished = false → t.take = s.take ∧
          ∀ c, t.engine c = s.engine c ∧
            t.drive c = { s.drive c with leaderDone := (t.drive c).leaderDone })) ∧
       t.port.outcomes = s.port.outcomes ∧ t.log = s.log ∧
       (s.port.join = .joined →
         (running → t.timer = s.timer) ∧
         (¬running →
           (∀ n r, n < 16 → (s.entry n).mark = true → (∀ m < n, (s.entry m).mark = false) → (s.entry n).report = some r →
             t.timer = { s.timer with tag := r.tag }) ∧
           ((∀ n < 16, (s.entry n).mark = false) → t.timer = s.timer))) ∧
       (let own : Prop := t.port.join = .joined ∧ s.timer.state = .locked ∧ t.timer.tag % 16 = s.station
        (¬own → t.port.sending = s.port.sending ∧ t.port.answers = s.port.answers) ∧
        (∀ p, own → s.timer.period = some p → s.port.OwnTurn t.port s.station close ((q + p - 200) * 16)))) ∧
  (∀ (s : State) (q n : Nat), s.port.window = .slots → s.timer.lastPulse = some q → n < 16 → s.take.id ≠ 0 →
     s.take.mask.contains n = true → n ≠ s.station → (s.entry n).mark = false →
     (s.take.state.isRunning = true → ∃ t, exec .roundClose s = .next t ∧ t.holds.flags.memberMissing = true ∧
       (s.holds.flags.any = false → (∀ m < n, s.take.mask.contains m = true → m ≠ s.station → (s.entry m).mark = true) →
         t.holds.first = some .memberMissing ∧ t.holds.concerned = some n)) ∧
     (s.take.state.isRunning = false → ∃ t, exec .roundClose s = .next t ∧ t.holds = s.holds))

/-- Listening (R78): each round close before the fourth raises the count and adopts the tag of the lowest-numbered station heard
in the round; with none heard the tag stands.
JOINED (R78): the round close that brings the listening count to 4 makes the port JOINED, with the tag of the lowest-numbered
station heard in the round, or 0 when none was heard in any of the four.
ENTRY_ABSENT (R98): the round close at which the missed count of a present entry reaches 8.
That each row is the whole round close is the model's choice (log 3). -/
def Obligations.JoiningAndAbsence : Prop :=
  (∀ (s : State) (q n : Nat) (heard : Bool), s.port.window = .slots → s.timer.lastPulse = some q →
     s.port.join = .listening n heard → n < 3 →
     exec .joined s = .next s ∧ ∃ t, exec .roundClose s = .next t ∧
       (∀ m r, m < 16 → (s.entry m).mark = true → (∀ k < m, (s.entry k).mark = false) → (s.entry m).report = some r →
         t.port.join = .listening (n + 1) true ∧ t.timer.tag = r.tag) ∧
       ((∀ m < 16, (s.entry m).mark = false) → t.port.join = .listening (n + 1) heard ∧ t.timer.tag = s.timer.tag)) ∧
  (∀ (s : State) (q : Nat) (heard : Bool), s.port.window = .slots → s.timer.lastPulse = some q →
     s.port.join = .listening 3 heard →
     ∃ t, exec .joined s = .next t ∧ exec .roundClose s = .next t ∧ t.port.join = .joined ∧ t.port.duplicateFree = true ∧
       (∀ n r, n < 16 → (s.entry n).mark = true → (∀ m < n, (s.entry m).mark = false) → (s.entry n).report = some r →
         t.timer.tag = r.tag) ∧
       ((∀ n < 16, (s.entry n).mark = false) → t.timer.tag = if heard then s.timer.tag else 0)) ∧
  (∀ (s : State) (q n : Nat), s.port.window = .slots → s.timer.lastPulse = some q → n < s.roster.entries.length →
     (s.entry n).present = true → (s.entry n).mark = false → 7 ≤ (s.entry n).missed →
     ∃ t, exec (.entryAbsent n) s = .next t ∧ exec .roundClose s = .next t ∧ (t.entry n).present = false ∧
       (t.entry n).missed = 8 ∧ (t.entry n).report = (s.entry n).report ∧ (t.entry n).receivedTag = (s.entry n).receivedTag)

/-- TURN_START (R75, R76): 4 µs after the bus went idle the next turn begins. Its holder sends a closed cue set first, else
its oldest complete answer, beginning 1 µs later; any other station, and a holder with neither, stays silent. After turn 15
comes silence. (Turn 0 begins at round close, and its message is in the statement on that.)
MESSAGE_SENT (R76, R85, R87, R89, R84): cues leave the closed set, join the own pending set, and the cue seq rises modulo 256;
an answer leaves the queue.
That a message which would meet the guard (R74) is not begun (log 40), and that the cues of the message alone leave a closed set
a newer one has joined (log 33), are the model's choice. -/
def Obligations.TurnsAndSentMessages : Prop :=
  (∀ (s : State) (i b idle : Nat), s.port.window = .turn i b idle → s.port.sending = none →
     let t := idle + 64
     let h := s.atTime t
     let silent := { h with port := { s.port with window := .turn (i + 1) t t } }
     let own := s.port.join = .joined ∧ s.timer.state = .locked ∧ (s.timer.tag + (i + 1)) % 16 = s.station
     (15 ≤ i → exec .turnStart s = .next { h with port := { s.port with window := .silence } }) ∧
     (i < 15 → ¬own → exec .turnStart s = .next silent) ∧
     (i < 15 → own → s.port.closedCues = [] → (∀ p ∈ s.port.answers, p.body = none) → exec .turnStart s = .next silent) ∧
     (∀ q d, i < 15 → own → s.port.closedCues ≠ [] → s.timer.lastPulse = some q → s.timer.period = some d →
       let bytes := message 0x18 s.station none s.port.cueSeq (s.port.closedCues.map byte)
       (t + 16 + bytes.length * 16 ≤ (q + d - 200) * 16 →
         exec .turnStart s = .next { silent with port := { silent.port with
           sending := some
             { what := .cues s.port.closedCues, bytes := bytes, begins := t + 16, ends := t + 16 + bytes.length * 16 } } }) ∧
       ((q + d - 200) * 16 < t + 16 + bytes.length * 16 → exec .turnStart s = .next silent)) ∧
     (∀ q d ws p ps x, i < 15 → own → s.port.closedCues = [] → s.port.answers = ws ++ p :: ps →
       (∀ w ∈ ws, w.body = none) → p.body = some x → s.timer.lastPulse = some q → s.timer.period = some d →
       let bytes := message 0x21 s.station (some p.station) p.seq x.payload
       (t + 16 + bytes.length * 16 ≤ (q + d - 200) * 16 →
         exec .turnStart s = .next { silent with port := { silent.port with
           answers := ws ++ { p with sending := true } :: ps,
           sending := some
             { what := .answer, bytes := bytes, begins := t + 16, ends := t + 16 + bytes.length * 16 } } }) ∧
       ((q + d - 200) * 16 < t + 16 + bytes.length * 16 → exec .turnStart s = .next silent))) ∧
  (∀ (s : State) (bytes : List Byte) (begins ends : Nat),
     (∀ cues, s.port.sending = some { what := .cues cues, bytes := bytes, begins := begins, ends := ends } →
       ∃ t, exec .messageSent s = .next t ∧ t.port.sending = none ∧ t.clock = max s.clock ends ∧
         t.port.cueSeq = (s.port.cueSeq + 1) % 256 ∧ t.port.answers = s.port.answers ∧
         (∀ x, x ∈ t.port.closedCues ↔ x ∈ s.port.closedCues ∧ x ∉ cues) ∧
         (∀ x, x ∈ t.board.pending ↔ x ∈ s.board.pending ∨ (x ∈ cues ∧ x < 64)) ∧
         t.board.entries = s.board.entries ∧ t.channels = s.channels ∧ t.take = s.take) ∧
     (s.port.sending = some { what := .answer, bytes := bytes, begins := begins, ends := ends } →
       ∃ t, exec .messageSent s = .next t ∧ t.port.sending = none ∧
         t.port.answers = s.port.answers.filter (fun p => !p.sending) ∧ t.port.closedCues = s.port.closedCues ∧
         t.port.cueSeq = s.port.cueSeq ∧ t.board = s.board ∧ t.channels = s.channels ∧ t.take = s.take))

/-- CUE (R90, R18, R84): its numbers join the pending set, one above 63 ignored, none twice; to one station it is dropped. At
the pulse the pending set is latched with the tag the pulse gives, an entry already set keeping its own; said of an accepted
FRAME_EDGE for a station none of whose paths can examine a wait at it, and of the pulse that locks the timer.
A CUE while the timer is ABSENT or LOST joins it too, also outside JOINED, but for a DUPLICATE port (R18, R78, R79: log 43). -/
def Obligations.CuesPendAndLatch : Prop :=
  (∀ (s : State) (a : Activity), s.reachesAll 0x18 a → 1 ≤ (arrivalOf a).payload.length →
    (arrivalOf a).payload.length ≤ 4 → ∃ t, exec (.cue a) s = .next t ∧
      (∀ x, x ∈ t.board.pending ↔ x ∈ s.board.pending ∨ (x < 64 ∧ ∃ y ∈ (arrivalOf a).payload, y.toNat = x)) ∧
      (s.board.pending.Nodup → t.board.pending.Nodup) ∧ t.board.entries = s.board.entries ∧
      t.port.outcomes = s.port.outcomes ∧ t.channels = s.channels ∧ t.take = s.take) ∧
  (∀ (s : State) (a : Activity), s.reaches 0x18 a → exec (.cue a) s = .next (s.heard a)) ∧
  (∀ (s : State) (g q : Nat), q < 64 → s.board.entries.length = 64 →
    let t := latchPending g s
    t.board.pending = [] ∧ (q ∈ s.board.pending → t.cueSet q = true) ∧ (q ∉ s.board.pending → t.cueSet q = s.cueSet q) ∧
    (s.cueSet q = true → t.board.entries.getD q { isSet := false, tag := 0 } =
      s.board.entries.getD q { isSet := false, tag := 0 }) ∧
    (s.cueSet q = false → q ∈ s.board.pending →
      t.board.entries.getD q { isSet := false, tag := 0 } = { isSet := true, tag := g })) ∧
  (∀ (s : State) (time : Nat), s.acceptsPulse time → ∃ t, exec (.frameEdge time false true) s = .next t ∧
    t.board.pending = [] ∧
    (s.board.entries.length = 64 → s.board.consumed = [] →
      (∀ c, (s.drive c).source = some .path → (s.drive c).state ≠ .playing ∧ (s.drive c).state ≠ .ready ∧
        (s.drive c).state ≠ .seeking) →
      ∀ q < 64, let old := s.board.entries.getD q { isSet := false, tag := 0 }
        t.board.entries.getD q { isSet := false, tag := 0 } =
          if q ∈ s.board.pending ∧ old.isSet = false then { isSet := true, tag := (s.timer.tag + 1) % 256 } else old)) ∧
  (∀ (s : State) (time r : Nat), s.timer.state = .absent ∨ s.timer.state = .lost → s.timer.reference = some r →
    s.timer.schedule = none → 4000 ≤ micros (max s.clock time) - r → micros (max s.clock time) - r ≤ 1000000 →
    s.board.entries.length = 64 → ∃ t, exec (.frameEdge time false true) s = .next t ∧ t.board.pending = [] ∧
      ∀ q < 64, let old := s.board.entries.getD q { isSet := false, tag := 0 }
        t.board.entries.getD q { isSet := false, tag := 0 } =
          if q ∈ s.board.pending ∧ old.isSet = false then { isSet := true, tag := (s.timer.tag + 1) % 256 } else old) ∧
  (∀ (s : State) (a : Activity), s.timer.state ≠ .locked →
    s.port.join = .unjoined ∨ (∃ n heard, s.port.join = .listening n heard) → a.bears 0x18 = true → isSound a = true → (arrivalOf a).target = none → 1 ≤ (arrivalOf a).payload.length →
    (arrivalOf a).payload.length ≤ 4 → ∃ t, exec (.cue a) s = .next t ∧ t.board.entries = s.board.entries ∧
      ∀ x, x ∈ t.board.pending ↔ x ∈ s.board.pending ∨ (x < 64 ∧ ∃ y ∈ (arrivalOf a).payload, y.toNat = x))

/-! ## Ring requests (chapter 2) -/

/-- LOAD (R30, R31): entries all in the free region are written in full, with no stamp; every other entry, tail, head and
release stand. Otherwise nothing is written and the outcome is the refusal. -/
def Obligations.LoadWritesFreeEntries : Prop :=
  (∀ (s : State) (a : Activity), s.reaches 0x08 a →
    readLoad (arrivalOf a).payload = none ∨ (∃ q, readLoad (arrivalOf a).payload = some q ∧ 3 < q.channel) →
    exec (.load a) s = .next (State.settled a .refusedRange (s.heard a))) ∧
  ∀ (s : State) (a : Activity) (q : LoadRequest) (c : Chan), s.enginesOk → s.reaches 0x08 a →
    readLoad (arrivalOf a).payload = some q → chan? q.channel = some c →
    let e := s.engine c
    (∀ es : List Entry, q.records = es.map some → q.start < 1024 → 1 ≤ es.length → es.length ≤ 4 →
      ((∀ k < es.length, e.isFree ((q.start + k) % 1024) = true) → ∃ ring,
        exec (.load a) s = .next (State.settled a .accepted ((s.heard a).setEngine c { e with ring := ring })) ∧
        ringWf ring = true ∧ (∀ x ∈ es, x.stamp = none) ∧
        ∀ p < 1024, ringGet ring p =
          if (p + 1024 - q.start) % 1024 < es.length then es.getD ((p + 1024 - q.start) % 1024) Entry.blank
          else ringGet e.ring p) ∧
      ((∃ k < es.length, e.isFree ((q.start + k) % 1024) = false) →
        exec (.load a) s = .next (State.settled a .refusedOwned (s.heard a)))) ∧
    (1024 ≤ q.start ∨ q.records.length = 0 ∨ 4 < q.records.length ∨ none ∈ q.records →
      exec (.load a) s = .next (State.settled a .refusedRange (s.heard a)))

/-- ADVANCE (R33): tail moves forward to a position in [tail, release − 1]; anything else is REFUSED_RANGE and moves nothing.
CLEAR_RING (R38): in IDLE and SAFE the ring is blank, the pointers 0, table, stack, record in progress and last reported
position gone, and shape, set-point and path end stand; elsewhere REFUSED_STATE.
A channel above 3 is REFUSED_RANGE for both (R29); that CLEAR_RING meets that check before the take state is looked at is the
model's choice (log 19). -/
def Obligations.AdvanceAndClearRing : Prop :=
  (∀ (s : State) (a : Activity) (n x : Nat), s.reaches 0x09 a → readChannelPosition (arrivalOf a).payload = some (n, x) →
     (∀ c, chan? n = some c →
       let e := s.engine c
       (x < 1024 → ringDistance e.release e.tail ≤ ringDistance e.release x →
         exec (.advance a) s = .next (State.settled a .accepted ((s.heard a).setEngine c { e with tail := x }))) ∧
       (1024 ≤ x ∨ ringDistance e.release x < ringDistance e.release e.tail →
         exec (.advance a) s = .next (State.settled a .refusedRange (s.heard a)))) ∧
     (3 < n → exec (.advance a) s = .next (State.settled a .refusedRange (s.heard a)))) ∧
  (∀ (s : State) (a : Activity) (n : Nat), s.reaches 0x0B a → readByte (arrivalOf a).payload = some n →
     (∀ c, chan? n = some c →
       (s.take.state = .idle ∨ s.take.state = .safe →
         exec (.clearRing a) s = .next (State.settled a .accepted ((s.heard a).setEngine c { s.engine c with
           ring := [], release := 0, tail := 0,
           path := { (s.engine c).path with
             head := 0, table := [], stack := [], progress := none, lastReported := none } }))) ∧
       (s.take.state ≠ .idle → s.take.state ≠ .safe →
         exec (.clearRing a) s = .next (State.settled a .refusedState (s.heard a)))) ∧
     (3 < n → exec (.clearRing a) s = .next (State.settled a .refusedRange (s.heard a))))

/-- RELEASE (R34, R35, R36, R39): release moves to the nearest of R' and the limits, ACCEPTED when that is R' and CLIPPED when a
limit is nearer; the checkpoints behind it go. BUSY while SEEKING (R34) and while the channel's scan is in flight (R39, R59);
REFUSED_RANGE beyond head.
BUSY for a FAULTED channel whose scan has completed but whose positioning still stands is the model's choice (log 54), for
R27's sake; R40 takes a RELEASE of a FAULTED channel. -/
def Obligations.ReleaseMovesToTheLimit : Prop :=
  ∀ (s : State) (a : Activity) (n x : Nat), s.enginesOk → s.reaches 0x0A a →
    readChannelPosition (arrivalOf a).payload = some (n, x) →
    (3 < n ∨ 1024 ≤ x → exec (.release a) s = .next (State.settled a .refusedRange (s.heard a))) ∧
    ∀ c, chan? n = some c → x < 1024 →
    let e := s.engine c
    let dist := ringDistance e.release
    let kept (y : Nat) (k : Checkpoint) : Bool :=
      decide (dist y ≤ dist k.pos) && k.stack.all fun l => decide (dist y ≤ dist l.openAt)
    ((s.drive c).state = .seeking ∨ e.positioning ≠ none →
      exec (.release a) s = .next (State.settled a .busy (s.heard a))) ∧
    ((s.drive c).state ≠ .seeking → e.positioning = none → dist e.path.head < dist x →
      exec (.release a) s = .next (State.settled a .refusedRange (s.heard a))) ∧
    ((s.drive c).state ≠ .seeking → e.positioning = none → dist x ≤ dist e.path.head → ∃ y,
      (y = x ∨ y ∈ e.path.stack.map Loop.openAt ∨ ∃ pr, e.path.progress = some pr ∧ y = pr.position) ∧
      dist y ≤ dist x ∧ (∀ l ∈ e.path.stack, dist y ≤ dist l.openAt) ∧
      (∀ pr, e.path.progress = some pr → dist y ≤ dist pr.position) ∧
      ∃ r, (r = .accepted ∧ dist y = dist x ∨ r = .clipped ∧ dist y < dist x) ∧
        exec (.release a) s = .next (State.settled a r ((s.heard a).setEngine c { e with
          release := y, path := { e.path with table := e.path.table.filter (kept y) } })))

/-- Every step keeps the four rings in R27's order: release, head and tail in cyclic order, and within [release, tail] every
position an engine may move head back to; reset leaves them so. The operations of the ring requests keep it each. -/
def Obligations.RingRequestsKeepThePointersInOrder : Prop :=
  (∀ s t : State, s.RingsInOrder → step s = .next t → t.RingsInOrder) ∧ State.reset.RingsInOrder ∧
  ∀ (e : Engine) (x : Nat), e.Ok → x < 1024 →
    ringDistance e.release e.path.head ≤ ringDistance e.release e.tail →
    (e.mayAdvance x = true → ringDistance e.release e.path.head ≤ ringDistance e.release x) ∧
    (ringDistance e.release x ≤ ringDistance e.release e.path.head →
      (∀ p ∈ e.limits, ringDistance e.release p ≤ ringDistance e.release e.path.head) →
      let f := e.moveRelease (e.releaseTo x)
      ringDistance f.release f.path.head ≤ ringDistance f.release f.tail ∧
      ringDistance f.release f.path.head ≤ ringDistance e.release e.path.head ∧
      ∀ p ∈ f.limits, ringDistance f.release p ≤ ringDistance f.release f.path.head) ∧
    e.cleared.release = 0 ∧ e.cleared.path.head = 0 ∧ e.cleared.tail = 0

/-! ## Setup (chapter 12) -/

/-- SETUP_LINES (R195): in SAFE alone, the checks in order; accepted, the plain setting of each line named is written and TALLY
moves, is taken off, or stays. -/
def Obligations.SetupLinesWritesPlainSettings : Prop :=
  ∀ (s : State) (a : Activity) (q : LinesRequest), s.reaches 0x01 a → readLines (arrivalOf a).payload = some q →
    s.lines.plain.length = 24 →
    (s.take.state ≠ .safe → exec (.setupLines a) s = .next (State.settled a .refusedState (s.heard a))) ∧
    (s.take.state = .safe → q.entries = [] ∨ 8 < q.entries.length ∨ (∃ x ∈ q.entries, 24 ≤ x.1) ∨
      ¬(q.entries.map Prod.fst).Nodup → exec (.setupLines a) s = .next (State.settled a .refusedRange (s.heard a))) ∧
    (s.take.state = .safe → 1 ≤ q.entries.length → q.entries.length ≤ 8 → (∀ x ∈ q.entries, x.1 < 24) →
      (q.entries.map Prod.fst).Nodup →
      (∀ v, (q.tally = 0xFF ∧ v = s.lines.tally) ∨ (q.tally = 0xFE ∧ v = none) ∨
          (q.tally < 24 ∧ s.functionOwned q.tally = false ∧ v = some q.tally) →
        ∃ plain, exec (.setupLines a) s = .next (State.settled a .accepted
            { s.heard a with lines := { s.lines with plain := plain, tally := v } }) ∧
          plain.length = 24 ∧ (∀ x ∈ q.entries, plain.getD x.1 Plain.reset = x.2) ∧
          ∀ i, (∀ x ∈ q.entries, x.1 ≠ i) → plain.getD i Plain.reset = s.plainOf i) ∧
      (q.tally < 24 → s.functionOwned q.tally = true →
        exec (.setupLines a) s = .next (State.settled a .lineConflict (s.heard a))) ∧
      (24 ≤ q.tally → q.tally < 0xFE → exec (.setupLines a) s = .next (State.settled a .refusedRange (s.heard a))))

/-- SETUP_CHANNEL (R196, R197): the take state, then the channel and every field's range, by the payload's bytes (R207); then the
pairs, the lines and the relations of the fields. An accepted one replaces the setup and configures the channel, whose state,
set-point, counts and fault kind stand; the break-check enables are recomputed; the other channels stand.
How the outside stands to the pins as an operand, and a payload of another length refused before the other checks, are the
model's choice (logs 6, 19). -/
def Obligations.SetupChannelReplacesTheSetup : Prop :=
  (∀ (s : State) (a : Activity) (pins : Pins), s.reaches 0x02 a →
    let p := (arrivalOf a).payload
    let gives (r : Result) : Prop := exec (.setupChannel a pins) s = .next (State.settled a r (s.heard a))
    let badRatio (i : Nat) : Prop := field p i 2 = 0 ∨ 4096 < field p i 2
    let outOfRange : Prop :=
      3 < field p 0 1 ∨ 1 < field p 1 1 ∨
      (field p 1 1 = 1 ∧ (15 < field p 2 1 ∨ 3 < field p 3 1 ∨ badRatio 4 ∨ badRatio 6)) ∨
      2 < field p 12 1 ∨ (field p 12 1 = 1 ∧ 7 < field p 13 1) ∨
      (∃ k < 10, 23 < field p (14 + k) 1 ∧ field p (14 + k) 1 ≠ 255) ∨
      2147483647 < field p 25 4 ∨ (∃ k < 4, field p (29 + 2 * k) 2 = 0) ∨ 1023 < field p 45 2 ∨
      ∃ k < 4, badRatio (48 + 2 * k)
    (p.length ≠ 60 → gives .refusedRange) ∧
    (p.length = 60 → s.take.state ≠ .safe → gives .refusedState) ∧
    (p.length = 60 → s.take.state = .safe → outOfRange → gives .refusedRange) ∧
    (p.length = 60 → ¬outOfRange →
      ∃ q c u, readChannelSetup p = some q ∧ chan? q.channel = some c ∧ q.setup = some u)) ∧
  (∀ (s : State) (a : Activity) (pins : Pins) (q : ChannelRequest) (c : Chan) (u : Setup), s.reaches 0x02 a →
    readChannelSetup (arrivalOf a).payload = some q → chan? q.channel = some c → q.setup = some u →
    (s.take.state ≠ .safe → exec (.setupChannel a pins) s = .next (State.settled a .refusedState (s.heard a))) ∧
    (s.take.state = .safe →
      (setupConsistent s.station c u = false →
        exec (.setupChannel a pins) s = .next (State.settled a .refusedRange (s.heard a))) ∧
      (setupConsistent s.station c u = true → s.linesFree c u = false →
        exec (.setupChannel a pins) s = .next (State.settled a .lineConflict (s.heard a))) ∧
      (setupConsistent s.station c u = true → s.linesFree c u = true → u.maxStep < u.vmax ∨ u.travelMax < u.travelMin →
        exec (.setupChannel a pins) s = .next (State.settled a .refusedRange (s.heard a))) ∧
      (setupConsistent s.station c u = true → s.linesFree c u = true → u.vmax ≤ u.maxStep → u.travelMin ≤ u.travelMax →
        ∃ t, exec (.setupChannel a pins) s = .next (State.settled a .accepted t) ∧
          (t.chan c).configured = true ∧ t.setup c = u ∧ t.engine c = s.engine c ∧
          t.drive c = { s.drive c with
            limitPlus := false, limitMinus := false, encPair := (t.drive c).encPair, wheelPair := (t.drive c).wheelPair } ∧
          (∀ d, d ≠ c → t.chan d = s.chan d) ∧ t.take = s.take ∧ t.holds = s.holds ∧ t.log = s.log ∧
          t.lines.plain = s.lines.plain ∧ t.lines.tally = s.lines.tally ∧
          (∀ n < 8, (t.sampler.enables.getD n false = true ↔
            ∃ d, (t.chan d).configured = true ∧ (t.setup d).feedback = .analog n ∧ (t.setup d).breakCheck = true)) ∧
          t.sampler.slots = s.sampler.slots)))

/-- ENLIST (R198, R163, R110): SAFE becomes IDLE; a configured UNSET channel is PARKED, a FAULTED one stays, every other starts an
energized period at its feedback value; elsewhere REFUSED_STATE.
DISMISS (R199, R110, R181): IDLE becomes SAFE; no channel is energized, the step outputs stop with DIR held (R192), rings, log and hold record
stand; the sampler ends its pass and voids the slot of a conversion in flight; elsewhere REFUSED_STATE. -/
def Obligations.EnlistAndDismiss : Prop :=
  (∀ (s : State) (a : Activity), s.reaches 0x03 a → (arrivalOf a).payload = [] →
     (s.take.state ≠ .safe → exec (.enlist a) s = .next (State.settled a .refusedState (s.heard a))) ∧
     (s.take.state = .safe → ∃ t, exec (.enlist a) s = .next (State.settled a .accepted t) ∧
       t.take = { s.take with state := .idle } ∧ t.holds = s.holds ∧ t.sampler = s.sampler ∧ t.log = s.log ∧
       ∀ c : Chan, t.engine c = s.engine c ∧ t.setup c = s.setup c ∧
         let start (st : ChanState) : Drive :=
           let x := match s.feedback c with
             | some v => toSetPoint v
             | none => (s.drive c).setPoint
           { s.drive c with state := st, setPoint := x, previous := none, stepPos := x, followErrors := 0, pulses := none }
         ((s.drive c).state = .unset → (s.chan c).configured = false → t.drive c = s.drive c) ∧
         ((s.drive c).state = .unset → (s.chan c).configured = true → t.drive c = start .parked) ∧
         ((s.drive c).state = .faulted → t.drive c = s.drive c) ∧
         ((s.drive c).state ≠ .unset → (s.drive c).state ≠ .faulted → t.drive c = start (s.drive c).state))) ∧
  (∀ (s : State) (a : Activity), s.reaches 0x04 a → (arrivalOf a).payload = [] →
     (s.take.state ≠ .idle → exec (.dismiss a) s = .next (State.settled a .refusedState (s.heard a))) ∧
     (s.take.state = .idle → ∃ t, exec (.dismiss a) s = .next (State.settled a .accepted t) ∧
       t.take = { s.take with state := .safe } ∧ t.holds = s.holds ∧ t.log = s.log ∧ t.roster = s.roster ∧
       t.sampler.pass = none ∧ (s.sampler.single = none → t.sampler.conversion = none ∧ t.sampler.mode = .standby ∧
         t.sampler.waking = none) ∧
       (∀ v, s.sampler.conversion = some v → v.input < s.sampler.slots.length →
         (t.sampler.slots.getD v.input { result := 0, isVoid := true }).isVoid = true) ∧
       ∀ c : Chan, t.energized c = false ∧ t.stepHigh c = false ∧
         t.drive c = { s.drive c with
           pulses := none, dirHigh := (t.drive c).dirHigh, dirSince := (t.drive c).dirSince } ∧
         (∀ u, max s.clock a.ended ≤ u → (t.drive c).dirAt u = (s.drive c).dirAt (max s.clock a.ended)) ∧
         t.engine c = s.engine c ∧ t.setup c = s.setup c))

/-! ## Takes (chapters 7 and 8) -/

/-- ARM refused (R112, R113): ignored outside the mask; then range, hold and take state, in that order, another kind or mask in
SEEKING too.
An ARM taken and refused by an entry check (R114, R52, R53, R169): the first take channel, in channel order, that fails gives
the outcome: CHANNEL_FAULTED, LEADER_ABSENT, NO_ORIGIN for a new take, NOT_RETAINED for a pickup or a re-arm. The take record,
the channels and the engines are as before the ARM, and the cue board is cleared.
That CHANNEL_FAULTED is judged by the channel states before the ARM, though R114 has made them SEEKING by then, is the model's
reading (log 17). -/
def Obligations.ArmRefusals : Prop :=
  (∀ (s : State) (a : Activity) (q : ArmRequest), s.reachesAll 0x10 a → readArm (arrivalOf a).payload = some q →
      let gives (r : Result) : Prop := exec (.arm a) s = .next (State.settled a r (s.heard a))
      (q.mask.contains s.station = false → exec (.arm a) s = .next (s.heard a)) ∧
      (q.mask.contains s.station = true →
        (q.id = 0 ∨ 1 < q.kind → gives .refusedRange) ∧
        (q.id ≠ 0 → q.kind ≤ 1 →
          (s.holdInput = false ∨ s.holds.flags.any = true → gives .refusedHold) ∧
          (s.holdInput = true → s.holds.flags.any = false →
            (s.take.state = .safe ∨ s.take.state = .countdown ∨ s.take.state = .rolling ∨ s.take.state = .finished ∨
              s.take.state = .stopping → gives .refusedState) ∧
            (s.take.state = .idle → q.id = s.take.lastId → gives .takeReused) ∧
            (s.take.state = .held ∨ s.take.state = .armed →
              (q.id ≠ s.take.id → gives .refusedState) ∧
              (q.id = s.take.id → q.mask ≠ s.take.mask ∨ takeKind? q.kind ≠ some s.take.kind → gives .refusedRange)) ∧
            (∀ f, s.take.state = .seeking → s.take.arm = some f → f.phase ≠ .positioning ∨ q.id ≠ s.take.id →
              gives .refusedState) ∧
            (∀ f, s.take.state = .seeking → s.take.arm = some f → f.phase = .positioning → q.id = s.take.id →
              q.mask ≠ s.take.mask ∨ takeKind? q.kind ≠ some s.take.kind → gives .refusedRange))))) ∧
  (∀ (s : State) (a : Activity) (q : ArmRequest) (k : TakeKind) (c : Chan) (r : Result), s.reachesAll 0x10 a →
    readArm (arrivalOf a).payload = some q → q.mask.contains s.station = true → q.id ≠ 0 → takeKind? q.kind = some k →
    s.holdInput = true → s.holds.flags.any = false → (s.drive c).state ≠ .unset →
    let again : Prop := (s.take.state = .held ∨ s.take.state = .armed) ∧ q.id = s.take.id ∧ q.mask = s.take.mask ∧
      k = s.take.kind
    let fresh : Prop := s.take.state = .idle ∧ q.id ≠ s.take.lastId
    let faulty : Prop := (s.drive c).state = .faulted ∨ ((s.drive c).state = .stopped ∧ (s.drive c).kind ≠ none)
    let source := (s.setup c).takeSource k
    (fresh ∧ ∀ b < c, s.entersNew k q.mask b) ∨ (again ∧ ∀ b < c, s.entersAgain k q.mask (q.s * s.subBeats) b) →
    (faulty ∧ r = .channelFaulted) ∨
      (¬faulty ∧ source = .follow ∧ r = .leaderAbsent ∧ ∃ st ch, (s.setup c).leader = some (st, ch) ∧
        (q.mask.contains st = false ∨ (s.entry st).present = false)) ∨
      (¬faulty ∧ source = .path ∧ fresh ∧ r = .noOrigin ∧ ¬(s.engine c).onOrigin) ∨
      (¬faulty ∧ source = .path ∧ again ∧ r = .notRetained ∧
        ∀ x ∈ (s.engine c).path.table, q.s * s.subBeats < x.t0) →
    ∃ t, exec (.arm a) s = .next t ∧
      t.take = { s.take with arm := none, latest := t.take.latest, inTakeFrame := t.take.inTakeFrame } ∧
      (s.port.outcomes.length < 4 → t.port.outcomes = s.port.outcomes ++
        [{ station := (arrivalOf a).sender, seq := (arrivalOf a).seq, result := r }]) ∧
      t.board = CueBoard.reset ∧ t.holds = s.holds ∧ t.log = s.log ∧
      (r = .noOrigin → (t.engine c).scan.code = .noOrigin) ∧ (r = .notRetained → (t.engine c).scan.code = .notRetained) ∧
      ∀ b, (t.engine b).positioning = none ∧ (t.engine b).ring = (s.engine b).ring ∧
        (t.engine b).path = (s.engine b).path ∧ (t.engine b).release = (s.engine b).release ∧
        (t.engine b).tail = (s.engine b).tail ∧ (t.drive b).state = (s.drive b).state ∧
        (t.drive b).setPoint = (s.drive b).setPoint ∧ (t.drive b).kind = (s.drive b).kind)

/-- ARM accepted in IDLE (R111, R114, R52, R117): with PATH take channels, each on its ORIGIN, the station is SEEKING and every
positioning in flight, the committed engines as they were; with no take channel it is ARMED at the same arrival.
PATH, FOLLOW and WHEEL take channels together (R111, R114): all SEEKING, only the PATH ones positioned. With no PATH channel
the ARM commits at once (R116, R117): a follower waits for its leader, a WHEEL channel is READY, and with WHEEL channels alone
the station is ARMED.
ARM accepted in HELD or ARMED (R53, R114): each PATH channel is restored from its newest checkpoint at or before S·N. ARM accepted
in SEEKING (R119): the ARM in flight ends ABORTED, and the new one is taken in the state that leaves.
That the last reported position is none after an ORIGIN with REPORT set too is the model's choice (log 45). -/
def Obligations.ArmAcceptedInIdle : Prop :=
  (∀ (s : State) (a : Activity) (q : ArmRequest) (k : TakeKind), s.reachesAll 0x10 a →
      readArm (arrivalOf a).payload = some q → q.mask.contains s.station = true → q.id ≠ 0 → takeKind? q.kind = some k →
      s.holdInput = true → s.holds.flags.any = false → s.take.state = .idle → q.id ≠ s.take.lastId →
      ((∀ c, (s.drive c).state ≠ .unset → (s.setup c).takeSource k = .path ∧ (s.drive c).state ≠ .faulted ∧
          ((s.drive c).state = .stopped → (s.drive c).kind = none) ∧ (s.engine c).release ≠ (s.engine c).tail ∧
          ∃ x, (ringGet (s.engine c).ring (s.engine c).release).record = .origin x) →
        (∃ c, (s.drive c).state ≠ .unset) →
        ∃ t, exec (.arm a) s = .next t ∧ t.take.state = .seeking ∧ t.take.id = q.id ∧ t.take.kind = k ∧
          t.take.mask = q.mask ∧ t.take.s = q.s ∧ t.take.committed = false ∧ t.take.lastId = s.take.lastId ∧
          (∃ f, t.take.arm = some f ∧ f.station = (arrivalOf a).sender ∧ f.seq = (arrivalOf a).seq ∧
            f.phase = .positioning ∧ f.prior.state = .idle ∧ f.prior.id = s.take.id) ∧
          t.port.outcomes = s.port.outcomes ∧ t.board = CueBoard.reset ∧ t.log = s.log ∧ t.holds = s.holds ∧
          ∀ c, (t.engine c).ring = (s.engine c).ring ∧ (t.engine c).path = (s.engine c).path ∧
            (t.engine c).release = (s.engine c).release ∧ (t.engine c).tail = (s.engine c).tail ∧
            (t.drive c).setPoint = (s.drive c).setPoint ∧
            ((s.drive c).state = .unset → (t.drive c).state = .unset ∧ (t.drive c).source = none) ∧
            ((s.drive c).state ≠ .unset → (t.drive c).state = .seeking ∧ (t.drive c).source = some .path ∧
              (t.engine c).scan.code = .inFlight ∧
              ∃ p x, (t.engine c).positioning = some p ∧
                (ringGet (s.engine c).ring (s.engine c).release).record = .origin x ∧ p.path.setPoint = x ∧
                p.path.head = ((s.engine c).release + 1) % 1024 ∧ p.path.shape = { profile := .linear, num := 1, den := 1 } ∧
                p.path.stack = [] ∧ p.path.progress = none ∧ p.path.ended = false ∧ p.path.table = [] ∧
                p.path.lastReported = none)) ∧
      ((∀ c, (s.drive c).state = .unset) → s.port.outcomes.length < 4 → (∀ c, (s.engine c).positioning = none) →
        ∃ t, exec (.arm a) s = .next t ∧ t.take.state = .armed ∧ t.take.id = q.id ∧ t.take.s = q.s ∧ t.take.tf = q.s ∧
          t.take.committed = true ∧ t.take.arm = none ∧ t.log = CaptureLog.reset ∧ t.board = CueBoard.reset ∧
          t.port.outcomes = s.port.outcomes ++
            [{ station := (arrivalOf a).sender, seq := (arrivalOf a).seq, result := .accepted }])) ∧
  (∀ (s : State) (a : Activity) (q : ArmRequest) (k : TakeKind), s.reachesAll 0x10 a →
    readArm (arrivalOf a).payload = some q → q.mask.contains s.station = true → q.id ≠ 0 → takeKind? q.kind = some k →
    s.holdInput = true → s.holds.flags.any = false →
    let takes (c : Chan) : Prop := (s.drive c).state ≠ .unset
    let source (c : Chan) := (s.setup c).takeSource k
    let again : Prop := (s.take.state = .held ∨ s.take.state = .armed) ∧ q.id = s.take.id ∧ q.mask = s.take.mask ∧
      k = s.take.kind
    let fresh : Prop := s.take.state = .idle ∧ q.id ≠ s.take.lastId
    (fresh ∨ again → exec (.arm a) s = .next (acceptArm (arrivalOf a) q.id k q.mask q.s (s.heard a))) ∧
    (fresh → (∀ c, s.entersNew k q.mask c) → (∃ c, takes c ∧ source c = .path) →
      ∃ t, exec (.arm a) s = .next t ∧ t.take.state = .seeking ∧ t.take.id = q.id ∧ t.take.committed = false ∧
        t.port.outcomes = s.port.outcomes ∧
        ∀ c, takes c → (t.drive c).state = .seeking ∧ (t.drive c).source = some (source c) ∧
          (source c = .path → (t.engine c).scan.code = .inFlight ∧ (t.engine c).positioning.isSome = true) ∧
          (source c ≠ .path → t.engine c = s.engine c)) ∧
    (fresh ∨ again → (∀ c, takes c → s.mayEnter k q.mask c ∧ source c ≠ .path) → (∀ c, (s.engine c).positioning = none) →
      ∃ t, exec (.arm a) s = .next t ∧ t.take.id = q.id ∧ t.take.committed = true ∧ t.take.tf = q.s ∧
        t.board = CueBoard.reset ∧ (fresh → t.log = CaptureLog.reset) ∧ (again → t.log = s.log) ∧
        (∀ c, takes c → t.engine c = s.engine c ∧ (source c = .wheel → (t.drive c).state = .ready) ∧
          (source c = .follow → (t.drive c).state = .seeking ∧ (t.drive c).follow = .waiting)) ∧
        ((∀ c, takes c → source c = .wheel) → t.take.state = .armed ∧ t.take.arm = none ∧
          (s.port.outcomes.length < 4 → t.port.outcomes = s.port.outcomes ++
            [{ station := (arrivalOf a).sender, seq := (arrivalOf a).seq, result := .accepted }])) ∧
        ((∃ c, takes c ∧ source c = .follow) → t.take.state = .seeking ∧ t.port.outcomes = s.port.outcomes ∧
          ∃ f, t.take.arm = some f ∧ f.phase = .moving)) ∧
    (again → (∀ c, s.entersAgain k q.mask (q.s * s.subBeats) c) → (∃ c, takes c ∧ source c = .path) →
      ∃ t, exec (.arm a) s = .next t ∧ t.take.state = .seeking ∧ t.take.id = s.take.id ∧ t.take.s = q.s ∧
        t.take.committed = s.take.committed ∧ t.board = CueBoard.reset ∧ t.log = s.log ∧ t.holds = s.holds ∧
        t.port.outcomes = s.port.outcomes ∧
        (∃ f, t.take.arm = some f ∧ f.phase = .positioning ∧ f.prior.state = s.take.state ∧ f.prior.s = s.take.s ∧
          f.prior.tf = s.take.tf) ∧
        ∀ c, takes c → (t.drive c).state = .seeking ∧ (t.drive c).source = some (source c) ∧
          (t.drive c).setPoint = (s.drive c).setPoint ∧
          ∀ x, source c = .path →
            ((s.engine c).path.table.filter fun y => decide (y.t0 ≤ q.s * s.subBeats)).getLast? = some x →
            (t.engine c).ring = (s.engine c).ring ∧ (t.engine c).path = (s.engine c).path ∧
            (t.engine c).scan.code = .inFlight ∧ (t.engine c).scan.start = some x.t0 ∧
            ∃ p, (t.engine c).positioning = some p ∧ p.reached = x.t0 ∧ p.stamps = [] ∧ p.target = none ∧
              p.path = { p.path with
                head := x.pos, shape := x.shape, stack := x.stack, progress := none, setPoint := x.setPoint,
                lastReported := x.lastReported, ended := false,
                table := (s.engine c).path.table.filter fun y => decide (y.t0 ≤ x.t0) }) ∧
    (∀ f, s.take.state = .seeking → s.take.arm = some f → f.phase = .positioning → q.id = s.take.id →
      q.mask = s.take.mask → k = s.take.kind → s.port.outcomes.length < 4 →
      let t := acceptArm (arrivalOf a) q.id k q.mask q.s (discardArm f .aborted .abandoned (s.heard a))
      exec (.arm a) s = .next t ∧
        s.port.outcomes ++ [{ station := f.station, seq := f.seq, result := .aborted }] <+: t.port.outcomes))

/-- An ARM ended by discard (R115, R51, R58): the prior record is back, no positioning is left, rings, pointers and engines are
as they were, a take channel not FAULTED has its prior state, and the outcome is added. -/
def Obligations.DiscardRestoresThePriorRecord : Prop :=
  ∀ (s : State) (f : ArmFlight) (r : Result) (code : ScanCode),
    let t := discardArm f r code s
    t.take = { s.take with state := f.prior.state, id := f.prior.id, kind := f.prior.kind, mask := f.prior.mask,
                           s := f.prior.s, tf := f.prior.tf, committed := f.prior.committed, arm := none } ∧
    (s.port.outcomes.length < 4 →
      t.port.outcomes = s.port.outcomes ++ [{ station := f.station, seq := f.seq, result := r }]) ∧
    t.holds = s.holds ∧ t.board = s.board ∧ t.log = s.log ∧
    ∀ c, (t.engine c).positioning = none ∧ (t.engine c).ring = (s.engine c).ring ∧
      (t.engine c).release = (s.engine c).release ∧ (t.engine c).tail = (s.engine c).tail ∧
      (t.engine c).path = (s.engine c).path ∧ (t.drive c).setPoint = (s.drive c).setPoint ∧
      (s.isTakeChannel c = true → (s.drive c).state ≠ .faulted → (t.drive c).state = f.priorStates.get c) ∧
      ((s.drive c).state = .faulted → (t.drive c).state = .faulted) ∧
      (∀ p, (s.engine c).positioning = some p → (s.engine c).scan.code = .inFlight ∨ (s.engine c).scan.code = .positioned →
        (t.engine c).scan.code = code)

/-- SCAN_COMPLETE (R51, R54, R58, R116): the scan's target is kept; while another scan runs nothing else changes; with every
target known the ARM commits, TF = S, and the channel seeks or is READY; a target outside travel ends the ARM by discard.
SCAN_REFUSAL (R55, R56, R58): the channel keeps its refusal code, and where it stopped, and the ARM ends by discard.
At the commit every positioned engine's pending state is the committed one, and its pending stamps stand in its ring (R51).
That a scan runs at its completion event (log 23), and that SCAN_REFUSAL changes nothing where the scan reaches S·N, its event
not standing (log 2), are the model's choice. -/
def Obligations.ScanEnds : Prop :=
  (∀ (s : State) (c : Chan) (f : ArmFlight) (p : Positioning) (x : ScanState), s.scanStanding c = some (f, p) →
     s.scanOf c p = (x, .reached) → (s.drive c).state = .seeking → (s.drive c).source = some .path →
     let u := s.setEngine c { s.engine c with
       scan := { (s.engine c).scan with code := .positioned, stopPos := some x.path.head, stopSub := some x.u,
                                        target := some x.path.setPoint },
       positioning := some { p with path := x.path, stamps := x.stamps, reached := x.u, target := some x.path.setPoint } }
     let inside := (s.setup c).travelMin ≤ x.path.setPoint ∧ x.path.setPoint ≤ (s.setup c).travelMax
     (¬inside → exec (.scanComplete c) s = .next (discardArm f .travel .discarded u)) ∧
     (inside → (∃ d p', d ≠ c ∧ (s.engine d).positioning = some p' ∧ p'.target = none) →
       exec (.scanComplete c) s = .next u) ∧
     (inside → (∀ d p', d ≠ c → (s.engine d).positioning = some p' → p'.target.isSome = true) →
       ∃ t, exec (.scanComplete c) s = .next t ∧ t.take.committed = true ∧ t.take.tf = s.take.s ∧ t.take.id = s.take.id ∧
         (t.take.state = .seeking ∨ t.take.state = .armed) ∧ (t.engine c).positioning = none ∧
         (t.engine c).path = { x.path with latest := s.take.s * s.subBeats } ∧
         (t.engine c).ring = x.stamps.foldl (fun r y => ringStamp r y.1 y.2) (s.engine c).ring ∧
         (∀ d p', d ≠ c → (s.engine d).positioning = some p' → (t.engine d).positioning = none ∧
           (t.engine d).path = { p'.path with latest := s.take.s * s.subBeats } ∧
           (t.engine d).ring = p'.stamps.foldl (fun r y => ringStamp r y.1 y.2) (s.engine d).ring) ∧
         (t.drive c).setPoint = (s.drive c).setPoint ∧
         (x.path.setPoint = (s.drive c).setPoint → (t.drive c).state = .ready ∧ (t.drive c).seek = none) ∧
         (x.path.setPoint ≠ (s.drive c).setPoint → t.take.state = .seeking ∧ (t.drive c).state = .seeking ∧
           (t.drive c).seek = some { target := x.path.setPoint, up := decide ((s.drive c).setPoint < x.path.setPoint),
                                     speed := 0 }) ∧
         (f.prior.state = .idle → t.log = CaptureLog.reset) ∧ (f.prior.state ≠ .idle → t.log = s.log))) ∧
  (∀ (s : State) (c : Chan) (f : ArmFlight) (p : Positioning) (x : ScanState), s.scanStanding c = some (f, p) →
     let refused (code : ScanCode) (k : Option FaultKind) := s.setEngine c { s.engine c with
       scan := { (s.engine c).scan with code := code, stopPos := some x.path.head, stopSub := some x.u, kind := k },
       positioning := none }
     (∀ k, s.scanOf c p = (x, .short k) →
       exec (.scanRefusal c) s = .next (discardArm f .ringShort .discarded (refused .ringShort (some k)))) ∧
     (s.scanOf c p = (x, .unresolved) →
       exec (.scanRefusal c) s = .next (discardArm f .cueUnresolved .discarded (refused .cueUnresolved none))) ∧
     (s.scanOf c p = (x, .reached) → exec (.scanRefusal c) s = .next s))

/-- ROLL (R121): the checks in order; accepted, the station is in COUNTDOWN with L frames left.
DISBAND (R129): refused in ROLLING and STOPPING; with nothing in motion the take is left for IDLE, its id kept as the last
one when it was committed; take channels park but for those FAULTED or STOPPED with a fault kind; hold causes stay.
DISBAND in SEEKING (R129, R115, R118): phase POSITIONING, discard with ABORTED, then ACCEPTED, at once; MOVING, the unwinding
begins; UNWINDING, it goes on, and the station will go to IDLE.
An unwinding (R118): how it begins, and, with no take channel STOPPING then, that it is over at once. -/
def Obligations.RollAndDisband : Prop :=
  (∀ (s : State) (a : Activity) (id l : Nat), s.reachesAll 0x11 a → readRoll (arrivalOf a).payload = some (id, l) →
     let gives (r : Result) : Prop := exec (.roll a) s = .next (State.settled a r (s.heard a))
     let ready := s.roster.summary.current = true ∧ s.roster.summary.rollReady = true
     (s.take.id = 0 ∨ s.take.id ≠ id → exec (.roll a) s = .next (s.heard a)) ∧
     (s.take.id ≠ 0 → s.take.id = id →
       (l < 2 ∨ 15 < l → gives .refusedRange) ∧
       (2 ≤ l → l ≤ 15 →
         (s.holdInput = false ∨ s.holds.flags.any = true → gives .refusedHold) ∧
         (s.holdInput = true → s.holds.flags.any = false →
           (s.take.state ≠ .armed → gives .refusedState) ∧
           (s.take.state = .armed → ¬ready → gives .refusedState) ∧
           (s.take.state = .armed → ready → exec (.roll a) s = .next (State.settled a .accepted
             { s.heard a with take := { s.take with state := .countdown, remaining := l } })))))) ∧
  (∀ (s : State) (a : Activity) (id : Nat), s.reachesAll 0x12 a → readDisband (arrivalOf a).payload = some id →
     (s.take.id = 0 ∨ s.take.id ≠ id → exec (.disband a) s = .next (s.heard a)) ∧
     (s.take.id ≠ 0 → s.take.id = id →
       (s.take.state = .rolling ∨ s.take.state = .stopping →
         exec (.disband a) s = .next (State.settled a .refusedState (s.heard a))) ∧
       (s.take.state = .armed ∨ s.take.state = .countdown ∨ s.take.state = .finished ∨ s.take.state = .held →
         ∃ t, exec (.disband a) s = .next (State.settled a .accepted t) ∧
           t.take.state = .idle ∧ t.take.id = 0 ∧ t.take.mask = [] ∧ t.take.s = 0 ∧ t.take.remaining = 0 ∧ t.take.tf = 0 ∧
           t.take.committed = false ∧ t.take.arm = none ∧
           t.take.lastId = (if s.take.committed then s.take.id else s.take.lastId) ∧
           t.holds = s.holds ∧ t.log = s.log ∧ t.timer = s.timer ∧
           ∀ c, t.engine c = s.engine c ∧ (t.drive c).setPoint = (s.drive c).setPoint ∧
             (t.drive c).kind = (s.drive c).kind ∧ (t.drive c).holdPoint = (s.drive c).holdPoint ∧
             (t.drive c).source = none ∧
             (s.isTakeChannel c = true → (s.drive c).state = .ready ∨ (s.drive c).state = .done ∨
               (s.drive c).state = .seeking ∨ ((s.drive c).state = .stopped ∧ (s.drive c).kind = none) →
               (t.drive c).state = .parked) ∧
             (s.isTakeChannel c = false ∨ (s.drive c).state = .faulted ∨
               ((s.drive c).state = .stopped ∧ (s.drive c).kind ≠ none) → (t.drive c).state = (s.drive c).state)) ∧
       (∀ f, s.take.state = .seeking → s.take.arm = some f →
         (f.phase = .positioning →
           ∃ u, exec (.disband a) s = .next (State.settled a .accepted u) ∧
             u.port.outcomes = (addOutcome f.station f.seq .aborted s).port.outcomes ∧
             u.port.overflow = (addOutcome f.station f.seq .aborted s).port.overflow ∧
             u.take.state = .idle ∧ u.take.id = 0 ∧ u.take.mask = [] ∧ u.take.s = 0 ∧ u.take.remaining = 0 ∧
             u.take.tf = 0 ∧ u.take.committed = false ∧ u.take.arm = none ∧
             u.take.lastId = (if f.prior.committed then f.prior.id else s.take.lastId) ∧
             u.holds = s.holds ∧ u.log = s.log ∧
             ∀ c, (u.engine c).positioning = none ∧ (u.engine c).ring = (s.engine c).ring ∧
               (u.engine c).path = (s.engine c).path ∧ (u.drive c).setPoint = (s.drive c).setPoint ∧
               (u.drive c).kind = (s.drive c).kind ∧ (u.drive c).source = none ∧
               ((s.drive c).state = .faulted → (u.drive c).state = .faulted) ∧
               (s.isTakeChannel c = true → (s.drive c).state ≠ .faulted →
                 (f.prior.id = 0 → (u.drive c).state = f.priorStates.get c) ∧
                 (f.prior.id ≠ 0 → f.priorStates.get c ≠ .unset → f.priorStates.get c ≠ .faulted →
                   f.priorStates.get c ≠ .stopped ∨ (s.drive c).kind = none → (u.drive c).state = .parked))) ∧
         (f.phase = .moving → exec (.disband a) s =
           .next (State.settled a .accepted (unwindArm { f with disbanded := true } .aborted (s.heard a)))) ∧
         (f.phase = .unwinding → exec (.disband a) s = .next (State.settled a .accepted
           { s.heard a with take := { s.take with arm := some { f with disbanded := true } } }))))) ∧
  (∀ (s : State) (f : ArmFlight) (r : Result), s.take.state = .seeking →
     ∃ u, s.UnwindingBegun u f r ∧ (u.someStopping → unwindArm f r s = u) ∧
       (¬u.someStopping → u.Unwound (unwindArm f r s) f))

/-- CLEAR (R141, R142): refused while anything moves or plays; accepted, the hold record is empty, the hold line released, and
each channel's fault condition goes by its state. -/
def Obligations.ClearEmptiesTheHoldRecord : Prop :=
  ∀ (s : State) (a : Activity), s.reaches 0x13 a → (arrivalOf a).payload = [] →
    (s.take.state = .seeking ∨ s.take.state = .countdown ∨ s.take.state = .rolling ∨ s.take.state = .finished ∨
      s.take.state = .stopping → exec (.clear a) s = .next (State.settled a .refusedState (s.heard a))) ∧
    (s.take.state = .safe ∨ s.take.state = .idle ∨ s.take.state = .armed ∨ s.take.state = .held →
      ∃ t, exec (.clear a) s = .next (State.settled a .accepted t) ∧ t.holds = HoldRecord.empty ∧ t.pullsHold = false ∧
        t.take = s.take ∧ t.roster = s.roster ∧ t.log = s.log ∧ t.sampler = s.sampler ∧
        ∀ c, t.engine c = s.engine c ∧ t.setup c = s.setup c ∧
          let d := s.drive c
          let x := match s.feedback c with
            | some v => toSetPoint v
            | none => d.setPoint
          (d.state = .faulted → t.drive c = { d with state := .parked, kind := none, setPoint := x, previous := none,
                                                     stepPos := x, followErrors := 0, pulses := none }) ∧
          (d.state = .stopped → s.take.state = .held ∨ s.take.state = .armed → t.drive c = { d with kind := none }) ∧
          (d.state = .stopped → s.take.state = .safe ∨ s.take.state = .idle →
            (t.drive c).state = .parked ∧ (t.drive c).kind = none ∧ (t.drive c).setPoint = d.setPoint ∧
              (t.drive c).holdPoint = d.holdPoint) ∧
          (d.state ≠ .faulted → d.state ≠ .stopped → t.drive c = { d with kind := none }))

/-- HOLD_FALL and HOLD_RISE (R131, R132, R140, R144, R148): two samples change the filtered input; the fall acts by the take
state, and from COUNTDOWN, ROLLING and FINISHED every PLAYING take channel stops and HELD follows when none is STOPPING.
Samples as operands are the model's choice (log 7). -/
def Obligations.HoldLineActsByTakeState : Prop :=
  ∀ (s : State) (time : Nat) (samples : List Bool), 2 ≤ samples.length →
    let h := { s.atTime time with holdInput := false }
    (s.holdInput = true → (samples.reverse.take 2).all (· == false) = true →
      (s.take.state = .safe ∨ s.take.state = .idle ∨ s.take.state = .armed ∨ s.take.state = .stopping ∨
        s.take.state = .held → exec (.holdFall time samples) s = .next h) ∧
      (∀ f, s.take.state = .seeking → s.take.arm = some f →
        (f.phase = .positioning → exec (.holdFall time samples) s = .next (discardArm f .aborted .abandoned h)) ∧
        (f.phase = .moving → exec (.holdFall time samples) s = .next (unwindArm f .aborted h)) ∧
        (f.phase = .unwinding → exec (.holdFall time samples) s = .next h)) ∧
      (s.take.state = .countdown ∨ s.take.state = .rolling ∨ s.take.state = .finished →
        ∃ t, exec (.holdFall time samples) s = .next t ∧ t.holdInput = false ∧ t.holds = s.holds ∧ t.log = s.log ∧
          (t.allTake (fun d => decide (d.state ≠ .stopping)) = true → t.take = { s.take with state := .held }) ∧
          (t.allTake (fun d => decide (d.state ≠ .stopping)) = false → t.take = { s.take with state := .stopping }) ∧
          ∀ c, t.engine c = s.engine c ∧ (t.drive c).setPoint = (s.drive c).setPoint ∧
            (s.isTakeChannel c = true → (s.drive c).state = .playing →
              (t.drive c).holdPoint = some (s.drive c).playedNext ∧
              ((t.drive c).state = .stopping ∨ (t.drive c).state = .stopped) ∧
              (∀ p, (s.drive c).previous = some p → p ≠ (s.drive c).setPoint → (t.drive c).state = .stopping)) ∧
            (s.isTakeChannel c = false ∨ (s.drive c).state ≠ .playing → t.drive c = s.drive c))) ∧
    (s.holdInput = false → (samples.reverse.take 2).all (· == true) = true →
      exec (.holdRise time samples) s = .next { s.atTime time with holdInput := true })

/-! ## Sampler, Capture Log, lines, formats (chapters 10 to 13) -/

/-- WAKE_END (R174, R177): the pass goes first, then a pending single; with neither the converter idles or sleeps. -/
def Obligations.WakeBeginsTheWaitingWork : Prop :=
  ∀ (s : State) (t : Nat), s.sampler.waking = some t →
    let began (n : Nat) (single : Bool) : Conversion :=
      { input := n, single := single, precharge := s.sampler.enables.getD n false,
        completes := t + 48 + (if s.sampler.enables.getD n false then 8 else 0) }
    (∀ n rest, s.sampler.pass = some (n :: rest) → exec .wakeEnd s = .next { s.atTime t with sampler := { s.sampler with
      waking := none, mode := .sweep, conversion := some (began n false), pass := some rest } }) ∧
    (∀ x, s.sampler.pass = none → s.sampler.single = some x → exec .wakeEnd s = .next { s.atTime t with
      sampler := { s.sampler with
        waking := none, mode := .single, conversion := some (began x.input true), pass := none, single := none } }) ∧
    (s.sampler.pass = none → s.sampler.single = none → exec .wakeEnd s = .next { s.atTime t with
      sampler := { s.sampler with waking := none, mode := if sweepSet s = [] then .standby else .sweep } })

/-- CONVERSION_COMPLETE (R173, R179): the slot takes the result, a break is judged when the check was on, the single's place is
filled, and WIRE_BREAK faults every energized channel on that input. The freed converter begins at once (R177): the next input
of the pass, else the pending single; with neither it idles, or sleeps with no input left to sweep (R174). -/
def Obligations.ConversionWritesItsSlot : Prop :=
  ∀ (s : State) (v : Conversion) (result : Nat), s.sampler.conversion = some v → result < 4096 →
    v.input < s.sampler.slots.length → v.input < s.sampler.breaks.length → s.take.state ≠ .seeking →
    let broke := v.precharge && decide (result = 4095)
    let began (n : Nat) (single : Bool) : Conversion :=
      { input := n, single := single, precharge := s.sampler.enables.getD n false,
        completes := v.completes + 48 + (if s.sampler.enables.getD n false then 8 else 0) }
    ∃ t, exec (.conversionComplete result) s = .next t ∧ t.clock = max s.clock v.completes ∧
      t.sampler.slots = s.sampler.slots.set v.input { result := result, isVoid := false } ∧
      t.sampler.breaks = s.sampler.breaks.set v.input
        (if v.precharge then decide (result = 4095) else s.sampler.breaks.getD v.input false) ∧
      (v.single = false → t.port = s.port) ∧
      (∀ ws p ps, v.single = true → s.port.answers = ws ++ p :: ps → (∀ w ∈ ws, w.body.isSome = true) → p.body = none →
        t.port.answers = ws ++ { p with body := some (.sample v.input result broke) } :: ps) ∧
      (broke = false → t.channels = s.channels ∧ t.holds = s.holds ∧ t.take = s.take) ∧
      (broke = true → ∀ c, (s.setup c).feedback = .analog v.input → s.energized c = true →
        (t.drive c).state = .faulted ∧ (t.drive c).kind = some .wireBreak ∧ t.holds.flags.channelFault = true) ∧
      (∀ c, (s.setup c).feedback ≠ .analog v.input → t.chan c = s.chan c) ∧
      (∀ n rest, s.sampler.pass = some (n :: rest) → t.sampler.conversion = some (began n false) ∧
        t.sampler.pass = some rest ∧ t.sampler.single = s.sampler.single ∧ t.sampler.mode = .sweep) ∧
      (∀ x, s.sampler.pass = none ∨ s.sampler.pass = some [] → s.sampler.single = some x →
        t.sampler.conversion = some (began x.input true) ∧ t.sampler.pass = none ∧ t.sampler.single = none ∧
        t.sampler.mode = .single) ∧
      (s.sampler.pass = none ∨ s.sampler.pass = some [] → s.sampler.single = none →
        t.sampler.conversion = none ∧ t.sampler.pass = none ∧
        t.sampler.mode = if sweepSet t = [] then .standby else .sweep)

/-- FETCH (R186) and SAMPLE (R178): the checks in order; a FETCH removes the oldest entries into one answer, a SAMPLE takes a
waiting place and begins, wakes the converter, or waits. -/
def Obligations.FetchAndSample : Prop :=
  ∀ (s : State) (a : Activity) (n : Nat), readByte (arrivalOf a).payload = some n →
    let m := arrivalOf a
    let h := s.heard a
    (s.reaches 0x22 a →
      (n = 0 ∨ 6 < n → exec (.fetch a) s = .next (State.settled a .refusedRange h)) ∧
      (1 ≤ n → n ≤ 6 → 4 ≤ s.port.answers.length → exec (.fetch a) s = .next (State.settled a .busy h)) ∧
      (1 ≤ n → n ≤ 6 → s.port.answers.length < 4 → exec (.fetch a) s = .next (State.settled a .accepted
        { h with log := { s.log with entries := s.log.entries.drop n }, port := { h.port with
            answers := s.port.answers ++ [{ station := m.sender, seq := m.seq, sending := false, body := some (.fetch
              (s.log.entries.take n) (s.log.entries.drop n).length s.log.gap s.log.firstGap) }] } }))) ∧
    (s.reaches 0x23 a →
      (7 < n → exec (.sample a) s = .next (State.settled a .refusedRange h)) ∧
      (n ≤ 7 → s.singleBusy = true ∨ 4 ≤ s.port.answers.length → exec (.sample a) s = .next (State.settled a .busy h)) ∧
      (n ≤ 7 → s.singleBusy = false → s.port.answers.length < 4 →
        let placed : State := { h with port := { h.port with answers := s.port.answers ++
          [{ station := m.sender, seq := m.seq, body := none, sending := false }] } }
        let single : Option PendingSingle := some { input := n, station := m.sender, seq := m.seq }
        (s.sampler.mode = .standby → exec (.sample a) s = .next (State.settled a .accepted { placed with
          sampler := { s.sampler with single := single, mode := .sweep, waking := some (a.ended + 320) } })) ∧
        (s.sampler.mode ≠ .standby → s.sampler.conversion = none → s.sampler.waking = none → s.sampler.pass = none →
          let check := s.sampler.enables.getD n false
          let began : Conversion := { input := n, single := true, precharge := check,
                                      completes := a.ended + 48 + (if check then 8 else 0) }
          exec (.sample a) s = .next (State.settled a .accepted { placed with
            sampler := { s.sampler with mode := .single, conversion := some began } })) ∧
        (s.sampler.mode ≠ .standby → s.sampler.conversion ≠ none ∨ s.sampler.waking ≠ none →
          exec (.sample a) s = .next (State.settled a .accepted { placed with
            sampler := { s.sampler with single := single } }))))

/-- QUERY of every region (R45, R60, R107, R153, R88, R200, R182): with a place free, the answer carries the values standing at the
arrival; with none it is BUSY (R87); a parameter out of range, or no known region, is REFUSED_RANGE.
Pin levels as an operand, and a payload of another length refused before the other checks, are the model's choice (logs 6, 19). -/
def Obligations.QueriesAnswerFromTheState : Prop :=
  ∀ (s : State) (a : Activity) (p : List Byte), s.reaches 0x20 a →
    let m := arrivalOf a
    let h := s.heard a
    let room := s.port.answers.length < 4
    let refused (t : State) (r : Result) : Host.Outcome State Fault Refusal := .next (State.settled a r t)
    let answers (o : Host.Outcome State Fault Refusal) (t : State) (b : AnswerBody) : Prop :=
      (room → o = .next (State.settled a .accepted { t with port := { t.port with
          answers := s.port.answers ++ [{ station := m.sender, seq := m.seq, body := some b, sending := false }] } })) ∧
      (¬room → o = refused t .busy)
    (a.region? = some 1 →
      (∀ c, params 4 m.payload = some p → chan? (field p 0 1) = some c →
        field p 1 2 < 1024 → 1 ≤ field p 3 1 → field p 3 1 ≤ 4 → answers (exec (.queryRing a) s) h
          (.ring (s.engine c).release (s.engine c).path.head (s.engine c).tail (field p 1 2)
            ((List.range (field p 3 1)).map fun k => ringGet (s.engine c).ring ((field p 1 2 + k) % 1024)))) ∧
      (params 4 m.payload = some p → 3 < field p 0 1 ∨ 1024 ≤ field p 1 2 ∨ field p 3 1 = 0 ∨ 4 < field p 3 1 →
        exec (.queryRing a) s = refused h .refusedRange) ∧
      (m.payload.length ≠ 5 → exec (.queryRing a) s = refused h .refusedRange)) ∧
    (a.region? = some 2 →
      (∀ c, params 3 m.payload = some p → chan? (field p 0 1) = some c →
        field p 1 1 < 16 → 1 ≤ field p 2 1 → field p 2 1 ≤ 2 → answers (exec (.queryCheckpoints a) s) h
          (.checkpoints (s.engine c).path.table.length (s.engine c).scan
            (((s.engine c).path.table.drop (field p 1 1)).take (field p 2 1)))) ∧
      (params 3 m.payload = some p → 3 < field p 0 1 ∨ 16 ≤ field p 1 1 ∨ field p 2 1 = 0 ∨ 2 < field p 2 1 →
        exec (.queryCheckpoints a) s = refused h .refusedRange) ∧
      (m.payload.length ≠ 4 → exec (.queryCheckpoints a) s = refused h .refusedRange)) ∧
    (a.region? = some 3 →
      (params 1 m.payload = some p → field p 0 1 < 16 →
        answers (exec (.queryRoster a) s) h (.roster (s.entry (field p 0 1)) s.roster.summary)) ∧
      (params 1 m.payload = some p → 16 ≤ field p 0 1 → exec (.queryRoster a) s = refused h .refusedRange) ∧
      (m.payload.length ≠ 2 → exec (.queryRoster a) s = refused h .refusedRange)) ∧
    (a.region? = some 4 →
      (m.payload.length = 1 → answers (exec (.queryHoldCauses a) s) h
        (.holdCauses s.holds s.take.state s.take.id s.take.tf s.holdInput
          (Quad.ofFn fun c => { state := (s.drive c).state, kind := (s.drive c).kind, holdPoint := (s.drive c).holdPoint,
                                setPoint := (s.drive c).setPoint }))) ∧
      (m.payload.length ≠ 1 → exec (.queryHoldCauses a) s = refused h .refusedRange)) ∧
    (a.region? = some 5 →
      (m.payload.length = 1 → answers (exec (.queryCueBoard a) s) h (.cueBoard s.board.entries)) ∧
      (m.payload.length ≠ 1 → exec (.queryCueBoard a) s = refused h .refusedRange)) ∧
    (∀ pins, a.region? = some 6 →
      let w := (s.withPins pins).heard a
      (m.payload.length = 1 → answers (exec (.queryLines a pins) s) w
        (.lines ((List.range 24).map w.lineView) (Quad.ofFn w.lineChannelView) s.holdInput s.station s.subBeats)) ∧
      (m.payload.length ≠ 1 → exec (.queryLines a pins) s = refused w .refusedRange)) ∧
    (a.region? = some 7 →
      (m.payload.length = 1 → room → exec (.querySampler a) s = .next (State.settled a .accepted { h with
        sampler := { s.sampler with overrun := false },
        port := { h.port with
          answers := s.port.answers ++ [
            { station := m.sender, seq := m.seq, sending := false,
              body := some (.sampler s.sampler.mode (s.sampler.conversion.map Conversion.input) s.sampler.single.isSome
                s.sampler.slots s.sampler.breaks s.sampler.enables s.sampler.overrun) }] } })) ∧
      (m.payload.length = 1 → ¬room → exec (.querySampler a) s = refused h .busy) ∧
      (m.payload.length ≠ 1 → exec (.querySampler a) s = refused h .refusedRange)) ∧
    (a.region? = none ∨ a.region? = some 0 ∨ (∃ r, a.region? = some r ∧ 7 < r) →
      exec (.queryNoKnownRegion a) s = refused h .refusedRange)

/-- The Capture Log (R183, R184, R185): a pulse in ROLLING or FINISHED gives one entry per flagged channel that is not UNSET; an
entry offered to a full log is lost, and the first loss fixes the gap.
An accepted FRAME_EDGE captures what stands after it, with the TF it begins (R184), and in the other take states nothing. -/
def Obligations.CaptureLogKeepsTheFirstGap : Prop :=
  (∀ (l : CaptureLog) (x : CaptureEntry),
    (l.entries.length < 512 → offerCapture x l = { l with entries := l.entries ++ [x] }) ∧
    (512 ≤ l.entries.length → l.gap = false → offerCapture x l = { l with gap := true, firstGap := some x.tf }) ∧
    (512 ≤ l.entries.length → l.gap = true → offerCapture x l = l)) ∧
  (∀ s : State,
    (s.take.state ≠ .rolling → s.take.state ≠ .finished → capturePulse s = s) ∧
    (s.take.state = .rolling ∨ s.take.state = .finished → s.log.entries.length ≤ 508 →
      let flagged (c : Chan) : Bool := (s.chan c).configured && (s.setup c).capture && decide ((s.drive c).state ≠ .unset)
      let entry (c : Chan) : CaptureEntry :=
        { takeId := s.take.id, tf := s.take.tf, channel := c.val, setPoint := (s.drive c).setPoint, feedback := s.feedback c }
      (capturePulse s).log = { s.log with entries := s.log.entries ++ (allChannels.filter flagged).map entry })) ∧
  (∀ (s : State) (time : Nat), s.acceptsPulse time → s.log.entries.length ≤ 508 →
    ∃ t, exec (.frameEdge time false true) s = .next t ∧
      let flagged (c : Chan) : Bool := (t.chan c).configured && (t.setup c).capture && decide ((t.drive c).state ≠ .unset)
      let entry (c : Chan) : CaptureEntry :=
        { takeId := t.take.id, tf := t.take.tf, channel := c.val, setPoint := (t.drive c).setPoint, feedback := t.feedback c }
      (t.take.state = .rolling ∨ t.take.state = .finished →
        t.log = { s.log with entries := s.log.entries ++ (allChannels.filter flagged).map entry }) ∧
      (t.take.state ≠ .rolling → t.take.state ≠ .finished → t.log = s.log))

/-- The snapshot of a JOINED station's pulse (R41, R81, R97): the fields of the report, the marks cleared, the last summary not
current. An accepted FRAME_EDGE lays out the window and takes the snapshot of what stands after it (R74, R81); a LISTENING
station takes none. -/
def Obligations.SnapshotShowsTheStation : Prop :=
  (∀ s : State, s.port.join = .joined → ∃ r, (layOutWindow s).port.snapshot = some r ∧ r.outcomes = s.port.outcomes ∧
    r.body.station = s.station ∧ r.body.tag = s.timer.tag ∧ r.body.takeState = s.take.state.code ∧
    r.body.takeId = s.take.id ∧ r.body.causes = s.holds.flags ∧ r.body.holdPulled = s.holds.flags.any ∧
    r.body.captureGap = s.log.gap ∧ r.body.duplicateFree = s.port.duplicateFree ∧ r.body.overflow = s.port.overflow ∧
    (s.take.state = .countdown → r.body.frame = s.take.remaining) ∧
    (s.take.state = .seeking ∨ s.take.state = .armed → r.body.frame = s.take.s) ∧
    (s.take.state = .rolling ∨ s.take.state = .finished ∨ s.take.state = .stopping ∨ s.take.state = .held →
      r.body.frame = s.take.tf) ∧ (s.take.state = .safe ∨ s.take.state = .idle → r.body.frame = 0) ∧
    (∀ c, (r.body.channels.get c).setPoint = (s.drive c).setPoint ∧
      (r.body.channels.get c).state = (s.drive c).state.code ∧
      (r.body.channels.get c).lastReported = (s.engine c).path.lastReported ∧
      ((r.body.channels.get c).ringLow = true ↔
        ((s.drive c).state = .seeking ∨ (s.drive c).state = .ready ∨ (s.drive c).state = .playing) ∧
        (s.drive c).source = some .path ∧
        ((s.engine c).tail + 1024 - (s.engine c).path.head % 1024) % 1024 ≤ (s.setup c).lowMark)) ∧
    (layOutWindow s).port.window = .slots ∧ (∀ n, ((layOutWindow s).entry n).mark = false) ∧
    (layOutWindow s).roster.summary.current = false) ∧
  (∀ (s : State) (time : Nat), s.acceptsPulse time →
    (s.port.join = .joined → ∃ t, exec (.frameEdge time false true) s = .next t ∧ t.port.join = .joined ∧
      t.port.window = .slots ∧ t.port.snapshot = some t.report ∧ (∀ n, (t.entry n).mark = false) ∧
      t.roster.summary.current = false) ∧
    (∀ count heard, s.port.join = .listening count heard → ∃ t, exec (.frameEdge time false true) s = .next t ∧
      t.port.join = s.port.join ∧ t.port.window = .slots ∧ t.port.snapshot = none ∧ (∀ n, (t.entry n).mark = false) ∧
      t.roster.summary.current = false))

/-- The SAFE clamp and the brake interlock (R154, R191, R192): ENABLE is active exactly while the channel is energized, BRAKE is
released exactly then, nothing is energized and no pulse is high in SAFE, and TALLY is high in ROLLING alone.
The level of an input (R190): low with its input enable off; an output reads its own level and has no pull; an undriven pin
follows its pull-up, one that is driven the outside.
How the outside stands to the pins is the model's operand (log 6). -/
def Obligations.ClampAndInterlock : Prop :=
  ∀ (s : State) (c : Chan) (i : Nat),
    (s.energized c = true ↔ (s.drive c).state ≠ .unset ∧ (s.drive c).state ≠ .faulted ∧ s.take.state ≠ .safe) ∧
    (s.functionLevel c .enable = some (s.setup c).enableHigh ↔ s.energized c = true) ∧
    (s.functionLevel c .brake = some (s.setup c).brakeHigh ↔ s.energized c = false) ∧
    (s.take.state = .safe → s.functionLevel c .step = some false) ∧
    (s.lines.tally = some i → (s.effective i).output = true ∧ s.drivenLevel i = decide (s.take.state = .rolling)) ∧
    ((s.effective i).output = true → (s.effective i).pullUp = false) ∧
    ((s.effective i).inputEnable = false → s.inputLevel i = false) ∧
    ((s.effective i).inputEnable = true → (s.effective i).output = true → s.inputLevel i = s.drivenLevel i) ∧
    ((s.effective i).inputEnable = true → (s.effective i).output = false →
      (s.lines.pins.driven.getLsbD i = true → s.inputLevel i = s.lines.pins.level.getLsbD i) ∧
      (s.lines.pins.driven.getLsbD i = false → (s.effective i).pullUp = true → s.inputLevel i = true))

/-- A report read back (R205, R203): every field of a report survives its 45 bytes. -/
def Obligations.ReportsReadBack : Prop :=
  ∀ (r : FullReport) (began ended : Nat),
    r.body.station < 16 → r.body.takeState < 16 → r.body.tag < 256 → r.body.takeId < 65536 → r.body.frame < 16777216 →
    (∀ c, (r.body.channels.get c).state < 16 ∧ inFormat (r.body.channels.get c).setPoint = true ∧
      ∀ p, (r.body.channels.get c).lastReported = some p → p < 1024) →
    r.bytes.length = 45 ∧ readReport { began := began, ended := ended, bytes := r.bytes } = some r.body

/-- A ring entry read back (R206): LOAD's form is the form an entry is read back in, the stamp left out (R31). -/
def Obligations.RingEntriesReadBack : Prop :=
  ∀ (e : Entry),
    (match e.record with
     | .none | .loopClose | .pathEnd => True
     | .origin x => inFormat x = true
     | .shape _ num den => 1 ≤ num ∧ num ≤ 4096 ∧ 1 ≤ den ∧ den ≤ 4096
     | .span d l => d.natAbs ≤ 1073741824 ∧ 1 ≤ l ∧ l ≤ 65535
     | .dwell l => 1 ≤ l ∧ l ≤ 65535
     | .loopOpen n => 1 ≤ n ∧ n ≤ 65535
     | .waitCue q t _ => q < 64 ∧ t ≤ 65535
     | .emitCue q => q < 64) →
    e.bytes.length = 16 ∧ readEntry e.bytes = some { e with stamp := none }
end

