-- ==== Sys2Proof/Laws/State.lean ====
section
/-! SUPPORT. Reading the state back after each named update: one lemma per field per update, and the four channels. -/

-- One thread: as one text the package would start more than the memory limit lets through.
set_option Elab.async false

namespace Sys2Proof.Machine

/-! ## The four channels -/

@[simp] theorem Quad.get_set_same {α : Type} (q : Quad α) (c : Chan) (x : α) : (q.set c x).get c = x := by
  fin_cases c <;> rfl

@[simp] theorem Quad.get_set_ne {α : Type} (q : Quad α) (c d : Chan) (x : α) (h : d ≠ c) :
    (q.set c x).get d = q.get d := by
  fin_cases c <;> fin_cases d <;> first | rfl | exact absurd rfl h

@[simp] theorem Quad.get_map {α β : Type} (f : α → β) (q : Quad α) (c : Chan) : (q.map f).get c = f (q.get c) := by
  fin_cases c <;> rfl

@[simp] theorem Quad.get_ofFn {α : Type} (f : Chan → α) (c : Chan) : (Quad.ofFn f).get c = f c := by
  fin_cases c <;> rfl

theorem Quad.ext_get {α : Type} (p q : Quad α) (h : ∀ c, p.get c = q.get c) : p = q := by
  cases p; cases q
  have h0 := h 0; have h1 := h 1; have h2 := h 2; have h3 := h 3
  simp only [Quad.get] at h0 h1 h2 h3
  subst h0 h1 h2 h3
  rfl

/-- A property that each channel's turn keeps is kept by all four. -/
theorem eachChannel_keeps (P : State → Prop) (f : Chan → State → State) (h : ∀ c s, P s → P (f c s)) (s : State)
    (hs : P s) : P (eachChannel f s) := h 3 _ (h 2 _ (h 1 _ (h 0 _ hs)))

/-- What no channel's turn changes, all four leave. -/
theorem eachChannel_same {α : Type} (g : State → α) (f : Chan → State → State) (h : ∀ c s, g (f c s) = g s) (s : State) :
    g (eachChannel f s) = g s := by
  unfold eachChannel; rw [h, h, h, h]

/-- Channel `c`'s own turn stands between turns of the others. -/
theorem eachChannel_split (R : State → State → Prop) (hr : ∀ s, R s s) (ht : ∀ s t u, R s t → R t u → R s u)
    (f : Chan → State → State) (c : Chan) (h : ∀ d s, d ≠ c → R s (f d s)) (s : State) :
    ∃ u, R s u ∧ R (f c u) (eachChannel f s) := by
  have k : ∀ d, d ≠ c → ∀ s, R s (f d s) := fun d hd s => h d s hd
  unfold eachChannel
  fin_cases c
  · exact ⟨s, hr s, ht _ _ _ (k 1 (by decide) _) (ht _ _ _ (k 2 (by decide) _) (k 3 (by decide) _))⟩
  · exact ⟨f 0 s, k 0 (by decide) _, ht _ _ _ (k 2 (by decide) _) (k 3 (by decide) _)⟩
  · exact ⟨f 1 (f 0 s), ht _ _ _ (k 0 (by decide) _) (k 1 (by decide) _), k 3 (by decide) _⟩
  · exact ⟨f 2 (f 1 (f 0 s)), ht _ _ _ (k 0 (by decide) _) (ht _ _ _ (k 1 (by decide) _) (k 2 (by decide) _)), hr _⟩

theorem mem_allChannels (c : Chan) : c ∈ allChannels := by fin_cases c <;> decide


/-! ## State.setChan -/

@[simp] theorem State.setChan_clock (s : State) (c : Chan) (x : Channel) : (s.setChan c x).clock = s.clock := rfl
@[simp] theorem State.setChan_station (s : State) (c : Chan) (x : Channel) : (s.setChan c x).station = s.station := rfl
@[simp] theorem State.setChan_subBeats (s : State) (c : Chan) (x : Channel) : (s.setChan c x).subBeats = s.subBeats := rfl
@[simp] theorem State.setChan_timer (s : State) (c : Chan) (x : Channel) : (s.setChan c x).timer = s.timer := rfl
@[simp] theorem State.setChan_port (s : State) (c : Chan) (x : Channel) : (s.setChan c x).port = s.port := rfl
@[simp] theorem State.setChan_roster (s : State) (c : Chan) (x : Channel) : (s.setChan c x).roster = s.roster := rfl
@[simp] theorem State.setChan_take (s : State) (c : Chan) (x : Channel) : (s.setChan c x).take = s.take := rfl
@[simp] theorem State.setChan_holds (s : State) (c : Chan) (x : Channel) : (s.setChan c x).holds = s.holds := rfl
@[simp] theorem State.setChan_holdInput (s : State) (c : Chan) (x : Channel) : (s.setChan c x).holdInput = s.holdInput := rfl
@[simp] theorem State.setChan_board (s : State) (c : Chan) (x : Channel) : (s.setChan c x).board = s.board := rfl
@[simp] theorem State.setChan_sampler (s : State) (c : Chan) (x : Channel) : (s.setChan c x).sampler = s.sampler := rfl
@[simp] theorem State.setChan_log (s : State) (c : Chan) (x : Channel) : (s.setChan c x).log = s.log := rfl
@[simp] theorem State.setChan_lines (s : State) (c : Chan) (x : Channel) : (s.setChan c x).lines = s.lines := rfl
@[simp] theorem State.setChan_freeCount (s : State) (c : Chan) (x : Channel) : (s.setChan c x).freeCount = s.freeCount := rfl
@[simp] theorem State.setChan_pending (s : State) (c : Chan) (x : Channel) : (s.setChan c x).pending = s.pending := rfl

/-! ## State.setDrive -/

@[simp] theorem State.setDrive_clock (s : State) (c : Chan) (d : Drive) : (s.setDrive c d).clock = s.clock := rfl
@[simp] theorem State.setDrive_station (s : State) (c : Chan) (d : Drive) : (s.setDrive c d).station = s.station := rfl
@[simp] theorem State.setDrive_subBeats (s : State) (c : Chan) (d : Drive) : (s.setDrive c d).subBeats = s.subBeats := rfl
@[simp] theorem State.setDrive_timer (s : State) (c : Chan) (d : Drive) : (s.setDrive c d).timer = s.timer := rfl
@[simp] theorem State.setDrive_port (s : State) (c : Chan) (d : Drive) : (s.setDrive c d).port = s.port := rfl
@[simp] theorem State.setDrive_roster (s : State) (c : Chan) (d : Drive) : (s.setDrive c d).roster = s.roster := rfl
@[simp] theorem State.setDrive_take (s : State) (c : Chan) (d : Drive) : (s.setDrive c d).take = s.take := rfl
@[simp] theorem State.setDrive_holds (s : State) (c : Chan) (d : Drive) : (s.setDrive c d).holds = s.holds := rfl
@[simp] theorem State.setDrive_holdInput (s : State) (c : Chan) (d : Drive) : (s.setDrive c d).holdInput = s.holdInput := rfl
@[simp] theorem State.setDrive_board (s : State) (c : Chan) (d : Drive) : (s.setDrive c d).board = s.board := rfl
@[simp] theorem State.setDrive_sampler (s : State) (c : Chan) (d : Drive) : (s.setDrive c d).sampler = s.sampler := rfl
@[simp] theorem State.setDrive_log (s : State) (c : Chan) (d : Drive) : (s.setDrive c d).log = s.log := rfl
@[simp] theorem State.setDrive_lines (s : State) (c : Chan) (d : Drive) : (s.setDrive c d).lines = s.lines := rfl
@[simp] theorem State.setDrive_freeCount (s : State) (c : Chan) (d : Drive) : (s.setDrive c d).freeCount = s.freeCount := rfl
@[simp] theorem State.setDrive_pending (s : State) (c : Chan) (d : Drive) : (s.setDrive c d).pending = s.pending := rfl

/-! ## State.setEngine -/

@[simp] theorem State.setEngine_clock (s : State) (c : Chan) (e : Engine) : (s.setEngine c e).clock = s.clock := rfl
@[simp] theorem State.setEngine_station (s : State) (c : Chan) (e : Engine) : (s.setEngine c e).station = s.station := rfl
@[simp] theorem State.setEngine_subBeats (s : State) (c : Chan) (e : Engine) : (s.setEngine c e).subBeats = s.subBeats := rfl
@[simp] theorem State.setEngine_timer (s : State) (c : Chan) (e : Engine) : (s.setEngine c e).timer = s.timer := rfl
@[simp] theorem State.setEngine_port (s : State) (c : Chan) (e : Engine) : (s.setEngine c e).port = s.port := rfl
@[simp] theorem State.setEngine_roster (s : State) (c : Chan) (e : Engine) : (s.setEngine c e).roster = s.roster := rfl
@[simp] theorem State.setEngine_take (s : State) (c : Chan) (e : Engine) : (s.setEngine c e).take = s.take := rfl
@[simp] theorem State.setEngine_holds (s : State) (c : Chan) (e : Engine) : (s.setEngine c e).holds = s.holds := rfl
@[simp] theorem State.setEngine_holdInput (s : State) (c : Chan) (e : Engine) : (s.setEngine c e).holdInput = s.holdInput := rfl
@[simp] theorem State.setEngine_board (s : State) (c : Chan) (e : Engine) : (s.setEngine c e).board = s.board := rfl
@[simp] theorem State.setEngine_sampler (s : State) (c : Chan) (e : Engine) : (s.setEngine c e).sampler = s.sampler := rfl
@[simp] theorem State.setEngine_log (s : State) (c : Chan) (e : Engine) : (s.setEngine c e).log = s.log := rfl
@[simp] theorem State.setEngine_lines (s : State) (c : Chan) (e : Engine) : (s.setEngine c e).lines = s.lines := rfl
@[simp] theorem State.setEngine_freeCount (s : State) (c : Chan) (e : Engine) : (s.setEngine c e).freeCount = s.freeCount := rfl
@[simp] theorem State.setEngine_pending (s : State) (c : Chan) (e : Engine) : (s.setEngine c e).pending = s.pending := rfl

/-! ## State.atTime -/

@[simp] theorem State.atTime_station (s : State) (t : Nat) : (s.atTime t).station = s.station := rfl
@[simp] theorem State.atTime_subBeats (s : State) (t : Nat) : (s.atTime t).subBeats = s.subBeats := rfl
@[simp] theorem State.atTime_timer (s : State) (t : Nat) : (s.atTime t).timer = s.timer := rfl
@[simp] theorem State.atTime_port (s : State) (t : Nat) : (s.atTime t).port = s.port := rfl
@[simp] theorem State.atTime_roster (s : State) (t : Nat) : (s.atTime t).roster = s.roster := rfl
@[simp] theorem State.atTime_take (s : State) (t : Nat) : (s.atTime t).take = s.take := rfl
@[simp] theorem State.atTime_holds (s : State) (t : Nat) : (s.atTime t).holds = s.holds := rfl
@[simp] theorem State.atTime_holdInput (s : State) (t : Nat) : (s.atTime t).holdInput = s.holdInput := rfl
@[simp] theorem State.atTime_channels (s : State) (t : Nat) : (s.atTime t).channels = s.channels := rfl
@[simp] theorem State.atTime_board (s : State) (t : Nat) : (s.atTime t).board = s.board := rfl
@[simp] theorem State.atTime_sampler (s : State) (t : Nat) : (s.atTime t).sampler = s.sampler := rfl
@[simp] theorem State.atTime_log (s : State) (t : Nat) : (s.atTime t).log = s.log := rfl
@[simp] theorem State.atTime_lines (s : State) (t : Nat) : (s.atTime t).lines = s.lines := rfl
@[simp] theorem State.atTime_freeCount (s : State) (t : Nat) : (s.atTime t).freeCount = s.freeCount := rfl
@[simp] theorem State.atTime_pending (s : State) (t : Nat) : (s.atTime t).pending = s.pending := rfl

/-! ## State.withPending -/

@[simp] theorem State.withPending_clock (s : State) (q : List Instr) : (s.withPending q).clock = s.clock := rfl
@[simp] theorem State.withPending_station (s : State) (q : List Instr) : (s.withPending q).station = s.station := rfl
@[simp] theorem State.withPending_subBeats (s : State) (q : List Instr) : (s.withPending q).subBeats = s.subBeats := rfl
@[simp] theorem State.withPending_timer (s : State) (q : List Instr) : (s.withPending q).timer = s.timer := rfl
@[simp] theorem State.withPending_port (s : State) (q : List Instr) : (s.withPending q).port = s.port := rfl
@[simp] theorem State.withPending_roster (s : State) (q : List Instr) : (s.withPending q).roster = s.roster := rfl
@[simp] theorem State.withPending_take (s : State) (q : List Instr) : (s.withPending q).take = s.take := rfl
@[simp] theorem State.withPending_holds (s : State) (q : List Instr) : (s.withPending q).holds = s.holds := rfl
@[simp] theorem State.withPending_holdInput (s : State) (q : List Instr) : (s.withPending q).holdInput = s.holdInput := rfl
@[simp] theorem State.withPending_channels (s : State) (q : List Instr) : (s.withPending q).channels = s.channels := rfl
@[simp] theorem State.withPending_board (s : State) (q : List Instr) : (s.withPending q).board = s.board := rfl
@[simp] theorem State.withPending_sampler (s : State) (q : List Instr) : (s.withPending q).sampler = s.sampler := rfl
@[simp] theorem State.withPending_log (s : State) (q : List Instr) : (s.withPending q).log = s.log := rfl
@[simp] theorem State.withPending_lines (s : State) (q : List Instr) : (s.withPending q).lines = s.lines := rfl
@[simp] theorem State.withPending_freeCount (s : State) (q : List Instr) : (s.withPending q).freeCount = s.freeCount := rfl

/-! ## State.withPins -/

@[simp] theorem State.withPins_clock (s : State) (p : Pins) : (s.withPins p).clock = s.clock := rfl
@[simp] theorem State.withPins_station (s : State) (p : Pins) : (s.withPins p).station = s.station := rfl
@[simp] theorem State.withPins_subBeats (s : State) (p : Pins) : (s.withPins p).subBeats = s.subBeats := rfl
@[simp] theorem State.withPins_timer (s : State) (p : Pins) : (s.withPins p).timer = s.timer := rfl
@[simp] theorem State.withPins_port (s : State) (p : Pins) : (s.withPins p).port = s.port := rfl
@[simp] theorem State.withPins_roster (s : State) (p : Pins) : (s.withPins p).roster = s.roster := rfl
@[simp] theorem State.withPins_take (s : State) (p : Pins) : (s.withPins p).take = s.take := rfl
@[simp] theorem State.withPins_holds (s : State) (p : Pins) : (s.withPins p).holds = s.holds := rfl
@[simp] theorem State.withPins_holdInput (s : State) (p : Pins) : (s.withPins p).holdInput = s.holdInput := rfl
@[simp] theorem State.withPins_channels (s : State) (p : Pins) : (s.withPins p).channels = s.channels := rfl
@[simp] theorem State.withPins_board (s : State) (p : Pins) : (s.withPins p).board = s.board := rfl
@[simp] theorem State.withPins_sampler (s : State) (p : Pins) : (s.withPins p).sampler = s.sampler := rfl
@[simp] theorem State.withPins_log (s : State) (p : Pins) : (s.withPins p).log = s.log := rfl
@[simp] theorem State.withPins_freeCount (s : State) (p : Pins) : (s.withPins p).freeCount = s.freeCount := rfl
@[simp] theorem State.withPins_pending (s : State) (p : Pins) : (s.withPins p).pending = s.pending := rfl

/-! ## State.heard -/

@[simp] theorem State.heard_station (s : State) (a : Activity) : (s.heard a).station = s.station := rfl
@[simp] theorem State.heard_subBeats (s : State) (a : Activity) : (s.heard a).subBeats = s.subBeats := rfl
@[simp] theorem State.heard_timer (s : State) (a : Activity) : (s.heard a).timer = s.timer := rfl
@[simp] theorem State.heard_roster (s : State) (a : Activity) : (s.heard a).roster = s.roster := rfl
@[simp] theorem State.heard_take (s : State) (a : Activity) : (s.heard a).take = s.take := rfl
@[simp] theorem State.heard_holds (s : State) (a : Activity) : (s.heard a).holds = s.holds := rfl
@[simp] theorem State.heard_holdInput (s : State) (a : Activity) : (s.heard a).holdInput = s.holdInput := rfl
@[simp] theorem State.heard_channels (s : State) (a : Activity) : (s.heard a).channels = s.channels := rfl
@[simp] theorem State.heard_board (s : State) (a : Activity) : (s.heard a).board = s.board := rfl
@[simp] theorem State.heard_sampler (s : State) (a : Activity) : (s.heard a).sampler = s.sampler := rfl
@[simp] theorem State.heard_log (s : State) (a : Activity) : (s.heard a).log = s.log := rfl
@[simp] theorem State.heard_lines (s : State) (a : Activity) : (s.heard a).lines = s.lines := rfl
@[simp] theorem State.heard_freeCount (s : State) (a : Activity) : (s.heard a).freeCount = s.freeCount := rfl
@[simp] theorem State.heard_pending (s : State) (a : Activity) : (s.heard a).pending = s.pending := rfl

/-! ## State.setEntry -/

@[simp] theorem State.setEntry_clock (s : State) (n : Nat) (e : RosterEntry) : (s.setEntry n e).clock = s.clock := rfl
@[simp] theorem State.setEntry_station (s : State) (n : Nat) (e : RosterEntry) : (s.setEntry n e).station = s.station := rfl
@[simp] theorem State.setEntry_subBeats (s : State) (n : Nat) (e : RosterEntry) : (s.setEntry n e).subBeats = s.subBeats := rfl
@[simp] theorem State.setEntry_timer (s : State) (n : Nat) (e : RosterEntry) : (s.setEntry n e).timer = s.timer := rfl
@[simp] theorem State.setEntry_port (s : State) (n : Nat) (e : RosterEntry) : (s.setEntry n e).port = s.port := rfl
@[simp] theorem State.setEntry_take (s : State) (n : Nat) (e : RosterEntry) : (s.setEntry n e).take = s.take := rfl
@[simp] theorem State.setEntry_holds (s : State) (n : Nat) (e : RosterEntry) : (s.setEntry n e).holds = s.holds := rfl
@[simp] theorem State.setEntry_holdInput (s : State) (n : Nat) (e : RosterEntry) : (s.setEntry n e).holdInput = s.holdInput := rfl
@[simp] theorem State.setEntry_channels (s : State) (n : Nat) (e : RosterEntry) : (s.setEntry n e).channels = s.channels := rfl
@[simp] theorem State.setEntry_board (s : State) (n : Nat) (e : RosterEntry) : (s.setEntry n e).board = s.board := rfl
@[simp] theorem State.setEntry_sampler (s : State) (n : Nat) (e : RosterEntry) : (s.setEntry n e).sampler = s.sampler := rfl
@[simp] theorem State.setEntry_log (s : State) (n : Nat) (e : RosterEntry) : (s.setEntry n e).log = s.log := rfl
@[simp] theorem State.setEntry_lines (s : State) (n : Nat) (e : RosterEntry) : (s.setEntry n e).lines = s.lines := rfl
@[simp] theorem State.setEntry_freeCount (s : State) (n : Nat) (e : RosterEntry) : (s.setEntry n e).freeCount = s.freeCount := rfl
@[simp] theorem State.setEntry_pending (s : State) (n : Nat) (e : RosterEntry) : (s.setEntry n e).pending = s.pending := rfl

/-! ## takePlace -/

@[simp] theorem takePlace_clock (n k : Nat) (b : Option AnswerBody) (s : State) : (takePlace n k b s).clock = s.clock := rfl
@[simp] theorem takePlace_station (n k : Nat) (b : Option AnswerBody) (s : State) : (takePlace n k b s).station = s.station := rfl
@[simp] theorem takePlace_subBeats (n k : Nat) (b : Option AnswerBody) (s : State) : (takePlace n k b s).subBeats = s.subBeats := rfl
@[simp] theorem takePlace_timer (n k : Nat) (b : Option AnswerBody) (s : State) : (takePlace n k b s).timer = s.timer := rfl
@[simp] theorem takePlace_roster (n k : Nat) (b : Option AnswerBody) (s : State) : (takePlace n k b s).roster = s.roster := rfl
@[simp] theorem takePlace_take (n k : Nat) (b : Option AnswerBody) (s : State) : (takePlace n k b s).take = s.take := rfl
@[simp] theorem takePlace_holds (n k : Nat) (b : Option AnswerBody) (s : State) : (takePlace n k b s).holds = s.holds := rfl
@[simp] theorem takePlace_holdInput (n k : Nat) (b : Option AnswerBody) (s : State) : (takePlace n k b s).holdInput = s.holdInput := rfl
@[simp] theorem takePlace_channels (n k : Nat) (b : Option AnswerBody) (s : State) : (takePlace n k b s).channels = s.channels := rfl
@[simp] theorem takePlace_board (n k : Nat) (b : Option AnswerBody) (s : State) : (takePlace n k b s).board = s.board := rfl
@[simp] theorem takePlace_sampler (n k : Nat) (b : Option AnswerBody) (s : State) : (takePlace n k b s).sampler = s.sampler := rfl
@[simp] theorem takePlace_log (n k : Nat) (b : Option AnswerBody) (s : State) : (takePlace n k b s).log = s.log := rfl
@[simp] theorem takePlace_lines (n k : Nat) (b : Option AnswerBody) (s : State) : (takePlace n k b s).lines = s.lines := rfl
@[simp] theorem takePlace_freeCount (n k : Nat) (b : Option AnswerBody) (s : State) : (takePlace n k b s).freeCount = s.freeCount := rfl
@[simp] theorem takePlace_pending (n k : Nat) (b : Option AnswerBody) (s : State) : (takePlace n k b s).pending = s.pending := rfl

/-! ## pendCues -/

@[simp] theorem pendCues_clock (q : List Nat) (s : State) : (pendCues q s).clock = s.clock := rfl
@[simp] theorem pendCues_station (q : List Nat) (s : State) : (pendCues q s).station = s.station := rfl
@[simp] theorem pendCues_subBeats (q : List Nat) (s : State) : (pendCues q s).subBeats = s.subBeats := rfl
@[simp] theorem pendCues_timer (q : List Nat) (s : State) : (pendCues q s).timer = s.timer := rfl
@[simp] theorem pendCues_port (q : List Nat) (s : State) : (pendCues q s).port = s.port := rfl
@[simp] theorem pendCues_roster (q : List Nat) (s : State) : (pendCues q s).roster = s.roster := rfl
@[simp] theorem pendCues_take (q : List Nat) (s : State) : (pendCues q s).take = s.take := rfl
@[simp] theorem pendCues_holds (q : List Nat) (s : State) : (pendCues q s).holds = s.holds := rfl
@[simp] theorem pendCues_holdInput (q : List Nat) (s : State) : (pendCues q s).holdInput = s.holdInput := rfl
@[simp] theorem pendCues_channels (q : List Nat) (s : State) : (pendCues q s).channels = s.channels := rfl
@[simp] theorem pendCues_sampler (q : List Nat) (s : State) : (pendCues q s).sampler = s.sampler := rfl
@[simp] theorem pendCues_log (q : List Nat) (s : State) : (pendCues q s).log = s.log := rfl
@[simp] theorem pendCues_lines (q : List Nat) (s : State) : (pendCues q s).lines = s.lines := rfl
@[simp] theorem pendCues_freeCount (q : List Nat) (s : State) : (pendCues q s).freeCount = s.freeCount := rfl
@[simp] theorem pendCues_pending (q : List Nat) (s : State) : (pendCues q s).pending = s.pending := rfl

/-! ## latchPending -/

@[simp] theorem latchPending_clock (g : Nat) (s : State) : (latchPending g s).clock = s.clock := rfl
@[simp] theorem latchPending_station (g : Nat) (s : State) : (latchPending g s).station = s.station := rfl
@[simp] theorem latchPending_subBeats (g : Nat) (s : State) : (latchPending g s).subBeats = s.subBeats := rfl
@[simp] theorem latchPending_timer (g : Nat) (s : State) : (latchPending g s).timer = s.timer := rfl
@[simp] theorem latchPending_port (g : Nat) (s : State) : (latchPending g s).port = s.port := rfl
@[simp] theorem latchPending_roster (g : Nat) (s : State) : (latchPending g s).roster = s.roster := rfl
@[simp] theorem latchPending_take (g : Nat) (s : State) : (latchPending g s).take = s.take := rfl
@[simp] theorem latchPending_holds (g : Nat) (s : State) : (latchPending g s).holds = s.holds := rfl
@[simp] theorem latchPending_holdInput (g : Nat) (s : State) : (latchPending g s).holdInput = s.holdInput := rfl
@[simp] theorem latchPending_channels (g : Nat) (s : State) : (latchPending g s).channels = s.channels := rfl
@[simp] theorem latchPending_sampler (g : Nat) (s : State) : (latchPending g s).sampler = s.sampler := rfl
@[simp] theorem latchPending_log (g : Nat) (s : State) : (latchPending g s).log = s.log := rfl
@[simp] theorem latchPending_lines (g : Nat) (s : State) : (latchPending g s).lines = s.lines := rfl
@[simp] theorem latchPending_freeCount (g : Nat) (s : State) : (latchPending g s).freeCount = s.freeCount := rfl
@[simp] theorem latchPending_pending (g : Nat) (s : State) : (latchPending g s).pending = s.pending := rfl

/-! ## consumeCues -/

@[simp] theorem consumeCues_clock (s : State) : (consumeCues s).clock = s.clock := rfl
@[simp] theorem consumeCues_station (s : State) : (consumeCues s).station = s.station := rfl
@[simp] theorem consumeCues_subBeats (s : State) : (consumeCues s).subBeats = s.subBeats := rfl
@[simp] theorem consumeCues_timer (s : State) : (consumeCues s).timer = s.timer := rfl
@[simp] theorem consumeCues_port (s : State) : (consumeCues s).port = s.port := rfl
@[simp] theorem consumeCues_roster (s : State) : (consumeCues s).roster = s.roster := rfl
@[simp] theorem consumeCues_take (s : State) : (consumeCues s).take = s.take := rfl
@[simp] theorem consumeCues_holds (s : State) : (consumeCues s).holds = s.holds := rfl
@[simp] theorem consumeCues_holdInput (s : State) : (consumeCues s).holdInput = s.holdInput := rfl
@[simp] theorem consumeCues_channels (s : State) : (consumeCues s).channels = s.channels := rfl
@[simp] theorem consumeCues_sampler (s : State) : (consumeCues s).sampler = s.sampler := rfl
@[simp] theorem consumeCues_log (s : State) : (consumeCues s).log = s.log := rfl
@[simp] theorem consumeCues_lines (s : State) : (consumeCues s).lines = s.lines := rfl
@[simp] theorem consumeCues_freeCount (s : State) : (consumeCues s).freeCount = s.freeCount := rfl
@[simp] theorem consumeCues_pending (s : State) : (consumeCues s).pending = s.pending := rfl

/-! ## clearBoard -/

@[simp] theorem clearBoard_clock (s : State) : (clearBoard s).clock = s.clock := rfl
@[simp] theorem clearBoard_station (s : State) : (clearBoard s).station = s.station := rfl
@[simp] theorem clearBoard_subBeats (s : State) : (clearBoard s).subBeats = s.subBeats := rfl
@[simp] theorem clearBoard_timer (s : State) : (clearBoard s).timer = s.timer := rfl
@[simp] theorem clearBoard_port (s : State) : (clearBoard s).port = s.port := rfl
@[simp] theorem clearBoard_roster (s : State) : (clearBoard s).roster = s.roster := rfl
@[simp] theorem clearBoard_take (s : State) : (clearBoard s).take = s.take := rfl
@[simp] theorem clearBoard_holds (s : State) : (clearBoard s).holds = s.holds := rfl
@[simp] theorem clearBoard_holdInput (s : State) : (clearBoard s).holdInput = s.holdInput := rfl
@[simp] theorem clearBoard_channels (s : State) : (clearBoard s).channels = s.channels := rfl
@[simp] theorem clearBoard_sampler (s : State) : (clearBoard s).sampler = s.sampler := rfl
@[simp] theorem clearBoard_log (s : State) : (clearBoard s).log = s.log := rfl
@[simp] theorem clearBoard_lines (s : State) : (clearBoard s).lines = s.lines := rfl
@[simp] theorem clearBoard_freeCount (s : State) : (clearBoard s).freeCount = s.freeCount := rfl
@[simp] theorem clearBoard_pending (s : State) : (clearBoard s).pending = s.pending := rfl

/-! ## closeCues -/

@[simp] theorem closeCues_clock (s : State) : (closeCues s).clock = s.clock := rfl
@[simp] theorem closeCues_station (s : State) : (closeCues s).station = s.station := rfl
@[simp] theorem closeCues_subBeats (s : State) : (closeCues s).subBeats = s.subBeats := rfl
@[simp] theorem closeCues_timer (s : State) : (closeCues s).timer = s.timer := rfl
@[simp] theorem closeCues_roster (s : State) : (closeCues s).roster = s.roster := rfl
@[simp] theorem closeCues_take (s : State) : (closeCues s).take = s.take := rfl
@[simp] theorem closeCues_holds (s : State) : (closeCues s).holds = s.holds := rfl
@[simp] theorem closeCues_holdInput (s : State) : (closeCues s).holdInput = s.holdInput := rfl
@[simp] theorem closeCues_channels (s : State) : (closeCues s).channels = s.channels := rfl
@[simp] theorem closeCues_board (s : State) : (closeCues s).board = s.board := rfl
@[simp] theorem closeCues_sampler (s : State) : (closeCues s).sampler = s.sampler := rfl
@[simp] theorem closeCues_log (s : State) : (closeCues s).log = s.log := rfl
@[simp] theorem closeCues_lines (s : State) : (closeCues s).lines = s.lines := rfl
@[simp] theorem closeCues_freeCount (s : State) : (closeCues s).freeCount = s.freeCount := rfl
@[simp] theorem closeCues_pending (s : State) : (closeCues s).pending = s.pending := rfl

/-! ## startRound -/

@[simp] theorem startRound_clock (s : State) : (startRound s).clock = s.clock := rfl
@[simp] theorem startRound_station (s : State) : (startRound s).station = s.station := rfl
@[simp] theorem startRound_subBeats (s : State) : (startRound s).subBeats = s.subBeats := rfl
@[simp] theorem startRound_timer (s : State) : (startRound s).timer = s.timer := rfl
@[simp] theorem startRound_port (s : State) : (startRound s).port = s.port := rfl
@[simp] theorem startRound_take (s : State) : (startRound s).take = s.take := rfl
@[simp] theorem startRound_holds (s : State) : (startRound s).holds = s.holds := rfl
@[simp] theorem startRound_holdInput (s : State) : (startRound s).holdInput = s.holdInput := rfl
@[simp] theorem startRound_channels (s : State) : (startRound s).channels = s.channels := rfl
@[simp] theorem startRound_board (s : State) : (startRound s).board = s.board := rfl
@[simp] theorem startRound_sampler (s : State) : (startRound s).sampler = s.sampler := rfl
@[simp] theorem startRound_log (s : State) : (startRound s).log = s.log := rfl
@[simp] theorem startRound_lines (s : State) : (startRound s).lines = s.lines := rfl
@[simp] theorem startRound_freeCount (s : State) : (startRound s).freeCount = s.freeCount := rfl
@[simp] theorem startRound_pending (s : State) : (startRound s).pending = s.pending := rfl

/-! ## staleSummary -/

@[simp] theorem staleSummary_clock (s : State) : (staleSummary s).clock = s.clock := rfl
@[simp] theorem staleSummary_station (s : State) : (staleSummary s).station = s.station := rfl
@[simp] theorem staleSummary_subBeats (s : State) : (staleSummary s).subBeats = s.subBeats := rfl
@[simp] theorem staleSummary_timer (s : State) : (staleSummary s).timer = s.timer := rfl
@[simp] theorem staleSummary_port (s : State) : (staleSummary s).port = s.port := rfl
@[simp] theorem staleSummary_take (s : State) : (staleSummary s).take = s.take := rfl
@[simp] theorem staleSummary_holds (s : State) : (staleSummary s).holds = s.holds := rfl
@[simp] theorem staleSummary_holdInput (s : State) : (staleSummary s).holdInput = s.holdInput := rfl
@[simp] theorem staleSummary_channels (s : State) : (staleSummary s).channels = s.channels := rfl
@[simp] theorem staleSummary_board (s : State) : (staleSummary s).board = s.board := rfl
@[simp] theorem staleSummary_sampler (s : State) : (staleSummary s).sampler = s.sampler := rfl
@[simp] theorem staleSummary_log (s : State) : (staleSummary s).log = s.log := rfl
@[simp] theorem staleSummary_lines (s : State) : (staleSummary s).lines = s.lines := rfl
@[simp] theorem staleSummary_freeCount (s : State) : (staleSummary s).freeCount = s.freeCount := rfl
@[simp] theorem staleSummary_pending (s : State) : (staleSummary s).pending = s.pending := rfl

/-! ## ageEntries -/

@[simp] theorem ageEntries_clock (s : State) : (ageEntries s).clock = s.clock := rfl
@[simp] theorem ageEntries_station (s : State) : (ageEntries s).station = s.station := rfl
@[simp] theorem ageEntries_subBeats (s : State) : (ageEntries s).subBeats = s.subBeats := rfl
@[simp] theorem ageEntries_timer (s : State) : (ageEntries s).timer = s.timer := rfl
@[simp] theorem ageEntries_port (s : State) : (ageEntries s).port = s.port := rfl
@[simp] theorem ageEntries_take (s : State) : (ageEntries s).take = s.take := rfl
@[simp] theorem ageEntries_holds (s : State) : (ageEntries s).holds = s.holds := rfl
@[simp] theorem ageEntries_holdInput (s : State) : (ageEntries s).holdInput = s.holdInput := rfl
@[simp] theorem ageEntries_channels (s : State) : (ageEntries s).channels = s.channels := rfl
@[simp] theorem ageEntries_board (s : State) : (ageEntries s).board = s.board := rfl
@[simp] theorem ageEntries_sampler (s : State) : (ageEntries s).sampler = s.sampler := rfl
@[simp] theorem ageEntries_log (s : State) : (ageEntries s).log = s.log := rfl
@[simp] theorem ageEntries_lines (s : State) : (ageEntries s).lines = s.lines := rfl
@[simp] theorem ageEntries_freeCount (s : State) : (ageEntries s).freeCount = s.freeCount := rfl
@[simp] theorem ageEntries_pending (s : State) : (ageEntries s).pending = s.pending := rfl

/-! ## writeSummary -/

@[simp] theorem writeSummary_clock (s : State) : (writeSummary s).clock = s.clock := rfl
@[simp] theorem writeSummary_station (s : State) : (writeSummary s).station = s.station := rfl
@[simp] theorem writeSummary_subBeats (s : State) : (writeSummary s).subBeats = s.subBeats := rfl
@[simp] theorem writeSummary_timer (s : State) : (writeSummary s).timer = s.timer := rfl
@[simp] theorem writeSummary_port (s : State) : (writeSummary s).port = s.port := rfl
@[simp] theorem writeSummary_take (s : State) : (writeSummary s).take = s.take := rfl
@[simp] theorem writeSummary_holds (s : State) : (writeSummary s).holds = s.holds := rfl
@[simp] theorem writeSummary_holdInput (s : State) : (writeSummary s).holdInput = s.holdInput := rfl
@[simp] theorem writeSummary_channels (s : State) : (writeSummary s).channels = s.channels := rfl
@[simp] theorem writeSummary_board (s : State) : (writeSummary s).board = s.board := rfl
@[simp] theorem writeSummary_sampler (s : State) : (writeSummary s).sampler = s.sampler := rfl
@[simp] theorem writeSummary_log (s : State) : (writeSummary s).log = s.log := rfl
@[simp] theorem writeSummary_lines (s : State) : (writeSummary s).lines = s.lines := rfl
@[simp] theorem writeSummary_freeCount (s : State) : (writeSummary s).freeCount = s.freeCount := rfl
@[simp] theorem writeSummary_pending (s : State) : (writeSummary s).pending = s.pending := rfl

/-! ## rosterWrite -/

@[simp] theorem rosterWrite_clock (r : Report) (s : State) : (rosterWrite r s).clock = s.clock := rfl
@[simp] theorem rosterWrite_station (r : Report) (s : State) : (rosterWrite r s).station = s.station := rfl
@[simp] theorem rosterWrite_subBeats (r : Report) (s : State) : (rosterWrite r s).subBeats = s.subBeats := rfl
@[simp] theorem rosterWrite_timer (r : Report) (s : State) : (rosterWrite r s).timer = s.timer := rfl
@[simp] theorem rosterWrite_port (r : Report) (s : State) : (rosterWrite r s).port = s.port := rfl
@[simp] theorem rosterWrite_take (r : Report) (s : State) : (rosterWrite r s).take = s.take := rfl
@[simp] theorem rosterWrite_holds (r : Report) (s : State) : (rosterWrite r s).holds = s.holds := rfl
@[simp] theorem rosterWrite_holdInput (r : Report) (s : State) : (rosterWrite r s).holdInput = s.holdInput := rfl
@[simp] theorem rosterWrite_channels (r : Report) (s : State) : (rosterWrite r s).channels = s.channels := rfl
@[simp] theorem rosterWrite_board (r : Report) (s : State) : (rosterWrite r s).board = s.board := rfl
@[simp] theorem rosterWrite_sampler (r : Report) (s : State) : (rosterWrite r s).sampler = s.sampler := rfl
@[simp] theorem rosterWrite_log (r : Report) (s : State) : (rosterWrite r s).log = s.log := rfl
@[simp] theorem rosterWrite_lines (r : Report) (s : State) : (rosterWrite r s).lines = s.lines := rfl
@[simp] theorem rosterWrite_freeCount (r : Report) (s : State) : (rosterWrite r s).freeCount = s.freeCount := rfl
@[simp] theorem rosterWrite_pending (r : Report) (s : State) : (rosterWrite r s).pending = s.pending := rfl

/-! ## clearLog -/

@[simp] theorem clearLog_clock (s : State) : (clearLog s).clock = s.clock := rfl
@[simp] theorem clearLog_station (s : State) : (clearLog s).station = s.station := rfl
@[simp] theorem clearLog_subBeats (s : State) : (clearLog s).subBeats = s.subBeats := rfl
@[simp] theorem clearLog_timer (s : State) : (clearLog s).timer = s.timer := rfl
@[simp] theorem clearLog_port (s : State) : (clearLog s).port = s.port := rfl
@[simp] theorem clearLog_roster (s : State) : (clearLog s).roster = s.roster := rfl
@[simp] theorem clearLog_take (s : State) : (clearLog s).take = s.take := rfl
@[simp] theorem clearLog_holds (s : State) : (clearLog s).holds = s.holds := rfl
@[simp] theorem clearLog_holdInput (s : State) : (clearLog s).holdInput = s.holdInput := rfl
@[simp] theorem clearLog_channels (s : State) : (clearLog s).channels = s.channels := rfl
@[simp] theorem clearLog_board (s : State) : (clearLog s).board = s.board := rfl
@[simp] theorem clearLog_sampler (s : State) : (clearLog s).sampler = s.sampler := rfl
@[simp] theorem clearLog_lines (s : State) : (clearLog s).lines = s.lines := rfl
@[simp] theorem clearLog_freeCount (s : State) : (clearLog s).freeCount = s.freeCount := rfl
@[simp] theorem clearLog_pending (s : State) : (clearLog s).pending = s.pending := rfl

/-! ## startCountdown -/

@[simp] theorem startCountdown_clock (l : Nat) (s : State) : (startCountdown l s).clock = s.clock := rfl
@[simp] theorem startCountdown_station (l : Nat) (s : State) : (startCountdown l s).station = s.station := rfl
@[simp] theorem startCountdown_subBeats (l : Nat) (s : State) : (startCountdown l s).subBeats = s.subBeats := rfl
@[simp] theorem startCountdown_timer (l : Nat) (s : State) : (startCountdown l s).timer = s.timer := rfl
@[simp] theorem startCountdown_port (l : Nat) (s : State) : (startCountdown l s).port = s.port := rfl
@[simp] theorem startCountdown_roster (l : Nat) (s : State) : (startCountdown l s).roster = s.roster := rfl
@[simp] theorem startCountdown_holds (l : Nat) (s : State) : (startCountdown l s).holds = s.holds := rfl
@[simp] theorem startCountdown_holdInput (l : Nat) (s : State) : (startCountdown l s).holdInput = s.holdInput := rfl
@[simp] theorem startCountdown_channels (l : Nat) (s : State) : (startCountdown l s).channels = s.channels := rfl
@[simp] theorem startCountdown_board (l : Nat) (s : State) : (startCountdown l s).board = s.board := rfl
@[simp] theorem startCountdown_sampler (l : Nat) (s : State) : (startCountdown l s).sampler = s.sampler := rfl
@[simp] theorem startCountdown_log (l : Nat) (s : State) : (startCountdown l s).log = s.log := rfl
@[simp] theorem startCountdown_lines (l : Nat) (s : State) : (startCountdown l s).lines = s.lines := rfl
@[simp] theorem startCountdown_freeCount (l : Nat) (s : State) : (startCountdown l s).freeCount = s.freeCount := rfl
@[simp] theorem startCountdown_pending (l : Nat) (s : State) : (startCountdown l s).pending = s.pending := rfl

/-! ## applyLines -/

@[simp] theorem applyLines_clock (es : List (Nat × Plain)) (t : Option Nat) (s : State) : (applyLines es t s).clock = s.clock := rfl
@[simp] theorem applyLines_station (es : List (Nat × Plain)) (t : Option Nat) (s : State) : (applyLines es t s).station = s.station := rfl
@[simp] theorem applyLines_subBeats (es : List (Nat × Plain)) (t : Option Nat) (s : State) : (applyLines es t s).subBeats = s.subBeats := rfl
@[simp] theorem applyLines_timer (es : List (Nat × Plain)) (t : Option Nat) (s : State) : (applyLines es t s).timer = s.timer := rfl
@[simp] theorem applyLines_port (es : List (Nat × Plain)) (t : Option Nat) (s : State) : (applyLines es t s).port = s.port := rfl
@[simp] theorem applyLines_roster (es : List (Nat × Plain)) (t : Option Nat) (s : State) : (applyLines es t s).roster = s.roster := rfl
@[simp] theorem applyLines_take (es : List (Nat × Plain)) (t : Option Nat) (s : State) : (applyLines es t s).take = s.take := rfl
@[simp] theorem applyLines_holds (es : List (Nat × Plain)) (t : Option Nat) (s : State) : (applyLines es t s).holds = s.holds := rfl
@[simp] theorem applyLines_holdInput (es : List (Nat × Plain)) (t : Option Nat) (s : State) : (applyLines es t s).holdInput = s.holdInput := rfl
@[simp] theorem applyLines_channels (es : List (Nat × Plain)) (t : Option Nat) (s : State) : (applyLines es t s).channels = s.channels := rfl
@[simp] theorem applyLines_board (es : List (Nat × Plain)) (t : Option Nat) (s : State) : (applyLines es t s).board = s.board := rfl
@[simp] theorem applyLines_sampler (es : List (Nat × Plain)) (t : Option Nat) (s : State) : (applyLines es t s).sampler = s.sampler := rfl
@[simp] theorem applyLines_log (es : List (Nat × Plain)) (t : Option Nat) (s : State) : (applyLines es t s).log = s.log := rfl
@[simp] theorem applyLines_freeCount (es : List (Nat × Plain)) (t : Option Nat) (s : State) : (applyLines es t s).freeCount = s.freeCount := rfl
@[simp] theorem applyLines_pending (es : List (Nat × Plain)) (t : Option Nat) (s : State) : (applyLines es t s).pending = s.pending := rfl

/-! ## clearOverrun -/

@[simp] theorem clearOverrun_clock (s : State) : (clearOverrun s).clock = s.clock := rfl
@[simp] theorem clearOverrun_station (s : State) : (clearOverrun s).station = s.station := rfl
@[simp] theorem clearOverrun_subBeats (s : State) : (clearOverrun s).subBeats = s.subBeats := rfl
@[simp] theorem clearOverrun_timer (s : State) : (clearOverrun s).timer = s.timer := rfl
@[simp] theorem clearOverrun_port (s : State) : (clearOverrun s).port = s.port := rfl
@[simp] theorem clearOverrun_roster (s : State) : (clearOverrun s).roster = s.roster := rfl
@[simp] theorem clearOverrun_take (s : State) : (clearOverrun s).take = s.take := rfl
@[simp] theorem clearOverrun_holds (s : State) : (clearOverrun s).holds = s.holds := rfl
@[simp] theorem clearOverrun_holdInput (s : State) : (clearOverrun s).holdInput = s.holdInput := rfl
@[simp] theorem clearOverrun_channels (s : State) : (clearOverrun s).channels = s.channels := rfl
@[simp] theorem clearOverrun_board (s : State) : (clearOverrun s).board = s.board := rfl
@[simp] theorem clearOverrun_log (s : State) : (clearOverrun s).log = s.log := rfl
@[simp] theorem clearOverrun_lines (s : State) : (clearOverrun s).lines = s.lines := rfl
@[simp] theorem clearOverrun_freeCount (s : State) : (clearOverrun s).freeCount = s.freeCount := rfl
@[simp] theorem clearOverrun_pending (s : State) : (clearOverrun s).pending = s.pending := rfl

/-! ## answerSent -/

@[simp] theorem answerSent_clock (s : State) : (answerSent s).clock = s.clock := rfl
@[simp] theorem answerSent_station (s : State) : (answerSent s).station = s.station := rfl
@[simp] theorem answerSent_subBeats (s : State) : (answerSent s).subBeats = s.subBeats := rfl
@[simp] theorem answerSent_timer (s : State) : (answerSent s).timer = s.timer := rfl
@[simp] theorem answerSent_roster (s : State) : (answerSent s).roster = s.roster := rfl
@[simp] theorem answerSent_take (s : State) : (answerSent s).take = s.take := rfl
@[simp] theorem answerSent_holds (s : State) : (answerSent s).holds = s.holds := rfl
@[simp] theorem answerSent_holdInput (s : State) : (answerSent s).holdInput = s.holdInput := rfl
@[simp] theorem answerSent_channels (s : State) : (answerSent s).channels = s.channels := rfl
@[simp] theorem answerSent_board (s : State) : (answerSent s).board = s.board := rfl
@[simp] theorem answerSent_sampler (s : State) : (answerSent s).sampler = s.sampler := rfl
@[simp] theorem answerSent_log (s : State) : (answerSent s).log = s.log := rfl
@[simp] theorem answerSent_lines (s : State) : (answerSent s).lines = s.lines := rfl
@[simp] theorem answerSent_freeCount (s : State) : (answerSent s).freeCount = s.freeCount := rfl
@[simp] theorem answerSent_pending (s : State) : (answerSent s).pending = s.pending := rfl

/-! ## reportedOutcomes -/

@[simp] theorem reportedOutcomes_clock (r : FullReport) (s : State) : (reportedOutcomes r s).clock = s.clock := rfl
@[simp] theorem reportedOutcomes_station (r : FullReport) (s : State) : (reportedOutcomes r s).station = s.station := rfl
@[simp] theorem reportedOutcomes_subBeats (r : FullReport) (s : State) : (reportedOutcomes r s).subBeats = s.subBeats := rfl
@[simp] theorem reportedOutcomes_timer (r : FullReport) (s : State) : (reportedOutcomes r s).timer = s.timer := rfl
@[simp] theorem reportedOutcomes_roster (r : FullReport) (s : State) : (reportedOutcomes r s).roster = s.roster := rfl
@[simp] theorem reportedOutcomes_take (r : FullReport) (s : State) : (reportedOutcomes r s).take = s.take := rfl
@[simp] theorem reportedOutcomes_holds (r : FullReport) (s : State) : (reportedOutcomes r s).holds = s.holds := rfl
@[simp] theorem reportedOutcomes_holdInput (r : FullReport) (s : State) : (reportedOutcomes r s).holdInput = s.holdInput := rfl
@[simp] theorem reportedOutcomes_channels (r : FullReport) (s : State) : (reportedOutcomes r s).channels = s.channels := rfl
@[simp] theorem reportedOutcomes_board (r : FullReport) (s : State) : (reportedOutcomes r s).board = s.board := rfl
@[simp] theorem reportedOutcomes_sampler (r : FullReport) (s : State) : (reportedOutcomes r s).sampler = s.sampler := rfl
@[simp] theorem reportedOutcomes_log (r : FullReport) (s : State) : (reportedOutcomes r s).log = s.log := rfl
@[simp] theorem reportedOutcomes_lines (r : FullReport) (s : State) : (reportedOutcomes r s).lines = s.lines := rfl
@[simp] theorem reportedOutcomes_freeCount (r : FullReport) (s : State) : (reportedOutcomes r s).freeCount = s.freeCount := rfl
@[simp] theorem reportedOutcomes_pending (r : FullReport) (s : State) : (reportedOutcomes r s).pending = s.pending := rfl

/-! ## markTakeFrame -/

@[simp] theorem markTakeFrame_clock (s : State) : (markTakeFrame s).clock = s.clock := rfl
@[simp] theorem markTakeFrame_station (s : State) : (markTakeFrame s).station = s.station := rfl
@[simp] theorem markTakeFrame_subBeats (s : State) : (markTakeFrame s).subBeats = s.subBeats := rfl
@[simp] theorem markTakeFrame_timer (s : State) : (markTakeFrame s).timer = s.timer := rfl
@[simp] theorem markTakeFrame_port (s : State) : (markTakeFrame s).port = s.port := rfl
@[simp] theorem markTakeFrame_roster (s : State) : (markTakeFrame s).roster = s.roster := rfl
@[simp] theorem markTakeFrame_holds (s : State) : (markTakeFrame s).holds = s.holds := rfl
@[simp] theorem markTakeFrame_holdInput (s : State) : (markTakeFrame s).holdInput = s.holdInput := rfl
@[simp] theorem markTakeFrame_channels (s : State) : (markTakeFrame s).channels = s.channels := rfl
@[simp] theorem markTakeFrame_board (s : State) : (markTakeFrame s).board = s.board := rfl
@[simp] theorem markTakeFrame_sampler (s : State) : (markTakeFrame s).sampler = s.sampler := rfl
@[simp] theorem markTakeFrame_log (s : State) : (markTakeFrame s).log = s.log := rfl
@[simp] theorem markTakeFrame_lines (s : State) : (markTakeFrame s).lines = s.lines := rfl
@[simp] theorem markTakeFrame_freeCount (s : State) : (markTakeFrame s).freeCount = s.freeCount := rfl
@[simp] theorem markTakeFrame_pending (s : State) : (markTakeFrame s).pending = s.pending := rfl

@[simp] theorem markTakeFrame_take (s : State) :
    (markTakeFrame s).take = { s.take with inTakeFrame := s.take.state.countsFrames } := rfl

/-! ## keepUnbegun -/

/-- Nothing waits to begin: keepUnbegun leaves the state. -/
theorem keepUnbegun_begun {s : State} (h : ∀ x, s.port.sending = some x → x.begins ≤ s.clock) : keepUnbegun s = s := by
  unfold keepUnbegun
  split
  · rename_i x hx; rw [if_neg (by have := h x hx; omega)]
  · rfl

/-- What keepUnbegun changes: the transmission, and the mark of the answer it was sending. -/
theorem keepUnbegun_cases (s : State) : keepUnbegun s = s ∨ keepUnbegun s = { s with port := { s.port with
    sending := none, answers := s.port.answers.map fun p => { p with sending := false } } } := by
  unfold keepUnbegun
  (repeat' split) <;> first | exact .inr rfl | exact .inl rfl

@[simp] theorem keepUnbegun_clock (s : State) : (keepUnbegun s).clock = s.clock := by
  rcases keepUnbegun_cases s with h | h <;> rw [h]
@[simp] theorem keepUnbegun_station (s : State) : (keepUnbegun s).station = s.station := by
  rcases keepUnbegun_cases s with h | h <;> rw [h]
@[simp] theorem keepUnbegun_subBeats (s : State) : (keepUnbegun s).subBeats = s.subBeats := by
  rcases keepUnbegun_cases s with h | h <;> rw [h]
@[simp] theorem keepUnbegun_timer (s : State) : (keepUnbegun s).timer = s.timer := by
  rcases keepUnbegun_cases s with h | h <;> rw [h]
@[simp] theorem keepUnbegun_roster (s : State) : (keepUnbegun s).roster = s.roster := by
  rcases keepUnbegun_cases s with h | h <;> rw [h]
@[simp] theorem keepUnbegun_holds (s : State) : (keepUnbegun s).holds = s.holds := by
  rcases keepUnbegun_cases s with h | h <;> rw [h]
@[simp] theorem keepUnbegun_holdInput (s : State) : (keepUnbegun s).holdInput = s.holdInput := by
  rcases keepUnbegun_cases s with h | h <;> rw [h]
@[simp] theorem keepUnbegun_channels (s : State) : (keepUnbegun s).channels = s.channels := by
  rcases keepUnbegun_cases s with h | h <;> rw [h]
@[simp] theorem keepUnbegun_board (s : State) : (keepUnbegun s).board = s.board := by
  rcases keepUnbegun_cases s with h | h <;> rw [h]
@[simp] theorem keepUnbegun_sampler (s : State) : (keepUnbegun s).sampler = s.sampler := by
  rcases keepUnbegun_cases s with h | h <;> rw [h]
@[simp] theorem keepUnbegun_log (s : State) : (keepUnbegun s).log = s.log := by
  rcases keepUnbegun_cases s with h | h <;> rw [h]
@[simp] theorem keepUnbegun_lines (s : State) : (keepUnbegun s).lines = s.lines := by
  rcases keepUnbegun_cases s with h | h <;> rw [h]
@[simp] theorem keepUnbegun_freeCount (s : State) : (keepUnbegun s).freeCount = s.freeCount := by
  rcases keepUnbegun_cases s with h | h <;> rw [h]
@[simp] theorem keepUnbegun_pending (s : State) : (keepUnbegun s).pending = s.pending := by
  rcases keepUnbegun_cases s with h | h <;> rw [h]
@[simp] theorem keepUnbegun_take (s : State) : (keepUnbegun s).take = s.take := by
  rcases keepUnbegun_cases s with h | h <;> rw [h]
@[simp] theorem keepUnbegun_outcomes (s : State) : (keepUnbegun s).port.outcomes = s.port.outcomes := by
  rcases keepUnbegun_cases s with h | h <;> rw [h]
@[simp] theorem keepUnbegun_join (s : State) : (keepUnbegun s).port.join = s.port.join := by
  rcases keepUnbegun_cases s with h | h <;> rw [h]
@[simp] theorem keepUnbegun_window (s : State) : (keepUnbegun s).port.window = s.port.window := by
  rcases keepUnbegun_cases s with h | h <;> rw [h]
@[simp] theorem keepUnbegun_openCues (s : State) : (keepUnbegun s).port.openCues = s.port.openCues := by
  rcases keepUnbegun_cases s with h | h <;> rw [h]
@[simp] theorem keepUnbegun_closedCues (s : State) : (keepUnbegun s).port.closedCues = s.port.closedCues := by
  rcases keepUnbegun_cases s with h | h <;> rw [h]
@[simp] theorem keepUnbegun_answers_length (s : State) :
    (keepUnbegun s).port.answers.length = s.port.answers.length := by
  rcases keepUnbegun_cases s with h | h
  · rw [h]
  · rw [h]; simp

/-! ## The ended open window kept -/

@[simp] theorem State.withEnded_clock (s : State) (w : Option EndedWindow) : (s.withEnded w).clock = s.clock := rfl
@[simp] theorem State.withEnded_station (s : State) (w : Option EndedWindow) : (s.withEnded w).station = s.station := rfl
@[simp] theorem State.withEnded_subBeats (s : State) (w : Option EndedWindow) : (s.withEnded w).subBeats = s.subBeats := rfl
@[simp] theorem State.withEnded_timer (s : State) (w : Option EndedWindow) : (s.withEnded w).timer = s.timer := rfl
@[simp] theorem State.withEnded_roster (s : State) (w : Option EndedWindow) : (s.withEnded w).roster = s.roster := rfl
@[simp] theorem State.withEnded_take (s : State) (w : Option EndedWindow) : (s.withEnded w).take = s.take := rfl
@[simp] theorem State.withEnded_holds (s : State) (w : Option EndedWindow) : (s.withEnded w).holds = s.holds := rfl
@[simp] theorem State.withEnded_holdInput (s : State) (w : Option EndedWindow) : (s.withEnded w).holdInput = s.holdInput := rfl
@[simp] theorem State.withEnded_channels (s : State) (w : Option EndedWindow) : (s.withEnded w).channels = s.channels := rfl
@[simp] theorem State.withEnded_board (s : State) (w : Option EndedWindow) : (s.withEnded w).board = s.board := rfl
@[simp] theorem State.withEnded_sampler (s : State) (w : Option EndedWindow) : (s.withEnded w).sampler = s.sampler := rfl
@[simp] theorem State.withEnded_log (s : State) (w : Option EndedWindow) : (s.withEnded w).log = s.log := rfl
@[simp] theorem State.withEnded_lines (s : State) (w : Option EndedWindow) : (s.withEnded w).lines = s.lines := rfl
@[simp] theorem State.withEnded_freeCount (s : State) (w : Option EndedWindow) : (s.withEnded w).freeCount = s.freeCount := rfl
@[simp] theorem State.withEnded_pending (s : State) (w : Option EndedWindow) : (s.withEnded w).pending = s.pending := rfl
@[simp] theorem State.withEnded_port_join (s : State) (w : Option EndedWindow) :
    (s.withEnded w).port.join = s.port.join := rfl
@[simp] theorem State.withEnded_port_duplicateFree (s : State) (w : Option EndedWindow) :
    (s.withEnded w).port.duplicateFree = s.port.duplicateFree := rfl
@[simp] theorem State.withEnded_port_window (s : State) (w : Option EndedWindow) :
    (s.withEnded w).port.window = s.port.window := rfl
@[simp] theorem State.withEnded_port_cueSeq (s : State) (w : Option EndedWindow) :
    (s.withEnded w).port.cueSeq = s.port.cueSeq := rfl
@[simp] theorem State.withEnded_port_outcomes (s : State) (w : Option EndedWindow) :
    (s.withEnded w).port.outcomes = s.port.outcomes := rfl
@[simp] theorem State.withEnded_port_overflow (s : State) (w : Option EndedWindow) :
    (s.withEnded w).port.overflow = s.port.overflow := rfl
@[simp] theorem State.withEnded_port_lateOverflow (s : State) (w : Option EndedWindow) :
    (s.withEnded w).port.lateOverflow = s.port.lateOverflow := rfl
@[simp] theorem State.withEnded_port_answers (s : State) (w : Option EndedWindow) :
    (s.withEnded w).port.answers = s.port.answers := rfl
@[simp] theorem State.withEnded_port_openCues (s : State) (w : Option EndedWindow) :
    (s.withEnded w).port.openCues = s.port.openCues := rfl
@[simp] theorem State.withEnded_port_closedCues (s : State) (w : Option EndedWindow) :
    (s.withEnded w).port.closedCues = s.port.closedCues := rfl
@[simp] theorem State.withEnded_port_snapshot (s : State) (w : Option EndedWindow) :
    (s.withEnded w).port.snapshot = s.port.snapshot := rfl
@[simp] theorem State.withEnded_port_sending (s : State) (w : Option EndedWindow) :
    (s.withEnded w).port.sending = s.port.sending := rfl
@[simp] theorem State.withEnded_port_ended (s : State) (w : Option EndedWindow) : (s.withEnded w).port.ended = w := rfl
@[simp] theorem State.withEnded_engine (s : State) (w : Option EndedWindow) : (s.withEnded w).engine = s.engine := rfl
@[simp] theorem State.withEnded_drive (s : State) (w : Option EndedWindow) : (s.withEnded w).drive = s.drive := rfl
@[simp] theorem State.withEnded_setup (s : State) (w : Option EndedWindow) : (s.withEnded w).setup = s.setup := rfl
@[simp] theorem State.withEnded_entry (s : State) (w : Option EndedWindow) : (s.withEnded w).entry = s.entry := rfl
@[simp] theorem State.withEnded_report (s : State) (w : Option EndedWindow) : (s.withEnded w).report = s.report := rfl

/-! ## A channel read back -/

theorem State.drive_def (s : State) (c : Chan) : s.drive c = (s.channels.get c).drive := rfl

theorem State.engine_def (s : State) (c : Chan) : s.engine c = (s.channels.get c).engine := rfl

theorem State.setup_def (s : State) (c : Chan) : s.setup c = (s.channels.get c).setup := rfl

theorem State.chan_def (s : State) (c : Chan) : s.chan c = s.channels.get c := rfl

@[simp] theorem State.setChan_channels (s : State) (c : Chan) (x : Channel) :
    (s.setChan c x).channels = s.channels.set c x := rfl

@[simp] theorem State.chan_setChan (s : State) (c : Chan) (x : Channel) : (s.setChan c x).chan c = x := by
  simp [State.chan_def]

@[simp] theorem State.chan_setChan_ne (s : State) (c d : Chan) (x : Channel) (h : d ≠ c) :
    (s.setChan c x).chan d = s.chan d := by simp [State.chan_def, h]

@[simp] theorem State.drive_setDrive (s : State) (c : Chan) (d : Drive) : (s.setDrive c d).drive c = d := by
  simp [State.drive, State.setDrive]

@[simp] theorem State.drive_setDrive_ne (s : State) (c e : Chan) (d : Drive) (h : e ≠ c) :
    (s.setDrive c d).drive e = s.drive e := by simp [State.drive, State.setDrive, h]

@[simp] theorem State.engine_setDrive (s : State) (c e : Chan) (d : Drive) : (s.setDrive c d).engine e = s.engine e := by
  by_cases h : e = c
  · subst h; simp [State.engine, State.setDrive]
  · simp [State.engine, State.setDrive, h]

@[simp] theorem State.setup_setDrive (s : State) (c e : Chan) (d : Drive) : (s.setDrive c d).setup e = s.setup e := by
  by_cases h : e = c
  · subst h; simp [State.setup, State.setDrive]
  · simp [State.setup, State.setDrive, h]

@[simp] theorem State.configured_setDrive (s : State) (c e : Chan) (d : Drive) :
    ((s.setDrive c d).chan e).configured = (s.chan e).configured := by
  by_cases h : e = c
  · subst h; simp [State.setDrive]
  · simp [State.setDrive, h]

@[simp] theorem State.engine_setEngine (s : State) (c : Chan) (x : Engine) : (s.setEngine c x).engine c = x := by
  simp [State.engine, State.setEngine]

@[simp] theorem State.engine_setEngine_ne (s : State) (c e : Chan) (x : Engine) (h : e ≠ c) :
    (s.setEngine c x).engine e = s.engine e := by simp [State.engine, State.setEngine, h]

@[simp] theorem State.drive_setEngine (s : State) (c e : Chan) (x : Engine) : (s.setEngine c x).drive e = s.drive e := by
  by_cases h : e = c
  · subst h; simp [State.drive, State.setEngine]
  · simp [State.drive, State.setEngine, h]

@[simp] theorem State.setup_setEngine (s : State) (c e : Chan) (x : Engine) : (s.setEngine c x).setup e = s.setup e := by
  by_cases h : e = c
  · subst h; simp [State.setup, State.setEngine]
  · simp [State.setup, State.setEngine, h]

@[simp] theorem State.configured_setEngine (s : State) (c e : Chan) (x : Engine) :
    ((s.setEngine c x).chan e).configured = (s.chan e).configured := by
  by_cases h : e = c
  · subst h; simp [State.setEngine]
  · simp [State.setEngine, h]

@[simp] theorem State.setDrive_drive (s : State) (c : Chan) : s.setDrive c (s.drive c) = s := by
  have h : s.channels.set c (s.channels.get c) = s.channels := by fin_cases c <;> rfl
  simp [State.setDrive, State.setChan, State.drive, State.chan, h]

@[simp] theorem State.setEngine_engine (s : State) (c : Chan) : s.setEngine c (s.engine c) = s := by
  have h : s.channels.set c (s.channels.get c) = s.channels := by fin_cases c <;> rfl
  simp [State.setEngine, State.setChan, State.engine, State.chan, h]

@[simp] theorem State.clock_atTime (s : State) (t : Nat) : (s.atTime t).clock = max s.clock t := rfl

@[simp] theorem State.pending_withPending (s : State) (q : List Instr) : (s.withPending q).pending = q := rfl

end Sys2Proof.Machine
end

