-- ==== Sys2Proof/Laws/Fixed.lean ====
section
/-! SUPPORT. The frame of every operation on what only RESET changes: the station number, N, and the queue (State.fixed). Each
lemma is about one operation; those above it cite those below. -/

-- One thread: as one text the package would start more than the memory limit lets through.
set_option Elab.async false

set_option linter.all false

namespace Sys2Proof.Machine

@[simp] theorem State.fixed_mk (s : State) (clock : Nat) (timer : Timer) (port : Port) (roster : Roster) (take : Take) (holds : HoldRecord) (holdInput : Bool) (channels : Quad Channel) (board : CueBoard) (sampler : Sampler) (log : CaptureLog) (lines : LineMap) (freeCount : Nat) :
    State.fixed (State.mk clock s.station s.subBeats timer port roster take holds holdInput channels board sampler log lines freeCount s.pending) = s.fixed := rfl

@[simp] theorem State.setChan_fixed (s : State) (c : Chan) (x : Channel) : (s.setChan c x).fixed = s.fixed := rfl

@[simp] theorem State.setDrive_fixed (s : State) (c : Chan) (d : Drive) : (s.setDrive c d).fixed = s.fixed := rfl

@[simp] theorem State.setEngine_fixed (s : State) (c : Chan) (e : Engine) : (s.setEngine c e).fixed = s.fixed := rfl

@[simp] theorem State.atTime_fixed (s : State) (t : Nat) : (s.atTime t).fixed = s.fixed := rfl

@[simp] theorem State.setEntry_fixed (s : State) (n : Nat) (e : RosterEntry) : (s.setEntry n e).fixed = s.fixed := rfl

@[simp] theorem State.heard_fixed (s : State) (a : Activity) : (s.heard a).fixed = s.fixed := rfl

@[simp] theorem eachChannel_fixed (f : Chan → State → State) (s : State) (h : ∀ c s, (f c s).fixed = s.fixed) :
    (eachChannel f s).fixed = s.fixed := eachChannel_same State.fixed f h s

theorem foldl_fixed {α : Type} (f : State → α → State) (h : ∀ s x, (f s x).fixed = s.fixed) (l : List α) (s : State) :
    (l.foldl f s).fixed = s.fixed := by
  induction l generalizing s with
  | nil => rfl
  | cons x xs ih => rw [List.foldl_cons, ih, h]


@[simp] theorem addOutcome_fixed (station seq : Nat) (r : Result) (s : State) :
    (addOutcome station seq r s).fixed = s.fixed := by
  unfold addOutcome
  try dsimp only
  (repeat' split) <;> (try simp) <;> (repeat' split) <;> simp

@[simp] theorem takePlace_fixed (station seq : Nat) (body : Option AnswerBody) (s : State) :
    (takePlace station seq body s).fixed = s.fixed := by
  unfold takePlace
  try dsimp only
  (repeat' split) <;> (try simp) <;> (repeat' split) <;> simp

@[simp] theorem raiseCause_fixed (cause : Cause) (concerned : Option Nat) (kind : Option FaultKind) (s : State) :
    (raiseCause cause concerned kind s).fixed = s.fixed := by
  unfold raiseCause
  try dsimp only
  (repeat' split) <;> (try simp) <;> (repeat' split) <;> simp

@[simp] theorem samplerSettle_fixed (s : State) :
    (samplerSettle s).fixed = s.fixed := by
  unfold samplerSettle
  try dsimp only
  (repeat' split) <;> (try simp) <;> (repeat' split) <;> simp

@[simp] theorem samplerBegin_fixed (t : Nat) (s : State) :
    (samplerBegin t s).fixed = s.fixed := by
  unfold samplerBegin
  try dsimp only
  (repeat' split) <;> (try simp) <;> (repeat' split) <;> simp

@[simp] theorem samplerTrigger_fixed (t : Nat) (s : State) :
    (samplerTrigger t s).fixed = s.fixed := by
  unfold samplerTrigger
  try dsimp only
  (repeat' split) <;> (try simp) <;> (repeat' split) <;> simp

@[simp] theorem samplerAccept_fixed (n station seq t : Nat) (s : State) :
    (samplerAccept n station seq t s).fixed = s.fixed := by
  unfold samplerAccept
  try dsimp only
  (repeat' split) <;> (try simp) <;> (repeat' split) <;> simp

@[simp] theorem samplerSafeStop_fixed (t : Nat) (s : State) :
    (samplerSafeStop t s).fixed = s.fixed := by
  unfold samplerSafeStop
  try dsimp only
  (repeat' split) <;> (try simp) <;> (repeat' split) <;> simp

@[simp] theorem parkTakeChannels_fixed (s : State) : (parkTakeChannels s).fixed = s.fixed := by
  refine eachChannel_fixed _ _ (fun c s => ?_)
  split <;> simp

@[simp] theorem clearSources_fixed (s : State) : (clearSources s).fixed = s.fixed := by
  refine eachChannel_fixed _ _ (fun c s => ?_)
  simp

@[simp] theorem leaveTake_fixed (s : State) :
    (leaveTake s).fixed = s.fixed := by
  unfold leaveTake
  try dsimp only
  (repeat' split) <;> (try simp) <;> (repeat' split) <;> simp

@[simp] theorem endUnwinding_fixed (a : ArmFlight) (s : State) :
    (endUnwinding a s).fixed = s.fixed := by
  unfold endUnwinding
  try dsimp only
  (repeat' split) <;> (try simp) <;> (repeat' split) <;> simp

@[simp] theorem checkRest_fixed (s : State) :
    (checkRest s).fixed = s.fixed := by
  unfold checkRest
  try dsimp only
  (repeat' split) <;> (try simp) <;> (repeat' split) <;> simp

@[simp] theorem checkFinished_fixed (s : State) :
    (checkFinished s).fixed = s.fixed := by
  unfold checkFinished
  try dsimp only
  (repeat' split) <;> (try simp) <;> (repeat' split) <;> simp

@[simp] theorem checkArmed_fixed (s : State) :
    (checkArmed s).fixed = s.fixed := by
  unfold checkArmed
  try dsimp only
  (repeat' split) <;> (try simp) <;> (repeat' split) <;> simp

@[simp] theorem hardFault_fixed (c : Chan) (k : FaultKind) (s : State) :
    (hardFault c k s).fixed = s.fixed := by
  unfold hardFault
  try dsimp only
  (repeat' split) <;> (try simp) <;> (repeat' split) <;> simp

@[simp] theorem softFault_fixed (c : Chan) (k : FaultKind) (s : State) :
    (softFault c k s).fixed = s.fixed := by
  unfold softFault
  try dsimp only
  (repeat' split) <;> (try simp) <;> (repeat' split) <;> simp

@[simp] theorem energize_fixed (c : Chan) (st : ChanState) (s : State) :
    (energize c st s).fixed = s.fixed := by
  unfold energize
  try dsimp only
  (repeat' split) <;> (try simp) <;> (repeat' split) <;> simp

@[simp] theorem State.putPlay_fixed (s : State) (c : Chan) (x : PlayState) :
    (State.putPlay s c x).fixed = s.fixed := by
  unfold State.putPlay
  try dsimp only
  (repeat' split) <;> (try simp) <;> (repeat' split) <;> simp

@[simp] theorem becomeDone_fixed (c : Chan) (s : State) :
    (becomeDone c s).fixed = s.fixed := by
  unfold becomeDone
  try dsimp only
  (repeat' split) <;> (try simp) <;> (repeat' split) <;> simp

@[simp] theorem endPlay_fixed (c : Chan) (e : PlayEnd) (s : State) :
    (endPlay c e s).fixed = s.fixed := by
  unfold endPlay
  try dsimp only
  (repeat' split) <;> (try simp) <;> (repeat' split) <;> simp

@[simp] theorem takeOne_fixed (c : Chan) (s : State) :
    (takeOne c s).fixed = s.fixed := by
  unfold takeOne
  try dsimp only
  (repeat' split) <;> (try simp) <;> (repeat' split) <;> simp

@[simp] theorem completeAndGoOn_fixed (c : Chan) (pos : Nat) (consumed : Option Nat) (s : State) :
    (completeAndGoOn c pos consumed s).fixed = s.fixed := by
  unfold completeAndGoOn
  try dsimp only
  (repeat' split) <;> (try simp) <;> (repeat' split) <;> simp

@[simp] theorem issueSetPoint_fixed (c : Chan) (t : Nat) (x : Int) (s : State) :
    (issueSetPoint c t x s).fixed = s.fixed := by
  unfold issueSetPoint
  try dsimp only
  (repeat' split) <;> (try simp) <;> (repeat' split) <;> simp

@[simp] theorem holdStill_fixed (c : Chan) (t : Nat) (s : State) :
    (holdStill c t s).fixed = s.fixed := by
  unfold holdStill
  try dsimp only
  (repeat' split) <;> (try simp) <;> (repeat' split) <;> simp

@[simp] theorem faultOnFollow_fixed (c : Chan) (s : State) :
    (faultOnFollow c s).fixed = s.fixed := by
  unfold faultOnFollow
  try dsimp only
  (repeat' split) <;> (try simp) <;> (repeat' split) <;> simp

@[simp] theorem monitor_fixed (c : Chan) (s : State) :
    (monitor c s).fixed = s.fixed := by
  unfold monitor
  try dsimp only
  (repeat' split) <;> (try simp) <;> (repeat' split) <;> simp

@[simp] theorem becomeReady_fixed (c : Chan) (s : State) :
    (becomeReady c s).fixed = s.fixed := by
  unfold becomeReady
  try dsimp only
  (repeat' split) <;> (try simp) <;> (repeat' split) <;> simp

@[simp] theorem seekStep_fixed (c : Chan) (t : Nat) (k : Seek) (s : State) :
    (seekStep c t k s).fixed = s.fixed := by
  unfold seekStep
  try dsimp only
  (repeat' split) <;> (try simp) <;> (repeat' split) <;> simp

@[simp] theorem finishStop_fixed (c : Chan) (s : State) :
    (finishStop c s).fixed = s.fixed := by
  unfold finishStop
  try dsimp only
  (repeat' split) <;> (try simp) <;> (repeat' split) <;> simp

@[simp] theorem stopStep_fixed (c : Chan) (t : Nat) (k : Stop) (s : State) :
    (stopStep c t k s).fixed = s.fixed := by
  unfold stopStep
  try dsimp only
  (repeat' split) <;> (try simp) <;> (repeat' split) <;> simp

@[simp] theorem playSetPoint_fixed (c : Chan) (now t : Nat) (x : Int) (s : State) :
    (playSetPoint c now t x s).fixed = s.fixed := by
  unfold playSetPoint
  try dsimp only
  (repeat' split) <;> (try simp) <;> (repeat' split) <;> simp

@[simp] theorem playFault_fixed (c : Chan) (now t : Nat) (k : FaultKind) (x : Int) (s : State) :
    (playFault c now t k x s).fixed = s.fixed := by
  unfold playFault
  try dsimp only
  (repeat' split) <;> (try simp) <;> (repeat' split) <;> simp

@[simp] theorem playPath_fixed (c : Chan) (now t : Nat) (first : Bool) (s : State) :
    (playPath c now t first s).fixed = s.fixed := by
  unfold playPath
  try dsimp only
  (repeat' split) <;> (try simp) <;> (repeat' split) <;> simp

@[simp] theorem playBeat_fixed (c : Chan) (now t k : Nat) (first : Bool) (s : State) :
    (playBeat c now t k first s).fixed = s.fixed := by
  unfold playBeat
  try dsimp only
  (repeat' split) <;> (try simp) <;> (repeat' split) <;> simp

@[simp] theorem stateBeat_fixed (c : Chan) (now : Nat) (t : Option Nat) (k : Nat) (first : Bool) (s : State) :
    (stateBeat c now t k first s).fixed = s.fixed := by
  unfold stateBeat
  try dsimp only
  (repeat' split) <;> (try simp) <;> (repeat' split) <;> simp

@[simp] theorem driveBeat_fixed (now : Nat) (t : Option Nat) (k : Nat) (first : Bool) (c : Chan) (s : State) :
    (driveBeat now t k first c s).fixed = s.fixed := by
  unfold driveBeat
  try dsimp only
  (repeat' split) <;> (try simp) <;> (repeat' split) <;> simp

@[simp] theorem driveFreeBeat_fixed (now : Nat) (c : Chan) (s : State) :
    (driveFreeBeat now c s).fixed = s.fixed := by
  unfold driveFreeBeat
  try dsimp only
  (repeat' split) <;> (try simp) <;> (repeat' split) <;> simp

@[simp] theorem latchPending_fixed (g : Nat) (s : State) :
    (latchPending g s).fixed = s.fixed := by
  unfold latchPending
  try dsimp only
  (repeat' split) <;> (try simp) <;> (repeat' split) <;> simp

@[simp] theorem consumeCues_fixed (s : State) :
    (consumeCues s).fixed = s.fixed := by
  unfold consumeCues
  try dsimp only
  (repeat' split) <;> (try simp) <;> (repeat' split) <;> simp

@[simp] theorem clearBoard_fixed (s : State) :
    (clearBoard s).fixed = s.fixed := by
  unfold clearBoard
  try dsimp only
  (repeat' split) <;> (try simp) <;> (repeat' split) <;> simp

@[simp] theorem pendCues_fixed (cues : List Nat) (s : State) :
    (pendCues cues s).fixed = s.fixed := by
  unfold pendCues
  try dsimp only
  (repeat' split) <;> (try simp) <;> (repeat' split) <;> simp

@[simp] theorem noteTakeSubBeat_fixed (t : Option Nat) (s : State) :
    (noteTakeSubBeat t s).fixed = s.fixed := by
  unfold noteTakeSubBeat
  try dsimp only
  (repeat' split) <;> (try simp) <;> (repeat' split) <;> simp

@[simp] theorem issueBeat_fixed (e k : Nat) (t : Option Nat) (first : Bool) (s : State) :
    (issueBeat e k t first s).fixed = s.fixed := by
  unfold issueBeat
  try dsimp only
  (repeat' split) <;> (try simp) <;> (repeat' split) <;> simp

@[simp] theorem issueFreeBeat_fixed (e : Nat) (s : State) :
    (issueFreeBeat e s).fixed = s.fixed := by
  unfold issueFreeBeat
  try dsimp only
  (repeat' split) <;> (try simp) <;> (repeat' split) <;> simp

@[simp] theorem catchUp_fixed (e : Nat) (s : State) : (catchUp e s).fixed = s.fixed := by
  unfold catchUp
  split
  · simp only [State.fixed_mk]
    exact foldl_fixed _ (fun s j => issueBeat_fixed e j _ false s) _ s
  · rfl

@[simp] theorem capturePulse_fixed (s : State) : (capturePulse s).fixed = s.fixed := by
  unfold capturePulse
  split
  · refine eachChannel_fixed _ _ (fun c s => ?_)
    split <;> simp
  · rfl

@[simp] theorem rosterWrite_fixed (r : Report) (s : State) :
    (rosterWrite r s).fixed = s.fixed := by
  unfold rosterWrite
  try dsimp only
  (repeat' split) <;> (try simp) <;> (repeat' split) <;> simp

@[simp] theorem startRound_fixed (s : State) :
    (startRound s).fixed = s.fixed := by
  unfold startRound
  try dsimp only
  (repeat' split) <;> (try simp) <;> (repeat' split) <;> simp

@[simp] theorem staleSummary_fixed (s : State) :
    (staleSummary s).fixed = s.fixed := by
  unfold staleSummary
  try dsimp only
  (repeat' split) <;> (try simp) <;> (repeat' split) <;> simp

@[simp] theorem ageEntries_fixed (s : State) :
    (ageEntries s).fixed = s.fixed := by
  unfold ageEntries
  try dsimp only
  (repeat' split) <;> (try simp) <;> (repeat' split) <;> simp

@[simp] theorem raiseAll_fixed (cs : List (Cause × Option Nat)) (s : State) : (raiseAll cs s).fixed = s.fixed := by
  unfold raiseAll
  exact foldl_fixed _ (fun s x => by simp) cs s

@[simp] theorem countLeaderDone_fixed (c : Chan) (s : State) :
    (countLeaderDone c s).fixed = s.fixed := by
  unfold countLeaderDone
  try dsimp only
  (repeat' split) <;> (try simp) <;> (repeat' split) <;> simp

@[simp] theorem realign_fixed (s : State) :
    (realign s).fixed = s.fixed := by
  unfold realign
  try dsimp only
  (repeat' split) <;> (try simp) <;> (repeat' split) <;> simp

@[simp] theorem listenRound_fixed (count : Nat) (heard : Bool) (s : State) :
    (listenRound count heard s).fixed = s.fixed := by
  unfold listenRound
  try dsimp only
  (repeat' split) <;> (try simp) <;> (repeat' split) <;> simp

@[simp] theorem closeCues_fixed (s : State) :
    (closeCues s).fixed = s.fixed := by
  unfold closeCues
  try dsimp only
  (repeat' split) <;> (try simp) <;> (repeat' split) <;> simp

@[simp] theorem markTakeFrame_fixed (s : State) : (markTakeFrame s).fixed = s.fixed := rfl

@[simp] theorem keepUnbegun_fixed (s : State) : (keepUnbegun s).fixed = s.fixed := by
  rcases keepUnbegun_cases s with h | h <;> rw [h] <;> rfl

@[simp] theorem leaveLocked_fixed (s : State) :
    (leaveLocked s).fixed = s.fixed := by
  unfold leaveLocked
  try dsimp only
  (repeat' split) <;> (try simp) <;> (repeat' split) <;> simp

@[simp] theorem raiseFrameFault_fixed (s : State) :
    (raiseFrameFault s).fixed = s.fixed := by
  unfold raiseFrameFault
  try dsimp only
  (repeat' split) <;> (try simp) <;> (repeat' split) <;> simp

@[simp] theorem rollChannel_fixed (c : Chan) (s : State) :
    (rollChannel c s).fixed = s.fixed := by
  unfold rollChannel
  try dsimp only
  (repeat' split) <;> (try simp) <;> (repeat' split) <;> simp

@[simp] theorem rollStart_fixed (s : State) :
    (rollStart s).fixed = s.fixed := by
  unfold rollStart
  try dsimp only
  (repeat' split) <;> (try simp) <;> (repeat' split) <;> simp

@[simp] theorem countDown_fixed (s : State) :
    (countDown s).fixed = s.fixed := by
  unfold countDown
  try dsimp only
  (repeat' split) <;> (try simp) <;> (repeat' split) <;> simp

@[simp] theorem followerPulse_fixed (tag : Nat) (c : Chan) (s : State) :
    (followerPulse tag c s).fixed = s.fixed := by
  unfold followerPulse
  try dsimp only
  (repeat' split) <;> (try simp) <;> (repeat' split) <;> simp

@[simp] theorem riseTF_fixed (s : State) :
    (riseTF s).fixed = s.fixed := by
  unfold riseTF
  try dsimp only
  (repeat' split) <;> (try simp) <;> (repeat' split) <;> simp

@[simp] theorem lastFrameFault_fixed (s : State) :
    (lastFrameFault s).fixed = s.fixed := by
  unfold lastFrameFault
  try dsimp only
  (repeat' split) <;> (try simp) <;> (repeat' split) <;> simp

@[simp] theorem layOutWindow_fixed (s : State) :
    (layOutWindow s).fixed = s.fixed := by
  unfold layOutWindow
  try dsimp only
  (repeat' split) <;> (try simp) <;> (repeat' split) <;> simp

@[simp] theorem beforeBeatN_fixed (e : Nat) (s : State) :
    (beforeBeatN e s).fixed = s.fixed := by
  unfold beforeBeatN
  try dsimp only
  (repeat' split) <;> (try simp) <;> (repeat' split) <;> simp

@[simp] theorem beatN_fixed (locking rolled : Bool) (e : Nat) (s : State) :
    (beatN locking rolled e s).fixed = s.fixed := by
  unfold beatN
  try dsimp only
  (repeat' split) <;> (try simp) <;> (repeat' split) <;> simp

@[simp] theorem afterBeats_fixed (locking rolled : Bool) (tag : Nat) (s : State) :
    (afterBeats locking rolled tag s).fixed = s.fixed := by
  unfold afterBeats
  try dsimp only
  (repeat' split) <;> (try simp) <;> (repeat' split) <;> simp

@[simp] theorem beginFrame_fixed (e d : Nat) (s : State) :
    (beginFrame e d s).fixed = s.fixed := by
  unfold beginFrame
  try dsimp only
  (repeat' split) <;> (try simp) <;> (repeat' split) <;> simp

@[simp] theorem State.withEnded_fixed (s : State) (w : Option EndedWindow) : (s.withEnded w).fixed = s.fixed := rfl

@[simp] theorem framePulse_fixed (locking : Bool) (e d : Nat) (s : State) :
    (framePulse locking e d s).fixed = s.fixed := by
  unfold framePulse
  try dsimp only
  (repeat' split) <;> (try simp) <;> (repeat' split) <;> simp

@[simp] theorem edgeUnlocked_fixed (e : Nat) (s : State) :
    (edgeUnlocked e s).fixed = s.fixed := by
  unfold edgeUnlocked
  try dsimp only
  (repeat' split) <;> (try simp) <;> (repeat' split) <;> simp

@[simp] theorem edgeLocked_fixed (e d p : Nat) (s : State) :
    (edgeLocked e d p s).fixed = s.fixed := by
  unfold edgeLocked
  try dsimp only
  (repeat' split) <;> (try simp) <;> (repeat' split) <;> simp

@[simp] theorem risingEdge_fixed (time : Nat) (s : State) :
    (risingEdge time s).fixed = s.fixed := by
  unfold risingEdge
  try dsimp only
  (repeat' split) <;> (try simp) <;> (repeat' split) <;> simp

@[simp] theorem expireFrame_fixed (q p : Nat) (s : State) :
    (expireFrame q p s).fixed = s.fixed := by
  unfold expireFrame
  try dsimp only
  (repeat' split) <;> (try simp) <;> (repeat' split) <;> simp

@[simp] theorem scheduledBeat_fixed (k due q p : Nat) (s : State) :
    (scheduledBeat k due q p s).fixed = s.fixed := by
  unfold scheduledBeat
  try dsimp only
  (repeat' split) <;> (try simp) <;> (repeat' split) <;> simp

@[simp] theorem freeBeat_fixed (q p : Nat) (s : State) :
    (freeBeat q p s).fixed = s.fixed := by
  unfold freeBeat
  try dsimp only
  (repeat' split) <;> (try simp) <;> (repeat' split) <;> simp

@[simp] theorem takeWhen_fixed (p : Record → Bool) (c : Chan) (s : State) :
    (takeWhen p c s).fixed = s.fixed := by
  unfold takeWhen
  try dsimp only
  (repeat' split) <;> (try simp) <;> (repeat' split) <;> simp

@[simp] theorem expireWait_fixed (c : Chan) (pos cue : Nat) (act : OnTimeout) (s : State) :
    (expireWait c pos cue act s).fixed = s.fixed := by
  unfold expireWait
  try dsimp only
  (repeat' split) <;> (try simp) <;> (repeat' split) <;> simp

@[simp] theorem discardChannel_fixed (code : ScanCode) (goal : Nat) (c : Chan) (s : State) :
    (discardChannel code goal c s).fixed = s.fixed := by
  unfold discardChannel
  try dsimp only
  (repeat' split) <;> (try simp) <;> (repeat' split) <;> simp

@[simp] theorem restoreChannel_fixed (prior : Quad ChanState) (c : Chan) (s : State) :
    (restoreChannel prior c s).fixed = s.fixed := by
  unfold restoreChannel
  try dsimp only
  (repeat' split) <;> (try simp) <;> (repeat' split) <;> simp

@[simp] theorem discardArm_fixed (a : ArmFlight) (r : Result) (code : ScanCode) (s : State) :
    (discardArm a r code s).fixed = s.fixed := by
  unfold discardArm
  try dsimp only
  (repeat' split) <;> (try simp) <;> (repeat' split) <;> simp

@[simp] theorem commitChannel_fixed (goal : Nat) (c : Chan) (s : State) :
    (commitChannel goal c s).fixed = s.fixed := by
  unfold commitChannel
  try dsimp only
  (repeat' split) <;> (try simp) <;> (repeat' split) <;> simp

@[simp] theorem clearLog_fixed (s : State) :
    (clearLog s).fixed = s.fixed := by
  unfold clearLog
  try dsimp only
  (repeat' split) <;> (try simp) <;> (repeat' split) <;> simp

@[simp] theorem commitArm_fixed (a : ArmFlight) (s : State) :
    (commitArm a s).fixed = s.fixed := by
  unfold commitArm
  try dsimp only
  (repeat' split) <;> (try simp) <;> (repeat' split) <;> simp

@[simp] theorem unwindChannel_fixed (c : Chan) (s : State) :
    (unwindChannel c s).fixed = s.fixed := by
  unfold unwindChannel
  try dsimp only
  (repeat' split) <;> (try simp) <;> (repeat' split) <;> simp

@[simp] theorem unwindArm_fixed (a : ArmFlight) (r : Result) (s : State) :
    (unwindArm a r s).fixed = s.fixed := by
  unfold unwindArm
  try dsimp only
  (repeat' split) <;> (try simp) <;> (repeat' split) <;> simp

@[simp] theorem positioned_fixed (c : Chan) (p : Positioning) (x : ScanState) (s : State) :
    (positioned c p x s).fixed = s.fixed := by
  unfold positioned
  try dsimp only
  (repeat' split) <;> (try simp) <;> (repeat' split) <;> simp

@[simp] theorem scanRefused_fixed (c : Chan) (code : ScanCode) (k : Option FaultKind) (x : ScanState) (s : State) :
    (scanRefused c code k x s).fixed = s.fixed := by
  unfold scanRefused
  try dsimp only
  (repeat' split) <;> (try simp) <;> (repeat' split) <;> simp

@[simp] theorem busErrorAt_fixed (a : Activity) (s : State) :
    (busErrorAt a s).fixed = s.fixed := by
  unfold busErrorAt
  try dsimp only
  (repeat' split) <;> (try simp) <;> (repeat' split) <;> simp

theorem receive_fixed (a : Activity) (act : Arrival → State → State) (s : State)
    (h : ∀ m s, (act m s).fixed = s.fixed) : (receive a act s).fixed = s.fixed := by
  unfold receive; split <;> simp [h]

theorem receiveKind_fixed (k : Nat) (a : Activity) (act : Arrival → State → State) (s : State)
    (h : ∀ m s, (act m s).fixed = s.fixed) : (receiveKind k a act s).fixed = s.fixed := by
  unfold receiveKind; split
  · exact receive_fixed a act s h
  · rfl

theorem addressed_fixed (f : Arrival → State → Settled) (m : Arrival) (s : State)
    (h : ∀ m s, (f m s).2.fixed = s.fixed) : (addressed f m s).fixed = s.fixed := by
  unfold addressed; (repeat' split) <;> simp [h]

theorem broadcast_fixed (f : Arrival → State → State) (m : Arrival) (s : State)
    (h : ∀ m s, (f m s).fixed = s.fixed) : (broadcast f m s).fixed = s.fixed := by
  unfold broadcast; (repeat' split) <;> simp [h]

@[simp] theorem settleUnknown_fixed (m : Arrival) (s : State) :
    (settleUnknown m s).fixed = s.fixed := by
  unfold settleUnknown
  try dsimp only
  (repeat' split) <;> (try simp) <;> (repeat' split) <;> simp

@[simp] theorem settleCue_fixed (m : Arrival) (s : State) :
    (settleCue m s).fixed = s.fixed := by
  unfold settleCue
  try dsimp only
  (repeat' split) <;> (try simp) <;> (repeat' split) <;> simp

@[simp] theorem sendInTurn_fixed (t : Nat) (s : State) :
    (sendInTurn t s).fixed = s.fixed := by
  unfold sendInTurn
  try dsimp only
  (repeat' split) <;> (try simp) <;> (repeat' split) <;> simp

@[simp] theorem beginTurn_fixed (i t : Nat) (s : State) :
    (beginTurn i t s).fixed = s.fixed := by
  unfold beginTurn
  try dsimp only
  (repeat' split) <;> (try simp) <;> (repeat' split) <;> simp

@[simp] theorem nextTurn_fixed (i t : Nat) (s : State) :
    (nextTurn i t s).fixed = s.fixed := by
  unfold nextTurn
  try dsimp only
  (repeat' split) <;> (try simp) <;> (repeat' split) <;> simp

@[simp] theorem endSending_fixed (t : Nat) (s : State) :
    (endSending t s).fixed = s.fixed := by
  unfold endSending
  try dsimp only
  (repeat' split) <;> (try simp) <;> (repeat' split) <;> simp

@[simp] theorem cuesSent_fixed (cues : List Nat) (s : State) :
    (cuesSent cues s).fixed = s.fixed := by
  unfold cuesSent
  try dsimp only
  (repeat' split) <;> (try simp) <;> (repeat' split) <;> simp

@[simp] theorem answerSent_fixed (s : State) :
    (answerSent s).fixed = s.fixed := by
  unfold answerSent
  try dsimp only
  (repeat' split) <;> (try simp) <;> (repeat' split) <;> simp

@[simp] theorem beginReport_fixed (q : Nat) (r : FullReport) (s : State) :
    (beginReport q r s).fixed = s.fixed := by
  unfold beginReport
  try dsimp only
  (repeat' split) <;> (try simp) <;> (repeat' split) <;> simp

@[simp] theorem examineReport_fixed (r : Report) (c : Chan) (s : State) :
    (examineReport r c s).fixed = s.fixed := by
  unfold examineReport
  try dsimp only
  (repeat' split) <;> (try simp) <;> (repeat' split) <;> simp

@[simp] theorem takeReport_fixed (r : Report) (s : State) :
    (takeReport r s).fixed = s.fixed := by
  unfold takeReport
  try dsimp only
  (repeat' split) <;> (try simp) <;> (repeat' split) <;> simp

@[simp] theorem reportedOutcomes_fixed (r : FullReport) (s : State) :
    (reportedOutcomes r s).fixed = s.fixed := by
  unfold reportedOutcomes
  try dsimp only
  (repeat' split) <;> (try simp) <;> (repeat' split) <;> simp

@[simp] theorem readBack_fixed (mismatch : Bool) (s : State) :
    (readBack mismatch s).fixed = s.fixed := by
  unfold readBack
  try dsimp only
  (repeat' split) <;> (try simp) <;> (repeat' split) <;> simp

@[simp] theorem completeTake_fixed (s : State) :
    (completeTake s).fixed = s.fixed := by
  unfold completeTake
  try dsimp only
  (repeat' split) <;> (try simp) <;> (repeat' split) <;> simp

@[simp] theorem writeSummary_fixed (s : State) :
    (writeSummary s).fixed = s.fixed := by
  unfold writeSummary
  try dsimp only
  (repeat' split) <;> (try simp) <;> (repeat' split) <;> simp

@[simp] theorem judgeRound_fixed (s : State) :
    (judgeRound s).fixed = s.fixed := by
  unfold judgeRound
  try dsimp only
  (repeat' split) <;> (try simp) <;> (repeat' split) <;> simp

@[simp] theorem settleTag_fixed (s : State) :
    (settleTag s).fixed = s.fixed := by
  unfold settleTag
  try dsimp only
  (repeat' split) <;> (try simp) <;> (repeat' split) <;> simp

@[simp] theorem closeRound_fixed (q : Nat) (s : State) :
    (closeRound q s).fixed = s.fixed := by
  unfold closeRound
  try dsimp only
  (repeat' split) <;> (try simp) <;> (repeat' split) <;> simp

@[simp] theorem takeChannel_fixed (k : TakeKind) (c : Chan) (s : State) :
    (takeChannel k c s).fixed = s.fixed := by
  unfold takeChannel
  try dsimp only
  (repeat' split) <;> (try simp) <;> (repeat' split) <;> simp

@[simp] theorem positionChannel_fixed (a : ArmFlight) (c : Chan) (s : State) :
    (positionChannel a c s).1.fixed = s.fixed := by
  unfold positionChannel
  try dsimp only
  (repeat' split) <;> (try simp) <;> (repeat' split) <;> simp

@[simp] theorem entryCheck_fixed (a : ArmFlight) (c : Chan) (s : State) :
    (entryCheck a c s).1.fixed = s.fixed := by
  unfold entryCheck
  try dsimp only
  (repeat' split) <;> (try simp) <;> (repeat' split) <;> simp

@[simp] theorem enterSeeking_fixed (a : ArmFlight) (id : Nat) (k : TakeKind) (mask : List Nat) (start : Nat) (s : State) :
    (enterSeeking a id k mask start s).fixed = s.fixed := by
  unfold enterSeeking
  try dsimp only
  (repeat' split) <;> (try simp) <;> (repeat' split) <;> simp

theorem entryChecks_fixed (a : ArmFlight) (cs : List Chan) (s : State) : (entryChecks a cs s).1.fixed = s.fixed := by
  induction cs generalizing s with
  | nil => rfl
  | cons c cs ih =>
    unfold entryChecks
    have h := entryCheck_fixed a c s
    split
    · rename_i s1 hs; rw [ih, ← h, hs]
    · rename_i s1 r hs; rw [← h, hs]

@[simp] theorem acceptArm_fixed (m : Arrival) (id : Nat) (k : TakeKind) (mask : List Nat) (start : Nat) (s : State) :
    (acceptArm m id k mask start s).fixed = s.fixed := by
  unfold acceptArm
  dsimp only
  split
  · rename_i s1 r hs
    have h := congrArg (fun x => x.1.fixed) hs
    simp only [entryChecks_fixed, enterSeeking_fixed] at h
    simp [h]
  · rename_i s1 hs
    have h := congrArg (fun x => x.1.fixed) hs
    simp only [entryChecks_fixed, enterSeeking_fixed] at h
    split <;> simp [h]

@[simp] theorem replaceArm_fixed (s : State) :
    (replaceArm s).fixed = s.fixed := by
  unfold replaceArm
  try dsimp only
  (repeat' split) <;> (try simp) <;> (repeat' split) <;> simp

@[simp] theorem armMember_fixed (m : Arrival) (q : ArmRequest) (s : State) : (armMember m q s).fixed = s.fixed := by
  unfold armMember; (repeat' split) <;> simp

@[simp] theorem settleArm_fixed (m : Arrival) (s : State) : (settleArm m s).fixed = s.fixed := by
  unfold settleArm; (repeat' split) <;> simp

@[simp] theorem startCountdown_fixed (l : Nat) (s : State) :
    (startCountdown l s).fixed = s.fixed := by
  unfold startCountdown
  try dsimp only
  (repeat' split) <;> (try simp) <;> (repeat' split) <;> simp

@[simp] theorem settleRoll_fixed (m : Arrival) (s : State) :
    (settleRoll m s).fixed = s.fixed := by
  unfold settleRoll
  try dsimp only
  (repeat' split) <;> (try simp) <;> (repeat' split) <;> simp

@[simp] theorem disbandAtRest_fixed (s : State) :
    (disbandAtRest s).fixed = s.fixed := by
  unfold disbandAtRest
  try dsimp only
  (repeat' split) <;> (try simp) <;> (repeat' split) <;> simp

@[simp] theorem disbandSeeking_fixed (m : Arrival) (a : ArmFlight) (s : State) :
    (disbandSeeking m a s).fixed = s.fixed := by
  unfold disbandSeeking
  try dsimp only
  (repeat' split) <;> (try simp) <;> (repeat' split) <;> simp

@[simp] theorem disbandMember_fixed (m : Arrival) (s : State) :
    (disbandMember m s).fixed = s.fixed := by
  unfold disbandMember
  try dsimp only
  (repeat' split) <;> (try simp) <;> (repeat' split) <;> simp

@[simp] theorem settleDisband_fixed (m : Arrival) (s : State) :
    (settleDisband m s).fixed = s.fixed := by
  unfold settleDisband
  try dsimp only
  (repeat' split) <;> (try simp) <;> (repeat' split) <;> simp

@[simp] theorem clearChannel_fixed (c : Chan) (s : State) :
    (clearChannel c s).fixed = s.fixed := by
  unfold clearChannel
  try dsimp only
  (repeat' split) <;> (try simp) <;> (repeat' split) <;> simp

@[simp] theorem settleClear_fixed (m : Arrival) (s : State) :
    (settleClear m s).2.fixed = s.fixed := by
  unfold settleClear; simp only [refuse]
  try dsimp only
  (repeat' split) <;> (try simp) <;> (repeat' split) <;> simp

@[simp] theorem stopPlaying_fixed (c : Chan) (s : State) :
    (stopPlaying c s).fixed = s.fixed := by
  unfold stopPlaying
  try dsimp only
  (repeat' split) <;> (try simp) <;> (repeat' split) <;> simp

@[simp] theorem enterStopping_fixed (s : State) :
    (enterStopping s).fixed = s.fixed := by
  unfold enterStopping
  try dsimp only
  (repeat' split) <;> (try simp) <;> (repeat' split) <;> simp

@[simp] theorem holdSeeking_fixed (s : State) :
    (holdSeeking s).fixed = s.fixed := by
  unfold holdSeeking
  try dsimp only
  (repeat' split) <;> (try simp) <;> (repeat' split) <;> simp

@[simp] theorem holdFalls_fixed (s : State) :
    (holdFalls s).fixed = s.fixed := by
  unfold holdFalls
  try dsimp only
  (repeat' split) <;> (try simp) <;> (repeat' split) <;> simp

@[simp] theorem settleLoad_fixed (m : Arrival) (s : State) :
    (settleLoad m s).2.fixed = s.fixed := by
  unfold settleLoad; simp only [refuse]
  try dsimp only
  (repeat' split) <;> (try simp) <;> (repeat' split) <;> simp

@[simp] theorem settleAdvance_fixed (m : Arrival) (s : State) :
    (settleAdvance m s).2.fixed = s.fixed := by
  unfold settleAdvance; simp only [refuse]
  try dsimp only
  (repeat' split) <;> (try simp) <;> (repeat' split) <;> simp

@[simp] theorem settleRelease_fixed (m : Arrival) (s : State) :
    (settleRelease m s).2.fixed = s.fixed := by
  unfold settleRelease; simp only [refuse]
  try dsimp only
  (repeat' split) <;> (try simp) <;> (repeat' split) <;> simp

@[simp] theorem settleClearRing_fixed (m : Arrival) (s : State) :
    (settleClearRing m s).2.fixed = s.fixed := by
  unfold settleClearRing; simp only [refuse]
  try dsimp only
  (repeat' split) <;> (try simp) <;> (repeat' split) <;> simp

@[simp] theorem applyLines_fixed (es : List (Nat × Plain)) (tally : Option Nat) (s : State) :
    (applyLines es tally s).fixed = s.fixed := by
  unfold applyLines
  try dsimp only
  (repeat' split) <;> (try simp) <;> (repeat' split) <;> simp

@[simp] theorem settleSetupLines_fixed (m : Arrival) (s : State) :
    (settleSetupLines m s).2.fixed = s.fixed := by
  unfold settleSetupLines; simp only [refuse]
  try dsimp only
  (repeat' split) <;> (try simp) <;> (repeat' split) <;> simp

@[simp] theorem startInputs_fixed (c : Chan) (s : State) :
    (startInputs c s).fixed = s.fixed := by
  unfold startInputs
  try dsimp only
  (repeat' split) <;> (try simp) <;> (repeat' split) <;> simp

@[simp] theorem applySetup_fixed (c : Chan) (u : Setup) (pins : Pins) (s : State) :
    (applySetup c u pins s).fixed = s.fixed := by
  unfold applySetup
  try dsimp only
  (repeat' split) <;> (try simp) <;> (repeat' split) <;> simp

@[simp] theorem settleSetupChannel_fixed (pins : Pins) (m : Arrival) (s : State) :
    (settleSetupChannel pins m s).2.fixed = s.fixed := by
  unfold settleSetupChannel; simp only [refuse]
  try dsimp only
  (repeat' split) <;> (try simp) <;> (repeat' split) <;> simp

@[simp] theorem enlistChannel_fixed (c : Chan) (s : State) :
    (enlistChannel c s).fixed = s.fixed := by
  unfold enlistChannel
  try dsimp only
  (repeat' split) <;> (try simp) <;> (repeat' split) <;> simp

@[simp] theorem settleEnlist_fixed (m : Arrival) (s : State) :
    (settleEnlist m s).2.fixed = s.fixed := by
  unfold settleEnlist; simp only [refuse]
  try dsimp only
  (repeat' split) <;> (try simp) <;> (repeat' split) <;> simp

@[simp] theorem stopPulses_fixed (c : Chan) (s : State) :
    (stopPulses c s).fixed = s.fixed := by
  unfold stopPulses
  try dsimp only
  (repeat' split) <;> (try simp) <;> (repeat' split) <;> simp

@[simp] theorem enterSafe_fixed (t : Nat) (s : State) :
    (enterSafe t s).fixed = s.fixed := by
  unfold enterSafe
  try dsimp only
  (repeat' split) <;> (try simp) <;> (repeat' split) <;> simp

@[simp] theorem settleDismiss_fixed (m : Arrival) (s : State) :
    (settleDismiss m s).2.fixed = s.fixed := by
  unfold settleDismiss; simp only [refuse]
  try dsimp only
  (repeat' split) <;> (try simp) <;> (repeat' split) <;> simp

@[simp] theorem answerWith_fixed (m : Arrival) (body : AnswerBody) (s : State) :
    (answerWith m body s).2.fixed = s.fixed := by
  unfold answerWith; simp only [refuse]
  try dsimp only
  (repeat' split) <;> (try simp) <;> (repeat' split) <;> simp

@[simp] theorem plainQuery_fixed (body : State → AnswerBody) (m : Arrival) (s : State) :
    (plainQuery body m s).2.fixed = s.fixed := by
  unfold plainQuery; simp only [refuse]
  try dsimp only
  (repeat' split) <;> (try simp) <;> (repeat' split) <;> simp

@[simp] theorem settleQueryRing_fixed (m : Arrival) (s : State) :
    (settleQueryRing m s).2.fixed = s.fixed := by
  unfold settleQueryRing; simp only [refuse]
  try dsimp only
  (repeat' split) <;> (try simp) <;> (repeat' split) <;> simp

@[simp] theorem settleQueryCheckpoints_fixed (m : Arrival) (s : State) :
    (settleQueryCheckpoints m s).2.fixed = s.fixed := by
  unfold settleQueryCheckpoints; simp only [refuse]
  try dsimp only
  (repeat' split) <;> (try simp) <;> (repeat' split) <;> simp

@[simp] theorem settleQueryRoster_fixed (m : Arrival) (s : State) :
    (settleQueryRoster m s).2.fixed = s.fixed := by
  unfold settleQueryRoster; simp only [refuse]
  try dsimp only
  (repeat' split) <;> (try simp) <;> (repeat' split) <;> simp

@[simp] theorem State.withPins_fixed (s : State) (pins : Pins) :
    (State.withPins s pins).fixed = s.fixed := by
  unfold State.withPins
  try dsimp only
  (repeat' split) <;> (try simp) <;> (repeat' split) <;> simp

@[simp] theorem clearOverrun_fixed (s : State) :
    (clearOverrun s).fixed = s.fixed := by
  unfold clearOverrun
  try dsimp only
  (repeat' split) <;> (try simp) <;> (repeat' split) <;> simp

@[simp] theorem settleQuerySampler_fixed (m : Arrival) (s : State) :
    (settleQuerySampler m s).2.fixed = s.fixed := by
  unfold settleQuerySampler
  try dsimp only
  (repeat' split) <;> (try simp) <;> (repeat' split) <;> simp

@[simp] theorem fetchEntries_fixed (m : Arrival) (n : Nat) (s : State) :
    (fetchEntries m n s).fixed = s.fixed := by
  unfold fetchEntries
  try dsimp only
  (repeat' split) <;> (try simp) <;> (repeat' split) <;> simp

@[simp] theorem settleFetch_fixed (m : Arrival) (s : State) :
    (settleFetch m s).2.fixed = s.fixed := by
  unfold settleFetch; simp only [refuse]
  try dsimp only
  (repeat' split) <;> (try simp) <;> (repeat' split) <;> simp

@[simp] theorem settleSample_fixed (m : Arrival) (s : State) :
    (settleSample m s).2.fixed = s.fixed := by
  unfold settleSample; simp only [refuse]
  try dsimp only
  (repeat' split) <;> (try simp) <;> (repeat' split) <;> simp

@[simp] theorem endWake_fixed (t : Nat) (s : State) :
    (endWake t s).fixed = s.fixed := by
  unfold endWake
  try dsimp only
  (repeat' split) <;> (try simp) <;> (repeat' split) <;> simp

@[simp] theorem writeConversion_fixed (v : Conversion) (result : Nat) (s : State) :
    (writeConversion v result s).fixed = s.fixed := by
  unfold writeConversion
  try dsimp only
  (repeat' split) <;> (try simp) <;> (repeat' split) <;> simp

@[simp] theorem wireBreak_fixed (n : Nat) (c : Chan) (s : State) :
    (wireBreak n c s).fixed = s.fixed := by
  unfold wireBreak
  try dsimp only
  (repeat' split) <;> (try simp) <;> (repeat' split) <;> simp

@[simp] theorem completeConversion_fixed (v : Conversion) (result : Nat) (s : State) :
    (completeConversion v result s).fixed = s.fixed := by
  unfold completeConversion
  try dsimp only
  (repeat' split) <;> (try simp) <;> (repeat' split) <;> simp

end Sys2Proof.Machine
end

