-- ==== Sys2Proof/Laws/Engines.lean ====
section
/-! SUPPORT. The operations that leave all four Path Engines as they stand: one lemma each. -/

-- One thread: as one text the package would start more than the memory limit lets through.
set_option Elab.async false

set_option linter.all false

namespace Sys2Proof.Machine

@[simp] theorem State.engine_mk (s : State) (clock : Nat) (station : Nat) (subBeats : Nat) (timer : Timer) (port : Port) (roster : Roster) (take : Take) (holds : HoldRecord) (holdInput : Bool) (board : CueBoard) (sampler : Sampler) (log : CaptureLog) (lines : LineMap) (freeCount : Nat) (pending : List Instr) :
    State.engine (State.mk clock station subBeats timer port roster take holds holdInput s.channels board sampler log lines freeCount pending) = s.engine := rfl

@[simp] theorem State.setDrive_engine (s : State) (c : Chan) (d : Drive) : (s.setDrive c d).engine = s.engine := by
  funext e; simp

@[simp] theorem State.atTime_engine (s : State) (t : Nat) : (s.atTime t).engine = s.engine := rfl

@[simp] theorem State.setEntry_engine (s : State) (n : Nat) (e : RosterEntry) : (s.setEntry n e).engine = s.engine := rfl

@[simp] theorem State.heard_engine (s : State) (a : Activity) : (s.heard a).engine = s.engine := rfl

@[simp] theorem eachChannel_engine (f : Chan → State → State) (s : State) (h : ∀ c s, (f c s).engine = s.engine) :
    (eachChannel f s).engine = s.engine := eachChannel_same State.engine f h s

theorem foldl_engine {α : Type} (f : State → α → State) (h : ∀ s x, (f s x).engine = s.engine) (l : List α) (s : State) :
    (l.foldl f s).engine = s.engine := by
  induction l generalizing s with
  | nil => rfl
  | cons x xs ih => rw [List.foldl_cons, ih, h]


@[simp] theorem addOutcome_engine (station seq : Nat) (r : Result) (s : State) :
    (addOutcome station seq r s).engine = s.engine := by
  unfold addOutcome
  try dsimp only
  (repeat' split) <;> (try simp) <;> (repeat' split) <;> simp

@[simp] theorem takePlace_engine (station seq : Nat) (body : Option AnswerBody) (s : State) :
    (takePlace station seq body s).engine = s.engine := by
  unfold takePlace
  try dsimp only
  (repeat' split) <;> (try simp) <;> (repeat' split) <;> simp

@[simp] theorem raiseCause_engine (cause : Cause) (concerned : Option Nat) (kind : Option FaultKind) (s : State) :
    (raiseCause cause concerned kind s).engine = s.engine := by
  unfold raiseCause
  try dsimp only
  (repeat' split) <;> (try simp) <;> (repeat' split) <;> simp

@[simp] theorem samplerSettle_engine (s : State) :
    (samplerSettle s).engine = s.engine := by
  unfold samplerSettle
  try dsimp only
  (repeat' split) <;> (try simp) <;> (repeat' split) <;> simp

@[simp] theorem samplerBegin_engine (t : Nat) (s : State) :
    (samplerBegin t s).engine = s.engine := by
  unfold samplerBegin
  try dsimp only
  (repeat' split) <;> (try simp) <;> (repeat' split) <;> simp

@[simp] theorem samplerTrigger_engine (t : Nat) (s : State) :
    (samplerTrigger t s).engine = s.engine := by
  unfold samplerTrigger
  try dsimp only
  (repeat' split) <;> (try simp) <;> (repeat' split) <;> simp

@[simp] theorem samplerAccept_engine (n station seq t : Nat) (s : State) :
    (samplerAccept n station seq t s).engine = s.engine := by
  unfold samplerAccept
  try dsimp only
  (repeat' split) <;> (try simp) <;> (repeat' split) <;> simp

@[simp] theorem samplerSafeStop_engine (t : Nat) (s : State) :
    (samplerSafeStop t s).engine = s.engine := by
  unfold samplerSafeStop
  try dsimp only
  (repeat' split) <;> (try simp) <;> (repeat' split) <;> simp

@[simp] theorem parkTakeChannels_engine (s : State) : (parkTakeChannels s).engine = s.engine := by
  refine eachChannel_engine _ _ (fun c s => ?_)
  split <;> simp

@[simp] theorem clearSources_engine (s : State) : (clearSources s).engine = s.engine := by
  refine eachChannel_engine _ _ (fun c s => ?_)
  simp

@[simp] theorem leaveTake_engine (s : State) :
    (leaveTake s).engine = s.engine := by
  unfold leaveTake
  try dsimp only
  (repeat' split) <;> (try simp) <;> (repeat' split) <;> simp

@[simp] theorem endUnwinding_engine (a : ArmFlight) (s : State) :
    (endUnwinding a s).engine = s.engine := by
  unfold endUnwinding
  try dsimp only
  (repeat' split) <;> (try simp) <;> (repeat' split) <;> simp

@[simp] theorem checkRest_engine (s : State) :
    (checkRest s).engine = s.engine := by
  unfold checkRest
  try dsimp only
  (repeat' split) <;> (try simp) <;> (repeat' split) <;> simp

@[simp] theorem checkFinished_engine (s : State) :
    (checkFinished s).engine = s.engine := by
  unfold checkFinished
  try dsimp only
  (repeat' split) <;> (try simp) <;> (repeat' split) <;> simp

@[simp] theorem checkArmed_engine (s : State) :
    (checkArmed s).engine = s.engine := by
  unfold checkArmed
  try dsimp only
  (repeat' split) <;> (try simp) <;> (repeat' split) <;> simp

@[simp] theorem hardFault_engine (c : Chan) (k : FaultKind) (s : State) :
    (hardFault c k s).engine = s.engine := by
  unfold hardFault
  try dsimp only
  (repeat' split) <;> (try simp) <;> (repeat' split) <;> simp

@[simp] theorem softFault_engine (c : Chan) (k : FaultKind) (s : State) :
    (softFault c k s).engine = s.engine := by
  unfold softFault
  try dsimp only
  (repeat' split) <;> (try simp) <;> (repeat' split) <;> simp

@[simp] theorem energize_engine (c : Chan) (st : ChanState) (s : State) :
    (energize c st s).engine = s.engine := by
  unfold energize
  try dsimp only
  (repeat' split) <;> (try simp) <;> (repeat' split) <;> simp

@[simp] theorem becomeDone_engine (c : Chan) (s : State) :
    (becomeDone c s).engine = s.engine := by
  unfold becomeDone
  try dsimp only
  (repeat' split) <;> (try simp) <;> (repeat' split) <;> simp

@[simp] theorem endPlay_engine (c : Chan) (e : PlayEnd) (s : State) :
    (endPlay c e s).engine = s.engine := by
  unfold endPlay
  try dsimp only
  (repeat' split) <;> (try simp) <;> (repeat' split) <;> simp

@[simp] theorem issueSetPoint_engine (c : Chan) (t : Nat) (x : Int) (s : State) :
    (issueSetPoint c t x s).engine = s.engine := by
  unfold issueSetPoint
  try dsimp only
  (repeat' split) <;> (try simp) <;> (repeat' split) <;> simp

@[simp] theorem holdStill_engine (c : Chan) (t : Nat) (s : State) :
    (holdStill c t s).engine = s.engine := by
  unfold holdStill
  try dsimp only
  (repeat' split) <;> (try simp) <;> (repeat' split) <;> simp

@[simp] theorem faultOnFollow_engine (c : Chan) (s : State) :
    (faultOnFollow c s).engine = s.engine := by
  unfold faultOnFollow
  try dsimp only
  (repeat' split) <;> (try simp) <;> (repeat' split) <;> simp

@[simp] theorem monitor_engine (c : Chan) (s : State) :
    (monitor c s).engine = s.engine := by
  unfold monitor
  try dsimp only
  (repeat' split) <;> (try simp) <;> (repeat' split) <;> simp

@[simp] theorem becomeReady_engine (c : Chan) (s : State) :
    (becomeReady c s).engine = s.engine := by
  unfold becomeReady
  try dsimp only
  (repeat' split) <;> (try simp) <;> (repeat' split) <;> simp

@[simp] theorem seekStep_engine (c : Chan) (t : Nat) (k : Seek) (s : State) :
    (seekStep c t k s).engine = s.engine := by
  unfold seekStep
  try dsimp only
  (repeat' split) <;> (try simp) <;> (repeat' split) <;> simp

@[simp] theorem finishStop_engine (c : Chan) (s : State) :
    (finishStop c s).engine = s.engine := by
  unfold finishStop
  try dsimp only
  (repeat' split) <;> (try simp) <;> (repeat' split) <;> simp

@[simp] theorem stopStep_engine (c : Chan) (t : Nat) (k : Stop) (s : State) :
    (stopStep c t k s).engine = s.engine := by
  unfold stopStep
  try dsimp only
  (repeat' split) <;> (try simp) <;> (repeat' split) <;> simp

@[simp] theorem playSetPoint_engine (c : Chan) (now t : Nat) (x : Int) (s : State) :
    (playSetPoint c now t x s).engine = s.engine := by
  unfold playSetPoint
  try dsimp only
  (repeat' split) <;> (try simp) <;> (repeat' split) <;> simp

@[simp] theorem playFault_engine (c : Chan) (now t : Nat) (k : FaultKind) (x : Int) (s : State) :
    (playFault c now t k x s).engine = s.engine := by
  unfold playFault
  try dsimp only
  (repeat' split) <;> (try simp) <;> (repeat' split) <;> simp

theorem stateBeat_engine_none (c : Chan) (now k : Nat) (first : Bool) (s : State) :
    (stateBeat c now none k first s).engine = s.engine := by
  unfold stateBeat
  (repeat' split) <;> first | simp | contradiction

@[simp] theorem driveFreeBeat_engine (now : Nat) (c : Chan) (s : State) : (driveFreeBeat now c s).engine = s.engine := by
  unfold driveFreeBeat
  split
  · rw [stateBeat_engine_none, monitor_engine]
  · rfl

@[simp] theorem latchPending_engine (g : Nat) (s : State) :
    (latchPending g s).engine = s.engine := by
  unfold latchPending
  try dsimp only
  (repeat' split) <;> (try simp) <;> (repeat' split) <;> simp

@[simp] theorem consumeCues_engine (s : State) :
    (consumeCues s).engine = s.engine := by
  unfold consumeCues
  try dsimp only
  (repeat' split) <;> (try simp) <;> (repeat' split) <;> simp

@[simp] theorem clearBoard_engine (s : State) :
    (clearBoard s).engine = s.engine := by
  unfold clearBoard
  try dsimp only
  (repeat' split) <;> (try simp) <;> (repeat' split) <;> simp

@[simp] theorem pendCues_engine (cues : List Nat) (s : State) :
    (pendCues cues s).engine = s.engine := by
  unfold pendCues
  try dsimp only
  (repeat' split) <;> (try simp) <;> (repeat' split) <;> simp

@[simp] theorem noteTakeSubBeat_engine (t : Option Nat) (s : State) :
    (noteTakeSubBeat t s).engine = s.engine := by
  unfold noteTakeSubBeat
  try dsimp only
  (repeat' split) <;> (try simp) <;> (repeat' split) <;> simp

@[simp] theorem issueFreeBeat_engine (e : Nat) (s : State) :
    (issueFreeBeat e s).engine = s.engine := by
  unfold issueFreeBeat
  try dsimp only
  (repeat' split) <;> (try simp) <;> (repeat' split) <;> simp

@[simp] theorem capturePulse_engine (s : State) : (capturePulse s).engine = s.engine := by
  unfold capturePulse
  split
  · refine eachChannel_engine _ _ (fun c s => ?_)
    split <;> simp
  · rfl

@[simp] theorem rosterWrite_engine (r : Report) (s : State) :
    (rosterWrite r s).engine = s.engine := by
  unfold rosterWrite
  try dsimp only
  (repeat' split) <;> (try simp) <;> (repeat' split) <;> simp

@[simp] theorem startRound_engine (s : State) :
    (startRound s).engine = s.engine := by
  unfold startRound
  try dsimp only
  (repeat' split) <;> (try simp) <;> (repeat' split) <;> simp

@[simp] theorem staleSummary_engine (s : State) :
    (staleSummary s).engine = s.engine := by
  unfold staleSummary
  try dsimp only
  (repeat' split) <;> (try simp) <;> (repeat' split) <;> simp

@[simp] theorem ageEntries_engine (s : State) :
    (ageEntries s).engine = s.engine := by
  unfold ageEntries
  try dsimp only
  (repeat' split) <;> (try simp) <;> (repeat' split) <;> simp

@[simp] theorem raiseAll_engine (cs : List (Cause × Option Nat)) (s : State) : (raiseAll cs s).engine = s.engine := by
  unfold raiseAll
  exact foldl_engine _ (fun s x => by simp) cs s

@[simp] theorem countLeaderDone_engine (c : Chan) (s : State) :
    (countLeaderDone c s).engine = s.engine := by
  unfold countLeaderDone
  try dsimp only
  (repeat' split) <;> (try simp) <;> (repeat' split) <;> simp

@[simp] theorem realign_engine (s : State) :
    (realign s).engine = s.engine := by
  unfold realign
  try dsimp only
  (repeat' split) <;> (try simp) <;> (repeat' split) <;> simp

@[simp] theorem listenRound_engine (count : Nat) (heard : Bool) (s : State) :
    (listenRound count heard s).engine = s.engine := by
  unfold listenRound
  try dsimp only
  (repeat' split) <;> (try simp) <;> (repeat' split) <;> simp

@[simp] theorem closeCues_engine (s : State) :
    (closeCues s).engine = s.engine := by
  unfold closeCues
  try dsimp only
  (repeat' split) <;> (try simp) <;> (repeat' split) <;> simp

@[simp] theorem markTakeFrame_engine (s : State) : (markTakeFrame s).engine = s.engine := rfl

@[simp] theorem keepUnbegun_engine (s : State) : (keepUnbegun s).engine = s.engine := by
  rcases keepUnbegun_cases s with h | h <;> rw [h] <;> rfl

@[simp] theorem leaveLocked_engine (s : State) :
    (leaveLocked s).engine = s.engine := by
  unfold leaveLocked
  try dsimp only
  (repeat' split) <;> (try simp) <;> (repeat' split) <;> simp

@[simp] theorem raiseFrameFault_engine (s : State) :
    (raiseFrameFault s).engine = s.engine := by
  unfold raiseFrameFault
  try dsimp only
  (repeat' split) <;> (try simp) <;> (repeat' split) <;> simp

@[simp] theorem rollChannel_engine (c : Chan) (s : State) :
    (rollChannel c s).engine = s.engine := by
  unfold rollChannel
  try dsimp only
  (repeat' split) <;> (try simp) <;> (repeat' split) <;> simp

@[simp] theorem rollStart_engine (s : State) :
    (rollStart s).engine = s.engine := by
  unfold rollStart
  try dsimp only
  (repeat' split) <;> (try simp) <;> (repeat' split) <;> simp

@[simp] theorem countDown_engine (s : State) :
    (countDown s).engine = s.engine := by
  unfold countDown
  try dsimp only
  (repeat' split) <;> (try simp) <;> (repeat' split) <;> simp

@[simp] theorem followerPulse_engine (tag : Nat) (c : Chan) (s : State) :
    (followerPulse tag c s).engine = s.engine := by
  unfold followerPulse
  try dsimp only
  (repeat' split) <;> (try simp) <;> (repeat' split) <;> simp

@[simp] theorem riseTF_engine (s : State) :
    (riseTF s).engine = s.engine := by
  unfold riseTF
  try dsimp only
  (repeat' split) <;> (try simp) <;> (repeat' split) <;> simp

@[simp] theorem lastFrameFault_engine (s : State) :
    (lastFrameFault s).engine = s.engine := by
  unfold lastFrameFault
  try dsimp only
  (repeat' split) <;> (try simp) <;> (repeat' split) <;> simp

@[simp] theorem layOutWindow_engine (s : State) :
    (layOutWindow s).engine = s.engine := by
  unfold layOutWindow
  try dsimp only
  (repeat' split) <;> (try simp) <;> (repeat' split) <;> simp

@[simp] theorem afterBeats_engine (locking rolled : Bool) (tag : Nat) (s : State) :
    (afterBeats locking rolled tag s).engine = s.engine := by
  unfold afterBeats
  try dsimp only
  (repeat' split) <;> (try simp) <;> (repeat' split) <;> simp

@[simp] theorem beginFrame_engine (e d : Nat) (s : State) :
    (beginFrame e d s).engine = s.engine := by
  unfold beginFrame
  try dsimp only
  (repeat' split) <;> (try simp) <;> (repeat' split) <;> simp

@[simp] theorem expireFrame_engine (q p : Nat) (s : State) :
    (expireFrame q p s).engine = s.engine := by
  unfold expireFrame
  try dsimp only
  (repeat' split) <;> (try simp) <;> (repeat' split) <;> simp

@[simp] theorem freeBeat_engine (q p : Nat) (s : State) :
    (freeBeat q p s).engine = s.engine := by
  unfold freeBeat
  try dsimp only
  (repeat' split) <;> (try simp) <;> (repeat' split) <;> simp

@[simp] theorem restoreChannel_engine (prior : Quad ChanState) (c : Chan) (s : State) :
    (restoreChannel prior c s).engine = s.engine := by
  unfold restoreChannel
  try dsimp only
  (repeat' split) <;> (try simp) <;> (repeat' split) <;> simp

@[simp] theorem clearLog_engine (s : State) :
    (clearLog s).engine = s.engine := by
  unfold clearLog
  try dsimp only
  (repeat' split) <;> (try simp) <;> (repeat' split) <;> simp

@[simp] theorem unwindChannel_engine (c : Chan) (s : State) :
    (unwindChannel c s).engine = s.engine := by
  unfold unwindChannel
  try dsimp only
  (repeat' split) <;> (try simp) <;> (repeat' split) <;> simp

@[simp] theorem unwindArm_engine (a : ArmFlight) (r : Result) (s : State) :
    (unwindArm a r s).engine = s.engine := by
  unfold unwindArm
  try dsimp only
  (repeat' split) <;> (try simp) <;> (repeat' split) <;> simp

@[simp] theorem busErrorAt_engine (a : Activity) (s : State) :
    (busErrorAt a s).engine = s.engine := by
  unfold busErrorAt
  try dsimp only
  (repeat' split) <;> (try simp) <;> (repeat' split) <;> simp

@[simp] theorem settleUnknown_engine (m : Arrival) (s : State) :
    (settleUnknown m s).engine = s.engine := by
  unfold settleUnknown
  try dsimp only
  (repeat' split) <;> (try simp) <;> (repeat' split) <;> simp

@[simp] theorem settleCue_engine (m : Arrival) (s : State) :
    (settleCue m s).engine = s.engine := by
  unfold settleCue
  try dsimp only
  (repeat' split) <;> (try simp) <;> (repeat' split) <;> simp

@[simp] theorem sendInTurn_engine (t : Nat) (s : State) :
    (sendInTurn t s).engine = s.engine := by
  unfold sendInTurn
  try dsimp only
  (repeat' split) <;> (try simp) <;> (repeat' split) <;> simp

@[simp] theorem beginTurn_engine (i t : Nat) (s : State) :
    (beginTurn i t s).engine = s.engine := by
  unfold beginTurn
  try dsimp only
  (repeat' split) <;> (try simp) <;> (repeat' split) <;> simp

@[simp] theorem nextTurn_engine (i t : Nat) (s : State) :
    (nextTurn i t s).engine = s.engine := by
  unfold nextTurn
  try dsimp only
  (repeat' split) <;> (try simp) <;> (repeat' split) <;> simp

@[simp] theorem endSending_engine (t : Nat) (s : State) :
    (endSending t s).engine = s.engine := by
  unfold endSending
  try dsimp only
  (repeat' split) <;> (try simp) <;> (repeat' split) <;> simp

@[simp] theorem cuesSent_engine (cues : List Nat) (s : State) :
    (cuesSent cues s).engine = s.engine := by
  unfold cuesSent
  try dsimp only
  (repeat' split) <;> (try simp) <;> (repeat' split) <;> simp

@[simp] theorem answerSent_engine (s : State) :
    (answerSent s).engine = s.engine := by
  unfold answerSent
  try dsimp only
  (repeat' split) <;> (try simp) <;> (repeat' split) <;> simp

@[simp] theorem beginReport_engine (q : Nat) (r : FullReport) (s : State) :
    (beginReport q r s).engine = s.engine := by
  unfold beginReport
  try dsimp only
  (repeat' split) <;> (try simp) <;> (repeat' split) <;> simp

@[simp] theorem examineReport_engine (r : Report) (c : Chan) (s : State) :
    (examineReport r c s).engine = s.engine := by
  unfold examineReport
  try dsimp only
  (repeat' split) <;> (try simp) <;> (repeat' split) <;> simp

@[simp] theorem takeReport_engine (r : Report) (s : State) :
    (takeReport r s).engine = s.engine := by
  unfold takeReport
  try dsimp only
  (repeat' split) <;> (try simp) <;> (repeat' split) <;> simp

@[simp] theorem reportedOutcomes_engine (r : FullReport) (s : State) :
    (reportedOutcomes r s).engine = s.engine := by
  unfold reportedOutcomes
  try dsimp only
  (repeat' split) <;> (try simp) <;> (repeat' split) <;> simp

@[simp] theorem readBack_engine (mismatch : Bool) (s : State) :
    (readBack mismatch s).engine = s.engine := by
  unfold readBack
  try dsimp only
  (repeat' split) <;> (try simp) <;> (repeat' split) <;> simp

@[simp] theorem completeTake_engine (s : State) :
    (completeTake s).engine = s.engine := by
  unfold completeTake
  try dsimp only
  (repeat' split) <;> (try simp) <;> (repeat' split) <;> simp

@[simp] theorem writeSummary_engine (s : State) :
    (writeSummary s).engine = s.engine := by
  unfold writeSummary
  try dsimp only
  (repeat' split) <;> (try simp) <;> (repeat' split) <;> simp

@[simp] theorem judgeRound_engine (s : State) :
    (judgeRound s).engine = s.engine := by
  unfold judgeRound
  try dsimp only
  (repeat' split) <;> (try simp) <;> (repeat' split) <;> simp

@[simp] theorem settleTag_engine (s : State) :
    (settleTag s).engine = s.engine := by
  unfold settleTag
  try dsimp only
  (repeat' split) <;> (try simp) <;> (repeat' split) <;> simp

@[simp] theorem closeRound_engine (q : Nat) (s : State) :
    (closeRound q s).engine = s.engine := by
  unfold closeRound
  try dsimp only
  (repeat' split) <;> (try simp) <;> (repeat' split) <;> simp

@[simp] theorem takeChannel_engine (k : TakeKind) (c : Chan) (s : State) :
    (takeChannel k c s).engine = s.engine := by
  unfold takeChannel
  try dsimp only
  (repeat' split) <;> (try simp) <;> (repeat' split) <;> simp

@[simp] theorem enterSeeking_engine (a : ArmFlight) (id : Nat) (k : TakeKind) (mask : List Nat) (start : Nat) (s : State) :
    (enterSeeking a id k mask start s).engine = s.engine := by
  unfold enterSeeking
  try dsimp only
  (repeat' split) <;> (try simp) <;> (repeat' split) <;> simp

@[simp] theorem startCountdown_engine (l : Nat) (s : State) :
    (startCountdown l s).engine = s.engine := by
  unfold startCountdown
  try dsimp only
  (repeat' split) <;> (try simp) <;> (repeat' split) <;> simp

@[simp] theorem settleRoll_engine (m : Arrival) (s : State) :
    (settleRoll m s).engine = s.engine := by
  unfold settleRoll
  try dsimp only
  (repeat' split) <;> (try simp) <;> (repeat' split) <;> simp

@[simp] theorem disbandAtRest_engine (s : State) :
    (disbandAtRest s).engine = s.engine := by
  unfold disbandAtRest
  try dsimp only
  (repeat' split) <;> (try simp) <;> (repeat' split) <;> simp

@[simp] theorem clearChannel_engine (c : Chan) (s : State) :
    (clearChannel c s).engine = s.engine := by
  unfold clearChannel
  try dsimp only
  (repeat' split) <;> (try simp) <;> (repeat' split) <;> simp

@[simp] theorem settleClear_engine (m : Arrival) (s : State) :
    (settleClear m s).2.engine = s.engine := by
  unfold settleClear; simp only [refuse]
  try dsimp only
  (repeat' split) <;> (try simp) <;> (repeat' split) <;> simp

@[simp] theorem stopPlaying_engine (c : Chan) (s : State) :
    (stopPlaying c s).engine = s.engine := by
  unfold stopPlaying
  try dsimp only
  (repeat' split) <;> (try simp) <;> (repeat' split) <;> simp

@[simp] theorem enterStopping_engine (s : State) :
    (enterStopping s).engine = s.engine := by
  unfold enterStopping
  try dsimp only
  (repeat' split) <;> (try simp) <;> (repeat' split) <;> simp

@[simp] theorem applyLines_engine (es : List (Nat × Plain)) (tally : Option Nat) (s : State) :
    (applyLines es tally s).engine = s.engine := by
  unfold applyLines
  try dsimp only
  (repeat' split) <;> (try simp) <;> (repeat' split) <;> simp

@[simp] theorem settleSetupLines_engine (m : Arrival) (s : State) :
    (settleSetupLines m s).2.engine = s.engine := by
  unfold settleSetupLines; simp only [refuse]
  try dsimp only
  (repeat' split) <;> (try simp) <;> (repeat' split) <;> simp

@[simp] theorem startInputs_engine (c : Chan) (s : State) :
    (startInputs c s).engine = s.engine := by
  unfold startInputs
  try dsimp only
  (repeat' split) <;> (try simp) <;> (repeat' split) <;> simp

@[simp] theorem enlistChannel_engine (c : Chan) (s : State) :
    (enlistChannel c s).engine = s.engine := by
  unfold enlistChannel
  try dsimp only
  (repeat' split) <;> (try simp) <;> (repeat' split) <;> simp

@[simp] theorem settleEnlist_engine (m : Arrival) (s : State) :
    (settleEnlist m s).2.engine = s.engine := by
  unfold settleEnlist; simp only [refuse]
  try dsimp only
  (repeat' split) <;> (try simp) <;> (repeat' split) <;> simp

@[simp] theorem stopPulses_engine (c : Chan) (s : State) :
    (stopPulses c s).engine = s.engine := by
  unfold stopPulses
  try dsimp only
  (repeat' split) <;> (try simp) <;> (repeat' split) <;> simp

@[simp] theorem enterSafe_engine (t : Nat) (s : State) :
    (enterSafe t s).engine = s.engine := by
  unfold enterSafe
  try dsimp only
  (repeat' split) <;> (try simp) <;> (repeat' split) <;> simp

@[simp] theorem settleDismiss_engine (m : Arrival) (s : State) :
    (settleDismiss m s).2.engine = s.engine := by
  unfold settleDismiss; simp only [refuse]
  try dsimp only
  (repeat' split) <;> (try simp) <;> (repeat' split) <;> simp

@[simp] theorem answerWith_engine (m : Arrival) (body : AnswerBody) (s : State) :
    (answerWith m body s).2.engine = s.engine := by
  unfold answerWith; simp only [refuse]
  try dsimp only
  (repeat' split) <;> (try simp) <;> (repeat' split) <;> simp

@[simp] theorem plainQuery_engine (body : State → AnswerBody) (m : Arrival) (s : State) :
    (plainQuery body m s).2.engine = s.engine := by
  unfold plainQuery; simp only [refuse]
  try dsimp only
  (repeat' split) <;> (try simp) <;> (repeat' split) <;> simp

@[simp] theorem settleQueryRing_engine (m : Arrival) (s : State) :
    (settleQueryRing m s).2.engine = s.engine := by
  unfold settleQueryRing; simp only [refuse]
  try dsimp only
  (repeat' split) <;> (try simp) <;> (repeat' split) <;> simp

@[simp] theorem settleQueryCheckpoints_engine (m : Arrival) (s : State) :
    (settleQueryCheckpoints m s).2.engine = s.engine := by
  unfold settleQueryCheckpoints; simp only [refuse]
  try dsimp only
  (repeat' split) <;> (try simp) <;> (repeat' split) <;> simp

@[simp] theorem settleQueryRoster_engine (m : Arrival) (s : State) :
    (settleQueryRoster m s).2.engine = s.engine := by
  unfold settleQueryRoster; simp only [refuse]
  try dsimp only
  (repeat' split) <;> (try simp) <;> (repeat' split) <;> simp

@[simp] theorem State.withPins_engine (s : State) (pins : Pins) :
    (State.withPins s pins).engine = s.engine := by
  unfold State.withPins
  try dsimp only
  (repeat' split) <;> (try simp) <;> (repeat' split) <;> simp

@[simp] theorem clearOverrun_engine (s : State) :
    (clearOverrun s).engine = s.engine := by
  unfold clearOverrun
  try dsimp only
  (repeat' split) <;> (try simp) <;> (repeat' split) <;> simp

@[simp] theorem settleQuerySampler_engine (m : Arrival) (s : State) :
    (settleQuerySampler m s).2.engine = s.engine := by
  unfold settleQuerySampler
  try dsimp only
  (repeat' split) <;> (try simp) <;> (repeat' split) <;> simp

@[simp] theorem fetchEntries_engine (m : Arrival) (n : Nat) (s : State) :
    (fetchEntries m n s).engine = s.engine := by
  unfold fetchEntries
  try dsimp only
  (repeat' split) <;> (try simp) <;> (repeat' split) <;> simp

@[simp] theorem settleFetch_engine (m : Arrival) (s : State) :
    (settleFetch m s).2.engine = s.engine := by
  unfold settleFetch; simp only [refuse]
  try dsimp only
  (repeat' split) <;> (try simp) <;> (repeat' split) <;> simp

@[simp] theorem settleSample_engine (m : Arrival) (s : State) :
    (settleSample m s).2.engine = s.engine := by
  unfold settleSample; simp only [refuse]
  try dsimp only
  (repeat' split) <;> (try simp) <;> (repeat' split) <;> simp

@[simp] theorem endWake_engine (t : Nat) (s : State) :
    (endWake t s).engine = s.engine := by
  unfold endWake
  try dsimp only
  (repeat' split) <;> (try simp) <;> (repeat' split) <;> simp

@[simp] theorem writeConversion_engine (v : Conversion) (result : Nat) (s : State) :
    (writeConversion v result s).engine = s.engine := by
  unfold writeConversion
  try dsimp only
  (repeat' split) <;> (try simp) <;> (repeat' split) <;> simp

@[simp] theorem wireBreak_engine (n : Nat) (c : Chan) (s : State) :
    (wireBreak n c s).engine = s.engine := by
  unfold wireBreak
  try dsimp only
  (repeat' split) <;> (try simp) <;> (repeat' split) <;> simp

@[simp] theorem completeConversion_engine (v : Conversion) (result : Nat) (s : State) :
    (completeConversion v result s).engine = s.engine := by
  unfold completeConversion
  try dsimp only
  (repeat' split) <;> (try simp) <;> (repeat' split) <;> simp

end Sys2Proof.Machine
end

