-- ==== Sys2Proof/Laws/Frames.lean ====
section
/-! SUPPORT. What each operation leaves as it stands: clock, timer, port, roster, take record, hold record, cue board, sampler,
log, line map, the channels' setups. One lemma for each operation; those above it cite those below. -/

-- One thread: as one text the package would start more than the memory limit lets through.
set_option Elab.async false

set_option linter.all false

namespace Sys2Proof.Machine

@[simp] theorem State.setup_mk (s : State) (clock : Nat) (station : Nat) (subBeats : Nat) (timer : Timer) (port : Port) (roster : Roster) (take : Take) (holds : HoldRecord) (holdInput : Bool) (board : CueBoard) (sampler : Sampler) (log : CaptureLog) (lines : LineMap) (freeCount : Nat) (pending : List Instr) :
    State.setup (State.mk clock station subBeats timer port roster take holds holdInput s.channels board sampler log lines freeCount pending) = s.setup := rfl

@[simp] theorem State.setDrive_setup (s : State) (c : Chan) (d : Drive) : (s.setDrive c d).setup = s.setup := by
  funext e; simp

@[simp] theorem State.setEngine_setup (s : State) (c : Chan) (e : Engine) : (s.setEngine c e).setup = s.setup := by
  funext e; simp

@[simp] theorem State.atTime_setup (s : State) (t : Nat) : (s.atTime t).setup = s.setup := rfl

@[simp] theorem State.heard_setup (s : State) (t : Activity) : (s.heard t).setup = s.setup := rfl

@[simp] theorem State.withPins_setup (s : State) (t : Pins) : (s.withPins t).setup = s.setup := rfl

@[simp] theorem eachChannel_clock (f : Chan → State → State) (s : State) (h : ∀ c s, (f c s).clock = s.clock) :
    (eachChannel f s).clock = s.clock := eachChannel_same State.clock f h s

@[simp] theorem eachChannel_timer (f : Chan → State → State) (s : State) (h : ∀ c s, (f c s).timer = s.timer) :
    (eachChannel f s).timer = s.timer := eachChannel_same State.timer f h s

@[simp] theorem eachChannel_port (f : Chan → State → State) (s : State) (h : ∀ c s, (f c s).port = s.port) :
    (eachChannel f s).port = s.port := eachChannel_same State.port f h s

@[simp] theorem eachChannel_roster (f : Chan → State → State) (s : State) (h : ∀ c s, (f c s).roster = s.roster) :
    (eachChannel f s).roster = s.roster := eachChannel_same State.roster f h s

@[simp] theorem eachChannel_take (f : Chan → State → State) (s : State) (h : ∀ c s, (f c s).take = s.take) :
    (eachChannel f s).take = s.take := eachChannel_same State.take f h s

@[simp] theorem eachChannel_holds (f : Chan → State → State) (s : State) (h : ∀ c s, (f c s).holds = s.holds) :
    (eachChannel f s).holds = s.holds := eachChannel_same State.holds f h s

@[simp] theorem eachChannel_board (f : Chan → State → State) (s : State) (h : ∀ c s, (f c s).board = s.board) :
    (eachChannel f s).board = s.board := eachChannel_same State.board f h s

@[simp] theorem eachChannel_sampler (f : Chan → State → State) (s : State) (h : ∀ c s, (f c s).sampler = s.sampler) :
    (eachChannel f s).sampler = s.sampler := eachChannel_same State.sampler f h s

@[simp] theorem eachChannel_log (f : Chan → State → State) (s : State) (h : ∀ c s, (f c s).log = s.log) :
    (eachChannel f s).log = s.log := eachChannel_same State.log f h s

@[simp] theorem eachChannel_lines (f : Chan → State → State) (s : State) (h : ∀ c s, (f c s).lines = s.lines) :
    (eachChannel f s).lines = s.lines := eachChannel_same State.lines f h s

@[simp] theorem eachChannel_setup (f : Chan → State → State) (s : State) (h : ∀ c s, (f c s).setup = s.setup) :
    (eachChannel f s).setup = s.setup := eachChannel_same State.setup f h s

/-- What no element's turn changes, a fold leaves. -/
theorem foldl_same {α β : Type} (g : State → β) (f : State → α → State) (h : ∀ s x, g (f s x) = g s) (l : List α) (s : State) :
    g (l.foldl f s) = g s := by
  induction l generalizing s with
  | nil => rfl
  | cons x xs ih => rw [List.foldl_cons, ih, h]

@[simp] theorem addOutcome_frame (station seq : Nat) (r : Result) (s : State) :
    (addOutcome station seq r s).clock = s.clock ∧
      (addOutcome station seq r s).timer = s.timer ∧
      (addOutcome station seq r s).roster = s.roster ∧
      (addOutcome station seq r s).take = s.take ∧
      (addOutcome station seq r s).holds = s.holds ∧
      (addOutcome station seq r s).board = s.board ∧
      (addOutcome station seq r s).sampler = s.sampler ∧
      (addOutcome station seq r s).log = s.log ∧
      (addOutcome station seq r s).lines = s.lines ∧
      (addOutcome station seq r s).setup = s.setup := by
  refine ⟨?_, ?_, ?_, ?_, ?_, ?_, ?_, ?_, ?_, ?_⟩ <;>
    first | (unfold addOutcome; (try dsimp only); (repeat' split) <;> (try simp) <;> (repeat' split) <;> simp) | (unfold addOutcome; dsimp only; done) | rfl

@[simp] theorem takePlace_setup (station seq : Nat) (body : Option AnswerBody) (s : State) : (takePlace station seq body s).setup = s.setup := rfl

@[simp] theorem raiseCause_frame (cause : Cause) (concerned : Option Nat) (kind : Option FaultKind) (s : State) :
    (raiseCause cause concerned kind s).clock = s.clock ∧
      (raiseCause cause concerned kind s).timer = s.timer ∧
      (raiseCause cause concerned kind s).port = s.port ∧
      (raiseCause cause concerned kind s).roster = s.roster ∧
      (raiseCause cause concerned kind s).take = s.take ∧
      (raiseCause cause concerned kind s).board = s.board ∧
      (raiseCause cause concerned kind s).sampler = s.sampler ∧
      (raiseCause cause concerned kind s).log = s.log ∧
      (raiseCause cause concerned kind s).lines = s.lines ∧
      (raiseCause cause concerned kind s).setup = s.setup := by
  refine ⟨?_, ?_, ?_, ?_, ?_, ?_, ?_, ?_, ?_, ?_⟩ <;>
    first | (unfold raiseCause; (try dsimp only); (repeat' split) <;> (try simp) <;> (repeat' split) <;> simp) | (unfold raiseCause; dsimp only; done) | rfl

@[simp] theorem samplerSettle_frame (s : State) :
    (samplerSettle s).clock = s.clock ∧
      (samplerSettle s).timer = s.timer ∧
      (samplerSettle s).port = s.port ∧
      (samplerSettle s).roster = s.roster ∧
      (samplerSettle s).take = s.take ∧
      (samplerSettle s).holds = s.holds ∧
      (samplerSettle s).board = s.board ∧
      (samplerSettle s).log = s.log ∧
      (samplerSettle s).lines = s.lines ∧
      (samplerSettle s).setup = s.setup := by
  refine ⟨?_, ?_, ?_, ?_, ?_, ?_, ?_, ?_, ?_, ?_⟩ <;>
    first | (unfold samplerSettle; (try dsimp only); (repeat' split) <;> (try simp) <;> (repeat' split) <;> simp) | (unfold samplerSettle; dsimp only; done) | rfl

@[simp] theorem samplerBegin_frame (t : Nat) (s : State) :
    (samplerBegin t s).clock = s.clock ∧
      (samplerBegin t s).timer = s.timer ∧
      (samplerBegin t s).port = s.port ∧
      (samplerBegin t s).roster = s.roster ∧
      (samplerBegin t s).take = s.take ∧
      (samplerBegin t s).holds = s.holds ∧
      (samplerBegin t s).board = s.board ∧
      (samplerBegin t s).log = s.log ∧
      (samplerBegin t s).lines = s.lines ∧
      (samplerBegin t s).setup = s.setup := by
  refine ⟨?_, ?_, ?_, ?_, ?_, ?_, ?_, ?_, ?_, ?_⟩ <;>
    first | (unfold samplerBegin; (try dsimp only); (repeat' split) <;> (try simp) <;> (repeat' split) <;> simp) | (unfold samplerBegin; dsimp only; done) | rfl

@[simp] theorem samplerTrigger_frame (t : Nat) (s : State) :
    (samplerTrigger t s).clock = s.clock ∧
      (samplerTrigger t s).timer = s.timer ∧
      (samplerTrigger t s).port = s.port ∧
      (samplerTrigger t s).roster = s.roster ∧
      (samplerTrigger t s).take = s.take ∧
      (samplerTrigger t s).holds = s.holds ∧
      (samplerTrigger t s).board = s.board ∧
      (samplerTrigger t s).log = s.log ∧
      (samplerTrigger t s).lines = s.lines ∧
      (samplerTrigger t s).setup = s.setup := by
  refine ⟨?_, ?_, ?_, ?_, ?_, ?_, ?_, ?_, ?_, ?_⟩ <;>
    first | (unfold samplerTrigger; (try dsimp only); (repeat' split) <;> (try simp) <;> (repeat' split) <;> simp) | (unfold samplerTrigger; dsimp only; done) | rfl

@[simp] theorem samplerAccept_frame (n station seq t : Nat) (s : State) :
    (samplerAccept n station seq t s).clock = s.clock ∧
      (samplerAccept n station seq t s).timer = s.timer ∧
      (samplerAccept n station seq t s).roster = s.roster ∧
      (samplerAccept n station seq t s).take = s.take ∧
      (samplerAccept n station seq t s).holds = s.holds ∧
      (samplerAccept n station seq t s).board = s.board ∧
      (samplerAccept n station seq t s).log = s.log ∧
      (samplerAccept n station seq t s).lines = s.lines ∧
      (samplerAccept n station seq t s).setup = s.setup := by
  refine ⟨?_, ?_, ?_, ?_, ?_, ?_, ?_, ?_, ?_⟩ <;>
    first | (unfold samplerAccept; (try dsimp only); (repeat' split) <;> (try simp) <;> (repeat' split) <;> simp) | (unfold samplerAccept; dsimp only; done) | rfl

@[simp] theorem samplerSafeStop_frame (t : Nat) (s : State) :
    (samplerSafeStop t s).clock = s.clock ∧
      (samplerSafeStop t s).timer = s.timer ∧
      (samplerSafeStop t s).roster = s.roster ∧
      (samplerSafeStop t s).take = s.take ∧
      (samplerSafeStop t s).holds = s.holds ∧
      (samplerSafeStop t s).board = s.board ∧
      (samplerSafeStop t s).log = s.log ∧
      (samplerSafeStop t s).lines = s.lines ∧
      (samplerSafeStop t s).setup = s.setup := by
  refine ⟨?_, ?_, ?_, ?_, ?_, ?_, ?_, ?_, ?_⟩ <;>
    first | (unfold samplerSafeStop; (try dsimp only); (repeat' split) <;> (try simp) <;> (repeat' split) <;> simp) | (unfold samplerSafeStop; dsimp only; done) | rfl

@[simp] theorem parkTakeChannels_frame (s : State) :
    (parkTakeChannels s).clock = s.clock ∧
      (parkTakeChannels s).timer = s.timer ∧
      (parkTakeChannels s).port = s.port ∧
      (parkTakeChannels s).roster = s.roster ∧
      (parkTakeChannels s).take = s.take ∧
      (parkTakeChannels s).holds = s.holds ∧
      (parkTakeChannels s).board = s.board ∧
      (parkTakeChannels s).sampler = s.sampler ∧
      (parkTakeChannels s).log = s.log ∧
      (parkTakeChannels s).lines = s.lines ∧
      (parkTakeChannels s).setup = s.setup := by
  refine ⟨?_, ?_, ?_, ?_, ?_, ?_, ?_, ?_, ?_, ?_, ?_⟩ <;>
    (unfold parkTakeChannels; (try dsimp only); (repeat' split) <;> (try simp) <;> refine eachChannel_same _ _ (fun c s => ?_) _ <;> (repeat' split) <;> simp)

@[simp] theorem clearSources_frame (s : State) :
    (clearSources s).clock = s.clock ∧
      (clearSources s).timer = s.timer ∧
      (clearSources s).port = s.port ∧
      (clearSources s).roster = s.roster ∧
      (clearSources s).take = s.take ∧
      (clearSources s).holds = s.holds ∧
      (clearSources s).board = s.board ∧
      (clearSources s).sampler = s.sampler ∧
      (clearSources s).log = s.log ∧
      (clearSources s).lines = s.lines ∧
      (clearSources s).setup = s.setup := by
  refine ⟨?_, ?_, ?_, ?_, ?_, ?_, ?_, ?_, ?_, ?_, ?_⟩ <;>
    (unfold clearSources; (try dsimp only); (repeat' split) <;> (try simp) <;> refine eachChannel_same _ _ (fun c s => ?_) _ <;> (repeat' split) <;> simp)

@[simp] theorem leaveTake_frame (s : State) :
    (leaveTake s).clock = s.clock ∧
      (leaveTake s).timer = s.timer ∧
      (leaveTake s).port = s.port ∧
      (leaveTake s).roster = s.roster ∧
      (leaveTake s).holds = s.holds ∧
      (leaveTake s).board = s.board ∧
      (leaveTake s).sampler = s.sampler ∧
      (leaveTake s).log = s.log ∧
      (leaveTake s).lines = s.lines ∧
      (leaveTake s).setup = s.setup := by
  refine ⟨?_, ?_, ?_, ?_, ?_, ?_, ?_, ?_, ?_, ?_⟩ <;>
    first | (unfold leaveTake; (try dsimp only); (repeat' split) <;> (try simp) <;> (repeat' split) <;> simp) | (unfold leaveTake; dsimp only; done) | rfl

@[simp] theorem endUnwinding_frame (a : ArmFlight) (s : State) :
    (endUnwinding a s).clock = s.clock ∧
      (endUnwinding a s).timer = s.timer ∧
      (endUnwinding a s).port = s.port ∧
      (endUnwinding a s).roster = s.roster ∧
      (endUnwinding a s).holds = s.holds ∧
      (endUnwinding a s).board = s.board ∧
      (endUnwinding a s).sampler = s.sampler ∧
      (endUnwinding a s).log = s.log ∧
      (endUnwinding a s).lines = s.lines ∧
      (endUnwinding a s).setup = s.setup := by
  refine ⟨?_, ?_, ?_, ?_, ?_, ?_, ?_, ?_, ?_, ?_⟩ <;>
    first | (unfold endUnwinding; (try dsimp only); (repeat' split) <;> (try simp) <;> (repeat' split) <;> simp) | (unfold endUnwinding; dsimp only; done) | rfl

@[simp] theorem checkRest_frame (s : State) :
    (checkRest s).clock = s.clock ∧
      (checkRest s).timer = s.timer ∧
      (checkRest s).port = s.port ∧
      (checkRest s).roster = s.roster ∧
      (checkRest s).holds = s.holds ∧
      (checkRest s).board = s.board ∧
      (checkRest s).sampler = s.sampler ∧
      (checkRest s).log = s.log ∧
      (checkRest s).lines = s.lines ∧
      (checkRest s).setup = s.setup := by
  refine ⟨?_, ?_, ?_, ?_, ?_, ?_, ?_, ?_, ?_, ?_⟩ <;>
    first | (unfold checkRest; (try dsimp only); (repeat' split) <;> (try simp) <;> (repeat' split) <;> simp) | (unfold checkRest; dsimp only; done) | rfl

@[simp] theorem checkFinished_frame (s : State) :
    (checkFinished s).clock = s.clock ∧
      (checkFinished s).timer = s.timer ∧
      (checkFinished s).port = s.port ∧
      (checkFinished s).roster = s.roster ∧
      (checkFinished s).holds = s.holds ∧
      (checkFinished s).board = s.board ∧
      (checkFinished s).sampler = s.sampler ∧
      (checkFinished s).log = s.log ∧
      (checkFinished s).lines = s.lines ∧
      (checkFinished s).setup = s.setup := by
  refine ⟨?_, ?_, ?_, ?_, ?_, ?_, ?_, ?_, ?_, ?_⟩ <;>
    first | (unfold checkFinished; (try dsimp only); (repeat' split) <;> (try simp) <;> (repeat' split) <;> simp) | (unfold checkFinished; dsimp only; done) | rfl

@[simp] theorem checkArmed_frame (s : State) :
    (checkArmed s).clock = s.clock ∧
      (checkArmed s).timer = s.timer ∧
      (checkArmed s).roster = s.roster ∧
      (checkArmed s).holds = s.holds ∧
      (checkArmed s).board = s.board ∧
      (checkArmed s).sampler = s.sampler ∧
      (checkArmed s).log = s.log ∧
      (checkArmed s).lines = s.lines ∧
      (checkArmed s).setup = s.setup := by
  refine ⟨?_, ?_, ?_, ?_, ?_, ?_, ?_, ?_, ?_⟩ <;>
    first | (unfold checkArmed; (try dsimp only); (repeat' split) <;> (try simp) <;> (repeat' split) <;> simp) | (unfold checkArmed; dsimp only; done) | rfl

@[simp] theorem hardFault_frame (c : Chan) (k : FaultKind) (s : State) :
    (hardFault c k s).clock = s.clock ∧
      (hardFault c k s).timer = s.timer ∧
      (hardFault c k s).port = s.port ∧
      (hardFault c k s).roster = s.roster ∧
      (hardFault c k s).board = s.board ∧
      (hardFault c k s).log = s.log ∧
      (hardFault c k s).lines = s.lines ∧
      (hardFault c k s).setup = s.setup := by
  refine ⟨?_, ?_, ?_, ?_, ?_, ?_, ?_, ?_⟩ <;>
    first | (unfold hardFault; (try dsimp only); (repeat' split) <;> (try simp) <;> (repeat' split) <;> simp) | (unfold hardFault; dsimp only; done) | rfl

@[simp] theorem softFault_frame (c : Chan) (k : FaultKind) (s : State) :
    (softFault c k s).clock = s.clock ∧
      (softFault c k s).timer = s.timer ∧
      (softFault c k s).port = s.port ∧
      (softFault c k s).roster = s.roster ∧
      (softFault c k s).board = s.board ∧
      (softFault c k s).sampler = s.sampler ∧
      (softFault c k s).log = s.log ∧
      (softFault c k s).lines = s.lines ∧
      (softFault c k s).setup = s.setup := by
  refine ⟨?_, ?_, ?_, ?_, ?_, ?_, ?_, ?_, ?_⟩ <;>
    first | (unfold softFault; (try dsimp only); (repeat' split) <;> (try simp) <;> (repeat' split) <;> simp) | (unfold softFault; dsimp only; done) | rfl

@[simp] theorem energize_frame (c : Chan) (st : ChanState) (s : State) :
    (energize c st s).clock = s.clock ∧
      (energize c st s).timer = s.timer ∧
      (energize c st s).port = s.port ∧
      (energize c st s).roster = s.roster ∧
      (energize c st s).take = s.take ∧
      (energize c st s).holds = s.holds ∧
      (energize c st s).board = s.board ∧
      (energize c st s).sampler = s.sampler ∧
      (energize c st s).log = s.log ∧
      (energize c st s).lines = s.lines ∧
      (energize c st s).setup = s.setup := by
  refine ⟨?_, ?_, ?_, ?_, ?_, ?_, ?_, ?_, ?_, ?_, ?_⟩ <;>
    first | (unfold energize; (try dsimp only); (repeat' split) <;> (try simp) <;> (repeat' split) <;> simp) | (unfold energize; dsimp only; done) | rfl

@[simp] theorem State.putPlay_frame (s : State) (c : Chan) (x : PlayState) :
    (State.putPlay s c x).clock = s.clock ∧
      (State.putPlay s c x).timer = s.timer ∧
      (State.putPlay s c x).roster = s.roster ∧
      (State.putPlay s c x).take = s.take ∧
      (State.putPlay s c x).holds = s.holds ∧
      (State.putPlay s c x).sampler = s.sampler ∧
      (State.putPlay s c x).log = s.log ∧
      (State.putPlay s c x).lines = s.lines ∧
      (State.putPlay s c x).setup = s.setup := by
  refine ⟨?_, ?_, ?_, ?_, ?_, ?_, ?_, ?_, ?_⟩ <;>
    first | (unfold State.putPlay; (try dsimp only); (repeat' split) <;> (try simp) <;> (repeat' split) <;> simp) | (unfold State.putPlay; dsimp only; done) | rfl

@[simp] theorem becomeDone_frame (c : Chan) (s : State) :
    (becomeDone c s).clock = s.clock ∧
      (becomeDone c s).timer = s.timer ∧
      (becomeDone c s).port = s.port ∧
      (becomeDone c s).roster = s.roster ∧
      (becomeDone c s).holds = s.holds ∧
      (becomeDone c s).board = s.board ∧
      (becomeDone c s).sampler = s.sampler ∧
      (becomeDone c s).log = s.log ∧
      (becomeDone c s).lines = s.lines ∧
      (becomeDone c s).setup = s.setup := by
  refine ⟨?_, ?_, ?_, ?_, ?_, ?_, ?_, ?_, ?_, ?_⟩ <;>
    first | (unfold becomeDone; (try dsimp only); (repeat' split) <;> (try simp) <;> (repeat' split) <;> simp) | (unfold becomeDone; dsimp only; done) | rfl

@[simp] theorem endPlay_frame (c : Chan) (e : PlayEnd) (s : State) :
    (endPlay c e s).clock = s.clock ∧
      (endPlay c e s).timer = s.timer ∧
      (endPlay c e s).port = s.port ∧
      (endPlay c e s).roster = s.roster ∧
      (endPlay c e s).board = s.board ∧
      (endPlay c e s).sampler = s.sampler ∧
      (endPlay c e s).log = s.log ∧
      (endPlay c e s).lines = s.lines ∧
      (endPlay c e s).setup = s.setup := by
  refine ⟨?_, ?_, ?_, ?_, ?_, ?_, ?_, ?_, ?_⟩ <;>
    first | (unfold endPlay; (try dsimp only); (repeat' split) <;> (try simp) <;> (repeat' split) <;> simp) | (unfold endPlay; dsimp only; done) | rfl

@[simp] theorem takeOne_frame (c : Chan) (s : State) :
    (takeOne c s).clock = s.clock ∧
      (takeOne c s).timer = s.timer ∧
      (takeOne c s).roster = s.roster ∧
      (takeOne c s).sampler = s.sampler ∧
      (takeOne c s).log = s.log ∧
      (takeOne c s).lines = s.lines ∧
      (takeOne c s).setup = s.setup := by
  refine ⟨?_, ?_, ?_, ?_, ?_, ?_, ?_⟩ <;>
    first | (unfold takeOne; (try dsimp only); (repeat' split) <;> (try simp) <;> (repeat' split) <;> simp) | (unfold takeOne; dsimp only; done) | rfl

@[simp] theorem completeAndGoOn_frame (c : Chan) (pos : Nat) (consumed : Option Nat) (s : State) :
    (completeAndGoOn c pos consumed s).clock = s.clock ∧
      (completeAndGoOn c pos consumed s).timer = s.timer ∧
      (completeAndGoOn c pos consumed s).roster = s.roster ∧
      (completeAndGoOn c pos consumed s).sampler = s.sampler ∧
      (completeAndGoOn c pos consumed s).log = s.log ∧
      (completeAndGoOn c pos consumed s).lines = s.lines ∧
      (completeAndGoOn c pos consumed s).setup = s.setup := by
  refine ⟨?_, ?_, ?_, ?_, ?_, ?_, ?_⟩ <;>
    first | (unfold completeAndGoOn; (try dsimp only); (repeat' split) <;> (try simp) <;> (repeat' split) <;> simp) | (unfold completeAndGoOn; dsimp only; done) | rfl

@[simp] theorem issueSetPoint_frame (c : Chan) (t : Nat) (x : Int) (s : State) :
    (issueSetPoint c t x s).clock = s.clock ∧
      (issueSetPoint c t x s).timer = s.timer ∧
      (issueSetPoint c t x s).port = s.port ∧
      (issueSetPoint c t x s).roster = s.roster ∧
      (issueSetPoint c t x s).board = s.board ∧
      (issueSetPoint c t x s).log = s.log ∧
      (issueSetPoint c t x s).lines = s.lines ∧
      (issueSetPoint c t x s).setup = s.setup := by
  refine ⟨?_, ?_, ?_, ?_, ?_, ?_, ?_, ?_⟩ <;>
    first | (unfold issueSetPoint; (try dsimp only); (repeat' split) <;> (try simp) <;> (repeat' split) <;> simp) | (unfold issueSetPoint; dsimp only; done) | rfl

@[simp] theorem holdStill_frame (c : Chan) (t : Nat) (s : State) :
    (holdStill c t s).clock = s.clock ∧
      (holdStill c t s).timer = s.timer ∧
      (holdStill c t s).port = s.port ∧
      (holdStill c t s).roster = s.roster ∧
      (holdStill c t s).board = s.board ∧
      (holdStill c t s).log = s.log ∧
      (holdStill c t s).lines = s.lines ∧
      (holdStill c t s).setup = s.setup := by
  refine ⟨?_, ?_, ?_, ?_, ?_, ?_, ?_, ?_⟩ <;>
    first | (unfold holdStill; (try dsimp only); (repeat' split) <;> (try simp) <;> (repeat' split) <;> simp) | (unfold holdStill; dsimp only; done) | rfl

@[simp] theorem faultOnFollow_frame (c : Chan) (s : State) :
    (faultOnFollow c s).clock = s.clock ∧
      (faultOnFollow c s).timer = s.timer ∧
      (faultOnFollow c s).port = s.port ∧
      (faultOnFollow c s).roster = s.roster ∧
      (faultOnFollow c s).board = s.board ∧
      (faultOnFollow c s).log = s.log ∧
      (faultOnFollow c s).lines = s.lines ∧
      (faultOnFollow c s).setup = s.setup := by
  refine ⟨?_, ?_, ?_, ?_, ?_, ?_, ?_, ?_⟩ <;>
    first | (unfold faultOnFollow; (try dsimp only); (repeat' split) <;> (try simp) <;> (repeat' split) <;> simp) | (unfold faultOnFollow; dsimp only; done) | rfl

@[simp] theorem monitor_frame (c : Chan) (s : State) :
    (monitor c s).clock = s.clock ∧
      (monitor c s).timer = s.timer ∧
      (monitor c s).port = s.port ∧
      (monitor c s).roster = s.roster ∧
      (monitor c s).board = s.board ∧
      (monitor c s).log = s.log ∧
      (monitor c s).lines = s.lines ∧
      (monitor c s).setup = s.setup := by
  refine ⟨?_, ?_, ?_, ?_, ?_, ?_, ?_, ?_⟩ <;>
    first | (unfold monitor; (try dsimp only); (repeat' split) <;> (try simp) <;> (repeat' split) <;> simp) | (unfold monitor; dsimp only; done) | rfl

@[simp] theorem becomeReady_frame (c : Chan) (s : State) :
    (becomeReady c s).clock = s.clock ∧
      (becomeReady c s).timer = s.timer ∧
      (becomeReady c s).port = s.port ∧
      (becomeReady c s).roster = s.roster ∧
      (becomeReady c s).take = s.take ∧
      (becomeReady c s).holds = s.holds ∧
      (becomeReady c s).board = s.board ∧
      (becomeReady c s).sampler = s.sampler ∧
      (becomeReady c s).log = s.log ∧
      (becomeReady c s).lines = s.lines ∧
      (becomeReady c s).setup = s.setup := by
  refine ⟨?_, ?_, ?_, ?_, ?_, ?_, ?_, ?_, ?_, ?_, ?_⟩ <;>
    first | (unfold becomeReady; (try dsimp only); (repeat' split) <;> (try simp) <;> (repeat' split) <;> simp) | (unfold becomeReady; dsimp only; done) | rfl

@[simp] theorem seekStep_frame (c : Chan) (t : Nat) (k : Seek) (s : State) :
    (seekStep c t k s).clock = s.clock ∧
      (seekStep c t k s).timer = s.timer ∧
      (seekStep c t k s).roster = s.roster ∧
      (seekStep c t k s).board = s.board ∧
      (seekStep c t k s).log = s.log ∧
      (seekStep c t k s).lines = s.lines ∧
      (seekStep c t k s).setup = s.setup := by
  refine ⟨?_, ?_, ?_, ?_, ?_, ?_, ?_⟩ <;>
    first | (unfold seekStep; (try dsimp only); (repeat' split) <;> (try simp) <;> (repeat' split) <;> simp) | (unfold seekStep; dsimp only; done) | rfl

@[simp] theorem finishStop_frame (c : Chan) (s : State) :
    (finishStop c s).clock = s.clock ∧
      (finishStop c s).timer = s.timer ∧
      (finishStop c s).port = s.port ∧
      (finishStop c s).roster = s.roster ∧
      (finishStop c s).holds = s.holds ∧
      (finishStop c s).board = s.board ∧
      (finishStop c s).sampler = s.sampler ∧
      (finishStop c s).log = s.log ∧
      (finishStop c s).lines = s.lines ∧
      (finishStop c s).setup = s.setup := by
  refine ⟨?_, ?_, ?_, ?_, ?_, ?_, ?_, ?_, ?_, ?_⟩ <;>
    first | (unfold finishStop; (try dsimp only); (repeat' split) <;> (try simp) <;> (repeat' split) <;> simp) | (unfold finishStop; dsimp only; done) | rfl

@[simp] theorem stopStep_frame (c : Chan) (t : Nat) (k : Stop) (s : State) :
    (stopStep c t k s).clock = s.clock ∧
      (stopStep c t k s).timer = s.timer ∧
      (stopStep c t k s).port = s.port ∧
      (stopStep c t k s).roster = s.roster ∧
      (stopStep c t k s).board = s.board ∧
      (stopStep c t k s).log = s.log ∧
      (stopStep c t k s).lines = s.lines ∧
      (stopStep c t k s).setup = s.setup := by
  refine ⟨?_, ?_, ?_, ?_, ?_, ?_, ?_, ?_⟩ <;>
    first | (unfold stopStep; (try dsimp only); (repeat' split) <;> (try simp) <;> (repeat' split) <;> simp) | (unfold stopStep; dsimp only; done) | rfl

@[simp] theorem playSetPoint_frame (c : Chan) (now t : Nat) (x : Int) (s : State) :
    (playSetPoint c now t x s).clock = s.clock ∧
      (playSetPoint c now t x s).timer = s.timer ∧
      (playSetPoint c now t x s).port = s.port ∧
      (playSetPoint c now t x s).roster = s.roster ∧
      (playSetPoint c now t x s).board = s.board ∧
      (playSetPoint c now t x s).log = s.log ∧
      (playSetPoint c now t x s).lines = s.lines ∧
      (playSetPoint c now t x s).setup = s.setup := by
  refine ⟨?_, ?_, ?_, ?_, ?_, ?_, ?_, ?_⟩ <;>
    first | (unfold playSetPoint; (try dsimp only); (repeat' split) <;> (try simp) <;> (repeat' split) <;> simp) | (unfold playSetPoint; dsimp only; done) | rfl

@[simp] theorem playFault_frame (c : Chan) (now t : Nat) (k : FaultKind) (x : Int) (s : State) :
    (playFault c now t k x s).clock = s.clock ∧
      (playFault c now t k x s).timer = s.timer ∧
      (playFault c now t k x s).port = s.port ∧
      (playFault c now t k x s).roster = s.roster ∧
      (playFault c now t k x s).board = s.board ∧
      (playFault c now t k x s).log = s.log ∧
      (playFault c now t k x s).lines = s.lines ∧
      (playFault c now t k x s).setup = s.setup := by
  refine ⟨?_, ?_, ?_, ?_, ?_, ?_, ?_, ?_⟩ <;>
    first | (unfold playFault; (try dsimp only); (repeat' split) <;> (try simp) <;> (repeat' split) <;> simp) | (unfold playFault; dsimp only; done) | rfl

@[simp] theorem playPath_frame (c : Chan) (now t : Nat) (first : Bool) (s : State) :
    (playPath c now t first s).clock = s.clock ∧
      (playPath c now t first s).timer = s.timer ∧
      (playPath c now t first s).roster = s.roster ∧
      (playPath c now t first s).log = s.log ∧
      (playPath c now t first s).lines = s.lines ∧
      (playPath c now t first s).setup = s.setup := by
  refine ⟨?_, ?_, ?_, ?_, ?_, ?_⟩ <;>
    first | (unfold playPath; (try dsimp only); (repeat' split) <;> (try simp) <;> (repeat' split) <;> simp) | (unfold playPath; dsimp only; done) | rfl

@[simp] theorem playBeat_frame (c : Chan) (now t k : Nat) (first : Bool) (s : State) :
    (playBeat c now t k first s).clock = s.clock ∧
      (playBeat c now t k first s).timer = s.timer ∧
      (playBeat c now t k first s).roster = s.roster ∧
      (playBeat c now t k first s).log = s.log ∧
      (playBeat c now t k first s).lines = s.lines ∧
      (playBeat c now t k first s).setup = s.setup := by
  refine ⟨?_, ?_, ?_, ?_, ?_, ?_⟩ <;>
    first | (unfold playBeat; (try dsimp only); (repeat' split) <;> (try simp) <;> (repeat' split) <;> simp) | (unfold playBeat; dsimp only; done) | rfl

@[simp] theorem stateBeat_frame (c : Chan) (now : Nat) (t : Option Nat) (k : Nat) (first : Bool) (s : State) :
    (stateBeat c now t k first s).clock = s.clock ∧
      (stateBeat c now t k first s).timer = s.timer ∧
      (stateBeat c now t k first s).roster = s.roster ∧
      (stateBeat c now t k first s).log = s.log ∧
      (stateBeat c now t k first s).lines = s.lines ∧
      (stateBeat c now t k first s).setup = s.setup := by
  refine ⟨?_, ?_, ?_, ?_, ?_, ?_⟩ <;>
    first | (unfold stateBeat; (try dsimp only); (repeat' split) <;> (try simp) <;> (repeat' split) <;> simp) | (unfold stateBeat; dsimp only; done) | rfl

@[simp] theorem driveBeat_frame (now : Nat) (t : Option Nat) (k : Nat) (first : Bool) (c : Chan) (s : State) :
    (driveBeat now t k first c s).clock = s.clock ∧
      (driveBeat now t k first c s).timer = s.timer ∧
      (driveBeat now t k first c s).roster = s.roster ∧
      (driveBeat now t k first c s).log = s.log ∧
      (driveBeat now t k first c s).lines = s.lines ∧
      (driveBeat now t k first c s).setup = s.setup := by
  refine ⟨?_, ?_, ?_, ?_, ?_, ?_⟩ <;>
    first | (unfold driveBeat; (try dsimp only); (repeat' split) <;> (try simp) <;> (repeat' split) <;> simp) | (unfold driveBeat; dsimp only; done) | rfl

@[simp] theorem driveFreeBeat_frame (now : Nat) (c : Chan) (s : State) :
    (driveFreeBeat now c s).clock = s.clock ∧
      (driveFreeBeat now c s).timer = s.timer ∧
      (driveFreeBeat now c s).roster = s.roster ∧
      (driveFreeBeat now c s).log = s.log ∧
      (driveFreeBeat now c s).lines = s.lines ∧
      (driveFreeBeat now c s).setup = s.setup := by
  refine ⟨?_, ?_, ?_, ?_, ?_, ?_⟩ <;>
    first | (unfold driveFreeBeat; (try dsimp only); (repeat' split) <;> (try simp) <;> (repeat' split) <;> simp) | (unfold driveFreeBeat; dsimp only; done) | rfl

@[simp] theorem latchPending_setup (g : Nat) (s : State) : (latchPending g s).setup = s.setup := rfl

@[simp] theorem consumeCues_setup (s : State) : (consumeCues s).setup = s.setup := rfl

@[simp] theorem clearBoard_setup (s : State) : (clearBoard s).setup = s.setup := rfl

@[simp] theorem pendCues_setup (cues : List Nat) (s : State) : (pendCues cues s).setup = s.setup := rfl

@[simp] theorem noteTakeSubBeat_frame (t : Option Nat) (s : State) :
    (noteTakeSubBeat t s).clock = s.clock ∧
      (noteTakeSubBeat t s).timer = s.timer ∧
      (noteTakeSubBeat t s).port = s.port ∧
      (noteTakeSubBeat t s).roster = s.roster ∧
      (noteTakeSubBeat t s).holds = s.holds ∧
      (noteTakeSubBeat t s).board = s.board ∧
      (noteTakeSubBeat t s).sampler = s.sampler ∧
      (noteTakeSubBeat t s).log = s.log ∧
      (noteTakeSubBeat t s).lines = s.lines ∧
      (noteTakeSubBeat t s).setup = s.setup := by
  refine ⟨?_, ?_, ?_, ?_, ?_, ?_, ?_, ?_, ?_, ?_⟩ <;>
    first | (unfold noteTakeSubBeat; (try dsimp only); (repeat' split) <;> (try simp) <;> (repeat' split) <;> simp) | (unfold noteTakeSubBeat; dsimp only; done) | rfl

@[simp] theorem issueBeat_frame (e k : Nat) (t : Option Nat) (first : Bool) (s : State) :
    (issueBeat e k t first s).clock = s.clock ∧
      (issueBeat e k t first s).roster = s.roster ∧
      (issueBeat e k t first s).log = s.log ∧
      (issueBeat e k t first s).lines = s.lines ∧
      (issueBeat e k t first s).setup = s.setup := by
  refine ⟨?_, ?_, ?_, ?_, ?_⟩ <;>
    first | (unfold issueBeat; (try dsimp only); (repeat' split) <;> (try simp) <;> (repeat' split) <;> simp) | (unfold issueBeat; dsimp only; done) | rfl

@[simp] theorem issueFreeBeat_frame (e : Nat) (s : State) :
    (issueFreeBeat e s).clock = s.clock ∧
      (issueFreeBeat e s).roster = s.roster ∧
      (issueFreeBeat e s).log = s.log ∧
      (issueFreeBeat e s).lines = s.lines ∧
      (issueFreeBeat e s).setup = s.setup := by
  refine ⟨?_, ?_, ?_, ?_, ?_⟩ <;>
    first | (unfold issueFreeBeat; (try dsimp only); (repeat' split) <;> (try simp) <;> (repeat' split) <;> simp) | (unfold issueFreeBeat; dsimp only; done) | rfl

@[simp] theorem catchUp_frame (e : Nat) (s : State) :
    (catchUp e s).clock = s.clock ∧
      (catchUp e s).roster = s.roster ∧
      (catchUp e s).log = s.log ∧
      (catchUp e s).lines = s.lines ∧
      (catchUp e s).setup = s.setup := by
  unfold catchUp
  split
  · exact ⟨foldl_same State.clock _ (fun s j => by simp) _ s, foldl_same State.roster _ (fun s j => by simp) _ s, foldl_same State.log _ (fun s j => by simp) _ s, foldl_same State.lines _ (fun s j => by simp) _ s, foldl_same State.setup _ (fun s j => by simp) _ s⟩
  · exact ⟨rfl, rfl, rfl, rfl, rfl⟩

@[simp] theorem capturePulse_frame (s : State) :
    (capturePulse s).clock = s.clock ∧
      (capturePulse s).timer = s.timer ∧
      (capturePulse s).port = s.port ∧
      (capturePulse s).roster = s.roster ∧
      (capturePulse s).take = s.take ∧
      (capturePulse s).holds = s.holds ∧
      (capturePulse s).board = s.board ∧
      (capturePulse s).sampler = s.sampler ∧
      (capturePulse s).lines = s.lines ∧
      (capturePulse s).setup = s.setup := by
  refine ⟨?_, ?_, ?_, ?_, ?_, ?_, ?_, ?_, ?_, ?_⟩ <;>
    (unfold capturePulse; (try dsimp only); (repeat' split) <;> (try simp) <;> refine eachChannel_same _ _ (fun c s => ?_) _ <;> (repeat' split) <;> simp)

@[simp] theorem rosterWrite_setup (r : Report) (s : State) : (rosterWrite r s).setup = s.setup := rfl

@[simp] theorem startRound_setup (s : State) : (startRound s).setup = s.setup := rfl

@[simp] theorem staleSummary_setup (s : State) : (staleSummary s).setup = s.setup := rfl

@[simp] theorem ageEntries_setup (s : State) : (ageEntries s).setup = s.setup := rfl

@[simp] theorem raiseAll_frame (cs : List (Cause × Option Nat)) (s : State) :
    (raiseAll cs s).clock = s.clock ∧
      (raiseAll cs s).timer = s.timer ∧
      (raiseAll cs s).port = s.port ∧
      (raiseAll cs s).roster = s.roster ∧
      (raiseAll cs s).take = s.take ∧
      (raiseAll cs s).board = s.board ∧
      (raiseAll cs s).sampler = s.sampler ∧
      (raiseAll cs s).log = s.log ∧
      (raiseAll cs s).lines = s.lines ∧
      (raiseAll cs s).setup = s.setup := by
  refine ⟨?_, ?_, ?_, ?_, ?_, ?_, ?_, ?_, ?_, ?_⟩ <;> exact foldl_same _ _ (fun s x => by simp) cs s

@[simp] theorem countLeaderDone_frame (c : Chan) (s : State) :
    (countLeaderDone c s).clock = s.clock ∧
      (countLeaderDone c s).timer = s.timer ∧
      (countLeaderDone c s).port = s.port ∧
      (countLeaderDone c s).roster = s.roster ∧
      (countLeaderDone c s).take = s.take ∧
      (countLeaderDone c s).holds = s.holds ∧
      (countLeaderDone c s).board = s.board ∧
      (countLeaderDone c s).sampler = s.sampler ∧
      (countLeaderDone c s).log = s.log ∧
      (countLeaderDone c s).lines = s.lines ∧
      (countLeaderDone c s).setup = s.setup := by
  refine ⟨?_, ?_, ?_, ?_, ?_, ?_, ?_, ?_, ?_, ?_, ?_⟩ <;>
    first | (unfold countLeaderDone; (try dsimp only); (repeat' split) <;> (try simp) <;> (repeat' split) <;> simp) | (unfold countLeaderDone; dsimp only; done) | rfl

@[simp] theorem realign_frame (s : State) :
    (realign s).clock = s.clock ∧
      (realign s).port = s.port ∧
      (realign s).roster = s.roster ∧
      (realign s).take = s.take ∧
      (realign s).holds = s.holds ∧
      (realign s).board = s.board ∧
      (realign s).sampler = s.sampler ∧
      (realign s).log = s.log ∧
      (realign s).lines = s.lines ∧
      (realign s).setup = s.setup := by
  refine ⟨?_, ?_, ?_, ?_, ?_, ?_, ?_, ?_, ?_, ?_⟩ <;>
    first | (unfold realign; (try dsimp only); (repeat' split) <;> (try simp) <;> (repeat' split) <;> simp) | (unfold realign; dsimp only; done) | rfl

@[simp] theorem listenRound_frame (count : Nat) (heard : Bool) (s : State) :
    (listenRound count heard s).clock = s.clock ∧
      (listenRound count heard s).roster = s.roster ∧
      (listenRound count heard s).take = s.take ∧
      (listenRound count heard s).holds = s.holds ∧
      (listenRound count heard s).board = s.board ∧
      (listenRound count heard s).sampler = s.sampler ∧
      (listenRound count heard s).log = s.log ∧
      (listenRound count heard s).lines = s.lines ∧
      (listenRound count heard s).setup = s.setup := by
  refine ⟨?_, ?_, ?_, ?_, ?_, ?_, ?_, ?_, ?_⟩ <;>
    first | (unfold listenRound; (try dsimp only); (repeat' split) <;> (try simp) <;> (repeat' split) <;> simp) | (unfold listenRound; dsimp only; done) | rfl

@[simp] theorem closeCues_setup (s : State) : (closeCues s).setup = s.setup := rfl

@[simp] theorem markTakeFrame_setup (s : State) : (markTakeFrame s).setup = s.setup := rfl

@[simp] theorem keepUnbegun_setup (s : State) : (keepUnbegun s).setup = s.setup := by
  rcases keepUnbegun_cases s with h | h <;> rw [h] <;> rfl

@[simp] theorem leaveLocked_frame (s : State) :
    (leaveLocked s).clock = s.clock ∧
      (leaveLocked s).take = s.take ∧
      (leaveLocked s).holds = s.holds ∧
      (leaveLocked s).board = s.board ∧
      (leaveLocked s).sampler = s.sampler ∧
      (leaveLocked s).log = s.log ∧
      (leaveLocked s).lines = s.lines ∧
      (leaveLocked s).setup = s.setup := by
  refine ⟨?_, ?_, ?_, ?_, ?_, ?_, ?_, ?_⟩ <;>
    first | (unfold leaveLocked; (try dsimp only); (repeat' split) <;> (try simp) <;> (repeat' split) <;> simp) | (unfold leaveLocked; dsimp only; done) | rfl

@[simp] theorem raiseFrameFault_frame (s : State) :
    (raiseFrameFault s).clock = s.clock ∧
      (raiseFrameFault s).timer = s.timer ∧
      (raiseFrameFault s).port = s.port ∧
      (raiseFrameFault s).roster = s.roster ∧
      (raiseFrameFault s).take = s.take ∧
      (raiseFrameFault s).board = s.board ∧
      (raiseFrameFault s).sampler = s.sampler ∧
      (raiseFrameFault s).log = s.log ∧
      (raiseFrameFault s).lines = s.lines ∧
      (raiseFrameFault s).setup = s.setup := by
  refine ⟨?_, ?_, ?_, ?_, ?_, ?_, ?_, ?_, ?_, ?_⟩ <;>
    first | (unfold raiseFrameFault; (try dsimp only); (repeat' split) <;> (try simp) <;> (repeat' split) <;> simp) | (unfold raiseFrameFault; dsimp only; done) | rfl

@[simp] theorem rollChannel_frame (c : Chan) (s : State) :
    (rollChannel c s).clock = s.clock ∧
      (rollChannel c s).timer = s.timer ∧
      (rollChannel c s).port = s.port ∧
      (rollChannel c s).roster = s.roster ∧
      (rollChannel c s).take = s.take ∧
      (rollChannel c s).holds = s.holds ∧
      (rollChannel c s).board = s.board ∧
      (rollChannel c s).sampler = s.sampler ∧
      (rollChannel c s).log = s.log ∧
      (rollChannel c s).lines = s.lines ∧
      (rollChannel c s).setup = s.setup := by
  refine ⟨?_, ?_, ?_, ?_, ?_, ?_, ?_, ?_, ?_, ?_, ?_⟩ <;>
    first | (unfold rollChannel; (try dsimp only); (repeat' split) <;> (try simp) <;> (repeat' split) <;> simp) | (unfold rollChannel; dsimp only; done) | rfl

@[simp] theorem rollStart_frame (s : State) :
    (rollStart s).clock = s.clock ∧
      (rollStart s).timer = s.timer ∧
      (rollStart s).port = s.port ∧
      (rollStart s).roster = s.roster ∧
      (rollStart s).holds = s.holds ∧
      (rollStart s).board = s.board ∧
      (rollStart s).sampler = s.sampler ∧
      (rollStart s).log = s.log ∧
      (rollStart s).lines = s.lines ∧
      (rollStart s).setup = s.setup := by
  refine ⟨?_, ?_, ?_, ?_, ?_, ?_, ?_, ?_, ?_, ?_⟩ <;>
    first | (unfold rollStart; (try dsimp only); (repeat' split) <;> (try simp) <;> (repeat' split) <;> simp) | (unfold rollStart; dsimp only; done) | rfl

@[simp] theorem countDown_frame (s : State) :
    (countDown s).clock = s.clock ∧
      (countDown s).timer = s.timer ∧
      (countDown s).port = s.port ∧
      (countDown s).roster = s.roster ∧
      (countDown s).holds = s.holds ∧
      (countDown s).board = s.board ∧
      (countDown s).sampler = s.sampler ∧
      (countDown s).log = s.log ∧
      (countDown s).lines = s.lines ∧
      (countDown s).setup = s.setup := by
  refine ⟨?_, ?_, ?_, ?_, ?_, ?_, ?_, ?_, ?_, ?_⟩ <;>
    first | (unfold countDown; (try dsimp only); (repeat' split) <;> (try simp) <;> (repeat' split) <;> simp) | (unfold countDown; dsimp only; done) | rfl

@[simp] theorem followerPulse_frame (tag : Nat) (c : Chan) (s : State) :
    (followerPulse tag c s).clock = s.clock ∧
      (followerPulse tag c s).timer = s.timer ∧
      (followerPulse tag c s).port = s.port ∧
      (followerPulse tag c s).roster = s.roster ∧
      (followerPulse tag c s).holds = s.holds ∧
      (followerPulse tag c s).board = s.board ∧
      (followerPulse tag c s).sampler = s.sampler ∧
      (followerPulse tag c s).log = s.log ∧
      (followerPulse tag c s).lines = s.lines ∧
      (followerPulse tag c s).setup = s.setup := by
  refine ⟨?_, ?_, ?_, ?_, ?_, ?_, ?_, ?_, ?_, ?_⟩ <;>
    first | (unfold followerPulse; (try dsimp only); (repeat' split) <;> (try simp) <;> (repeat' split) <;> simp) | (unfold followerPulse; dsimp only; done) | rfl

@[simp] theorem riseTF_frame (s : State) :
    (riseTF s).clock = s.clock ∧
      (riseTF s).timer = s.timer ∧
      (riseTF s).port = s.port ∧
      (riseTF s).roster = s.roster ∧
      (riseTF s).holds = s.holds ∧
      (riseTF s).board = s.board ∧
      (riseTF s).sampler = s.sampler ∧
      (riseTF s).log = s.log ∧
      (riseTF s).lines = s.lines ∧
      (riseTF s).setup = s.setup := by
  refine ⟨?_, ?_, ?_, ?_, ?_, ?_, ?_, ?_, ?_, ?_⟩ <;>
    first | (unfold riseTF; (try dsimp only); (repeat' split) <;> (try simp) <;> (repeat' split) <;> simp) | (unfold riseTF; dsimp only; done) | rfl

@[simp] theorem lastFrameFault_frame (s : State) :
    (lastFrameFault s).clock = s.clock ∧
      (lastFrameFault s).timer = s.timer ∧
      (lastFrameFault s).port = s.port ∧
      (lastFrameFault s).roster = s.roster ∧
      (lastFrameFault s).take = s.take ∧
      (lastFrameFault s).board = s.board ∧
      (lastFrameFault s).sampler = s.sampler ∧
      (lastFrameFault s).log = s.log ∧
      (lastFrameFault s).lines = s.lines ∧
      (lastFrameFault s).setup = s.setup := by
  refine ⟨?_, ?_, ?_, ?_, ?_, ?_, ?_, ?_, ?_, ?_⟩ <;>
    first | (unfold lastFrameFault; (try dsimp only); (repeat' split) <;> (try simp) <;> (repeat' split) <;> simp) | (unfold lastFrameFault; dsimp only; done) | rfl

@[simp] theorem layOutWindow_frame (s : State) :
    (layOutWindow s).clock = s.clock ∧
      (layOutWindow s).timer = s.timer ∧
      (layOutWindow s).take = s.take ∧
      (layOutWindow s).holds = s.holds ∧
      (layOutWindow s).board = s.board ∧
      (layOutWindow s).sampler = s.sampler ∧
      (layOutWindow s).log = s.log ∧
      (layOutWindow s).lines = s.lines ∧
      (layOutWindow s).setup = s.setup := by
  refine ⟨?_, ?_, ?_, ?_, ?_, ?_, ?_, ?_, ?_⟩ <;>
    first | (unfold layOutWindow; (try dsimp only); (repeat' split) <;> (try simp) <;> (repeat' split) <;> simp) | (unfold layOutWindow; dsimp only; done) | rfl

@[simp] theorem beforeBeatN_frame (e : Nat) (s : State) :
    (beforeBeatN e s).clock = s.clock ∧
      (beforeBeatN e s).roster = s.roster ∧
      (beforeBeatN e s).log = s.log ∧
      (beforeBeatN e s).lines = s.lines ∧
      (beforeBeatN e s).setup = s.setup := by
  refine ⟨?_, ?_, ?_, ?_, ?_⟩ <;>
    first | (unfold beforeBeatN; (try dsimp only); (repeat' split) <;> (try simp) <;> (repeat' split) <;> simp) | (unfold beforeBeatN; dsimp only; done) | rfl

@[simp] theorem beatN_frame (locking rolled : Bool) (e : Nat) (s : State) :
    (beatN locking rolled e s).clock = s.clock ∧
      (beatN locking rolled e s).roster = s.roster ∧
      (beatN locking rolled e s).log = s.log ∧
      (beatN locking rolled e s).lines = s.lines ∧
      (beatN locking rolled e s).setup = s.setup := by
  refine ⟨?_, ?_, ?_, ?_, ?_⟩ <;>
    first | (unfold beatN; (try dsimp only); (repeat' split) <;> (try simp) <;> (repeat' split) <;> simp) | (unfold beatN; dsimp only; done) | rfl

@[simp] theorem afterBeats_frame (locking rolled : Bool) (tag : Nat) (s : State) :
    (afterBeats locking rolled tag s).clock = s.clock ∧
      (afterBeats locking rolled tag s).timer = s.timer ∧
      (afterBeats locking rolled tag s).roster = s.roster ∧
      (afterBeats locking rolled tag s).board = s.board ∧
      (afterBeats locking rolled tag s).sampler = s.sampler ∧
      (afterBeats locking rolled tag s).lines = s.lines ∧
      (afterBeats locking rolled tag s).setup = s.setup := by
  refine ⟨?_, ?_, ?_, ?_, ?_, ?_, ?_⟩ <;>
    first | (unfold afterBeats; (try dsimp only); (repeat' split) <;> (try simp) <;> (repeat' split) <;> simp) | (unfold afterBeats; dsimp only; done) | rfl

@[simp] theorem beginFrame_frame (e d : Nat) (s : State) :
    (beginFrame e d s).clock = s.clock ∧
      (beginFrame e d s).port = s.port ∧
      (beginFrame e d s).roster = s.roster ∧
      (beginFrame e d s).take = s.take ∧
      (beginFrame e d s).holds = s.holds ∧
      (beginFrame e d s).board = s.board ∧
      (beginFrame e d s).sampler = s.sampler ∧
      (beginFrame e d s).log = s.log ∧
      (beginFrame e d s).lines = s.lines ∧
      (beginFrame e d s).setup = s.setup := by
  refine ⟨?_, ?_, ?_, ?_, ?_, ?_, ?_, ?_, ?_, ?_⟩ <;>
    first | (unfold beginFrame; (try dsimp only); (repeat' split) <;> (try simp) <;> (repeat' split) <;> simp) | (unfold beginFrame; dsimp only; done) | rfl

@[simp] theorem framePulse_frame (locking : Bool) (e d : Nat) (s : State) :
    (framePulse locking e d s).clock = s.clock ∧
      (framePulse locking e d s).lines = s.lines ∧
      (framePulse locking e d s).setup = s.setup := by
  refine ⟨?_, ?_, ?_⟩ <;>
    first | (unfold framePulse; (try dsimp only); (repeat' split) <;> (try simp) <;> (repeat' split) <;> simp) | (unfold framePulse; dsimp only; done) | rfl

@[simp] theorem edgeUnlocked_frame (e : Nat) (s : State) :
    (edgeUnlocked e s).clock = s.clock ∧
      (edgeUnlocked e s).lines = s.lines ∧
      (edgeUnlocked e s).setup = s.setup := by
  refine ⟨?_, ?_, ?_⟩ <;>
    first | (unfold edgeUnlocked; (try dsimp only); (repeat' split) <;> (try simp) <;> (repeat' split) <;> simp) | (unfold edgeUnlocked; dsimp only; done) | rfl

@[simp] theorem edgeLocked_frame (e d p : Nat) (s : State) :
    (edgeLocked e d p s).clock = s.clock ∧
      (edgeLocked e d p s).lines = s.lines ∧
      (edgeLocked e d p s).setup = s.setup := by
  refine ⟨?_, ?_, ?_⟩ <;>
    first | (unfold edgeLocked; (try dsimp only); (repeat' split) <;> (try simp) <;> (repeat' split) <;> simp) | (unfold edgeLocked; dsimp only; done) | rfl

@[simp] theorem risingEdge_frame (time : Nat) (s : State) :
    (risingEdge time s).lines = s.lines ∧
      (risingEdge time s).setup = s.setup := by
  refine ⟨?_, ?_⟩ <;>
    first | (unfold risingEdge; (try dsimp only); (repeat' split) <;> (try simp) <;> (repeat' split) <;> simp) | (unfold risingEdge; dsimp only; done) | rfl

@[simp] theorem expireFrame_frame (q p : Nat) (s : State) :
    (expireFrame q p s).take = s.take ∧
      (expireFrame q p s).board = s.board ∧
      (expireFrame q p s).sampler = s.sampler ∧
      (expireFrame q p s).log = s.log ∧
      (expireFrame q p s).lines = s.lines ∧
      (expireFrame q p s).setup = s.setup := by
  refine ⟨?_, ?_, ?_, ?_, ?_, ?_⟩ <;>
    first | (unfold expireFrame; (try dsimp only); (repeat' split) <;> (try simp) <;> (repeat' split) <;> simp) | (unfold expireFrame; dsimp only; done) | rfl

@[simp] theorem scheduledBeat_frame (k due q p : Nat) (s : State) :
    (scheduledBeat k due q p s).roster = s.roster ∧
      (scheduledBeat k due q p s).log = s.log ∧
      (scheduledBeat k due q p s).lines = s.lines ∧
      (scheduledBeat k due q p s).setup = s.setup := by
  refine ⟨?_, ?_, ?_, ?_⟩ <;>
    first | (unfold scheduledBeat; (try dsimp only); (repeat' split) <;> (try simp) <;> (repeat' split) <;> simp) | (unfold scheduledBeat; dsimp only; done) | rfl

@[simp] theorem freeBeat_frame (q p : Nat) (s : State) :
    (freeBeat q p s).roster = s.roster ∧
      (freeBeat q p s).log = s.log ∧
      (freeBeat q p s).lines = s.lines ∧
      (freeBeat q p s).setup = s.setup := by
  refine ⟨?_, ?_, ?_, ?_⟩ <;>
    first | (unfold freeBeat; (try dsimp only); (repeat' split) <;> (try simp) <;> (repeat' split) <;> simp) | (unfold freeBeat; dsimp only; done) | rfl

@[simp] theorem takeWhen_frame (p : Record → Bool) (c : Chan) (s : State) :
    (takeWhen p c s).clock = s.clock ∧
      (takeWhen p c s).timer = s.timer ∧
      (takeWhen p c s).roster = s.roster ∧
      (takeWhen p c s).sampler = s.sampler ∧
      (takeWhen p c s).log = s.log ∧
      (takeWhen p c s).lines = s.lines ∧
      (takeWhen p c s).setup = s.setup := by
  refine ⟨?_, ?_, ?_, ?_, ?_, ?_, ?_⟩ <;>
    first | (unfold takeWhen; (try dsimp only); (repeat' split) <;> (try simp) <;> (repeat' split) <;> simp) | (unfold takeWhen; dsimp only; done) | rfl

@[simp] theorem expireWait_frame (c : Chan) (pos cue : Nat) (act : OnTimeout) (s : State) :
    (expireWait c pos cue act s).clock = s.clock ∧
      (expireWait c pos cue act s).timer = s.timer ∧
      (expireWait c pos cue act s).roster = s.roster ∧
      (expireWait c pos cue act s).sampler = s.sampler ∧
      (expireWait c pos cue act s).log = s.log ∧
      (expireWait c pos cue act s).lines = s.lines ∧
      (expireWait c pos cue act s).setup = s.setup := by
  refine ⟨?_, ?_, ?_, ?_, ?_, ?_, ?_⟩ <;>
    first | (unfold expireWait; (try dsimp only); (repeat' split) <;> (try simp) <;> (repeat' split) <;> simp) | (unfold expireWait; dsimp only; done) | rfl

@[simp] theorem discardChannel_frame (code : ScanCode) (goal : Nat) (c : Chan) (s : State) :
    (discardChannel code goal c s).clock = s.clock ∧
      (discardChannel code goal c s).timer = s.timer ∧
      (discardChannel code goal c s).port = s.port ∧
      (discardChannel code goal c s).roster = s.roster ∧
      (discardChannel code goal c s).take = s.take ∧
      (discardChannel code goal c s).holds = s.holds ∧
      (discardChannel code goal c s).board = s.board ∧
      (discardChannel code goal c s).sampler = s.sampler ∧
      (discardChannel code goal c s).log = s.log ∧
      (discardChannel code goal c s).lines = s.lines ∧
      (discardChannel code goal c s).setup = s.setup := by
  refine ⟨?_, ?_, ?_, ?_, ?_, ?_, ?_, ?_, ?_, ?_, ?_⟩ <;>
    first | (unfold discardChannel; (try dsimp only); (repeat' split) <;> (try simp) <;> (repeat' split) <;> simp) | (unfold discardChannel; dsimp only; done) | rfl

@[simp] theorem restoreChannel_frame (prior : Quad ChanState) (c : Chan) (s : State) :
    (restoreChannel prior c s).clock = s.clock ∧
      (restoreChannel prior c s).timer = s.timer ∧
      (restoreChannel prior c s).port = s.port ∧
      (restoreChannel prior c s).roster = s.roster ∧
      (restoreChannel prior c s).take = s.take ∧
      (restoreChannel prior c s).holds = s.holds ∧
      (restoreChannel prior c s).board = s.board ∧
      (restoreChannel prior c s).sampler = s.sampler ∧
      (restoreChannel prior c s).log = s.log ∧
      (restoreChannel prior c s).lines = s.lines ∧
      (restoreChannel prior c s).setup = s.setup := by
  refine ⟨?_, ?_, ?_, ?_, ?_, ?_, ?_, ?_, ?_, ?_, ?_⟩ <;>
    first | (unfold restoreChannel; (try dsimp only); (repeat' split) <;> (try simp) <;> (repeat' split) <;> simp) | (unfold restoreChannel; dsimp only; done) | rfl

@[simp] theorem discardArm_frame (a : ArmFlight) (r : Result) (code : ScanCode) (s : State) :
    (discardArm a r code s).clock = s.clock ∧
      (discardArm a r code s).timer = s.timer ∧
      (discardArm a r code s).roster = s.roster ∧
      (discardArm a r code s).holds = s.holds ∧
      (discardArm a r code s).board = s.board ∧
      (discardArm a r code s).sampler = s.sampler ∧
      (discardArm a r code s).log = s.log ∧
      (discardArm a r code s).lines = s.lines ∧
      (discardArm a r code s).setup = s.setup := by
  refine ⟨?_, ?_, ?_, ?_, ?_, ?_, ?_, ?_, ?_⟩ <;>
    first | (unfold discardArm; (try dsimp only); (repeat' split) <;> (try simp) <;> (repeat' split) <;> simp) | (unfold discardArm; dsimp only; done) | rfl

@[simp] theorem commitChannel_frame (goal : Nat) (c : Chan) (s : State) :
    (commitChannel goal c s).clock = s.clock ∧
      (commitChannel goal c s).timer = s.timer ∧
      (commitChannel goal c s).port = s.port ∧
      (commitChannel goal c s).roster = s.roster ∧
      (commitChannel goal c s).take = s.take ∧
      (commitChannel goal c s).holds = s.holds ∧
      (commitChannel goal c s).board = s.board ∧
      (commitChannel goal c s).sampler = s.sampler ∧
      (commitChannel goal c s).log = s.log ∧
      (commitChannel goal c s).lines = s.lines ∧
      (commitChannel goal c s).setup = s.setup := by
  refine ⟨?_, ?_, ?_, ?_, ?_, ?_, ?_, ?_, ?_, ?_, ?_⟩ <;>
    first | (unfold commitChannel; (try dsimp only); (repeat' split) <;> (try simp) <;> (repeat' split) <;> simp) | (unfold commitChannel; dsimp only; done) | rfl

@[simp] theorem clearLog_setup (s : State) : (clearLog s).setup = s.setup := rfl

@[simp] theorem commitArm_frame (a : ArmFlight) (s : State) :
    (commitArm a s).clock = s.clock ∧
      (commitArm a s).timer = s.timer ∧
      (commitArm a s).roster = s.roster ∧
      (commitArm a s).holds = s.holds ∧
      (commitArm a s).board = s.board ∧
      (commitArm a s).sampler = s.sampler ∧
      (commitArm a s).lines = s.lines ∧
      (commitArm a s).setup = s.setup := by
  refine ⟨?_, ?_, ?_, ?_, ?_, ?_, ?_, ?_⟩ <;>
    first | (unfold commitArm; (try dsimp only); (repeat' split) <;> (try simp) <;> (repeat' split) <;> simp) | (unfold commitArm; dsimp only; done) | rfl

@[simp] theorem unwindChannel_frame (c : Chan) (s : State) :
    (unwindChannel c s).clock = s.clock ∧
      (unwindChannel c s).timer = s.timer ∧
      (unwindChannel c s).port = s.port ∧
      (unwindChannel c s).roster = s.roster ∧
      (unwindChannel c s).take = s.take ∧
      (unwindChannel c s).holds = s.holds ∧
      (unwindChannel c s).board = s.board ∧
      (unwindChannel c s).sampler = s.sampler ∧
      (unwindChannel c s).log = s.log ∧
      (unwindChannel c s).lines = s.lines ∧
      (unwindChannel c s).setup = s.setup := by
  refine ⟨?_, ?_, ?_, ?_, ?_, ?_, ?_, ?_, ?_, ?_, ?_⟩ <;>
    first | (unfold unwindChannel; (try dsimp only); (repeat' split) <;> (try simp) <;> (repeat' split) <;> simp) | (unfold unwindChannel; dsimp only; done) | rfl

@[simp] theorem unwindArm_frame (a : ArmFlight) (r : Result) (s : State) :
    (unwindArm a r s).clock = s.clock ∧
      (unwindArm a r s).timer = s.timer ∧
      (unwindArm a r s).roster = s.roster ∧
      (unwindArm a r s).holds = s.holds ∧
      (unwindArm a r s).board = s.board ∧
      (unwindArm a r s).sampler = s.sampler ∧
      (unwindArm a r s).log = s.log ∧
      (unwindArm a r s).lines = s.lines ∧
      (unwindArm a r s).setup = s.setup := by
  refine ⟨?_, ?_, ?_, ?_, ?_, ?_, ?_, ?_, ?_⟩ <;>
    first | (unfold unwindArm; (try dsimp only); (repeat' split) <;> (try simp) <;> (repeat' split) <;> simp) | (unfold unwindArm; dsimp only; done) | rfl

@[simp] theorem positioned_frame (c : Chan) (p : Positioning) (x : ScanState) (s : State) :
    (positioned c p x s).clock = s.clock ∧
      (positioned c p x s).timer = s.timer ∧
      (positioned c p x s).port = s.port ∧
      (positioned c p x s).roster = s.roster ∧
      (positioned c p x s).take = s.take ∧
      (positioned c p x s).holds = s.holds ∧
      (positioned c p x s).board = s.board ∧
      (positioned c p x s).sampler = s.sampler ∧
      (positioned c p x s).log = s.log ∧
      (positioned c p x s).lines = s.lines ∧
      (positioned c p x s).setup = s.setup := by
  refine ⟨?_, ?_, ?_, ?_, ?_, ?_, ?_, ?_, ?_, ?_, ?_⟩ <;>
    first | (unfold positioned; (try dsimp only); (repeat' split) <;> (try simp) <;> (repeat' split) <;> simp) | (unfold positioned; dsimp only; done) | rfl

@[simp] theorem scanRefused_frame (c : Chan) (code : ScanCode) (k : Option FaultKind) (x : ScanState) (s : State) :
    (scanRefused c code k x s).clock = s.clock ∧
      (scanRefused c code k x s).timer = s.timer ∧
      (scanRefused c code k x s).port = s.port ∧
      (scanRefused c code k x s).roster = s.roster ∧
      (scanRefused c code k x s).take = s.take ∧
      (scanRefused c code k x s).holds = s.holds ∧
      (scanRefused c code k x s).board = s.board ∧
      (scanRefused c code k x s).sampler = s.sampler ∧
      (scanRefused c code k x s).log = s.log ∧
      (scanRefused c code k x s).lines = s.lines ∧
      (scanRefused c code k x s).setup = s.setup := by
  refine ⟨?_, ?_, ?_, ?_, ?_, ?_, ?_, ?_, ?_, ?_, ?_⟩ <;>
    first | (unfold scanRefused; (try dsimp only); (repeat' split) <;> (try simp) <;> (repeat' split) <;> simp) | (unfold scanRefused; dsimp only; done) | rfl

@[simp] theorem busErrorAt_frame (a : Activity) (s : State) :
    (busErrorAt a s).timer = s.timer ∧
      (busErrorAt a s).roster = s.roster ∧
      (busErrorAt a s).take = s.take ∧
      (busErrorAt a s).board = s.board ∧
      (busErrorAt a s).sampler = s.sampler ∧
      (busErrorAt a s).log = s.log ∧
      (busErrorAt a s).lines = s.lines ∧
      (busErrorAt a s).setup = s.setup := by
  refine ⟨?_, ?_, ?_, ?_, ?_, ?_, ?_, ?_⟩ <;>
    first | (unfold busErrorAt; (try dsimp only); (repeat' split) <;> (try simp) <;> (repeat' split) <;> simp) | (unfold busErrorAt; dsimp only; done) | rfl

@[simp] theorem sendInTurn_frame (t : Nat) (s : State) :
    (sendInTurn t s).clock = s.clock ∧
      (sendInTurn t s).timer = s.timer ∧
      (sendInTurn t s).roster = s.roster ∧
      (sendInTurn t s).take = s.take ∧
      (sendInTurn t s).holds = s.holds ∧
      (sendInTurn t s).board = s.board ∧
      (sendInTurn t s).sampler = s.sampler ∧
      (sendInTurn t s).log = s.log ∧
      (sendInTurn t s).lines = s.lines ∧
      (sendInTurn t s).setup = s.setup := by
  refine ⟨?_, ?_, ?_, ?_, ?_, ?_, ?_, ?_, ?_, ?_⟩ <;>
    first | (unfold sendInTurn; (try dsimp only); (repeat' split) <;> (try simp) <;> (repeat' split) <;> simp) | (unfold sendInTurn; dsimp only; done) | rfl

@[simp] theorem beginTurn_frame (i t : Nat) (s : State) :
    (beginTurn i t s).clock = s.clock ∧
      (beginTurn i t s).timer = s.timer ∧
      (beginTurn i t s).roster = s.roster ∧
      (beginTurn i t s).take = s.take ∧
      (beginTurn i t s).holds = s.holds ∧
      (beginTurn i t s).board = s.board ∧
      (beginTurn i t s).sampler = s.sampler ∧
      (beginTurn i t s).log = s.log ∧
      (beginTurn i t s).lines = s.lines ∧
      (beginTurn i t s).setup = s.setup := by
  refine ⟨?_, ?_, ?_, ?_, ?_, ?_, ?_, ?_, ?_, ?_⟩ <;>
    first | (unfold beginTurn; (try dsimp only); (repeat' split) <;> (try simp) <;> (repeat' split) <;> simp) | (unfold beginTurn; dsimp only; done) | rfl

@[simp] theorem nextTurn_frame (i t : Nat) (s : State) :
    (nextTurn i t s).timer = s.timer ∧
      (nextTurn i t s).roster = s.roster ∧
      (nextTurn i t s).take = s.take ∧
      (nextTurn i t s).holds = s.holds ∧
      (nextTurn i t s).board = s.board ∧
      (nextTurn i t s).sampler = s.sampler ∧
      (nextTurn i t s).log = s.log ∧
      (nextTurn i t s).lines = s.lines ∧
      (nextTurn i t s).setup = s.setup := by
  refine ⟨?_, ?_, ?_, ?_, ?_, ?_, ?_, ?_, ?_⟩ <;>
    first | (unfold nextTurn; (try dsimp only); (repeat' split) <;> (try simp) <;> (repeat' split) <;> simp) | (unfold nextTurn; dsimp only; done) | rfl

@[simp] theorem endSending_frame (t : Nat) (s : State) :
    (endSending t s).timer = s.timer ∧
      (endSending t s).roster = s.roster ∧
      (endSending t s).take = s.take ∧
      (endSending t s).holds = s.holds ∧
      (endSending t s).board = s.board ∧
      (endSending t s).sampler = s.sampler ∧
      (endSending t s).log = s.log ∧
      (endSending t s).lines = s.lines ∧
      (endSending t s).setup = s.setup := by
  refine ⟨?_, ?_, ?_, ?_, ?_, ?_, ?_, ?_, ?_⟩ <;>
    first | (unfold endSending; (try dsimp only); (repeat' split) <;> (try simp) <;> (repeat' split) <;> simp) | (unfold endSending; dsimp only; done) | rfl

@[simp] theorem cuesSent_frame (cues : List Nat) (s : State) :
    (cuesSent cues s).clock = s.clock ∧
      (cuesSent cues s).timer = s.timer ∧
      (cuesSent cues s).roster = s.roster ∧
      (cuesSent cues s).take = s.take ∧
      (cuesSent cues s).holds = s.holds ∧
      (cuesSent cues s).sampler = s.sampler ∧
      (cuesSent cues s).log = s.log ∧
      (cuesSent cues s).lines = s.lines ∧
      (cuesSent cues s).setup = s.setup := by
  refine ⟨?_, ?_, ?_, ?_, ?_, ?_, ?_, ?_, ?_⟩ <;>
    first | (unfold cuesSent; (try dsimp only); (repeat' split) <;> (try simp) <;> (repeat' split) <;> simp) | (unfold cuesSent; dsimp only; done) | rfl

@[simp] theorem answerSent_setup (s : State) : (answerSent s).setup = s.setup := rfl

@[simp] theorem beginReport_frame (q : Nat) (r : FullReport) (s : State) :
    (beginReport q r s).timer = s.timer ∧
      (beginReport q r s).roster = s.roster ∧
      (beginReport q r s).take = s.take ∧
      (beginReport q r s).holds = s.holds ∧
      (beginReport q r s).board = s.board ∧
      (beginReport q r s).sampler = s.sampler ∧
      (beginReport q r s).log = s.log ∧
      (beginReport q r s).lines = s.lines ∧
      (beginReport q r s).setup = s.setup := by
  refine ⟨?_, ?_, ?_, ?_, ?_, ?_, ?_, ?_, ?_⟩ <;>
    first | (unfold beginReport; (try dsimp only); (repeat' split) <;> (try simp) <;> (repeat' split) <;> simp) | (unfold beginReport; dsimp only; done) | rfl

@[simp] theorem examineReport_frame (r : Report) (c : Chan) (s : State) :
    (examineReport r c s).clock = s.clock ∧
      (examineReport r c s).timer = s.timer ∧
      (examineReport r c s).roster = s.roster ∧
      (examineReport r c s).holds = s.holds ∧
      (examineReport r c s).board = s.board ∧
      (examineReport r c s).sampler = s.sampler ∧
      (examineReport r c s).log = s.log ∧
      (examineReport r c s).lines = s.lines ∧
      (examineReport r c s).setup = s.setup := by
  refine ⟨?_, ?_, ?_, ?_, ?_, ?_, ?_, ?_, ?_⟩ <;>
    first | (unfold examineReport; (try dsimp only); (repeat' split) <;> (try simp) <;> (repeat' split) <;> simp) | (unfold examineReport; dsimp only; done) | rfl

@[simp] theorem takeReport_frame (r : Report) (s : State) :
    (takeReport r s).clock = s.clock ∧
      (takeReport r s).timer = s.timer ∧
      (takeReport r s).holds = s.holds ∧
      (takeReport r s).board = s.board ∧
      (takeReport r s).sampler = s.sampler ∧
      (takeReport r s).log = s.log ∧
      (takeReport r s).lines = s.lines ∧
      (takeReport r s).setup = s.setup := by
  refine ⟨?_, ?_, ?_, ?_, ?_, ?_, ?_, ?_⟩ <;>
    first | (unfold takeReport; (try dsimp only); (repeat' split) <;> (try simp) <;> (repeat' split) <;> simp) | (unfold takeReport; dsimp only; done) | rfl

@[simp] theorem reportedOutcomes_setup (r : FullReport) (s : State) : (reportedOutcomes r s).setup = s.setup := rfl

@[simp] theorem readBack_frame (mismatch : Bool) (s : State) :
    (readBack mismatch s).clock = s.clock ∧
      (readBack mismatch s).timer = s.timer ∧
      (readBack mismatch s).roster = s.roster ∧
      (readBack mismatch s).take = s.take ∧
      (readBack mismatch s).holds = s.holds ∧
      (readBack mismatch s).board = s.board ∧
      (readBack mismatch s).sampler = s.sampler ∧
      (readBack mismatch s).log = s.log ∧
      (readBack mismatch s).lines = s.lines ∧
      (readBack mismatch s).setup = s.setup := by
  refine ⟨?_, ?_, ?_, ?_, ?_, ?_, ?_, ?_, ?_, ?_⟩ <;>
    first | (unfold readBack; (try dsimp only); (repeat' split) <;> (try simp) <;> (repeat' split) <;> simp) | (unfold readBack; dsimp only; done) | rfl

@[simp] theorem completeTake_frame (s : State) :
    (completeTake s).clock = s.clock ∧
      (completeTake s).timer = s.timer ∧
      (completeTake s).port = s.port ∧
      (completeTake s).roster = s.roster ∧
      (completeTake s).holds = s.holds ∧
      (completeTake s).board = s.board ∧
      (completeTake s).sampler = s.sampler ∧
      (completeTake s).log = s.log ∧
      (completeTake s).lines = s.lines ∧
      (completeTake s).setup = s.setup := by
  refine ⟨?_, ?_, ?_, ?_, ?_, ?_, ?_, ?_, ?_, ?_⟩ <;>
    first | (unfold completeTake; (try dsimp only); (repeat' split) <;> (try simp) <;> (repeat' split) <;> simp) | (unfold completeTake; dsimp only; done) | rfl

@[simp] theorem writeSummary_setup (s : State) : (writeSummary s).setup = s.setup := rfl

@[simp] theorem judgeRound_frame (s : State) :
    (judgeRound s).clock = s.clock ∧
      (judgeRound s).timer = s.timer ∧
      (judgeRound s).port = s.port ∧
      (judgeRound s).take = s.take ∧
      (judgeRound s).board = s.board ∧
      (judgeRound s).sampler = s.sampler ∧
      (judgeRound s).log = s.log ∧
      (judgeRound s).lines = s.lines ∧
      (judgeRound s).setup = s.setup := by
  refine ⟨?_, ?_, ?_, ?_, ?_, ?_, ?_, ?_, ?_⟩ <;>
    first | (unfold judgeRound; (try dsimp only); (repeat' split) <;> (try simp) <;> (repeat' split) <;> simp) | (unfold judgeRound; dsimp only; done) | rfl

@[simp] theorem settleTag_frame (s : State) :
    (settleTag s).clock = s.clock ∧
      (settleTag s).roster = s.roster ∧
      (settleTag s).take = s.take ∧
      (settleTag s).holds = s.holds ∧
      (settleTag s).board = s.board ∧
      (settleTag s).sampler = s.sampler ∧
      (settleTag s).log = s.log ∧
      (settleTag s).lines = s.lines ∧
      (settleTag s).setup = s.setup := by
  refine ⟨?_, ?_, ?_, ?_, ?_, ?_, ?_, ?_, ?_⟩ <;>
    first | (unfold settleTag; (try dsimp only); (repeat' split) <;> (try simp) <;> (repeat' split) <;> simp) | (unfold settleTag; dsimp only; done) | rfl

@[simp] theorem closeRound_frame (q : Nat) (s : State) :
    (closeRound q s).board = s.board ∧
      (closeRound q s).sampler = s.sampler ∧
      (closeRound q s).log = s.log ∧
      (closeRound q s).lines = s.lines ∧
      (closeRound q s).setup = s.setup := by
  refine ⟨?_, ?_, ?_, ?_, ?_⟩ <;>
    first | (unfold closeRound; (try dsimp only); (repeat' split) <;> (try simp) <;> (repeat' split) <;> simp) | (unfold closeRound; dsimp only; done) | rfl

@[simp] theorem takeChannel_frame (k : TakeKind) (c : Chan) (s : State) :
    (takeChannel k c s).clock = s.clock ∧
      (takeChannel k c s).timer = s.timer ∧
      (takeChannel k c s).port = s.port ∧
      (takeChannel k c s).roster = s.roster ∧
      (takeChannel k c s).take = s.take ∧
      (takeChannel k c s).holds = s.holds ∧
      (takeChannel k c s).board = s.board ∧
      (takeChannel k c s).sampler = s.sampler ∧
      (takeChannel k c s).log = s.log ∧
      (takeChannel k c s).lines = s.lines ∧
      (takeChannel k c s).setup = s.setup := by
  refine ⟨?_, ?_, ?_, ?_, ?_, ?_, ?_, ?_, ?_, ?_, ?_⟩ <;>
    first | (unfold takeChannel; (try dsimp only); (repeat' split) <;> (try simp) <;> (repeat' split) <;> simp) | (unfold takeChannel; dsimp only; done) | rfl

@[simp] theorem positionChannel_frame (a : ArmFlight) (c : Chan) (s : State) :
    (positionChannel a c s).1.clock = s.clock ∧
      (positionChannel a c s).1.timer = s.timer ∧
      (positionChannel a c s).1.port = s.port ∧
      (positionChannel a c s).1.roster = s.roster ∧
      (positionChannel a c s).1.take = s.take ∧
      (positionChannel a c s).1.holds = s.holds ∧
      (positionChannel a c s).1.board = s.board ∧
      (positionChannel a c s).1.sampler = s.sampler ∧
      (positionChannel a c s).1.log = s.log ∧
      (positionChannel a c s).1.lines = s.lines ∧
      (positionChannel a c s).1.setup = s.setup := by
  refine ⟨?_, ?_, ?_, ?_, ?_, ?_, ?_, ?_, ?_, ?_, ?_⟩ <;>
    first | (unfold positionChannel; (try dsimp only); (repeat' split) <;> (try simp) <;> (repeat' split) <;> simp) | (unfold positionChannel; dsimp only; done) | rfl

@[simp] theorem entryCheck_frame (a : ArmFlight) (c : Chan) (s : State) :
    (entryCheck a c s).1.clock = s.clock ∧
      (entryCheck a c s).1.timer = s.timer ∧
      (entryCheck a c s).1.port = s.port ∧
      (entryCheck a c s).1.roster = s.roster ∧
      (entryCheck a c s).1.take = s.take ∧
      (entryCheck a c s).1.holds = s.holds ∧
      (entryCheck a c s).1.board = s.board ∧
      (entryCheck a c s).1.sampler = s.sampler ∧
      (entryCheck a c s).1.log = s.log ∧
      (entryCheck a c s).1.lines = s.lines ∧
      (entryCheck a c s).1.setup = s.setup := by
  refine ⟨?_, ?_, ?_, ?_, ?_, ?_, ?_, ?_, ?_, ?_, ?_⟩ <;>
    first | (unfold entryCheck; (try dsimp only); (repeat' split) <;> (try simp) <;> (repeat' split) <;> simp) | (unfold entryCheck; dsimp only; done) | rfl

@[simp] theorem enterSeeking_frame (a : ArmFlight) (id : Nat) (k : TakeKind) (mask : List Nat) (start : Nat) (s : State) :
    (enterSeeking a id k mask start s).clock = s.clock ∧
      (enterSeeking a id k mask start s).timer = s.timer ∧
      (enterSeeking a id k mask start s).port = s.port ∧
      (enterSeeking a id k mask start s).roster = s.roster ∧
      (enterSeeking a id k mask start s).holds = s.holds ∧
      (enterSeeking a id k mask start s).sampler = s.sampler ∧
      (enterSeeking a id k mask start s).log = s.log ∧
      (enterSeeking a id k mask start s).lines = s.lines ∧
      (enterSeeking a id k mask start s).setup = s.setup := by
  refine ⟨?_, ?_, ?_, ?_, ?_, ?_, ?_, ?_, ?_⟩ <;>
    first | (unfold enterSeeking; (try dsimp only); (repeat' split) <;> (try simp) <;> (repeat' split) <;> simp) | (unfold enterSeeking; dsimp only; done) | rfl

@[simp] theorem replaceArm_frame (s : State) :
    (replaceArm s).clock = s.clock ∧
      (replaceArm s).timer = s.timer ∧
      (replaceArm s).roster = s.roster ∧
      (replaceArm s).holds = s.holds ∧
      (replaceArm s).board = s.board ∧
      (replaceArm s).sampler = s.sampler ∧
      (replaceArm s).log = s.log ∧
      (replaceArm s).lines = s.lines ∧
      (replaceArm s).setup = s.setup := by
  refine ⟨?_, ?_, ?_, ?_, ?_, ?_, ?_, ?_, ?_⟩ <;>
    first | (unfold replaceArm; (try dsimp only); (repeat' split) <;> (try simp) <;> (repeat' split) <;> simp) | (unfold replaceArm; dsimp only; done) | rfl

@[simp] theorem startCountdown_setup (l : Nat) (s : State) : (startCountdown l s).setup = s.setup := rfl

@[simp] theorem disbandAtRest_frame (s : State) :
    (disbandAtRest s).clock = s.clock ∧
      (disbandAtRest s).timer = s.timer ∧
      (disbandAtRest s).port = s.port ∧
      (disbandAtRest s).roster = s.roster ∧
      (disbandAtRest s).holds = s.holds ∧
      (disbandAtRest s).board = s.board ∧
      (disbandAtRest s).sampler = s.sampler ∧
      (disbandAtRest s).log = s.log ∧
      (disbandAtRest s).lines = s.lines ∧
      (disbandAtRest s).setup = s.setup := by
  refine ⟨?_, ?_, ?_, ?_, ?_, ?_, ?_, ?_, ?_, ?_⟩ <;>
    first | (unfold disbandAtRest; (try dsimp only); (repeat' split) <;> (try simp) <;> (repeat' split) <;> simp) | (unfold disbandAtRest; dsimp only; done) | rfl

@[simp] theorem clearChannel_frame (c : Chan) (s : State) :
    (clearChannel c s).clock = s.clock ∧
      (clearChannel c s).timer = s.timer ∧
      (clearChannel c s).port = s.port ∧
      (clearChannel c s).roster = s.roster ∧
      (clearChannel c s).take = s.take ∧
      (clearChannel c s).holds = s.holds ∧
      (clearChannel c s).board = s.board ∧
      (clearChannel c s).sampler = s.sampler ∧
      (clearChannel c s).log = s.log ∧
      (clearChannel c s).lines = s.lines ∧
      (clearChannel c s).setup = s.setup := by
  refine ⟨?_, ?_, ?_, ?_, ?_, ?_, ?_, ?_, ?_, ?_, ?_⟩ <;>
    first | (unfold clearChannel; (try dsimp only); (repeat' split) <;> (try simp) <;> (repeat' split) <;> simp) | (unfold clearChannel; dsimp only; done) | rfl

@[simp] theorem stopPlaying_frame (c : Chan) (s : State) :
    (stopPlaying c s).clock = s.clock ∧
      (stopPlaying c s).timer = s.timer ∧
      (stopPlaying c s).port = s.port ∧
      (stopPlaying c s).roster = s.roster ∧
      (stopPlaying c s).take = s.take ∧
      (stopPlaying c s).holds = s.holds ∧
      (stopPlaying c s).board = s.board ∧
      (stopPlaying c s).sampler = s.sampler ∧
      (stopPlaying c s).log = s.log ∧
      (stopPlaying c s).lines = s.lines ∧
      (stopPlaying c s).setup = s.setup := by
  refine ⟨?_, ?_, ?_, ?_, ?_, ?_, ?_, ?_, ?_, ?_, ?_⟩ <;>
    first | (unfold stopPlaying; (try dsimp only); (repeat' split) <;> (try simp) <;> (repeat' split) <;> simp) | (unfold stopPlaying; dsimp only; done) | rfl

@[simp] theorem enterStopping_frame (s : State) :
    (enterStopping s).clock = s.clock ∧
      (enterStopping s).timer = s.timer ∧
      (enterStopping s).port = s.port ∧
      (enterStopping s).roster = s.roster ∧
      (enterStopping s).holds = s.holds ∧
      (enterStopping s).board = s.board ∧
      (enterStopping s).sampler = s.sampler ∧
      (enterStopping s).log = s.log ∧
      (enterStopping s).lines = s.lines ∧
      (enterStopping s).setup = s.setup := by
  refine ⟨?_, ?_, ?_, ?_, ?_, ?_, ?_, ?_, ?_, ?_⟩ <;>
    first | (unfold enterStopping; (try dsimp only); (repeat' split) <;> (try simp) <;> (repeat' split) <;> simp) | (unfold enterStopping; dsimp only; done) | rfl

@[simp] theorem holdSeeking_frame (s : State) :
    (holdSeeking s).clock = s.clock ∧
      (holdSeeking s).timer = s.timer ∧
      (holdSeeking s).roster = s.roster ∧
      (holdSeeking s).holds = s.holds ∧
      (holdSeeking s).board = s.board ∧
      (holdSeeking s).sampler = s.sampler ∧
      (holdSeeking s).log = s.log ∧
      (holdSeeking s).lines = s.lines ∧
      (holdSeeking s).setup = s.setup := by
  refine ⟨?_, ?_, ?_, ?_, ?_, ?_, ?_, ?_, ?_⟩ <;>
    first | (unfold holdSeeking; (try dsimp only); (repeat' split) <;> (try simp) <;> (repeat' split) <;> simp) | (unfold holdSeeking; dsimp only; done) | rfl

@[simp] theorem holdFalls_frame (s : State) :
    (holdFalls s).clock = s.clock ∧
      (holdFalls s).timer = s.timer ∧
      (holdFalls s).roster = s.roster ∧
      (holdFalls s).holds = s.holds ∧
      (holdFalls s).board = s.board ∧
      (holdFalls s).sampler = s.sampler ∧
      (holdFalls s).log = s.log ∧
      (holdFalls s).lines = s.lines ∧
      (holdFalls s).setup = s.setup := by
  refine ⟨?_, ?_, ?_, ?_, ?_, ?_, ?_, ?_, ?_⟩ <;>
    first | (unfold holdFalls; (try dsimp only); (repeat' split) <;> (try simp) <;> (repeat' split) <;> simp) | (unfold holdFalls; dsimp only; done) | rfl

@[simp] theorem applyLines_setup (es : List (Nat × Plain)) (tally : Option Nat) (s : State) : (applyLines es tally s).setup = s.setup := rfl

@[simp] theorem startInputs_frame (c : Chan) (s : State) :
    (startInputs c s).clock = s.clock ∧
      (startInputs c s).timer = s.timer ∧
      (startInputs c s).port = s.port ∧
      (startInputs c s).roster = s.roster ∧
      (startInputs c s).take = s.take ∧
      (startInputs c s).holds = s.holds ∧
      (startInputs c s).board = s.board ∧
      (startInputs c s).sampler = s.sampler ∧
      (startInputs c s).log = s.log ∧
      (startInputs c s).lines = s.lines ∧
      (startInputs c s).setup = s.setup := by
  refine ⟨?_, ?_, ?_, ?_, ?_, ?_, ?_, ?_, ?_, ?_, ?_⟩ <;>
    first | (unfold startInputs; (try dsimp only); (repeat' split) <;> (try simp) <;> (repeat' split) <;> simp) | (unfold startInputs; dsimp only; done) | rfl

@[simp] theorem applySetup_frame (c : Chan) (u : Setup) (pins : Pins) (s : State) :
    (applySetup c u pins s).clock = s.clock ∧
      (applySetup c u pins s).timer = s.timer ∧
      (applySetup c u pins s).port = s.port ∧
      (applySetup c u pins s).roster = s.roster ∧
      (applySetup c u pins s).take = s.take ∧
      (applySetup c u pins s).holds = s.holds ∧
      (applySetup c u pins s).board = s.board ∧
      (applySetup c u pins s).log = s.log := by
  refine ⟨?_, ?_, ?_, ?_, ?_, ?_, ?_, ?_⟩ <;>
    first | (unfold applySetup; (try dsimp only); (repeat' split) <;> (try simp) <;> (repeat' split) <;> simp) | (unfold applySetup; dsimp only; done) | rfl

@[simp] theorem enlistChannel_frame (c : Chan) (s : State) :
    (enlistChannel c s).clock = s.clock ∧
      (enlistChannel c s).timer = s.timer ∧
      (enlistChannel c s).port = s.port ∧
      (enlistChannel c s).roster = s.roster ∧
      (enlistChannel c s).take = s.take ∧
      (enlistChannel c s).holds = s.holds ∧
      (enlistChannel c s).board = s.board ∧
      (enlistChannel c s).sampler = s.sampler ∧
      (enlistChannel c s).log = s.log ∧
      (enlistChannel c s).lines = s.lines ∧
      (enlistChannel c s).setup = s.setup := by
  refine ⟨?_, ?_, ?_, ?_, ?_, ?_, ?_, ?_, ?_, ?_, ?_⟩ <;>
    first | (unfold enlistChannel; (try dsimp only); (repeat' split) <;> (try simp) <;> (repeat' split) <;> simp) | (unfold enlistChannel; dsimp only; done) | rfl

@[simp] theorem stopPulses_frame (c : Chan) (s : State) :
    (stopPulses c s).clock = s.clock ∧
      (stopPulses c s).timer = s.timer ∧
      (stopPulses c s).port = s.port ∧
      (stopPulses c s).roster = s.roster ∧
      (stopPulses c s).take = s.take ∧
      (stopPulses c s).holds = s.holds ∧
      (stopPulses c s).board = s.board ∧
      (stopPulses c s).sampler = s.sampler ∧
      (stopPulses c s).log = s.log ∧
      (stopPulses c s).lines = s.lines ∧
      (stopPulses c s).setup = s.setup := by
  refine ⟨?_, ?_, ?_, ?_, ?_, ?_, ?_, ?_, ?_, ?_, ?_⟩ <;>
    first | (unfold stopPulses; (try dsimp only); (repeat' split) <;> (try simp) <;> (repeat' split) <;> simp) | (unfold stopPulses; dsimp only; done) | rfl

@[simp] theorem enterSafe_frame (t : Nat) (s : State) :
    (enterSafe t s).clock = s.clock ∧
      (enterSafe t s).timer = s.timer ∧
      (enterSafe t s).roster = s.roster ∧
      (enterSafe t s).holds = s.holds ∧
      (enterSafe t s).board = s.board ∧
      (enterSafe t s).log = s.log ∧
      (enterSafe t s).lines = s.lines ∧
      (enterSafe t s).setup = s.setup := by
  refine ⟨?_, ?_, ?_, ?_, ?_, ?_, ?_, ?_⟩ <;>
    first | (unfold enterSafe; (try dsimp only); (repeat' split) <;> (try simp) <;> (repeat' split) <;> simp) | (unfold enterSafe; dsimp only; done) | rfl

@[simp] theorem clearOverrun_setup (s : State) : (clearOverrun s).setup = s.setup := rfl

@[simp] theorem fetchEntries_frame (m : Arrival) (n : Nat) (s : State) :
    (fetchEntries m n s).clock = s.clock ∧
      (fetchEntries m n s).timer = s.timer ∧
      (fetchEntries m n s).roster = s.roster ∧
      (fetchEntries m n s).take = s.take ∧
      (fetchEntries m n s).holds = s.holds ∧
      (fetchEntries m n s).board = s.board ∧
      (fetchEntries m n s).sampler = s.sampler ∧
      (fetchEntries m n s).lines = s.lines ∧
      (fetchEntries m n s).setup = s.setup := by
  refine ⟨?_, ?_, ?_, ?_, ?_, ?_, ?_, ?_, ?_⟩ <;>
    first | (unfold fetchEntries; (try dsimp only); (repeat' split) <;> (try simp) <;> (repeat' split) <;> simp) | (unfold fetchEntries; dsimp only; done) | rfl

@[simp] theorem endWake_frame (t : Nat) (s : State) :
    (endWake t s).timer = s.timer ∧
      (endWake t s).port = s.port ∧
      (endWake t s).roster = s.roster ∧
      (endWake t s).take = s.take ∧
      (endWake t s).holds = s.holds ∧
      (endWake t s).board = s.board ∧
      (endWake t s).log = s.log ∧
      (endWake t s).lines = s.lines ∧
      (endWake t s).setup = s.setup := by
  refine ⟨?_, ?_, ?_, ?_, ?_, ?_, ?_, ?_, ?_⟩ <;>
    first | (unfold endWake; (try dsimp only); (repeat' split) <;> (try simp) <;> (repeat' split) <;> simp) | (unfold endWake; dsimp only; done) | rfl

@[simp] theorem writeConversion_frame (v : Conversion) (result : Nat) (s : State) :
    (writeConversion v result s).clock = s.clock ∧
      (writeConversion v result s).timer = s.timer ∧
      (writeConversion v result s).roster = s.roster ∧
      (writeConversion v result s).take = s.take ∧
      (writeConversion v result s).holds = s.holds ∧
      (writeConversion v result s).board = s.board ∧
      (writeConversion v result s).log = s.log ∧
      (writeConversion v result s).lines = s.lines ∧
      (writeConversion v result s).setup = s.setup := by
  refine ⟨?_, ?_, ?_, ?_, ?_, ?_, ?_, ?_, ?_⟩ <;>
    first | (unfold writeConversion; (try dsimp only); (repeat' split) <;> (try simp) <;> (repeat' split) <;> simp) | (unfold writeConversion; dsimp only; done) | rfl

@[simp] theorem wireBreak_frame (n : Nat) (c : Chan) (s : State) :
    (wireBreak n c s).clock = s.clock ∧
      (wireBreak n c s).timer = s.timer ∧
      (wireBreak n c s).port = s.port ∧
      (wireBreak n c s).roster = s.roster ∧
      (wireBreak n c s).board = s.board ∧
      (wireBreak n c s).log = s.log ∧
      (wireBreak n c s).lines = s.lines ∧
      (wireBreak n c s).setup = s.setup := by
  refine ⟨?_, ?_, ?_, ?_, ?_, ?_, ?_, ?_⟩ <;>
    first | (unfold wireBreak; (try dsimp only); (repeat' split) <;> (try simp) <;> (repeat' split) <;> simp) | (unfold wireBreak; dsimp only; done) | rfl

@[simp] theorem completeConversion_frame (v : Conversion) (result : Nat) (s : State) :
    (completeConversion v result s).timer = s.timer ∧
      (completeConversion v result s).roster = s.roster ∧
      (completeConversion v result s).board = s.board ∧
      (completeConversion v result s).log = s.log ∧
      (completeConversion v result s).lines = s.lines ∧
      (completeConversion v result s).setup = s.setup := by
  refine ⟨?_, ?_, ?_, ?_, ?_, ?_⟩ <;>
    first | (unfold completeConversion; (try dsimp only); (repeat' split) <;> (try simp) <;> (repeat' split) <;> simp) | (unfold completeConversion; dsimp only; done) | rfl

end Sys2Proof.Machine
end

