-- ==== Sys2Proof/Laws/Running.lean ====
section
/-! SUPPORT. The Frame Timer at edges and sub-beats, and the take record while the station counts down or plays: what each
operation may do with them. -/

-- One thread: as one text the package would start more than the memory limit lets through.
set_option Elab.async false

namespace Sys2Proof.Machine

/-! ## Edges -/

/-- The valid interval of R63 and R64. -/
theorem validPeriod_iff (d : Nat) : validPeriod d = true ↔ 4000 ≤ d ∧ d ≤ 1000000 := by
  rw [validPeriod, Bool.and_eq_true, decide_eq_true_iff, decide_eq_true_iff]; rfl
/-- An edge in LOCKED is judged by its interval (R64). -/
theorem risingEdge_locked (s : State) (time q p : Nat) (h1 : s.timer.state = .locked) (h2 : s.timer.lastPulse = some q) (h3 : s.timer.period = some p) :
    risingEdge time s = edgeLocked (micros (max s.clock time)) (micros (max s.clock time) - q) p (s.atTime time) := by
  unfold risingEdge
  simp [h1,h2,h3, State.atTime]
/-- FRAME_FAULT raised latches in COUNTDOWN, ROLLING and FINISHED alone (R137). -/
theorem raiseFrameFault_flags (s : State) : (raiseFrameFault s).holds.flags = { s.holds.flags with frameFault := s.holds.flags.frameFault || s.take.state.isRunning } := by
  unfold raiseFrameFault raiseCause
  cases h : s.take.state <;> simp [Cause.latchesIn, TakeState.isRunning, CauseFlags.latch] <;> split <;> rfl
@[simp] theorem raiseCause_channels (s : State) (c o k) : (raiseCause c o k s).channels = s.channels := by
  unfold raiseCause; (repeat' split) <;> rfl
/-- An edge that R64 accepts begins the next frame. -/
theorem risingEdge_accepted {s : State} {time q : Nat} (h : s.acceptsPulse time) (hq : s.timer.lastPulse = some q) :
    risingEdge time s = framePulse false (micros (max s.clock time)) (micros (max s.clock time) - q) (s.atTime time) := by
  obtain ⟨q', p, h1, h2, h3, h4, h5, h6⟩ := h
  cases h2.symm.trans hq
  refine (risingEdge_locked s time q p h1 h2 h3).trans ?_
  rw [edgeLocked, if_neg (by omega), if_pos]
  rw [validPeriod_iff]; omega

/-! ## The take record while COUNTDOWN, ROLLING or FINISHED (R126, R137) -/


/-- While the station counts down or plays, the take record stands but for FINISHED and the latest take sub-beat. -/
def RunsOn (s t : State) : Prop :=
  s.take.state.isRunning = true →
    t.take = { s.take with state := t.take.state, latest := t.take.latest } ∧
      (t.take.state = s.take.state ∨ s.take.state = .rolling ∧ t.take.state = .finished)

theorem RunsOn.refl (s : State) : RunsOn s s := fun _ => ⟨rfl, Or.inl rfl⟩

theorem RunsOn.of_take {s t : State} (h : t.take = s.take) : RunsOn s t := fun _ => by rw [h]; exact ⟨rfl, Or.inl rfl⟩

theorem RunsOn.trans {s t u : State} (h : RunsOn s t) (k : RunsOn t u) : RunsOn s u := by
  intro hs
  obtain ⟨h1, h2⟩ := h hs
  have ht : t.take.state.isRunning = true := by
    rcases h2 with h2 | ⟨-, h2⟩
    · rw [h2]; exact hs
    · rw [h2]; rfl
  obtain ⟨k1, k2⟩ := k ht
  refine ⟨?_, ?_⟩
  · rw [k1, h1]
  · rcases h2 with h2 | ⟨h2, h3⟩
    · rw [h2] at k2; exact k2
    · rw [h3] at k2
      rcases k2 with k2 | ⟨k2, -⟩
      · exact Or.inr ⟨h2, k2⟩
      · cases k2

theorem RunsOn.each {f : Chan → State → State} (h : ∀ c s, RunsOn s (f c s)) (s : State) : RunsOn s (eachChannel f s) :=
  (((h 0 _).trans (h 1 _)).trans (h 2 _)).trans (h 3 _)

theorem checkRest_runs (s : State) : RunsOn s (checkRest s) := by
  intro hs
  unfold checkRest
  split
  · cases h : s.take.state <;> rw [h] at hs <;> simp [TakeState.isRunning] at hs <;> exact ⟨by dsimp only, Or.inl h⟩
  · exact ⟨rfl, Or.inl rfl⟩

theorem checkFinished_runs (s : State) : RunsOn s (checkFinished s) := by
  intro hs
  unfold checkFinished
  split
  · next h => exact ⟨rfl, Or.inr ⟨h.1, rfl⟩⟩
  · exact ⟨rfl, Or.inl rfl⟩

theorem checkArmed_runs (s : State) : RunsOn s (checkArmed s) := by
  intro hs
  unfold checkArmed
  split
  · split
    · next h => rw [h.1] at hs; cases hs
    · exact ⟨rfl, Or.inl rfl⟩
  · exact ⟨rfl, Or.inl rfl⟩

theorem samplerSettle_runs (s : State) : RunsOn s (samplerSettle s) := RunsOn.of_take (by simp)

theorem samplerTrigger_runs (t : Nat) (s : State) : RunsOn s (samplerTrigger t s) := RunsOn.of_take (by simp)

theorem hardFault_runs (c : Chan) (k : FaultKind) (s : State) : RunsOn s (hardFault c k s) := by
  unfold hardFault
  split
  · dsimp only
    refine RunsOn.trans ?_ (samplerSettle_runs _)
    refine RunsOn.trans ?_ (checkRest_runs _)
    intro hs
    have : (raiseCause Cause.channelFault (some c.val) (some k)
        (s.setDrive c (((s.drive c).holdDir s.clock).hardFault k))).take = s.take := by simp
    rw [if_neg]
    · rw [this]; exact ⟨rfl, Or.inl rfl⟩
    · rw [this]; intro h; rw [h.1] at hs; cases hs
  · exact RunsOn.refl _

theorem softFault_runs (c : Chan) (k : FaultKind) (s : State) : RunsOn s (softFault c k s) :=
  (RunsOn.of_take (by simp)).trans (checkRest_runs _)

theorem becomeDone_runs (c : Chan) (s : State) : RunsOn s (becomeDone c s) := (RunsOn.of_take (by simp)).trans (checkFinished_runs _)

theorem faults_runs (c : Chan) (f : FaultKind) (s : State) : RunsOn s (if f.isHard then hardFault c f s else softFault c f s) := by
  split
  · exact hardFault_runs _ _ _
  · exact softFault_runs _ _ _

theorem issueSetPoint_runs (c : Chan) (t : Nat) (x : Int) (s : State) : RunsOn s (issueSetPoint c t x s) := by
  unfold issueSetPoint
  dsimp only
  split
  · exact (RunsOn.of_take (by simp)).trans (hardFault_runs _ _ _)
  · exact RunsOn.of_take (by simp)

theorem monitor_runs (c : Chan) (s : State) : RunsOn s (monitor c s) := by
  unfold monitor faultOnFollow
  split
  · split
    · exact (RunsOn.of_take (by simp)).trans (hardFault_runs _ _ _)
    · exact RunsOn.of_take (by simp)
  · exact RunsOn.of_take (by simp)
  · exact RunsOn.refl _

theorem seekStep_runs (c : Chan) (t : Nat) (k : Seek) (s : State) : RunsOn s (seekStep c t k s) := by
  unfold seekStep
  dsimp only
  split
  · exact faults_runs _ _ _
  · have h : RunsOn s (issueSetPoint c t ((s.drive c).setPoint + signedStep k.up (min (seekSpeed (s.setup c).seekRate (s.setup c).vmax k.speed (k.target - (s.drive c).setPoint).natAbs) (k.target - (s.drive c).setPoint).natAbs)) (s.setDrive c { s.drive c with seek := some { k with speed := seekSpeed (s.setup c).seekRate (s.setup c).vmax k.speed (k.target - (s.drive c).setPoint).natAbs } })) :=
      (RunsOn.of_take (by simp)).trans (issueSetPoint_runs _ _ _ _)
    split
    · exact (h.trans (RunsOn.of_take (by simp [becomeReady]))).trans (checkArmed_runs _)
    · exact h

theorem stopStep_runs (c : Chan) (t : Nat) (k : Stop) (s : State) : RunsOn s (stopStep c t k s) := by
  unfold stopStep
  dsimp only
  split
  · exact (RunsOn.of_take (by simp)).trans (checkRest_runs _)
  · split
    · exact (RunsOn.of_take (by simp)).trans (faults_runs _ _ _)
    · exact (RunsOn.of_take (by simp)).trans (issueSetPoint_runs _ _ _ _)

theorem playSetPoint_runs (c : Chan) (now t : Nat) (x : Int) (s : State) : RunsOn s (playSetPoint c now t x s) := by
  unfold playSetPoint
  split
  · exact faults_runs _ _ _
  · exact (RunsOn.of_take (by simp)).trans (issueSetPoint_runs _ _ _ _)

theorem playFault_runs (c : Chan) (now t : Nat) (k : FaultKind) (x : Int) (s : State) : RunsOn s (playFault c now t k x s) := by
  unfold playFault
  dsimp only
  have h : RunsOn s (playSetPoint c now t x (raiseCause .channelFault (some c.val) (some k) (s.setDrive c ((s.drive c).recordKind k)))) :=
    (RunsOn.of_take (by simp)).trans (playSetPoint_runs _ _ _ _ _)
  split
  · exact (h.trans (RunsOn.of_take (by simp))).trans (checkRest_runs _)
  · exact h

theorem playPath_runs (c : Chan) (now t : Nat) (first : Bool) (s : State) : RunsOn s (playPath c now t first s) := by
  unfold playPath
  dsimp only
  have h (x : PlayState) : RunsOn s (s.putPlay c x) := RunsOn.of_take rfl
  split
  · exact (h _).trans (playSetPoint_runs _ _ _ _ _)
  · split
    · exact ((h _).trans (playSetPoint_runs _ _ _ _ _)).trans (becomeDone_runs _ _)
    · exact (h _).trans (playSetPoint_runs _ _ _ _ _)
  · exact (h _).trans (playFault_runs _ _ _ _ _ _)

theorem stateBeat_runs (c : Chan) (now : Nat) (t : Option Nat) (k : Nat) (first : Bool) (s : State) :
    RunsOn s (stateBeat c now t k first s) := by
  unfold stateBeat
  repeat' split
  all_goals first
    | exact RunsOn.refl _
    | exact issueSetPoint_runs _ _ _ _
    | exact seekStep_runs _ _ _ _
    | exact stopStep_runs _ _ _ _
    | (unfold playBeat
       split
       · exact playPath_runs _ _ _ _ _
       · exact playSetPoint_runs _ _ _ _ _
       · exact playSetPoint_runs _ _ _ _ _
       · exact issueSetPoint_runs _ _ _ _)

theorem driveBeat_runs (now : Nat) (t : Option Nat) (k : Nat) (first : Bool) (c : Chan) (s : State) :
    RunsOn s (driveBeat now t k first c s) := by
  unfold driveBeat
  split
  · exact (monitor_runs _ _).trans (stateBeat_runs _ _ _ _ _ _)
  · exact RunsOn.refl _

theorem consumeCues_runs (s : State) : RunsOn s (consumeCues s) := RunsOn.of_take rfl

theorem issueBeat_runs (e k : Nat) (t : Option Nat) (first : Bool) (s : State) : RunsOn s (issueBeat e k t first s) := by
  unfold issueBeat
  dsimp only
  have h0 : RunsOn s (consumeCues (noteTakeSubBeat t { s with timer := { s.timer with latest := some e } })) := by
    intro _; cases t <;> exact ⟨rfl, Or.inl rfl⟩
  refine RunsOn.trans ?_ (samplerTrigger_runs _ _)
  refine RunsOn.trans ?_ (checkFinished_runs _)
  refine RunsOn.trans (h0.trans (RunsOn.each (fun c s => driveBeat_runs _ _ _ _ c s) _)) (consumeCues_runs _)

theorem RunsOn.foldl {α : Type} {f : State → α → State} (h : ∀ s x, RunsOn s (f s x)) (l : List α) (s : State) :
    RunsOn s (l.foldl f s) := by
  induction l generalizing s with
  | nil => exact RunsOn.refl s
  | cons x xs ih => exact (h s x).trans (ih _)

theorem catchUp_runs (e : Nat) (s : State) : RunsOn s (catchUp e s) := by
  unfold catchUp
  split
  · exact (RunsOn.foldl (fun s j => issueBeat_runs e j _ false s) _ s).trans (RunsOn.of_take rfl)
  · exact RunsOn.refl s

theorem followerPulse_runs (g : Nat) (c : Chan) (s : State) : RunsOn s (followerPulse g c s) := by
  unfold followerPulse
  dsimp only
  split
  · split
    · exact becomeDone_runs _ _
    · exact RunsOn.of_take rfl
  · exact RunsOn.refl _

/-- A sub-beat changes only the timer's latest sub-beat. -/
theorem issueBeat_timer (e k : Nat) (t : Option Nat) (first : Bool) (s : State) :
    (issueBeat e k t first s).timer = { s.timer with latest := some e } := by
  unfold issueBeat
  simp

/-- The catch-up sub-beats complete the schedule and change only the latest sub-beat beside it (R69). -/
theorem catchUp_timer (e : Nat) (s : State) :
    ∃ l, (catchUp e s).timer = { s.timer with schedule := none, latest := l } := by
  unfold catchUp
  split
  · next k d h =>
    have : ∀ (l : List Nat) (s : State), ∃ x, (l.foldl (fun s j => issueBeat e j (s.takeSubBeat j) false s) s).timer = { s.timer with latest := x } := by
      intro l
      induction l with
      | nil => exact fun s => ⟨_, rfl⟩
      | cons a l ih =>
        intro s
        obtain ⟨x, hx⟩ := ih (issueBeat e a (s.takeSubBeat a) false s)
        exact ⟨x, by rw [List.foldl_cons, hx, issueBeat_timer]⟩
    obtain ⟨x, hx⟩ := this (List.range' k (s.subBeats - k)) s
    exact ⟨x, by dsimp only; rw [hx]⟩
  · next h => exact ⟨s.timer.latest, by rw [← h]⟩

theorem issueBeat_subBeats (e k : Nat) (t : Option Nat) (first : Bool) (s : State) : (issueBeat e k t first s).subBeats = s.subBeats :=
  congrArg (fun x => x.2.1) (issueBeat_fixed e k t first s)

/-! ## The accepted pulse -/

/-- The take record at the roll (R123). -/
theorem rollStart_take (s : State) : (rollStart s).take = { s.take with state := .rolling, tf := s.take.s, remaining := 0 } := by
  unfold rollStart
  exact eachChannel_same State.take _ (fun c s => by simp) _

/-- The timer after an accepted pulse in LOCKED (R64, R67, R69). -/
theorem framePulse_timer (e d : Nat) (s : State) : (framePulse false e d s).timer =
   { state := .locked, reference := none, lastPulse := some e, period := some d,
                  tag := (s.timer.tag + 1) % 256, schedule := some (1, e + d / s.subBeats), latest := some e } := by
  unfold framePulse
  have hN : ∀ x, (afterBeats false (beforeBeatN e { s with timer := { s.timer with period := some d } }).rolls x (beatN false (beforeBeatN e { s with timer := { s.timer with period := some d } }).rolls e (beforeBeatN e { s with timer := { s.timer with period := some d } }))).subBeats = s.subBeats := by
    intro x
    have h : (afterBeats false (beforeBeatN e { s with timer := { s.timer with period := some d } }).rolls x (beatN false (beforeBeatN e { s with timer := { s.timer with period := some d } }).rolls e (beforeBeatN e { s with timer := { s.timer with period := some d } }))).fixed = s.fixed := by simp
    exact congrArg (fun x => x.2.1) h
  simp only [beginFrame, hN]
  simp only [afterBeats_frame]
  obtain ⟨l, hl⟩ := catchUp_timer e { s with timer := { s.timer with period := some d } }
  simp only [beatN]
  rw [if_neg (by decide), issueBeat_timer]
  simp only [countDown_frame, beforeBeatN, latchPending, hl]
  simp [nextTag]


theorem beforeBeatN_runs (e : Nat) (s : State) : RunsOn s (beforeBeatN e s) :=
  (catchUp_runs e s).trans (RunsOn.of_take rfl)

theorem RunsOn.playing {s t : State} (h : RunsOn s t) (hs : s.take.state = .rolling ∨ s.take.state = .finished) :
    (t.take.state = .rolling ∨ t.take.state = .finished) ∧ t.take.tf = s.take.tf := by
  have hr : s.take.state.isRunning = true := by rcases hs with h | h <;> rw [h] <;> rfl
  obtain ⟨h1, h2⟩ := h hr
  refine ⟨?_, by rw [h1]⟩
  rcases h2 with h2 | ⟨-, h2⟩
  · rw [h2]; exact hs
  · exact Or.inr h2

theorem eachFollower_runs (g : Nat) (s : State) : RunsOn s (eachChannel (followerPulse g) s) :=
  RunsOn.each (fun c s => followerPulse_runs g c s) s

end Sys2Proof.Machine
end

