-- ==== Sys2Proof/Laws/Beats.lean ====
section
/-! SUPPORT. What a sub-beat does to one channel: a fault, an issue and an offer as the statements name them (State.Offered),
and SUB_BEAT and FREE_SUB_BEAT where one channel alone is energized. -/

-- One thread: as one text the package would start more than the memory limit lets through.
set_option Elab.async false

namespace Sys2Proof.Machine

/-! ## Channels at rest -/

/-- Channel `b` is UNSET or FAULTED: it is energized in no take state. -/
def State.down (s : State) (b : Chan) : Prop := (s.drive b).state = .unset ∨ (s.drive b).state = .faulted

theorem State.down.energized {s : State} {b : Chan} (h : s.down b) : s.energized b = false := by
  rcases h with h | h <;> simp [State.energized, h]

theorem State.energized_iff (s : State) (c : Chan) : s.energized c = true ↔ ¬s.down c ∧ s.take.state ≠ .safe := by
  simp [State.energized, State.down, and_assoc]

/-- Where channel `c` alone is energized, every other one is UNSET or FAULTED. -/
theorem State.alone.down {s : State} {c b : Chan} (h : s.alone c) (hb : b ≠ c) : s.down b := by
  have hc := (s.energized_iff c).mp h.1
  have := h.2 b hb
  by_contra hn
  rw [(s.energized_iff b).mpr ⟨hn, hc.2⟩] at this
  cases this

/-- An operation leaves an UNSET or FAULTED channel `b` so. -/
def KeepsDown (b : Chan) (s t : State) : Prop := s.down b → t.down b

theorem KeepsDown.refl (b : Chan) (s : State) : KeepsDown b s s := id

theorem KeepsDown.trans {b : Chan} {s t u : State} (h : KeepsDown b s t) (k : KeepsDown b t u) : KeepsDown b s u := k ∘ h

theorem KeepsDown.of_drive {b : Chan} {s t : State} (h : t.drive b = s.drive b) : KeepsDown b s t := by
  unfold KeepsDown State.down
  rw [h]
  exact id

theorem KeepsDown.of_channels {b : Chan} {s t : State} (h : t.channels = s.channels) : KeepsDown b s t :=
  .of_drive (by simp [State.drive, State.chan, h])

theorem KeepsDown.setDrive {b c : Chan} (h : b ≠ c) (s : State) (d : Drive) : KeepsDown b s (s.setDrive c d) :=
  .of_drive (by simp [State.drive, State.chan, State.setDrive, State.setChan, h])

variable {b c : Chan}

theorem addOutcome_channels (station seq : Nat) (r : Result) (s : State) :
    (addOutcome station seq r s).channels = s.channels := by
  unfold addOutcome
  split <;> rfl

theorem samplerSettle_channels (s : State) : (samplerSettle s).channels = s.channels := by
  unfold samplerSettle
  split <;> rfl

theorem samplerBegin_channels (t : Nat) (s : State) : (samplerBegin t s).channels = s.channels := by
  unfold samplerBegin
  (repeat' split) <;> rfl

theorem samplerTrigger_channels (t : Nat) (s : State) : (samplerTrigger t s).channels = s.channels := by
  unfold samplerTrigger
  (repeat' split) <;> first | rfl | exact samplerBegin_channels _ _

theorem checkFinished_channels (s : State) : (checkFinished s).channels = s.channels := by
  unfold checkFinished
  split <;> rfl

theorem checkArmed_channels (s : State) : (checkArmed s).channels = s.channels := by
  unfold checkArmed
  (repeat' split) <;> first | rfl | exact addOutcome_channels _ _ _ _

/-- Drives changed channel by channel. -/
theorem eachChannel_drive (f : Chan → State → State) (g : Chan → Drive → Drive)
    (hs : ∀ c s, (f c s).drive c = g c (s.drive c)) (hn : ∀ c b s, b ≠ c → (f c s).drive b = s.drive b) (s : State) (c : Chan) :
    (eachChannel f s).drive c = g c (s.drive c) := by
  unfold eachChannel
  fin_cases c
  · simp [hn, hs]
  · simp [hn, hs]
  · simp [hn, hs]
  · simp [hn, hs]

theorem clearSources_drive (s : State) (c : Chan) : (clearSources s).drive c = { s.drive c with source := none } := by
  unfold clearSources
  exact eachChannel_drive _ (fun _ d => { d with source := none }) (by simp) (by intro c b s h; simp [h]) s c

theorem parkTakeChannels_drive (s : State) (c : Chan) : (parkTakeChannels s).drive c =
    if s.isTakeChannel c && (s.drive c).parks then (s.drive c).park else s.drive c := by
  unfold parkTakeChannels State.isTakeChannel
  refine eachChannel_drive _ (fun _ d => if d.source.isSome && d.parks then d.park else d) ?_ ?_ s c
  · intro c s
    split <;> simp
  · intro c b s h
    split <;> simp [h]

/-- What the end of motion does to a channel (R118, R132): nothing, or its source goes, or it parks as well. -/
theorem checkRest_drive (s : State) (c : Chan) :
    (checkRest s).drive c = s.drive c ∨
    ((s.drive c).parks = false ∨ s.isTakeChannel c = false) ∧
      ((checkRest s).drive c = { s.drive c with source := none }) ∨
    (s.drive c).parks = true ∧ (s.drive c).state ≠ .stopping ∧ s.isTakeChannel c = true ∧
      ((checkRest s).drive c = (s.drive c).park ∨ (checkRest s).drive c = { (s.drive c).park with source := none }) := by
  unfold checkRest
  split
  · next hr =>
    split
    · exact .inl rfl
    · split
      · rename_i a _ _ _
        have hp := parkTakeChannels_drive s c
        have hd : (endUnwinding a s).drive c = (parkTakeChannels s).drive c ∨
            (endUnwinding a s).drive c = { (parkTakeChannels s).drive c with source := none } := by
          unfold endUnwinding
          dsimp only
          split
          · exact .inr (clearSources_drive _ _)
          · exact .inl rfl
        have hm : s.isTakeChannel c = true → (s.drive c).state ≠ .stopping := by
          intro ht
          have := List.all_eq_true.mp hr c (mem_allChannels c)
          simpa [ht] using this
        by_cases hk : (s.isTakeChannel c && (s.drive c).parks) = true
        · rw [if_pos hk] at hp
          rw [Bool.and_eq_true] at hk
          exact .inr (.inr ⟨hk.2, hm hk.1, hk.1, by rw [hp] at hd; exact hd⟩)
        · rw [if_neg hk] at hp
          rw [hp] at hd
          rcases hd with hd | hd
          · exact .inl hd
          · refine .inr (.inl ⟨?_, hd⟩)
            rw [Bool.and_eq_true] at hk
            rcases Bool.eq_false_or_eq_true (s.drive c).parks with h | h
            · exact .inr (by rcases Bool.eq_false_or_eq_true (s.isTakeChannel c) with k | k
                             · exact absurd ⟨k, h⟩ hk
                             · exact k)
            · exact .inl h
      · exact .inl rfl
    · exact .inl rfl
  · exact .inl rfl

/-! ## The end of motion, and an unwinding (R118) -/

/-- What the start of an unwinding does to a channel. -/
theorem unwindChannels_drive (s : State) (c : Chan) : (eachChannel unwindChannel s).drive c =
    if s.isTakeChannel c ∧ (s.drive c).state = .seeking then
      if (s.drive c).seek.isSome then (s.drive c).enterStop else { s.drive c with follow := .none }
    else s.drive c := by
  refine eachChannel_drive unwindChannel (fun _ d => if d.source.isSome ∧ d.state = .seeking then
    if d.seek.isSome then d.enterStop else { d with follow := .none } else d) ?_ ?_ s c
  · intro c s
    unfold unwindChannel State.isTakeChannel
    dsimp only
    split <;> simp
  · intro c b s h
    unfold unwindChannel
    dsimp only
    split <;> simp [h]

/-- An unwinding with a take channel STOPPING goes on. -/
theorem checkRest_goesOn {s : State} (h : s.someStopping) : checkRest s = s := by
  obtain ⟨c, ht, hc⟩ := h
  unfold checkRest
  rw [if_neg]
  intro h
  have := List.all_eq_true.mp h c (by fin_cases c <;> decide)
  simp [ht, hc] at this

/-- An unwinding with none STOPPING is over. -/
theorem checkRest_unwound {s : State} {f : ArmFlight} (h : ¬s.someStopping) (hs : s.take.state = .seeking)
    (ha : s.take.arm = some f) (hf : f.phase = .unwinding) : checkRest s = endUnwinding f s := by
  unfold checkRest
  rw [if_pos]
  · simp [hs, ha, hf]
  · refine List.all_eq_true.mpr fun c _ => ?_
    by_cases ht : s.isTakeChannel c = true
    · simpa [ht] using fun hc => h ⟨c, ht, hc⟩
    · simp [ht]

/-- The end of motion leaves a STOPPING channel as it is. -/
theorem checkRest_stopping {s : State} (h : (s.drive c).state = .stopping) : (checkRest s).drive c = s.drive c := by
  rcases checkRest_drive s c with e | ⟨e, f⟩ | ⟨-, e, -⟩
  · exact e
  · rcases e with e | e
    · rw [Drive.parks, h] at e; cases e
    · rw [f]
      unfold State.isTakeChannel at e
      rw [Option.isSome_eq_false_iff, Option.isNone_iff_eq_none] at e
      rw [← e]
  · exact absurd h e

/-- Outside SEEKING the end of motion touches no channel. -/
theorem checkRest_channels {s : State} (h : s.take.state ≠ .seeking) : (checkRest s).channels = s.channels := by
  unfold checkRest
  split
  · split
    · rfl
    · next hs _ => exact absurd hs h
    · rfl
  · rfl

theorem checkRest_keepsDown (b : Chan) (s : State) : KeepsDown b s (checkRest s) := by
  intro h
  have hp : (s.drive b).parks = false := by rcases h with h | h <;> rw [Drive.parks, h]
  rcases checkRest_drive s b with e | ⟨-, e⟩ | ⟨e, -⟩
  · exact KeepsDown.of_drive e h
  · unfold State.down; rw [e]; exact h
  · rw [hp] at e; cases e

theorem hardFault_keepsDown (h : b ≠ c) (k : FaultKind) (s : State) : KeepsDown b s (hardFault c k s) := by
  unfold hardFault
  split
  · dsimp only
    refine KeepsDown.trans ?_ (.of_channels (samplerSettle_channels _))
    refine KeepsDown.trans ?_ (checkRest_keepsDown _ _)
    refine (KeepsDown.setDrive h s (((s.drive c).holdDir s.clock).hardFault k)).trans ?_
    refine (KeepsDown.of_channels (raiseCause_channels _ .channelFault (some c.val) (some k))).trans ?_
    split
    · exact .of_channels rfl
    · exact .refl _ _
  · exact .refl _ _

theorem softFault_keepsDown (h : b ≠ c) (k : FaultKind) (s : State) : KeepsDown b s (softFault c k s) :=
  ((KeepsDown.setDrive h s _).trans (.of_channels (raiseCause_channels _ _ _ _))).trans (checkRest_keepsDown _ _)

theorem becomeDone_keepsDown (h : b ≠ c) (s : State) : KeepsDown b s (becomeDone c s) :=
  (KeepsDown.setDrive h s _).trans (.of_channels (checkFinished_channels _))

theorem faults_keepsDown (h : b ≠ c) (f : FaultKind) (s : State) :
    KeepsDown b s (if f.isHard then hardFault c f s else softFault c f s) := by
  split
  · exact hardFault_keepsDown h _ _
  · exact softFault_keepsDown h _ _

theorem issueSetPoint_keepsDown (h : b ≠ c) (t : Nat) (x : Int) (s : State) : KeepsDown b s (issueSetPoint c t x s) := by
  unfold issueSetPoint
  dsimp only
  split
  · exact (KeepsDown.setDrive h s _).trans (hardFault_keepsDown h _ _)
  · exact KeepsDown.setDrive h s _

theorem monitor_keepsDown (h : b ≠ c) (s : State) : KeepsDown b s (monitor c s) := by
  unfold monitor faultOnFollow
  split
  · split
    · exact (KeepsDown.setDrive h s _).trans (hardFault_keepsDown h _ _)
    · exact KeepsDown.setDrive h s _
  · exact KeepsDown.setDrive h s _
  · exact KeepsDown.refl _ _

theorem seekStep_keepsDown (h : b ≠ c) (t : Nat) (k : Seek) (s : State) : KeepsDown b s (seekStep c t k s) := by
  unfold seekStep
  dsimp only
  split
  · exact faults_keepsDown h _ _
  · have hi (x : Int) (d : Drive) : KeepsDown b s (issueSetPoint c t x (s.setDrive c d)) :=
      (KeepsDown.setDrive h s _).trans (issueSetPoint_keepsDown h t _ _)
    split
    · exact ((hi _ _).trans (KeepsDown.setDrive h _ _)).trans (.of_channels (checkArmed_channels _))
    · exact hi _ _

theorem stopStep_keepsDown (h : b ≠ c) (t : Nat) (k : Stop) (s : State) : KeepsDown b s (stopStep c t k s) := by
  unfold stopStep
  dsimp only
  split
  · exact (KeepsDown.setDrive h s _).trans (checkRest_keepsDown _ _)
  · split
    · exact (KeepsDown.setDrive h s _).trans (faults_keepsDown h _ _)
    · exact (KeepsDown.setDrive h s _).trans (issueSetPoint_keepsDown h _ _ _)

theorem playSetPoint_keepsDown (h : b ≠ c) (now t : Nat) (x : Int) (s : State) : KeepsDown b s (playSetPoint c now t x s) := by
  unfold playSetPoint
  split
  · exact faults_keepsDown h _ _
  · exact (KeepsDown.setDrive h s _).trans (issueSetPoint_keepsDown h _ _ _)

theorem playFault_keepsDown (h : b ≠ c) (now t : Nat) (k : FaultKind) (x : Int) (s : State) :
    KeepsDown b s (playFault c now t k x s) := by
  unfold playFault
  dsimp only
  refine KeepsDown.trans (((KeepsDown.setDrive h s ((s.drive c).recordKind k)).trans
    (.of_channels (raiseCause_channels _ .channelFault (some c.val) (some k)))).trans (playSetPoint_keepsDown h now t x _)) ?_
  split
  · exact (KeepsDown.setDrive h _ _).trans (checkRest_keepsDown _ _)
  · exact .refl _ _

theorem State.putPlay_drive (s : State) (c b : Chan) (x : PlayState) : (s.putPlay c x).drive b = s.drive b :=
  State.drive_setEngine _ _ _ _

theorem playPath_keepsDown (h : b ≠ c) (now t : Nat) (first : Bool) (s : State) : KeepsDown b s (playPath c now t first s) := by
  unfold playPath
  dsimp only
  have hp (x : PlayState) : KeepsDown b s (s.putPlay c x) := .of_drive (State.putPlay_drive _ _ _ _)
  split
  · exact (hp _).trans (playSetPoint_keepsDown h _ _ _ _)
  · split
    · exact ((hp _).trans (playSetPoint_keepsDown h _ _ _ _)).trans (becomeDone_keepsDown h _)
    · exact (hp _).trans (playSetPoint_keepsDown h _ _ _ _)
  · exact (hp _).trans (playFault_keepsDown h _ _ _ _ _)

theorem stateBeat_keepsDown (h : b ≠ c) (now : Nat) (t : Option Nat) (k : Nat) (first : Bool) (s : State) :
    KeepsDown b s (stateBeat c now t k first s) := by
  unfold stateBeat
  repeat' split
  all_goals first
    | exact KeepsDown.refl _ _
    | exact issueSetPoint_keepsDown h _ _ _
    | exact seekStep_keepsDown h _ _ _
    | exact stopStep_keepsDown h _ _ _
    | (unfold playBeat
       split
       · exact playPath_keepsDown h _ _ _ _
       · exact playSetPoint_keepsDown h _ _ _ _
       · exact playSetPoint_keepsDown h _ _ _ _
       · exact issueSetPoint_keepsDown h _ _ _)

theorem driveBeat_keepsDown (h : b ≠ c) (now : Nat) (t : Option Nat) (k : Nat) (first : Bool) (s : State) :
    KeepsDown b s (driveBeat now t k first c s) := by
  unfold driveBeat
  split
  · exact (monitor_keepsDown h _).trans (stateBeat_keepsDown h _ _ _ _ _)
  · exact .refl _ _

theorem driveFreeBeat_keepsDown (h : b ≠ c) (now : Nat) (s : State) : KeepsDown b s (driveFreeBeat now c s) := by
  unfold driveFreeBeat
  split
  · exact (monitor_keepsDown h _).trans (stateBeat_keepsDown h _ _ _ _ _)
  · exact .refl _ _

/-- Where all channels but `c` are down and each operation leaves such a channel alone, all four make only the one at `c`. -/
theorem eachChannel_only (f : Chan → State → State) (hd : ∀ b s, s.down b → f b s = s)
    (hk : ∀ b c s, b ≠ c → KeepsDown b s (f c s)) {s : State} (h : ∀ b, b ≠ c → s.down b) : eachChannel f s = f c s := by
  have h' : ∀ b, b ≠ c → f b (f c s) = f c s := fun b hb => hd b _ (hk b c s hb (h b hb))
  have h0 : ∀ b, b ≠ c → f b s = s := fun b hb => hd b _ (h b hb)
  unfold eachChannel
  obtain rfl | rfl | rfl | rfl := (by decide : ∀ c : Chan, c = 0 ∨ c = 1 ∨ c = 2 ∨ c = 3) c
  · rw [h' 1 (by decide), h' 2 (by decide), h' 3 (by decide)]
  · rw [h0 0 (by decide), h' 2 (by decide), h' 3 (by decide)]
  · rw [h0 0 (by decide), h0 1 (by decide), h' 3 (by decide)]
  · rw [h0 0 (by decide), h0 1 (by decide), h0 2 (by decide)]

/-! ## A fault, an issue and an offer at channel `c` -/

/-- A soft fault (R167): the set-points stand, the kind is kept first, the channel stops or goes on stopping. -/
theorem softFault_drive (c : Chan) (f : FaultKind) (s : State) :
    let d := (softFault c f s).drive c
    d.setPoint = (s.drive c).setPoint ∧ d.previous = (s.drive c).previous ∧ (d.state = .stopping ∨ d.state = .stopped) ∧
      d.kind = some ((s.drive c).kind.getD f) := by
  unfold softFault
  dsimp only
  set e : Drive := if ((s.drive c).recordKind f).state = .stopping then (s.drive c).recordKind f
    else ((s.drive c).recordKind f).enterStop with he
  have h : e.setPoint = (s.drive c).setPoint ∧ e.previous = (s.drive c).previous ∧
      (e.state = .stopping ∨ e.state = .stopped) ∧ e.kind = some ((s.drive c).kind.getD f) := by
    rw [he]
    split
    · next hs => exact ⟨rfl, rfl, .inl hs, rfl⟩
    · unfold Drive.enterStop
      dsimp only
      split
      · exact ⟨rfl, rfl, .inr rfl, rfl⟩
      · exact ⟨rfl, rfl, .inl rfl, rfl⟩
  have hd : (raiseCause .channelFault (some c.val) (some f) (s.setDrive c e)).drive c = e := by
    rw [State.drive_def, raiseCause_channels, ← State.drive_def, State.drive_setDrive]
  rcases checkRest_drive (raiseCause .channelFault (some c.val) (some f) (s.setDrive c e)) c with k | ⟨-, k⟩ | ⟨k, l, -⟩
  · rw [k, hd]; exact h
  · rw [k, hd]; exact h
  · rw [hd] at k l
    rcases h.2.2.1 with m | m
    · exact absurd m l
    · rw [Drive.parks, m, h.2.2.2] at k; cases k

/-- A soft fault of a STOPPING channel is recorded, and the profile goes on (R146). -/
theorem softFault_stopping {s : State} (f : FaultKind) (h : (s.drive c).state = .stopping) :
    (softFault c f s).drive c = { s.drive c with kind := some ((s.drive c).kind.getD f) } := by
  unfold softFault
  dsimp only
  rw [if_pos (show ((s.drive c).recordKind f).state = .stopping from h)]
  have hd : (raiseCause .channelFault (some c.val) (some f) (s.setDrive c ((s.drive c).recordKind f))).drive c =
      (s.drive c).recordKind f := by
    rw [State.drive_def, raiseCause_channels, ← State.drive_def, State.drive_setDrive]
  rw [checkRest_stopping (by rw [hd]; exact h), hd]
  rfl

/-- A hard fault of an energized channel (R166): FAULTED with the kind, set-points and step position kept, no pulse left. -/
theorem hardFault_drive {s : State} (k : FaultKind) (h : s.energized c = true) :
    let d := (hardFault c k s).drive c
    d.state = .faulted ∧ d.kind = some k ∧ d.setPoint = (s.drive c).setPoint ∧ d.previous = (s.drive c).previous ∧
      d.stepPos = (s.drive c).stepPos ∧ d.pulses = none := by
  unfold hardFault
  rw [if_pos h]
  dsimp only
  set e := ((s.drive c).holdDir s.clock).hardFault k with he
  have h0 : e.setPoint = (s.drive c).setPoint ∧ e.previous = (s.drive c).previous ∧ e.stepPos = (s.drive c).stepPos := by
    rw [he]; exact ⟨rfl, rfl, rfl⟩
  set u := raiseCause .channelFault (some c.val) (some k) (s.setDrive c e) with hu
  set v := (if u.take.state = .armed ∧ u.isTakeChannel c = true then { u with take := { u.take with state := .held } } else u)
    with hv
  have hd : v.drive c = e := by
    have : v.channels = (s.setDrive c e).channels := by
      rw [hv, hu]; split <;> exact raiseCause_channels _ _ _ _
    rw [State.drive_def, this, ← State.drive_def, State.drive_setDrive]
  have hs : (samplerSettle (checkRest v)).drive c = (checkRest v).drive c := by
    rw [State.drive_def, samplerSettle_channels, ← State.drive_def]
  rw [hs]
  rcases checkRest_drive v c with m | ⟨-, m⟩ | ⟨m, -⟩
  · rw [m, hd]; exact ⟨rfl, rfl, h0.1, h0.2.1, h0.2.2, rfl⟩
  · rw [m, hd]; exact ⟨rfl, rfl, h0.1, h0.2.1, h0.2.2, rfl⟩
  · rw [hd, Drive.parks] at m
    rw [show e.state = .faulted from rfl] at m
    cases m

theorem Drive.issue_same (t i : Nat) (x : Int) (d : Drive) :
    (d.issue t i x).setPoint = x ∧ (d.issue t i x).stepPos = d.stepPos ∧ (d.issue t i x).state = d.state ∧
      (d.issue t i x).previous = some d.setPoint := by
  unfold Drive.issue Drive.setDir Drive.holdDir
  dsimp only
  (repeat' split) <;> exact ⟨rfl, rfl, rfl, rfl⟩

theorem State.energized_setDrive (s : State) (d : Drive) (h : d.state = (s.drive c).state) :
    (s.setDrive c d).energized c = s.energized c := by
  rw [State.energized, State.energized, State.drive_setDrive, h]; rfl

/-- A set-point issued (R158): the drive that issues it, or STEP_BACKLOG. -/
theorem issueSetPoint_drive {s : State} (t : Nat) (x : Int) (h : s.energized c = true) :
    ((x - (s.drive c).stepPos).natAbs ≤ 2 * (s.setup c).maxStep →
      issueSetPoint c t x s = s.setDrive c ((s.drive c).issue t s.interval x)) ∧
    (2 * (s.setup c).maxStep < (x - (s.drive c).stepPos).natAbs →
      ((issueSetPoint c t x s).drive c).state = .faulted ∧
      ((issueSetPoint c t x s).drive c).kind = some .stepBacklog ∧ ((issueSetPoint c t x s).drive c).setPoint = x) := by
  have hb : ((s.setDrive c ((s.drive c).issue t s.interval x)).drive c).backlog.natAbs = (x - (s.drive c).stepPos).natAbs := by
    rw [State.drive_setDrive, Drive.backlog, (Drive.issue_same _ _ _ _).1, (Drive.issue_same _ _ _ _).2.1]
  unfold issueSetPoint
  dsimp only
  rw [hb]
  constructor
  · intro hl
    rw [if_neg (Nat.not_lt.mpr hl)]
  · intro hl
    rw [if_pos hl]
    have := hardFault_drive (c := c) (s := s.setDrive c ((s.drive c).issue t s.interval x)) .stepBacklog
      (by rw [State.energized_setDrive _ _ (Drive.issue_same _ _ _ _).2.2.1]; exact h)
    refine ⟨this.1, this.2.1, this.2.2.1.trans ?_⟩
    rw [State.drive_setDrive, (Drive.issue_same _ _ _ _).1]

theorem faults_drive {s : State} (f : FaultKind) (h : s.energized c = true) :
    let d := (if f.isHard then hardFault c f s else softFault c f s).drive c
    d.setPoint = (s.drive c).setPoint ∧ d.previous = (s.drive c).previous ∧
      (f.isHard = true → d.state = .faulted ∧ d.kind = some f) ∧
      (f.isHard = false → (d.state = .stopping ∨ d.state = .stopped) ∧ d.kind = some ((s.drive c).kind.getD f)) := by
  cases hf : f.isHard
  · obtain ⟨h1, h2, h3, h4⟩ := softFault_drive c f s
    exact ⟨h1, h2, fun k => (Bool.false_ne_true k).elim, fun _ => ⟨h3, h4⟩⟩
  · obtain ⟨h1, h2, h3, h4, -⟩ := hardFault_drive (s := s) f h
    exact ⟨h3, h4, fun _ => ⟨h1, h2⟩, fun k => (Bool.false_ne_true k.symm).elim⟩

/-- A set-point that nothing checks, a held one (R155): it is issued again. -/
theorem holdStill_drive {s : State} (t : Nat) (h : s.energized c = true) :
    ((s.drive c).backlog.natAbs ≤ 2 * (s.setup c).maxStep →
      holdStill c t s = s.setDrive c ((s.drive c).issue t s.interval (s.drive c).setPoint)) ∧
    (2 * (s.setup c).maxStep < (s.drive c).backlog.natAbs → ((holdStill c t s).drive c).state = .faulted ∧
      ((holdStill c t s).drive c).kind = some .stepBacklog ∧
      ((holdStill c t s).drive c).setPoint = (s.drive c).setPoint) := issueSetPoint_drive t _ h

/-- An unchanged set-point passes every check (R157). -/
theorem offerCheck_same (d : Drive) (u : Setup) : offerCheck d u d.setPoint = none := by
  rw [offerCheck, if_pos rfl]

/-- The offer that a PLAYING channel makes of set-point `x` of take sub-beat `t` (R156 steps 3 to 5). -/
theorem playSetPoint_offered {s u : State} (now t : Nat) (x : Int) (hu : u.setup c = s.setup c) (h : u.energized c = true) :
    s.Offered (playSetPoint c now t x u) c x (u.drive c)
      ({ u.drive c with playedNext := t + 1 }.issue now u.interval x) := by
  have hw : (u.setDrive c { u.drive c with playedNext := t + 1 }).energized c = true := by
    rw [State.energized_setDrive]; exact h; rfl
  have hi := issueSetPoint_drive (c := c) (s := u.setDrive c { u.drive c with playedNext := t + 1 }) now x hw
  simp only [State.drive_setDrive, State.setup_setDrive, hu] at hi
  unfold playSetPoint
  rw [hu]
  constructor
  · intro h1 h2
    rw [h1]
    dsimp only
    rw [hi.1 h2, State.drive_setDrive]
    rfl
  · intro h1 h2
    rw [h1]
    exact hi.2 h2
  · intro f h1
    rw [h1]
    exact faults_drive f h

/-! ## The following monitor (R164) -/

/-- The monitor lets a channel go on: its count alone moves. -/
theorem monitor_follows {s : State} (h : s.follows c) : monitor c s = s.setDrive c (s.monitored c) := by
  unfold State.follows at h
  unfold monitor followingError State.monitored
  unfold State.errorsAfter at *
  cases hf : s.feedback c with
  | none => exact (s.setDrive_drive c).symm
  | some y =>
    have hy := h y hf
    rw [hf] at hy
    dsimp only at hy ⊢
    by_cases hl : (s.setup c).followLimit < (y - (s.drive c).setPoint).natAbs
    · rw [if_pos hl] at hy ⊢
      rw [decide_eq_true hl]
      dsimp only
      rw [faultOnFollow, State.drive_setDrive, if_neg (by dsimp only; omega)]
    · rw [if_neg hl]
      rw [decide_eq_false hl]

/-- A count of 2 is hard fault FOLLOW_ERROR, found before anything is issued. -/
theorem monitor_faults {s : State} {y : Int} (hf : s.feedback c = some y) (h : 2 ≤ s.errorsAfter c) :
    monitor c s = hardFault c .followError (s.setDrive c (s.monitored c)) := by
  unfold State.errorsAfter at h
  unfold monitor followingError State.monitored State.errorsAfter
  rw [hf] at h ⊢
  dsimp only at h ⊢
  by_cases hl : (s.setup c).followLimit < (y - (s.drive c).setPoint).natAbs
  · rw [if_pos hl] at h ⊢
    rw [decide_eq_true hl]
    dsimp only
    rw [faultOnFollow, State.drive_setDrive, if_pos (by dsimp only; omega)]
  · rw [if_neg hl] at h
    cases h

/-! ## SUB_BEAT and FREE_SUB_BEAT with one channel energized -/

/-- The state in which the drives meet sub-beat `k` issued at microsecond `e` (R69, R73). -/
def State.atBeat (s : State) (k e : Nat) : State :=
  consumeCues (noteTakeSubBeat (s.takeSubBeat k)
    { s.atTime (e * Config.tick) with timer := { s.timer with latest := some e } })

theorem State.atBeat_channels (s : State) (k e : Nat) : (s.atBeat k e).channels = s.channels := by
  unfold State.atBeat noteTakeSubBeat consumeCues
  split <;> rfl

theorem State.atBeat_same (s : State) (k e : Nat) : (s.atBeat k e).port = s.port ∧ (s.atBeat k e).sampler = s.sampler ∧
    (s.atBeat k e).subBeats = s.subBeats ∧ (s.atBeat k e).timer = { s.timer with latest := some e } ∧
    (s.atBeat k e).take = { s.take with latest := (s.atBeat k e).take.latest } ∧
    (s.board.consumed = [] → (s.atBeat k e).board = s.board) := by
  unfold State.atBeat noteTakeSubBeat consumeCues
  split <;> refine ⟨rfl, rfl, rfl, rfl, rfl, fun h => ?_⟩ <;> dsimp only [State.atTime] <;> rw [h] <;>
    simp only [List.foldl_nil] <;> rw [← h]

theorem State.atBeat_drive (s : State) (k e : Nat) : (s.atBeat k e).drive = s.drive := by
  funext b; rw [State.drive_def, s.atBeat_channels]; rfl

theorem State.atBeat_engine (s : State) (k e : Nat) : (s.atBeat k e).engine = s.engine := by
  funext b; rw [State.engine_def, s.atBeat_channels]; rfl

theorem State.atBeat_setup (s : State) (k e : Nat) : (s.atBeat k e).setup = s.setup := by
  funext b; rw [State.setup_def, s.atBeat_channels]; rfl

theorem State.atBeat_energized (s : State) (k e : Nat) (c : Chan) : (s.atBeat k e).energized c = s.energized c := by
  rw [State.energized, s.atBeat_drive, (s.atBeat_same k e).2.2.2.2.1]; rfl

theorem State.atBeat_interval (s : State) (k e : Nat) : (s.atBeat k e).interval = s.interval := by
  rw [State.interval, (s.atBeat_same k e).2.2.2.1, (s.atBeat_same k e).2.2.1]; rfl

theorem State.atBeat_feedback (s : State) (k e : Nat) (c : Chan) : (s.atBeat k e).feedback c = s.feedback c := by
  simp only [State.feedback, s.atBeat_drive, s.atBeat_setup, (s.atBeat_same k e).2.1]

theorem State.atBeat_monitored (s : State) (k e : Nat) (c : Chan) : (s.atBeat k e).monitored c = s.monitored c := by
  simp only [State.monitored, State.errorsAfter, s.atBeat_drive, s.atBeat_setup, s.atBeat_feedback]

/-- The state in which the drive of a channel that its monitor lets go on meets the sub-beat. -/
def State.beating (s : State) (k e : Nat) (c : Chan) : State := (s.atBeat k e).setDrive c (s.monitored c)

theorem monitor_atBeat {s : State} (k e : Nat) (h : s.follows c) : monitor c (s.atBeat k e) = s.beating k e c := by
  have hf : (s.atBeat k e).follows c := by
    simpa only [State.follows, State.errorsAfter, s.atBeat_drive, s.atBeat_setup, s.atBeat_feedback] using h
  rw [monitor_follows hf, s.atBeat_monitored]
  rfl

theorem State.beating_same (s : State) (k e : Nat) (c : Chan) : (s.beating k e c).drive c = s.monitored c ∧
    (s.beating k e c).engine = s.engine ∧ (s.beating k e c).setup = s.setup ∧ (s.beating k e c).port = s.port ∧
    (s.beating k e c).interval = s.interval ∧ (s.beating k e c).energized c = s.energized c ∧
    (s.beating k e c).subBeats = s.subBeats ∧
    (s.beating k e c).take = { s.take with latest := (s.beating k e c).take.latest } ∧
    (s.board.consumed = [] → (s.beating k e c).board = s.board) := by
  unfold State.beating
  refine ⟨State.drive_setDrive _ _ _, ?_, ?_, (s.atBeat_same k e).1, ?_, ?_, (s.atBeat_same k e).2.2.1,
    (s.atBeat_same k e).2.2.2.2.1, (s.atBeat_same k e).2.2.2.2.2⟩
  · funext b; rw [State.engine_setDrive, s.atBeat_engine]
  · rw [State.setDrive_setup, s.atBeat_setup]
  · exact s.atBeat_interval k e
  · rw [State.energized_setDrive _ _ (by rw [s.atBeat_drive]; rfl), s.atBeat_energized]

theorem driveBeat_down {s : State} (h : s.down b) (now : Nat) (t : Option Nat) (k : Nat) (first : Bool) :
    driveBeat now t k first b s = s := by
  unfold driveBeat
  rw [if_neg (by rw [h.energized]; exact Bool.false_ne_true)]

theorem driveFreeBeat_down {s : State} (h : s.down b) (now : Nat) : driveFreeBeat now b s = s := by
  unfold driveFreeBeat
  rw [if_neg (by rw [h.energized]; simp)]

/-- SUB_BEAT where channel `c` alone is energized: what its drive does, then the cues consumed; the other channels stand. -/
theorem subBeat_alone {s : State} {k e : Nat} (h : s.dueAt k e) (ha : s.alone c) :
    let u := stateBeat c (e * Config.tick) (s.takeSubBeat k) k false (monitor c (s.atBeat k e))
    ∃ t, exec .subBeat s = .next t ∧ t.channels = u.channels ∧ t.port = u.port ∧ t.board = (consumeCues u).board := by
  obtain ⟨due, q, p, h1, h2, h3, rfl⟩ := h
  refine ⟨scheduledBeat k due q p s, ?_, ?_⟩
  · change execSubBeat s = _
    unfold execSubBeat
    rw [h1, h2, h3]
  · unfold scheduledBeat issueBeat
    dsimp only
    have hs : consumeCues (noteTakeSubBeat ((s.atTime (max (micros s.clock) due * Config.tick)).takeSubBeat k)
        { s.atTime (max (micros s.clock) due * Config.tick) with
          timer := { (s.atTime (max (micros s.clock) due * Config.tick)).timer with
            latest := some (max (micros s.clock) due) } }) = s.atBeat k (max (micros s.clock) due) := rfl
    rw [hs]
    set e := max (micros s.clock) due with he
    have hc : (s.atBeat k e).energized c = true := by
      rw [State.energized, State.drive_def, s.atBeat_channels, (s.atBeat_same k e).2.2.2.2.1]
      exact ha.1
    rw [eachChannel_only (c := c) _ (fun b s hb => driveBeat_down hb _ _ _ _)
      (fun b c s hb => driveBeat_keepsDown hb _ _ _ _ s)
      (fun b hb => KeepsDown.of_channels (s.atBeat_channels k e) (ha.down hb))]
    unfold driveBeat
    rw [if_pos hc]
    refine ⟨?_, ?_, ?_⟩
    · rw [samplerTrigger_channels, checkFinished_channels]
      rfl
    · simp only [samplerTrigger_frame, checkFinished_frame]
      rfl
    · simp only [samplerTrigger_frame, checkFinished_frame]
      rfl

/-- SUB_BEAT where channel `c` alone is energized and its monitor lets it go on. -/
theorem subBeat_alone_follows {s : State} {k e : Nat} (h : s.dueAt k e) (ha : s.alone c) (hf : s.follows c) :
    let u := stateBeat c (e * Config.tick) (s.takeSubBeat k) k false (s.beating k e c)
    ∃ t, exec .subBeat s = .next t ∧ t.drive c = u.drive c ∧ t.engine c = u.engine c ∧ t.port = u.port ∧
      t.board = (consumeCues u).board := by
  obtain ⟨t, h1, h2, h3, h4⟩ := subBeat_alone h ha
  rw [monitor_atBeat k e hf] at h2 h3 h4
  exact ⟨t, h1, by rw [State.drive_def, h2]; rfl, by rw [State.engine_def, h2]; rfl, h3, h4⟩

/-- FREE_SUB_BEAT where channel `c` alone is energized, and STOPPING. -/
theorem freeSubBeat_alone {s : State} {e : Nat} (h : s.freeAt e) (ha : s.alone c) (hs : (s.drive c).state = .stopping) :
    let s1 := { s.atTime (e * Config.tick) with timer := { s.timer with latest := some e } }
    let u := stateBeat c (e * Config.tick) none 0 false (monitor c s1)
    ∃ t, exec .freeSubBeat s = .next t ∧ t.channels = u.channels ∧ t.port = u.port ∧ t.board = u.board := by
  obtain ⟨q, p, h1, h2, h3, rfl⟩ := h
  refine ⟨freeBeat q p s, ?_, ?_⟩
  · change execFreeSubBeat s = _
    unfold execFreeSubBeat
    rw [h1, h2, h3]
    dsimp only
    rw [if_pos]
    exact List.any_eq_true.mpr ⟨c, mem_allChannels c, decide_eq_true hs⟩
  · set e := max (micros s.clock) (max (q + p) (s.timer.latest.getD q + p / s.subBeats)) with he
    dsimp only
    set s1 : State := { s.atTime (e * Config.tick) with timer := { s.timer with latest := some e } } with h1
    have hk : freeBeat q p s = samplerTrigger (e * Config.tick) (eachChannel (driveFreeBeat (e * Config.tick)) s1) := rfl
    have hd : ∀ b, b ≠ c → s1.down b := fun b hb => ha.down hb
    rw [hk, eachChannel_only (c := c) (s := s1) (driveFreeBeat (e * Config.tick)) (fun b s hb => driveFreeBeat_down hb _)
      (fun b c s hb => driveFreeBeat_keepsDown hb _ s) hd]
    unfold driveFreeBeat
    rw [if_pos (⟨ha.1, hs⟩ : s1.energized c = true ∧ (s1.drive c).state = .stopping)]
    exact ⟨samplerTrigger_channels _ _, (samplerTrigger_frame _ _).2.2.1, (samplerTrigger_frame _ _).2.2.2.2.2.2.1⟩

end Sys2Proof.Machine
end

