-- ==== Sys2Proof/Laws/Ring.lean ====
section
/-! SUPPORT. Path rings: reading an entry after a write, and the canonical form that every ring operation keeps. -/

-- One thread: as one text the package would start more than the memory limit lets through.
set_option Elab.async false

namespace Sys2Proof.Machine

/-- The canonical form without its Bool: positions rising and below 1024, no blank entry. -/
theorem ringWf_iff (r : List (Nat × Entry)) :
    ringWf r = true ↔ r.Pairwise (fun a b => a.1 < b.1) ∧ ∀ x ∈ r, x.1 < Config.ringSize ∧ x.2 ≠ Entry.blank := by
  induction r with
  | nil => simp [ringWf]
  | cons a t ih =>
    cases t with
    | nil => obtain ⟨p, e⟩ := a; simp [ringWf]
    | cons b u =>
      obtain ⟨p, e⟩ := a
      obtain ⟨q, f⟩ := b
      simp only [ringWf, Bool.and_eq_true, decide_eq_true_eq, ih]
      constructor
      · rintro ⟨⟨hpq, he⟩, hpw, hall⟩
        refine ⟨List.pairwise_cons.2 ⟨?_, hpw⟩, ?_⟩
        · intro x hx
          rcases List.mem_cons.1 hx with rfl | hx
          · exact hpq
          · exact lt_trans hpq ((List.pairwise_cons.1 hpw).1 x hx)
        · intro x hx
          rcases List.mem_cons.1 hx with rfl | hx
          · exact ⟨lt_trans hpq (hall (q, f) (by simp)).1, he⟩
          · exact hall x hx
      · rintro ⟨hpw, hall⟩
        exact ⟨⟨(List.pairwise_cons.1 hpw).1 (q, f) (by simp), (hall (p, e) (by simp)).2⟩,
          (List.pairwise_cons.1 hpw).2, fun x hx => hall x (List.mem_cons_of_mem _ hx)⟩

@[simp] theorem ringWf_nil : ringWf [] = true := rfl

theorem ringWf_tail {a : Nat × Entry} {r : List (Nat × Entry)} (h : ringWf (a :: r) = true) : ringWf r = true := by
  rw [ringWf_iff] at *
  exact ⟨(List.pairwise_cons.1 h.1).2, fun x hx => h.2 x (List.mem_cons_of_mem _ hx)⟩

/-- A position below every listed one reads as blank. -/
theorem ringGet_below {r : List (Nat × Entry)} {p : Nat} (h : ∀ x ∈ r, p < x.1) : ringGet r p = Entry.blank := by
  induction r with
  | nil => rfl
  | cons a t ih =>
    obtain ⟨q, e⟩ := a
    have hq : q ≠ p := Nat.ne_of_gt (h (q, e) (by simp))
    simp [ringGet, hq, ih (fun x hx => h x (List.mem_cons_of_mem _ hx))]

/-- The entries after a write: the written one or an old one. -/
theorem mem_ringPut {r : List (Nat × Entry)} {p : Nat} {e : Entry} {x : Nat × Entry} (h : x ∈ ringPut r p e) :
    (x = (p, e) ∧ e ≠ Entry.blank) ∨ x ∈ r := by
  induction r with
  | nil =>
    simp only [ringPut] at h
    split at h
    · cases h
    · rename_i hb; exact Or.inl ⟨List.mem_singleton.1 h, hb⟩
  | cons a t ih =>
    obtain ⟨q, f⟩ := a
    simp only [ringPut] at h
    split at h
    · split at h
      · exact Or.inr h
      · rename_i hb
        rcases List.mem_cons.1 h with rfl | h
        · exact Or.inl ⟨rfl, hb⟩
        · exact Or.inr h
    · split at h
      · split at h
        · exact Or.inr (List.mem_cons_of_mem _ h)
        · rename_i hb
          rcases List.mem_cons.1 h with rfl | h
          · exact Or.inl ⟨rfl, hb⟩
          · exact Or.inr (List.mem_cons_of_mem _ h)
      · rcases List.mem_cons.1 h with rfl | h
        · exact Or.inr (by simp)
        · rcases ih h with h | h
          · exact Or.inl h
          · exact Or.inr (List.mem_cons_of_mem _ h)

/-- A write at a ring position keeps the canonical form. -/
theorem ringWf_ringPut {r : List (Nat × Entry)} {p : Nat} (e : Entry) (h : ringWf r = true) (hp : p < Config.ringSize) :
    ringWf (ringPut r p e) = true := by
  rw [ringWf_iff] at *
  refine ⟨?_, ?_⟩
  · induction r with
    | nil => simp only [ringPut]; split <;> simp
    | cons a t ih =>
      obtain ⟨q, f⟩ := a
      have ht := ih ⟨(List.pairwise_cons.1 h.1).2, fun x hx => h.2 x (List.mem_cons_of_mem _ hx)⟩
      have hlt := (List.pairwise_cons.1 h.1).1
      simp only [ringPut]
      split
      · rename_i hpq
        split
        · exact h.1
        · refine List.pairwise_cons.2 ⟨?_, h.1⟩
          intro x hx
          rcases List.mem_cons.1 hx with rfl | hx
          · exact hpq
          · exact lt_trans hpq (hlt x hx)
      · split
        · rename_i hpq
          split
          · exact (List.pairwise_cons.1 h.1).2
          · refine List.pairwise_cons.2 ⟨?_, (List.pairwise_cons.1 h.1).2⟩
            intro x hx
            exact hpq ▸ hlt x hx
        · rename_i h1 h2
          refine List.pairwise_cons.2 ⟨?_, ht⟩
          intro x hx
          rcases mem_ringPut hx with ⟨rfl, _⟩ | hx
          · exact lt_of_le_of_ne (not_lt.1 h1) (Ne.symm h2)
          · exact hlt x hx
  · intro x hx
    rcases mem_ringPut hx with ⟨rfl, hb⟩ | hx
    · exact ⟨hp, hb⟩
    · exact h.2 x hx

/-- The written position reads as the entry written. -/
theorem ringGet_ringPut_same {r : List (Nat × Entry)} (p : Nat) (e : Entry) (h : ringWf r = true) :
    ringGet (ringPut r p e) p = e := by
  induction r with
  | nil =>
    simp only [ringPut]
    split
    · rename_i hb; simp [ringGet, hb]
    · simp [ringGet]
  | cons a t ih =>
    obtain ⟨q, f⟩ := a
    have hlt := (List.pairwise_cons.1 ((ringWf_iff _).1 h).1).1
    simp only [ringPut]
    split
    · rename_i hpq
      split
      · rename_i hb
        rw [hb]
        apply ringGet_below
        intro x hx
        rcases List.mem_cons.1 hx with rfl | hx
        · exact hpq
        · exact lt_trans hpq (hlt x hx)
      · simp [ringGet]
    · split
      · rename_i hpq
        split
        · rename_i hb
          rw [hb]
          apply ringGet_below
          intro x hx
          exact hpq ▸ hlt x hx
        · simp [ringGet]
      · rename_i h1 h2
        simp [ringGet, Ne.symm h2, ih (ringWf_tail h)]

/-- Every other position reads as before. -/
theorem ringGet_ringPut_ne {r : List (Nat × Entry)} {p x : Nat} (e : Entry) (hx : x ≠ p) (h : ringWf r = true) :
    ringGet (ringPut r p e) x = ringGet r x := by
  induction r with
  | nil => simp only [ringPut]; split <;> simp [ringGet, Ne.symm hx]
  | cons a t ih =>
    obtain ⟨q, f⟩ := a
    have hlt := (List.pairwise_cons.1 ((ringWf_iff _).1 h).1).1
    simp only [ringPut]
    split
    · split <;> simp [ringGet, Ne.symm hx]
    · split
      · rename_i hpq
        subst hpq
        split
        · simp [ringGet, Ne.symm hx]
        · simp [ringGet, Ne.symm hx]
      · simp [ringGet, ih (ringWf_tail h)]

theorem ringStep_lt (p k : Nat) : ringStep p k < Config.ringSize := Nat.mod_lt _ (by decide)

/-- A position that a canonical ring lists is below 1024; an unlisted one reads as blank. -/
theorem ringGet_of_not_lt {r : List (Nat × Entry)} {p : Nat} (h : ringWf r = true) (hp : ¬ p < Config.ringSize) :
    ringGet r p = Entry.blank := by
  induction r with
  | nil => rfl
  | cons a t ih =>
    obtain ⟨q, f⟩ := a
    have hq : q ≠ p := by
      rintro rfl
      exact hp (((ringWf_iff _).1 h).2 (q, f) (by simp)).1
    simp [ringGet, hq, ih (ringWf_tail h)]

/-- A stamp written at a ring position keeps the canonical form. -/
theorem ringWf_ringStamp {r : List (Nat × Entry)} {p : Nat} (st : Stamp) (h : ringWf r = true)
    (hp : p < Config.ringSize) : ringWf (ringStamp r p st) = true := ringWf_ringPut _ h hp

/-- A LOAD's writes keep the canonical form. -/
theorem ringWf_writeEntries (es : List Entry) : ∀ {r : List (Nat × Entry)} {p : Nat}, ringWf r = true →
    p < Config.ringSize → ringWf (writeEntries r p es) = true := by
  induction es with
  | nil => intro r p h _; exact h
  | cons e es ih => intro r p h hp; exact ih (ringWf_ringPut e h hp) (ringStep_lt p 1)

end Sys2Proof.Machine
end

