-- ==== Sys2Proof/Laws/Paths.lean ====
section
/-! SUPPORT. What taking a record, advancing and completing do to a path in order (Path.Ok): one lemma per operation, for play
and for the scan. -/

-- One thread: as one text the package would start more than the memory limit lets through.
set_option Elab.async false

namespace Sys2Proof.Machine

theorem Path.reset_ok : Path.reset.Ok := by
  constructor <;> simp [Path.reset, Config.ringSize, Config.loopLimit]

/-- Path.Ok speaks of head, stack, record in progress, zero-time count and table alone. -/
theorem Path.Ok.congr {p q : Path} (h : p.Ok) (h1 : q.head = p.head) (h2 : q.stack = p.stack)
    (h3 : q.progress = p.progress) (h4 : q.zero = p.zero) (h5 : q.table = p.table) : q.Ok where
  head := h1 ▸ h.head
  stack := h2 ▸ h.stack
  opens := h2 ▸ h.opens
  progress := h3 ▸ h.progress
  zero := h4 ▸ h.zero
  table := h5 ▸ h.table
  places := h5 ▸ h.places
  copies := h5 ▸ h.copies

theorem Path.Ok.past {p : Path} (h : p.Ok) : p.past.Ok :=
  { h with head := ringStep_lt _ _ }

theorem Path.Ok.reported {p : Path} (h : p.Ok) (pos : Nat) (b : Bool) : (p.reported pos b).Ok := by
  unfold Path.reported
  split
  · exact { h with }
  · exact h

theorem Path.Ok.counted {p : Path} (h : p.Ok) (hz : ¬ Config.zeroTimeLimit ≤ p.zero) : p.counted.Ok :=
  { h with zero := by simp only [Path.counted]; omega }

@[simp] theorem Path.reported_zero (p : Path) (pos : Nat) (b : Bool) : (p.reported pos b).zero = p.zero := by
  unfold Path.reported; split <;> rfl

theorem Path.Ok.offer {p : Path} (h : p.Ok) (t pos : Nat) (hp : pos < Config.ringSize) : (p.offer t pos).Ok := by
  unfold Path.offer
  split
  · exact h
  · have hk : ∀ q, q ∈ (if Config.checkpointLimit ≤ p.table.length then p.table.tail else p.table) → q ∈ p.table := by
      intro q hq
      split at hq
      · exact List.mem_of_mem_tail hq
      · exact hq
    refine { h with table := ?_, places := ?_, copies := ?_ }
    · have := h.table
      simp only [List.length_append, List.length_singleton]
      split
      · rw [List.length_tail]; simp only [Config.checkpointLimit] at *; omega
      · omega
    · intro q hq
      rcases List.mem_append.1 hq with hq | hq
      · exact h.places q (hk q hq)
      · rw [List.mem_singleton.1 hq]; exact hp
    · intro q hq
      rcases List.mem_append.1 hq with hq | hq
      · exact h.copies q (hk q hq)
      · rw [List.mem_singleton.1 hq]; exact ⟨h.stack, h.opens⟩

@[simp] theorem Path.offer_head (p : Path) (t pos : Nat) : (p.offer t pos).head = p.head := by
  unfold Path.offer; split <;> rfl

/-- What taking a record from a path in order leaves: a path in order, and a stamp at the record's own position. -/
structure Taken.Ok (p : Path) (k : Taken) : Prop where
  path : k.path.Ok
  stamp : ∀ x ∈ k.stamp, x.1 = p.head

theorem raises_ok {p : Path} (h : p.Ok) (k : FaultKind) : (raises k p).Ok p :=
  ⟨h, fun _ hx => by cases hx⟩

theorem takeShape_ok {p : Path} (h : p.Ok) (a : EvalAt) (pr : Profile) (n d : Nat) (b : Bool) :
    (takeShape a pr n d b p).Ok p := by
  unfold takeShape
  split
  · exact raises_ok h _
  · rename_i hz
    have h1 : Path.Ok { p.past with shape := { profile := pr, num := n, den := d } } :=
      h.past.congr rfl rfl rfl rfl rfl
    refine ⟨Path.Ok.counted (h1.reported _ _) (by simpa [Path.past] using hz), ?_⟩
    intro x hx; cases hx; rfl

theorem takeSpan_ok {p : Path} (h : p.Ok) (a : EvalAt) (d : Int) (l : Nat) : (takeSpan a d l p).Ok p := by
  refine ⟨Path.Ok.past (Path.Ok.offer (p := { p with progress := _ }) ?_ _ _ h.head), fun x hx => by cases hx⟩
  exact { h with progress := by intro x hx; cases hx; exact h.head }

theorem takeDwell_ok {p : Path} (h : p.Ok) (a : EvalAt) (l : Nat) : (takeDwell a l p).Ok p := by
  refine ⟨Path.Ok.past (Path.Ok.offer (p := { p with progress := _ }) ?_ _ _ h.head), fun x hx => by cases hx⟩
  exact { h with progress := by intro x hx; cases hx; exact h.head }

theorem takeLoopOpen_ok {p : Path} (h : p.Ok) (a : EvalAt) (n : Nat) (b : Bool) : (takeLoopOpen a n b p).Ok p := by
  unfold takeLoopOpen
  split
  · exact raises_ok h _
  · rename_i hz
    split
    · exact raises_ok h _
    · rename_i hl
      have h1 : Path.Ok { p.past with stack := { openAt := ringStep p.head 1, remaining := n } :: p.stack } := by
        refine { h.past with stack := ?_, opens := ?_ }
        · show p.stack.length + 1 ≤ Config.loopLimit
          omega
        · intro l hl
          rcases List.mem_cons.1 hl with rfl | hl
          · exact ringStep_lt _ _
          · exact h.opens l hl
      refine ⟨Path.Ok.counted (h1.reported _ _) (by simpa [Path.past] using hz), ?_⟩
      · intro x hx; cases hx; rfl

theorem takeLoopClose_ok {p : Path} (h : p.Ok) (a : EvalAt) (b : Bool) : (takeLoopClose a b p).Ok p := by
  unfold takeLoopClose
  split
  · exact raises_ok h _
  · rename_i hz
    split
    · exact raises_ok h _
    · rename_i l rest hs
      have hlen := h.stack
      have hop := h.opens
      rw [hs] at hlen hop
      have h1 : (if 1 < l.remaining then
          { p with head := l.openAt, stack := { l with remaining := l.remaining - 1 } :: rest }
          else { p.past with stack := rest } : Path).Ok ∧ (if 1 < l.remaining then
          { p with head := l.openAt, stack := { l with remaining := l.remaining - 1 } :: rest }
          else { p.past with stack := rest } : Path).zero = p.zero := by
        split
        · refine ⟨{ h with head := hop l (by simp), stack := by simpa using hlen, opens := ?_ }, rfl⟩
          intro x hx
          rcases List.mem_cons.1 hx with rfl | hx
          · exact hop l (by simp)
          · exact hop x (List.mem_cons_of_mem _ hx)
        · refine ⟨{ h.past with stack := ?_, opens := fun x hx => hop x (List.mem_cons_of_mem _ hx) }, rfl⟩
          show rest.length ≤ Config.loopLimit
          simp only [List.length_cons] at hlen; omega
      refine ⟨Path.Ok.counted (Path.Ok.reported h1.1 _ _) ?_, ?_⟩
      · rw [Path.reported_zero, h1.2]; exact hz
      · intro x hx; cases hx; rfl

theorem passAtOnce_ok {p : Path} (h : p.Ok) (st : Stamp) (b : Bool) (c : Option Nat) : (passAtOnce st b c p).Ok p := by
  unfold passAtOnce
  split
  · exact raises_ok h _
  · rename_i hz
    refine ⟨Path.Ok.counted (Path.Ok.reported h.past _ _) (by simpa [Path.past] using hz), ?_⟩
    intro x hx; cases hx; rfl

theorem beginWait_ok {p : Path} (h : p.Ok) (a : EvalAt) (c t : Nat) (act : OnTimeout) : (beginWait a c t act p).Ok p := by
  refine ⟨{ h.past with progress := ?_ }, fun x hx => by cases hx⟩
  intro x hx; cases hx; exact h.head

theorem takeWaitInPlay_ok {p : Path} (h : p.Ok) (a : EvalAt) (b : Bool) (e : Entry) (c t : Nat) (act : OnTimeout) :
    (takeWaitInPlay a b e c t act p).Ok p := by
  unfold takeWaitInPlay
  (repeat' split) <;> first | exact raises_ok h _ | exact passAtOnce_ok h _ _ _ | exact beginWait_ok h _ _ _ _

theorem takeWaitInScan_ok {p : Path} (h : p.Ok) (a : EvalAt) (e : Entry) (c t : Nat) (act : OnTimeout) :
    (takeWaitInScan a e c t act p).Ok p := by
  unfold takeWaitInScan
  (repeat' split) <;> first
    | exact raises_ok h _ | exact passAtOnce_ok h _ _ _ | exact beginWait_ok h _ _ _ _
    | exact ⟨h, fun x hx => by cases hx⟩

theorem takeEmitInPlay_ok {p : Path} (h : p.Ok) (a : EvalAt) (cues : List Nat) (c : Nat) (b : Bool) :
    (takeEmitInPlay a cues c b p).Ok p := by
  unfold takeEmitInPlay
  split
  · exact raises_ok h _
  · rename_i hz
    split
    · exact raises_ok h _
    · refine ⟨Path.Ok.counted (Path.Ok.reported h.past _ _) (by simpa [Path.past] using hz), ?_⟩
      intro x hx; cases hx; rfl

theorem takeEmitInScan_ok {p : Path} (h : p.Ok) (a : EvalAt) (b : Bool) : (takeEmitInScan a b p).Ok p := by
  unfold takeEmitInScan
  split
  · exact raises_ok h _
  · rename_i hz
    refine ⟨Path.Ok.counted (Path.Ok.reported h.past _ _) (by simpa [Path.past] using hz), ?_⟩
    intro x hx; cases hx; rfl

theorem takeEnd_ok {p : Path} (h : p.Ok) (a : EvalAt) (b : Bool) : (takeEnd a b p).Ok p := by
  have h1 : Path.Ok { p.past with ended := true } := h.past.congr rfl rfl rfl rfl rfl
  refine ⟨h1.reported _ _, ?_⟩
  intro x hx; cases hx; rfl

theorem takeInPlay_ok {p : Path} (h : p.Ok) (a : EvalAt) (b : Nat → Bool) (cues : List Nat) (e : Entry) :
    (takeInPlay a b cues e p).Ok p := by
  unfold takeInPlay
  split
  · exact raises_ok h _
  · exact raises_ok h _
  · exact takeShape_ok h _ _ _ _ _
  · exact takeSpan_ok h _ _ _
  · exact takeDwell_ok h _ _
  · exact takeLoopOpen_ok h _ _ _
  · exact takeLoopClose_ok h _ _
  · exact takeWaitInPlay_ok h _ _ _ _ _ _
  · exact takeEmitInPlay_ok h _ _ _ _
  · exact takeEnd_ok h _ _

theorem takeInScan_ok {p : Path} (h : p.Ok) (a : EvalAt) (e : Entry) : (takeInScan a e p).Ok p := by
  unfold takeInScan
  split
  · exact raises_ok h _
  · exact raises_ok h _
  · exact takeShape_ok h _ _ _ _ _
  · exact takeSpan_ok h _ _ _
  · exact takeDwell_ok h _ _
  · exact takeLoopOpen_ok h _ _ _
  · exact takeLoopClose_ok h _ _
  · exact takeWaitInScan_ok h _ _ _ _ _
  · exact takeEmitInScan_ok h _ _
  · exact takeEnd_ok h _ _

theorem Path.Ok.advanceTo {p : Path} (h : p.Ok) (t : Nat) : (p.advanceTo t).Ok := by
  unfold Path.advanceTo
  split
  · rename_i hp
    exact { h with progress := by intro x hx; cases hx; have := h.progress _ hp; exact this }
  · rename_i hp
    exact { h with progress := by intro x hx; cases hx; have := h.progress _ hp; exact this }
  · exact h

theorem Path.Ok.complete {p : Path} (h : p.Ok) (pos : Nat) (b : Bool) : (p.complete pos b).Ok := by
  have h1 : Path.Ok { p with progress := none } := { h with progress := by intro x hx; cases hx }
  exact h1.reported _ _

/-- A completing record stands at a ring position. -/
theorem Path.Ok.completing_lt {p : Path} (h : p.Ok) {pos : Nat} (hc : p.completing = some pos) : pos < Config.ringSize := by
  unfold Path.completing at hc
  split at hc
  · rename_i hp
    split at hc
    · cases hc; exact h.progress _ hp
    · cases hc
  · rename_i hp
    split at hc
    · cases hc; exact h.progress _ hp
    · cases hc
  · cases hc

/-! ## Play -/

/-- What a play evaluation works on is in order: its path, and its ring in the canonical form. -/
structure PlayState.Ok (x : PlayState) : Prop where
  path : x.path.Ok
  ring : ringWf x.ring = true

theorem PlayState.Ok.stamped {x : PlayState} (h : x.Ok) (st : Option (Nat × Stamp))
    (hs : ∀ y ∈ st, y.1 < Config.ringSize) : (x.stamped st).Ok := by
  unfold PlayState.stamped
  split
  · exact ⟨h.path, ringWf_ringStamp _ h.ring (hs _ rfl)⟩
  · exact h

theorem PlayState.Ok.took {x : PlayState} (h : x.Ok) {k : Taken} (hk : k.Ok x.path) : (x.took k).Ok := by
  refine PlayState.Ok.stamped (PlayState.Ok.mk ?_ ?_) _ (fun y hy => ?_)
  · exact hk.path
  · exact h.ring
  rw [hk.stamp y hy]; exact h.path.head

theorem PlayState.Ok.takeHead {x : PlayState} (h : x.Ok) (a : EvalAt) (b : Nat → Bool) (tail : Nat) :
    (x.takeHead a b tail).Ok x.path := by
  unfold PlayState.takeHead
  split
  · exact raises_ok h.path _
  · exact takeInPlay_ok h.path _ _ _ _

theorem PlayState.Ok.playLoop (a : EvalAt) (b : Nat → Bool) (tail fuel : Nat) : ∀ {x : PlayState}, x.Ok →
    (playLoop a b tail fuel x).1.Ok := by
  induction fuel with
  | zero => intro x h; exact h
  | succ n ih =>
    intro x h
    unfold Machine.playLoop
    dsimp only
    have hk := h.took (h.takeHead a b tail)
    split
    · exact ih hk
    · exact hk
    · exact hk
    · exact hk
    · exact h

theorem PlayState.Ok.completed {x : PlayState} (h : x.Ok) (a : EvalAt) (pos : Nat) (c : Option Nat)
    (hp : pos < Config.ringSize) : (x.completed a pos c).Ok := by
  refine PlayState.Ok.stamped (PlayState.Ok.mk ?_ ?_) _ (fun y hy => ?_)
  · exact h.path.complete _ _
  · exact h.ring
  cases hy; exact hp

theorem PlayState.Ok.playEval {x : PlayState} (h : x.Ok) (a : EvalAt) (first : Bool) (b : Nat → Bool) (tail : Nat) :
    (playEval a first b tail x).1.Ok := by
  have h0 : PlayState.Ok { x with path := { x.path with zero := 0, latest := a.t } } :=
    ⟨{ h.path with zero := Nat.zero_le _ }, h.ring⟩
  have key : ∀ x1 : PlayState, x1.Ok → (if x1.path.ended then (x1, PlayEnd.stands)
      else match x1.path.completing with
        | some pos => goOn a b tail (x1.completed a pos none)
        | none =>
          match x1.path.progress with
          | none => goOn a b tail x1
          | some (.wait pos _ cue expiry act) =>
            match examineWait a (b cue) (ringGet x1.ring pos) cue expiry act with
            | .holds => (x1, .stands)
            | .passes consumed => goOn a b tail (x1.completed a pos consumed)
            | .expires => (x1, .faults .cueTimeout)
          | some _ => (x1, .stands)).1.Ok := by
    intro x1 h1
    split
    · exact h1
    · split
      · rename_i pos hc
        exact PlayState.Ok.playLoop _ _ _ _ (h1.completed _ _ _ (h1.path.completing_lt hc))
      · split
        · exact PlayState.Ok.playLoop _ _ _ _ h1
        · rename_i hp
          split
          · exact h1
          · exact PlayState.Ok.playLoop _ _ _ _ (h1.completed _ _ _ (h1.path.progress _ hp))
          · exact h1
        · exact h1
  refine key _ ?_
  split
  · exact h0
  · exact ⟨h0.path.advanceTo _, h0.ring⟩

/-! ## The scan -/

/-- A scan in order: its path, and its stamps at ring positions. -/
structure ScanState.Ok (x : ScanState) : Prop where
  path : x.path.Ok
  stamps : ∀ y ∈ x.stamps, y.1 < Config.ringSize

theorem endsAt_lt {id n : Nat} {ring : List (Nat × Entry)} {pr : Progress} {pos t : Nat}
    (h : endsAt id n ring pr = some (pos, t)) : pos = pr.position := by
  cases pr <;> simp [endsAt, Progress.position] at h ⊢
  · exact h.1.symm
  · exact h.1.symm
  · obtain ⟨_, _, h, _⟩ := h; exact h.symm

theorem ScanState.Ok.completed {x : ScanState} (h : x.Ok) (id n : Nat) (ring : List (Nat × Entry)) (pos u : Nat)
    (hp : pos < Config.ringSize) : (x.completed id n ring pos u).Ok := by
  refine ⟨{ (h.path.advanceTo u).complete _ _ with zero := Nat.zero_le _ }, fun y hy => ?_⟩
  rcases List.mem_append.1 hy with hy | hy
  · exact h.stamps y hy
  · rw [List.mem_singleton.1 hy]; exact hp

theorem ScanState.Ok.scanLoop (id n goal tail : Nat) (ring : List (Nat × Entry)) (fuel : Nat) : ∀ {x : ScanState}, x.Ok →
    (scanLoop id n goal tail ring fuel x).1.Ok := by
  induction fuel with
  | zero => intro x h; exact h
  | succ m ih =>
    intro x h
    unfold Machine.scanLoop
    split
    · rename_i pr hp
      split
      · rename_i pos t he
        split
        · exact ih (h.completed _ _ _ _ _ (by rw [endsAt_lt he]; exact h.path.progress _ hp))
        · exact ⟨h.path.advanceTo _, h.stamps⟩
      · exact h
    · split
      · exact ⟨h.path, h.stamps⟩
      · split
        · exact h
        · dsimp only
          have hk := takeInScan_ok h.path { takeId := id, n := n, t := x.u } (ringGet ring x.path.head)
          have hy : ScanState.Ok { x with
              path := (takeInScan { takeId := id, n := n, t := x.u } (ringGet ring x.path.head) x.path).path,
              stamps := x.stamps ++
                (takeInScan { takeId := id, n := n, t := x.u } (ringGet ring x.path.head) x.path).stamp.toList } := by
            refine ⟨hk.path, fun y hy => ?_⟩
            rcases List.mem_append.1 hy with hy | hy
            · exact h.stamps y hy
            · rw [hk.stamp y (by simpa using hy)]; exact h.path.head
          split
          · exact ih hy
          · exact ih hy
          · exact ih hy
          · exact h
          · exact h

end Sys2Proof.Machine
end

