-- ==== Sys2Proof/Laws/Invariants.lean ====
section
/-! SUPPORT. The shared operations that work on Path Engines keep them in order (State.enginesOk): one lemma each. -/

-- One thread: as one text the package would start more than the memory limit lets through.
set_option Elab.async false

namespace Sys2Proof.Machine

/-- Engines left as they stand stay in order. -/
theorem enginesOk_of_engine {s t : State} (h : t.engine = s.engine) (hs : s.enginesOk) : t.enginesOk := by
  intro c; rw [h]; exact hs c

/-- One engine replaced by one in order. -/
theorem State.enginesOk.setEngine {s : State} (hs : s.enginesOk) {c : Chan} {e : Engine} (he : e.Ok) :
    (s.setEngine c e).enginesOk := by
  intro d
  by_cases h : d = c
  · subst h; rw [State.engine_setEngine]; exact he
  · rw [State.engine_setEngine_ne _ _ _ _ h]; exact hs d

theorem Engine.reset_ok : Engine.reset.Ok where
  ring := rfl
  release := by decide
  tail := by decide
  path := Path.reset_ok
  pendingPath := by intro p hp; cases hp
  pendingStamps := by intro p hp; cases hp

theorem State.afterReset_enginesOk (st n : Nat) (pins : Pins) (q : List Instr) :
    (State.afterReset st n pins q).enginesOk := by
  intro c; fin_cases c <;> exact Engine.reset_ok

/-! ## Play -/

theorem State.enginesOk.playState {s : State} (hs : s.enginesOk) (c : Chan) : (s.playState c).Ok :=
  ⟨(hs c).path, (hs c).ring⟩

theorem State.enginesOk.putPlay {s : State} (hs : s.enginesOk) {c : Chan} {x : PlayState} (hx : x.Ok) :
    (s.putPlay c x).enginesOk := by
  refine enginesOk_of_engine (s := s.setEngine c { s.engine c with path := x.path, ring := x.ring }) ?_ ?_
  · unfold State.putPlay; simp
  · exact hs.setEngine { hs c with ring := hx.ring, path := hx.path }

theorem takeOne_enginesOk {s : State} (hs : s.enginesOk) (c : Chan) : (takeOne c s).enginesOk := by
  unfold takeOne
  have h1 : (s.headTaken c).Ok (s.playState c).path := (hs.playState c).takeHead _ _ _
  exact enginesOk_of_engine (endPlay_engine _ _ _) (hs.putPlay ((hs.playState c).took h1))

theorem takeWhen_enginesOk {s : State} (hs : s.enginesOk) (p : Record → Bool) (c : Chan) :
    (takeWhen p c s).enginesOk := by
  unfold takeWhen; split
  · exact takeOne_enginesOk hs c
  · exact hs

theorem completeAndGoOn_enginesOk {s : State} (hs : s.enginesOk) (c : Chan) (pos : Nat) (q : Option Nat)
    (hp : pos < Config.ringSize) : (completeAndGoOn c pos q s).enginesOk := by
  unfold completeAndGoOn
  dsimp only
  have h1 : (goOn (s.evalAt (s.engine c).path.latest) s.cueSet (s.engine c).tail
      ((s.playState c).completed (s.evalAt (s.engine c).path.latest) pos q)).1.Ok :=
    PlayState.Ok.playLoop _ _ _ _ ((hs.playState c).completed _ _ _ hp)
  exact enginesOk_of_engine (endPlay_engine _ _ _) (hs.putPlay h1)

theorem playPath_enginesOk {s : State} (hs : s.enginesOk) (c : Chan) (now t : Nat) (first : Bool) :
    (playPath c now t first s).enginesOk := by
  have h1 := hs.putPlay (c := c) ((hs.playState c).playEval (s.evalAt t) first s.cueSet (s.engine c).tail)
  unfold playPath
  dsimp only
  split
  · exact enginesOk_of_engine (by simp) h1
  · split
    · exact enginesOk_of_engine (by simp) h1
    · exact enginesOk_of_engine (by simp) h1
  · exact enginesOk_of_engine (by simp) h1

theorem playBeat_enginesOk {s : State} (hs : s.enginesOk) (c : Chan) (now t k : Nat) (first : Bool) :
    (playBeat c now t k first s).enginesOk := by
  unfold playBeat
  split
  · exact playPath_enginesOk hs _ _ _ _
  · exact enginesOk_of_engine (by simp) hs
  · exact enginesOk_of_engine (by simp) hs
  · exact enginesOk_of_engine (by simp) hs

theorem stateBeat_enginesOk {s : State} (hs : s.enginesOk) (c : Chan) (now : Nat) (t : Option Nat) (k : Nat) (first : Bool) :
    (stateBeat c now t k first s).enginesOk := by
  cases t with
  | none => exact enginesOk_of_engine (stateBeat_engine_none _ _ _ _ _) hs
  | some t =>
    unfold stateBeat
    (repeat' split) <;> first
      | exact hs
      | (rename_i h; cases h; done)
      | exact playBeat_enginesOk hs _ _ _ _ _
      | exact enginesOk_of_engine (by simp) hs

theorem driveBeat_enginesOk {s : State} (hs : s.enginesOk) (now : Nat) (t : Option Nat) (k : Nat) (first : Bool) (c : Chan) :
    (driveBeat now t k first c s).enginesOk := by
  unfold driveBeat; split
  · exact stateBeat_enginesOk (enginesOk_of_engine (by simp) hs) _ _ _ _ _
  · exact hs

theorem issueBeat_enginesOk {s : State} (hs : s.enginesOk) (e k : Nat) (t : Option Nat) (first : Bool) :
    (issueBeat e k t first s).enginesOk := by
  unfold issueBeat
  dsimp only
  have h0 : (consumeCues (noteTakeSubBeat t { s with timer := { s.timer with latest := some e } })).enginesOk :=
    enginesOk_of_engine (by simp) hs
  have h1 := eachChannel_keeps State.enginesOk (driveBeat (e * Config.tick) t k first)
    (fun c s h => driveBeat_enginesOk h _ _ _ _ c) _ h0
  refine enginesOk_of_engine ?_ h1
  simp

theorem foldl_enginesOk {α : Type} (f : State → α → State) (h : ∀ s x, s.enginesOk → (f s x).enginesOk) (l : List α) :
    ∀ s : State, s.enginesOk → (l.foldl f s).enginesOk := by
  induction l with
  | nil => intro s hs; exact hs
  | cons x xs ih => intro s hs; exact ih _ (h s x hs)

theorem catchUp_enginesOk {s : State} (hs : s.enginesOk) (e : Nat) : (catchUp e s).enginesOk := by
  unfold catchUp; split
  · exact foldl_enginesOk (fun s j => issueBeat e j (s.takeSubBeat j) false s)
      (fun s j h => issueBeat_enginesOk h _ _ _ _) _ s hs
  · exact hs

theorem beatN_enginesOk {s : State} (hs : s.enginesOk) (locking rolled : Bool) (e : Nat) :
    (beatN locking rolled e s).enginesOk := by
  have h1 : (countDown s).enginesOk := enginesOk_of_engine (countDown_engine _) hs
  unfold beatN
  dsimp only
  split
  · exact h1
  · exact issueBeat_enginesOk h1 _ _ _ _

theorem framePulse_enginesOk {s : State} (hs : s.enginesOk) (locking : Bool) (e d : Nat) :
    (framePulse locking e d s).enginesOk := by
  have h1 : State.enginesOk (beforeBeatN e { s with timer := { s.timer with period := some d } }) := by
    have h0 : State.enginesOk { s with timer := { s.timer with period := some d } } := hs
    unfold beforeBeatN
    exact enginesOk_of_engine (latchPending_engine _ _) (catchUp_enginesOk h0 e)
  have h2 := beatN_enginesOk h1 locking (State.rolls (beforeBeatN e { s with timer := { s.timer with period := some d } })) e
  unfold framePulse
  dsimp only
  refine enginesOk_of_engine ?_ h2
  simp

/-! ## Positioning -/

theorem newestAtOrBefore_mem {t : List Checkpoint} {g : Nat} {q : Checkpoint} (h : newestAtOrBefore t g = some q) :
    q ∈ t := by
  unfold newestAtOrBefore at h
  exact (List.mem_filter.1 (List.mem_of_getLast? h)).1

theorem restoredPath_ok {p : Path} (h : p.Ok) {q : Checkpoint} (hq : q ∈ p.table) : (restoredPath p q).Ok where
  head := h.places q hq
  stack := (h.copies q hq).1
  opens := (h.copies q hq).2
  progress := by intro x hx; cases hx
  zero := Nat.zero_le _
  table := le_trans (List.length_filter_le _ _) h.table
  places := fun x hx => h.places x (List.mem_filter.1 hx).1
  copies := fun x hx => h.copies x (List.mem_filter.1 hx).1

theorem positionNew_ok {e : Engine} (h : e.Ok) (id n s : Nat) : (positionNew id n s e).1.Ok := by
  unfold positionNew
  split
  · split
    · exact { h with pendingPath := by (intro p hp; cases hp), pendingStamps := by (intro p hp; cases hp) }
    · refine { h with pendingPath := ?_, pendingStamps := ?_ }
      · intro p hp; cases hp
        exact { Path.reset_ok with head := ringStep_lt _ _ }
      · intro p hp x hx; cases hp
        rw [List.mem_singleton.1 hx]; exact h.release
  · exact { h with pendingPath := by (intro p hp; cases hp), pendingStamps := by (intro p hp; cases hp) }

theorem positionRestore_ok {e : Engine} (h : e.Ok) (id n s : Nat) : (positionRestore id n s e).1.Ok := by
  unfold positionRestore
  split
  · rename_i q hq
    refine { h with pendingPath := ?_, pendingStamps := ?_ }
    · intro p hp; cases hp
      exact restoredPath_ok h.path (newestAtOrBefore_mem hq)
    · intro p hp x hx; cases hp; cases hx
  · exact { h with pendingPath := by (intro p hp; cases hp), pendingStamps := by (intro p hp; cases hp) }

theorem ringWf_stamps (l : List (Nat × Stamp)) : ∀ {r : List (Nat × Entry)}, ringWf r = true →
    (∀ x ∈ l, x.1 < Config.ringSize) → ringWf (l.foldl (fun r x => ringStamp r x.1 x.2) r) = true := by
  induction l with
  | nil => intro r h _; exact h
  | cons x xs ih =>
    intro r h hx
    exact ih (ringWf_ringStamp _ h (hx x (by simp))) (fun y hy => hx y (List.mem_cons_of_mem _ hy))

theorem Engine.Ok.commit {e : Engine} (h : e.Ok) {p : Positioning} (hp : e.positioning = some p) (g : Nat) :
    (e.commit g p).Ok where
  ring := ringWf_stamps _ h.ring (h.pendingStamps p hp)
  release := h.release
  tail := h.tail
  path := (h.pendingPath p hp).congr rfl rfl rfl rfl rfl
  pendingPath := by intro q hq; cases hq
  pendingStamps := by intro q hq; cases hq

theorem discardChannel_enginesOk {s : State} (hs : s.enginesOk) (code : ScanCode) (g : Nat) (c : Chan) :
    (discardChannel code g c s).enginesOk := by
  unfold discardChannel; split
  · refine enginesOk_of_engine (by simp; rfl) (hs.setEngine (c := c) (e := { s.engine c with positioning := none, scan := _ }) ?_)
    exact { hs c with pendingPath := by (intro p hp; cases hp), pendingStamps := by (intro p hp; cases hp) }
  · exact hs

theorem discardArm_enginesOk {s : State} (hs : s.enginesOk) (a : ArmFlight) (r : Result) (code : ScanCode) :
    (discardArm a r code s).enginesOk := by
  have h1 := eachChannel_keeps State.enginesOk (discardChannel code (s.take.s * s.subBeats))
    (fun c s h => discardChannel_enginesOk h _ _ c) s hs
  unfold discardArm
  dsimp only
  refine enginesOk_of_engine ?_ h1
  rw [addOutcome_engine]
  split <;> simp

theorem commitChannel_enginesOk {s : State} (hs : s.enginesOk) (g : Nat) (c : Chan) : (commitChannel g c s).enginesOk := by
  have key : ∀ s1 : State, s1.enginesOk → ∀ x : Int,
      (if (s.drive c).state = .faulted then s1
       else match (s.drive c).source with
        | some .path => s1.setDrive c ((s.drive c).beginSeek x)
        | some .follow => s1.setDrive c { s.drive c with follow := .waiting }
        | some .wheel => s1.setDrive c { s.drive c with state := .ready }
        | none => s1).enginesOk := by
    intro s1 h1 x
    split
    · exact h1
    · split
      · exact enginesOk_of_engine (State.setDrive_engine _ _ _) h1
      · exact enginesOk_of_engine (State.setDrive_engine _ _ _) h1
      · exact enginesOk_of_engine (State.setDrive_engine _ _ _) h1
      · exact h1
  unfold commitChannel
  refine key _ ?_ _
  split
  · rename_i p hp
    exact hs.setEngine ((hs c).commit hp g)
  · exact hs

theorem commitArm_enginesOk {s : State} (hs : s.enginesOk) (a : ArmFlight) : (commitArm a s).enginesOk := by
  have h1 := eachChannel_keeps State.enginesOk (commitChannel (s.take.s * s.subBeats))
    (fun c s h => commitChannel_enginesOk h _ c) s hs
  unfold commitArm
  dsimp only
  refine enginesOk_of_engine ?_ h1
  rw [checkArmed_engine]
  split <;> simp

theorem entryChecks_enginesOk (a : ArmFlight) (cs : List Chan) : ∀ {s : State}, s.enginesOk →
    (entryChecks a cs s).1.enginesOk := by
  induction cs with
  | nil => intro s hs; exact hs
  | cons c cs ih =>
    intro s hs
    have h1 : (entryCheck a c s).1.enginesOk := by
      unfold entryCheck
      split
      · exact hs
      · split
        · exact hs
        · split
          · unfold positionChannel
            dsimp only
            split
            · exact hs.setEngine (positionNew_ok (hs c) _ _ _)
            · exact hs.setEngine (positionRestore_ok (hs c) _ _ _)
          · split <;> exact hs
          · exact hs
    unfold entryChecks
    split
    · rename_i t ht; rw [ht] at h1; exact ih h1
    · rename_i t r ht; rw [ht] at h1; exact h1

theorem Engine.scanRun_ok {e : Engine} (h : e.Ok) {p : Positioning} (hp : e.positioning = some p) (id n g : Nat) :
    (e.scanRun id n g p).1.Ok :=
  ScanState.Ok.scanLoop _ _ _ _ _ _ ⟨h.pendingPath p hp, h.pendingStamps p hp⟩

theorem positioned_enginesOk {s : State} (hs : s.enginesOk) (c : Chan) (p : Positioning) {x : ScanState} (hx : x.Ok) :
    (positioned c p x s).enginesOk := by
  unfold positioned
  refine hs.setEngine { hs c with pendingPath := ?_, pendingStamps := ?_ }
  · intro q hq; cases hq; exact hx.path
  · intro q hq; cases hq; exact hx.stamps

theorem scanRefused_enginesOk {s : State} (hs : s.enginesOk) (c : Chan) (code : ScanCode) (k : Option FaultKind)
    (x : ScanState) : (scanRefused c code k x s).enginesOk := by
  unfold scanRefused
  exact hs.setEngine
    { hs c with pendingPath := by (intro p hp; cases hp), pendingStamps := by (intro p hp; cases hp) }

/-! ## Ring requests -/

theorem foldl_nearer_lt (e : Engine) (l : List Nat) : ∀ {x : Nat}, x < Config.ringSize → (∀ p ∈ l, p < Config.ringSize) →
    l.foldl e.nearer x < Config.ringSize := by
  induction l with
  | nil => intro x hx _; exact hx
  | cons p ps ih =>
    intro x hx hp
    refine ih ?_ (fun y hy => hp y (List.mem_cons_of_mem _ hy))
    unfold Engine.nearer
    split
    · exact hp p (by simp)
    · exact hx

theorem Engine.Ok.limits {e : Engine} (h : e.Ok) : ∀ p ∈ e.limits, p < Config.ringSize := by
  intro p hp
  rcases List.mem_append.1 hp with hp | hp
  · obtain ⟨l, hl, rfl⟩ := List.mem_map.1 hp
    exact h.path.opens l hl
  · cases hg : e.path.progress with
    | none => rw [hg] at hp; cases hp
    | some x =>
      rw [hg] at hp
      simp at hp
      subst hp
      exact h.path.progress x hg

theorem Engine.Ok.moveRelease {e : Engine} (h : e.Ok) {x : Nat} (hx : x < Config.ringSize) : (e.moveRelease x).Ok where
  ring := h.ring
  release := hx
  tail := h.tail
  path := { h.path with
    table := le_trans (List.length_filter_le _ _) h.path.table
    places := fun q hq => h.path.places q (List.mem_filter.1 hq).1
    copies := fun q hq => h.path.copies q (List.mem_filter.1 hq).1 }
  pendingPath := h.pendingPath
  pendingStamps := h.pendingStamps

theorem Engine.Ok.releaseTo {e : Engine} (h : e.Ok) {x : Nat} (hx : x < Config.ringSize) : e.releaseTo x < Config.ringSize :=
  foldl_nearer_lt e _ hx h.limits

theorem Engine.Ok.cleared {e : Engine} (h : e.Ok) : e.cleared.Ok where
  ring := rfl
  release := by show 0 < Config.ringSize; decide
  tail := by show 0 < Config.ringSize; decide
  path :=
    { head := by (show 0 < Config.ringSize; decide)
      stack := Nat.zero_le _
      opens := by intro l hl; cases hl
      progress := by intro x hx; cases hx
      zero := h.path.zero
      table := Nat.zero_le _
      places := by intro q hq; cases hq
      copies := by intro q hq; cases hq }
  pendingPath := h.pendingPath
  pendingStamps := h.pendingStamps

end Sys2Proof.Machine
end

