-- ==== Sys2Proof/Laws/Messages.lean ====
section
/-! SUPPORT. A message that reaches its owner (R82, R84): what receiving it leaves. -/

-- One thread: as one text the package would start more than the memory limit lets through.
set_option Elab.async false

namespace Sys2Proof.Machine

/-- A valid request to this station is settled with what its owner answers (R84, R86). -/
theorem receiveKind_reaches {s : State} {k : Nat} {a : Activity} (f : Arrival → State → Settled) (h : s.reaches k a) :
    receiveKind k a (addressed f) s = State.settled a (f (arrivalOf a) (s.heard a)).1 (f (arrivalOf a) (s.heard a)).2 := by
  obtain ⟨hk, hv, ht⟩ := h
  unfold receiveKind receive
  rw [if_pos hk, hv]
  simp only [addressed, ht, State.heard_station, if_true]
  rfl

/-- A valid take request to ALL reaches the Take Controller (R84). -/
theorem receiveKind_reachesAll {s : State} {k : Nat} {a : Activity} (f : Arrival → State → State) (h : s.reachesAll k a) :
    receiveKind k a (broadcast f) s = f (arrivalOf a) (s.heard a) := by
  obtain ⟨hk, hv, ht⟩ := h
  unfold receiveKind receive
  rw [if_pos hk, hv]
  simp only [broadcast, ht]

/-- A message dropped by the port only passes the time. -/
theorem receiveKind_dropped {s : State} {k : Nat} {a : Activity} (act : Arrival → State → State) (hk : a.bears k = true)
    (h : s.admission a = .dropped) : receiveKind k a act s = s.heard a := by
  unfold receiveKind receive
  rw [if_pos hk, h]

/-- A request for another station only passes the time (R84). -/
theorem receiveKind_elsewhere {s : State} {k n : Nat} {a : Activity} (f : Arrival → State → Settled) (hk : a.bears k = true)
    (h : s.admission a = .valid) (ht : (arrivalOf a).target = some n) (hn : n ≠ s.station) :
    receiveKind k a (addressed f) s = s.heard a := by
  unfold receiveKind receive
  rw [if_pos hk, h]
  simp only [addressed, ht]
  exact if_neg hn

/-! ## What the port takes -/

/-- Outside JOINED a CUE that R18 takes is valid, and everything else is dropped (R78, R79, log 43). -/
theorem State.admission_unjoined {s : State} {a : Activity} (h : s.port.join ≠ .joined) :
    s.admission a = if s.takesCue a then .valid else .dropped := by
  unfold State.admission
  rw [if_neg h]

/-- In the slots only what began in the ended open window is not dropped (R79, R82, R83, log 44). -/
theorem State.admission_slots {s : State} {a : Activity} (h : s.port.join = .joined) (hw : s.port.window = .slots)
    (ha : s.beganInEnded a = false) : s.admission a = .dropped := by
  have hn : s.beganInEndedTurn a = false := by
    unfold State.beganInEndedTurn
    unfold State.beganInEnded at ha
    cases he : s.port.ended with
    | none => rfl
    | some w => simp_all
  unfold State.admission
  rw [if_pos h, hw]
  simp [hn, ha]

end Sys2Proof.Machine
end

