-- ==== Sys2Proof/Laws/Order.lean ====
section
/-! SUPPORT. R27's order of release, head and tail: what each movement of a pointer does to the positions a path state names,
and that each keeps them within [release, tail] (Engine.Ordered). -/

-- One thread: as one text the package would start more than the memory limit lets through.
set_option Elab.async false

namespace Sys2Proof.Machine

/-! ## Positions named -/

theorem Path.mem_positions {p : Path} {x : Nat} : x ∈ p.positions ↔ x = p.head ∨ (∃ l ∈ p.stack, x = l.openAt) ∨
    (∃ y, p.progress = some y ∧ x = y.position) ∨ ∃ q ∈ p.table, x = q.pos ∨ ∃ l ∈ q.stack, x = l.openAt := by
  simp only [Path.positions, List.mem_append, List.mem_cons, List.mem_map, List.mem_flatten, Option.mem_toList,
    Option.map_eq_some_iff, exists_exists_and_eq_and]
  constructor
  · rintro (((h | ⟨l, hl, rfl⟩) | ⟨y, hy, rfl⟩) | ⟨q, hq, h | ⟨l, hl, rfl⟩⟩)
    · exact .inl h
    · exact .inr (.inl ⟨l, hl, rfl⟩)
    · exact .inr (.inr (.inl ⟨y, hy, rfl⟩))
    · exact .inr (.inr (.inr ⟨q, hq, .inl h⟩))
    · exact .inr (.inr (.inr ⟨q, hq, .inr ⟨l, hl, rfl⟩⟩))
  · rintro (h | ⟨l, hl, rfl⟩ | ⟨y, hy, rfl⟩ | ⟨q, hq, h | ⟨l, hl, rfl⟩⟩)
    · exact .inl (.inl (.inl h))
    · exact .inl (.inl (.inr ⟨l, hl, rfl⟩))
    · exact .inl (.inr ⟨y, hy, rfl⟩)
    · exact .inr ⟨q, hq, .inl h⟩
    · exact .inr ⟨q, hq, .inr ⟨l, hl, rfl⟩⟩

/-- A path state whose head, loops, record in progress and checkpoints are all positions of `P`. -/
structure Path.AllIn (P : Nat → Prop) (p : Path) : Prop where
  head : P p.head
  opens : ∀ l ∈ p.stack, P l.openAt
  progress : ∀ x ∈ p.progress, P x.position
  places : ∀ q ∈ p.table, P q.pos
  copies : ∀ q ∈ p.table, ∀ l ∈ q.stack, P l.openAt

theorem Path.allIn_iff {P : Nat → Prop} {p : Path} : p.AllIn P ↔ ∀ x ∈ p.positions, P x := by
  simp only [Path.mem_positions]
  constructor
  · rintro h x (rfl | ⟨l, hl, rfl⟩ | ⟨y, hy, rfl⟩ | ⟨q, hq, rfl | ⟨l, hl, rfl⟩⟩)
    · exact h.head
    · exact h.opens l hl
    · exact h.progress y hy
    · exact h.places q hq
    · exact h.copies q hq l hl
  · intro h
    exact ⟨h _ (.inl rfl), fun l hl => h _ (.inr (.inl ⟨l, hl, rfl⟩)),
      fun y hy => h _ (.inr (.inr (.inl ⟨y, hy, rfl⟩))), fun q hq => h _ (.inr (.inr (.inr ⟨q, hq, .inl rfl⟩))),
      fun q hq l hl => h _ (.inr (.inr (.inr ⟨q, hq, .inr ⟨l, hl, rfl⟩⟩)))⟩

variable {P : Nat → Prop}

theorem Path.AllIn.reported {p : Path} (h : p.AllIn P) (pos : Nat) (b : Bool) : (p.reported pos b).AllIn P := by
  unfold Path.reported
  split
  · exact { h with }
  · exact h

theorem Path.AllIn.offer {p : Path} (h : p.AllIn P) (t pos : Nat) (hp : P pos) : (p.offer t pos).AllIn P := by
  unfold Path.offer
  split
  · exact h
  · have hk : ∀ q, q ∈ (if Config.checkpointLimit ≤ p.table.length then p.table.tail else p.table) → q ∈ p.table := by
      intro q hq
      split at hq
      · exact List.mem_of_mem_tail hq
      · exact hq
    refine { h with places := ?_, copies := ?_ }
    · intro q hq
      rcases List.mem_append.1 hq with hq | hq
      · exact h.places q (hk q hq)
      · rw [List.mem_singleton.1 hq]; exact hp
    · intro q hq
      rcases List.mem_append.1 hq with hq | hq
      · exact h.copies q (hk q hq)
      · rw [List.mem_singleton.1 hq]; exact h.opens

/-- The movements of head that taking a record makes: onward, with `hn` the next position, or back to a loop's opening. -/
theorem takeLoopClose_allIn {p : Path} (h : p.AllIn P) (hn : P (ringStep p.head 1)) (a : EvalAt) (b : Bool) :
    (takeLoopClose a b p).path.AllIn P := by
  unfold takeLoopClose
  split
  · exact h
  · split
    · exact h
    · rename_i l rest hs
      have hop := h.opens
      rw [hs] at hop
      have h1 : (if 1 < l.remaining then
          { p with head := l.openAt, stack := { l with remaining := l.remaining - 1 } :: rest }
          else { p.past with stack := rest } : Path).AllIn P := by
        split
        · refine { h with head := hop l (by simp), opens := ?_ }
          intro x hx
          rcases List.mem_cons.1 hx with rfl | hx
          · exact hop l (by simp)
          · exact hop x (List.mem_cons_of_mem _ hx)
        · exact { h with head := hn, opens := fun x hx => hop x (List.mem_cons_of_mem _ hx) }
      have h2 := h1.reported p.head b
      exact { h2 with }

theorem passAtOnce_allIn {p : Path} (h : p.AllIn P) (hn : P (ringStep p.head 1)) (st : Stamp) (b : Bool) (c : Option Nat) :
    (passAtOnce st b c p).path.AllIn P := by
  unfold passAtOnce
  split
  · exact h
  · have h2 := Path.AllIn.reported (p := p.past) { h with head := hn } p.head b
    exact { h2 with }

theorem beginWait_allIn {p : Path} (h : p.AllIn P) (hn : P (ringStep p.head 1)) (a : EvalAt) (c t : Nat) (act : OnTimeout) :
    (beginWait a c t act p).path.AllIn P :=
  { h with head := hn, progress := by intro x hx; cases hx; exact h.head }

theorem takeShape_allIn {p : Path} (h : p.AllIn P) (hn : P (ringStep p.head 1)) (a : EvalAt) (pr : Profile) (n d : Nat)
    (b : Bool) : (takeShape a pr n d b p).path.AllIn P := by
  unfold takeShape
  split
  · exact h
  · have h2 := Path.AllIn.reported (p := { p.past with shape := { profile := pr, num := n, den := d } })
      { h with head := hn } p.head b
    exact { h2 with }

theorem takeSpan_allIn {p : Path} (h : p.AllIn P) (hn : P (ringStep p.head 1)) (a : EvalAt) (d : Int) (l : Nat) :
    (takeSpan a d l p).path.AllIn P := by
  have h1 := Path.AllIn.offer (P := P) (p := { p with
    progress := some (.span p.head a.t p.setPoint (scaled p.shape d) p.shape.profile (l * a.n) 0) })
    { h with progress := by intro x hx; cases hx; exact h.head } a.t p.head h.head
  exact { h1 with head := by simp only [Path.past, Path.offer_head, takeSpan]; exact hn }

theorem takeDwell_allIn {p : Path} (h : p.AllIn P) (hn : P (ringStep p.head 1)) (a : EvalAt) (l : Nat) :
    (takeDwell a l p).path.AllIn P := by
  have h1 := Path.AllIn.offer (P := P) (p := { p with progress := some (.dwell p.head a.t p.setPoint (l * a.n) 0) })
    { h with progress := by intro x hx; cases hx; exact h.head } a.t p.head h.head
  exact { h1 with head := by simp only [Path.past, Path.offer_head, takeDwell]; exact hn }

theorem takeLoopOpen_allIn {p : Path} (h : p.AllIn P) (hn : P (ringStep p.head 1)) (a : EvalAt) (n : Nat) (b : Bool) :
    (takeLoopOpen a n b p).path.AllIn P := by
  unfold takeLoopOpen
  split
  · exact h
  · split
    · exact h
    · have h2 := Path.AllIn.reported (P := P)
        (p := { p.past with stack := { openAt := ringStep p.head 1, remaining := n } :: p.stack })
        { h with
          head := hn
          opens := by
            intro l hl
            rcases List.mem_cons.1 hl with rfl | hl
            · exact hn
            · exact h.opens l hl } p.head b
      exact { h2 with }

theorem takeWaitInPlay_allIn {p : Path} (h : p.AllIn P) (hn : P (ringStep p.head 1)) (a : EvalAt) (b : Bool) (e : Entry)
    (c t : Nat) (act : OnTimeout) : (takeWaitInPlay a b e c t act p).path.AllIn P := by
  unfold takeWaitInPlay
  (repeat' split) <;> first
    | exact h | exact passAtOnce_allIn h hn _ _ _ | exact beginWait_allIn h hn _ _ _ _

theorem takeWaitInScan_allIn {p : Path} (h : p.AllIn P) (hn : P (ringStep p.head 1)) (a : EvalAt) (e : Entry)
    (c t : Nat) (act : OnTimeout) : (takeWaitInScan a e c t act p).path.AllIn P := by
  unfold takeWaitInScan
  (repeat' split) <;> first
    | exact h | exact passAtOnce_allIn h hn _ _ _ | exact beginWait_allIn h hn _ _ _ _

theorem takeEmitInPlay_allIn {p : Path} (h : p.AllIn P) (hn : P (ringStep p.head 1)) (a : EvalAt) (cues : List Nat)
    (c : Nat) (b : Bool) : (takeEmitInPlay a cues c b p).path.AllIn P := by
  unfold takeEmitInPlay
  split
  · exact h
  · split
    · exact h
    · have h2 := Path.AllIn.reported (p := p.past) { h with head := hn } p.head b
      exact { h2 with }

theorem takeEmitInScan_allIn {p : Path} (h : p.AllIn P) (hn : P (ringStep p.head 1)) (a : EvalAt) (b : Bool) :
    (takeEmitInScan a b p).path.AllIn P := by
  unfold takeEmitInScan
  split
  · exact h
  · have h2 := Path.AllIn.reported (p := p.past) { h with head := hn } p.head b
    exact { h2 with }

theorem takeEnd_allIn {p : Path} (h : p.AllIn P) (hn : P (ringStep p.head 1)) (a : EvalAt) (b : Bool) :
    (takeEnd a b p).path.AllIn P :=
  Path.AllIn.reported (p := { p.past with ended := true }) { h with head := hn } p.head b

theorem takeInPlay_allIn {p : Path} (h : p.AllIn P) (hn : P (ringStep p.head 1)) (a : EvalAt) (b : Nat → Bool)
    (cues : List Nat) (e : Entry) : (takeInPlay a b cues e p).path.AllIn P := by
  unfold takeInPlay
  split
  · exact h
  · exact h
  · exact takeShape_allIn h hn _ _ _ _ _
  · exact takeSpan_allIn h hn _ _ _
  · exact takeDwell_allIn h hn _ _
  · exact takeLoopOpen_allIn h hn _ _ _
  · exact takeLoopClose_allIn h hn _ _
  · exact takeWaitInPlay_allIn h hn _ _ _ _ _ _
  · exact takeEmitInPlay_allIn h hn _ _ _ _
  · exact takeEnd_allIn h hn _ _

theorem takeInScan_allIn {p : Path} (h : p.AllIn P) (hn : P (ringStep p.head 1)) (a : EvalAt) (e : Entry) :
    (takeInScan a e p).path.AllIn P := by
  unfold takeInScan
  split
  · exact h
  · exact h
  · exact takeShape_allIn h hn _ _ _ _ _
  · exact takeSpan_allIn h hn _ _ _
  · exact takeDwell_allIn h hn _ _
  · exact takeLoopOpen_allIn h hn _ _ _
  · exact takeLoopClose_allIn h hn _ _
  · exact takeWaitInScan_allIn h hn _ _ _ _ _
  · exact takeEmitInScan_allIn h hn _ _
  · exact takeEnd_allIn h hn _ _

theorem Path.AllIn.advanceTo {p : Path} (h : p.AllIn P) (t : Nat) : (p.advanceTo t).AllIn P := by
  unfold Path.advanceTo
  split
  · rename_i hp
    exact { h with progress := by intro x hx; cases hx; have := h.progress _ hp; exact this }
  · rename_i hp
    exact { h with progress := by intro x hx; cases hx; have := h.progress _ hp; exact this }
  · exact h

theorem Path.AllIn.complete {p : Path} (h : p.AllIn P) (pos : Nat) (b : Bool) : (p.complete pos b).AllIn P :=
  Path.AllIn.reported (p := { p with progress := none })
    { h with progress := by intro x hx; cases hx } _ _

/-! ## Play and scan: head moves on only where it differs from tail (R27) -/

@[simp] theorem PlayState.stamped_path (x : PlayState) (st : Option (Nat × Stamp)) : (x.stamped st).path = x.path := by
  unfold PlayState.stamped; split <;> rfl

@[simp] theorem PlayState.took_path (x : PlayState) (k : Taken) : (x.took k).path = k.path := by
  unfold PlayState.took; simp

@[simp] theorem PlayState.completed_path (a : EvalAt) (pos : Nat) (c : Option Nat) (x : PlayState) :
    (x.completed a pos c).path = x.path.complete pos (ringGet x.ring pos).report := by
  unfold PlayState.completed; simp

theorem playLoop_allIn (a : EvalAt) (b : Nat → Bool) (tail : Nat) (hs : ∀ x, P x → x ≠ tail → P (ringStep x 1))
    (fuel : Nat) : ∀ {x : PlayState}, x.path.AllIn P → (playLoop a b tail fuel x).1.path.AllIn P := by
  induction fuel with
  | zero => intro x h; exact h
  | succ n ih =>
    intro x h
    have hk : (x.took (x.takeHead a b tail)).path.AllIn P := by
      rw [PlayState.took_path]
      unfold PlayState.takeHead
      split
      · exact h
      · exact takeInPlay_allIn h (hs _ h.head ‹_›) _ _ _ _
    unfold playLoop
    dsimp only
    split
    · exact ih hk
    · exact hk
    · exact hk
    · exact hk
    · exact h

theorem playEval_allIn (a : EvalAt) (first : Bool) (b : Nat → Bool) (tail : Nat)
    (hs : ∀ x, P x → x ≠ tail → P (ringStep x 1)) {x : PlayState} (h : x.path.AllIn P) :
    (playEval a first b tail x).1.path.AllIn P := by
  have key : ∀ x1 : PlayState, x1.path.AllIn P → (if x1.path.ended then (x1, PlayEnd.stands)
      else match x1.path.completing with
        | some pos => goOn a b tail (x1.completed a pos none)
        | none =>
          match x1.path.progress with
          | none => goOn a b tail x1
          | some (.wait pos _ cue expiry act) =>
            match examineWait a (b cue) (ringGet x1.ring pos) cue expiry act with
            | .holds => (x1, .stands)
            | .passes consumed => goOn a b tail (x1.completed a pos consumed)
            | .expires => (x1, .faults .cueTimeout)
          | some _ => (x1, .stands)).1.path.AllIn P := by
    intro x1 h1
    have hc : ∀ pos c, (goOn a b tail (x1.completed a pos c)).1.path.AllIn P := fun pos c =>
      playLoop_allIn a b tail hs _ (by rw [PlayState.completed_path]; exact h1.complete _ _)
    (repeat' split) <;> first | exact h1 | exact hc _ _ | exact playLoop_allIn a b tail hs _ h1
  refine key _ ?_
  split
  · exact { h with }
  · have h1 := Path.AllIn.advanceTo (P := P) (p := { x.path with zero := 0, latest := a.t }) { h with } a.t
    exact h1

theorem scanLoop_allIn (id n goal tail : Nat) (ring : List (Nat × Entry))
    (hs : ∀ x, P x → x ≠ tail → P (ringStep x 1)) (fuel : Nat) : ∀ {x : ScanState}, x.path.AllIn P →
    (scanLoop id n goal tail ring fuel x).1.path.AllIn P := by
  induction fuel with
  | zero => intro x h; exact h
  | succ m ih =>
    intro x h
    unfold scanLoop
    split
    · split
      · rename_i pos u _
        split
        · refine ih ?_
          have h1 := (h.advanceTo (P := P) u).complete pos (ringGet ring pos).report
          exact { h1 with }
        · exact h.advanceTo _
      · exact h
    · split
      · exact h
      · split
        · exact h
        · rename_i hne
          dsimp only
          have hk := takeInScan_allIn h (hs _ h.head hne) { takeId := id, n := n, t := x.u } (ringGet ring x.path.head)
          split
          · exact ih hk
          · exact ih hk
          · exact ih hk
          · exact h
          · exact h

/-! ## Engines -/

/-- A ring position within [release, tail]. -/
def Engine.places (e : Engine) (x : Nat) : Prop := x < Config.ringSize ∧ e.holds x

theorem Engine.Ok.allIn {e : Engine} {p : Path} (h : p.Ok) (ho : ∀ x ∈ p.positions, e.holds x) : p.AllIn e.places := by
  have h1 := Path.allIn_iff.2 ho
  exact ⟨⟨h.head, h1.head⟩, fun l hl => ⟨h.opens l hl, h1.opens l hl⟩, fun x hx => ⟨h.progress x hx, h1.progress x hx⟩,
    fun q hq => ⟨h.places q hq, h1.places q hq⟩, fun q hq l hl => ⟨(h.copies q hq).2 l hl, h1.copies q hq l hl⟩⟩

theorem Path.AllIn.holds {e : Engine} {p : Path} (h : p.AllIn e.places) : ∀ x ∈ p.positions, e.holds x :=
  fun x hx => (Path.allIn_iff.1 h x hx).2

/-- Head moves onward only short of tail, and stays within [release, tail] (R27). -/
theorem Engine.places_next {e : Engine} (he : e.Ok) {x : Nat} (h : e.places x) (hx : x ≠ e.tail) :
    e.places (ringStep x 1) := by
  have hr := he.release; have ht := he.tail
  obtain ⟨hl, h⟩ := h
  refine ⟨ringStep_lt _ _, ?_⟩
  simp only [Engine.holds, ringDistance, ringStep, Config.ringSize] at *
  omega

theorem Engine.reset_ordered : Engine.reset.Ordered := by
  constructor
  · intro x hx
    simp [Path.mem_positions, Engine.reset, Path.reset] at hx
    subst hx
    exact Nat.le_refl _
  · intro p hp; cases hp

/-- The path an evaluation leaves keeps the order (R27). -/
theorem Engine.Ordered.withPath {e : Engine} (h : e.Ordered) {p : Path} (hp : p.AllIn e.places)
    (r : List (Nat × Entry)) : Engine.Ordered { e with path := p, ring := r } :=
  ⟨hp.holds, h.pendingPath⟩

/-- ADVANCE (R33). -/
theorem Engine.Ordered.advance {e : Engine} (h : e.Ordered) {x : Nat} (hx : e.mayAdvance x = true) :
    Engine.Ordered { e with tail := x } := by
  simp only [Engine.mayAdvance, Bool.and_eq_true, decide_eq_true_eq] at hx
  exact ⟨fun y hy => le_trans (h.path y hy) hx.2, fun p hp y hy => le_trans (h.pendingPath p hp y hy) hx.2⟩

/-- Distances from a release moved to `y` for what does not lie behind it. -/
theorem ringDistance_moved {r y x : Nat} (hr : r < Config.ringSize) (hy : y < Config.ringSize) (hx : x < Config.ringSize)
    (h : ringDistance r y ≤ ringDistance r x) : ringDistance y x = ringDistance r x - ringDistance r y := by
  simp only [ringDistance, Config.ringSize] at *
  omega

theorem foldl_nearer_le (e : Engine) (l : List Nat) : ∀ x : Nat,
    ringDistance e.release (l.foldl e.nearer x) ≤ ringDistance e.release x ∧
      ∀ p ∈ l, ringDistance e.release (l.foldl e.nearer x) ≤ ringDistance e.release p := by
  induction l with
  | nil => intro x; exact ⟨le_refl _, fun p hp => by cases hp⟩
  | cons q qs ih =>
    intro x
    obtain ⟨h1, h2⟩ := ih (e.nearer x q)
    have hn : ringDistance e.release (e.nearer x q) ≤ ringDistance e.release x ∧
        ringDistance e.release (e.nearer x q) ≤ ringDistance e.release q := by
      unfold Engine.nearer; split <;> omega
    refine ⟨le_trans h1 hn.1, fun p hp => ?_⟩
    rcases List.mem_cons.1 hp with rfl | hp
    · exact le_trans h1 hn.2
    · exact h2 p hp

theorem Path.AllIn.of_release {e : Engine} (he : e.Ok) {y : Nat} (hy : y < Config.ringSize) {x : Nat}
    (h : e.places x) (hle : ringDistance e.release y ≤ ringDistance e.release x) :
    ringDistance y x ≤ ringDistance y e.tail := by
  have ht : ringDistance e.release y ≤ ringDistance e.release e.tail := le_trans hle h.2
  rw [ringDistance_moved he.release hy h.1 hle, ringDistance_moved he.release hy he.tail ht]
  have h2 : ringDistance e.release x ≤ ringDistance e.release e.tail := h.2
  omega

/-- RELEASE to a position at or before head (R35, R36), no positioning being in flight. -/
theorem Engine.Ordered.moveRelease {e : Engine} (he : e.Ok) (h : e.Ordered) (hn : e.positioning = none) {x : Nat}
    (hx : x < Config.ringSize) (hle : ringDistance e.release x ≤ ringDistance e.release e.path.head) :
    (e.moveRelease (e.releaseTo x)).Ordered := by
  have ha := Engine.Ok.allIn he.path h.path
  have hy := he.releaseTo hx
  obtain ⟨h1, h2⟩ := foldl_nearer_le e e.limits x
  have lim : ∀ p ∈ e.limits, ringDistance e.release (e.releaseTo x) ≤ ringDistance e.release p := h2
  constructor
  · intro z hz
    show ringDistance (e.releaseTo x) z ≤ ringDistance (e.releaseTo x) e.tail
    have hz' : z ∈ Path.positions { e.path with table := e.path.table.filter (e.keepsCheckpoint (e.releaseTo x)) } := hz
    rw [Path.mem_positions] at hz'
    rcases hz' with rfl | ⟨l, hl, rfl⟩ | ⟨y, hp, rfl⟩ | ⟨q, hq, hq2⟩
    · exact Path.AllIn.of_release he hy ha.head (le_trans h1 hle)
    · exact Path.AllIn.of_release he hy (ha.opens l hl)
        (lim _ (List.mem_append_left _ (List.mem_map_of_mem hl)))
    · refine Path.AllIn.of_release he hy (ha.progress y hp) (lim _ (List.mem_append_right _ ?_))
      have hp' : e.path.progress = some y := hp
      simp [hp']
    · obtain ⟨hm, hk⟩ := List.mem_filter.1 hq
      simp only [Engine.keepsCheckpoint, Bool.and_eq_true, decide_eq_true_eq, List.all_eq_true] at hk
      rcases hq2 with rfl | ⟨l, hl, rfl⟩
      · exact Path.AllIn.of_release he hy (ha.places q hm) hk.1
      · exact Path.AllIn.of_release he hy (ha.copies q hm l hl) (by simpa using hk.2 l hl)
  · intro p hp
    rw [show (e.moveRelease (e.releaseTo x)).positioning = none from hn] at hp
    cases hp

/-- CLEAR_RING (R38), no positioning being in flight. -/
theorem Engine.Ordered.cleared {e : Engine} (hn : e.positioning = none) : e.cleared.Ordered := by
  constructor
  · intro x hx
    simp [Path.mem_positions, Engine.cleared] at hx
    subst hx
    exact Nat.le_refl _
  · intro p hp
    rw [show e.cleared.positioning = none from hn] at hp
    cases hp

/-- The start of a positioning (R52, R53). -/
theorem positionNew_ordered {e : Engine} (he : e.Ok) (h : e.Ordered) (id n s : Nat) : (positionNew id n s e).1.Ordered := by
  have none_ok : ∀ r, Engine.Ordered { e with scan := r, positioning := none } :=
    fun r => ⟨h.path, fun p hp => by cases hp⟩
  unfold positionNew
  split
  · split
    · exact none_ok _
    · rename_i hne
      refine ⟨h.path, fun p hp x hx => ?_⟩
      cases hp
      simp [Path.mem_positions, originPath, Path.reset] at hx
      subst hx
      have hr := he.release; have ht := he.tail
      simp only [Engine.holds, ringDistance, ringStep, Config.ringSize] at *
      omega
  · exact none_ok _

theorem positionRestore_ordered {e : Engine} (he : e.Ok) (h : e.Ordered) (id n s : Nat) :
    (positionRestore id n s e).1.Ordered := by
  unfold positionRestore
  split
  · rename_i q hq
    have ha := Engine.Ok.allIn he.path h.path
    have hm := newestAtOrBefore_mem hq
    refine ⟨h.path, fun p hp => ?_⟩
    cases hp
    refine Path.AllIn.holds (e := e) (p := restoredPath e.path q) ⟨ha.places q hm, ha.copies q hm, ?_, ?_, ?_⟩
    · intro x hx; cases hx
    · exact fun r hr => ha.places r (List.mem_filter.1 hr).1
    · exact fun r hr => ha.copies r (List.mem_filter.1 hr).1
  · exact ⟨h.path, fun p hp => by cases hp⟩

/-- The commit of a positioning (R51). -/
theorem Engine.Ordered.commit {e : Engine} (h : e.Ordered) {p : Positioning} (hp : e.positioning = some p) (g : Nat) :
    (e.commit g p).Ordered := by
  refine ⟨fun x hx => h.pendingPath p hp x ?_, fun q hq => by cases hq⟩
  rw [Path.mem_positions] at hx ⊢
  exact hx

/-- The scan of a positioning in flight (R54). -/
theorem Engine.Ordered.scanRun {e : Engine} (he : e.Ok) (h : e.Ordered) {p : Positioning} (hp : e.positioning = some p)
    (id n g : Nat) : ∀ x ∈ (e.scanRun id n g p).1.path.positions, e.holds x :=
  Path.AllIn.holds (scanLoop_allIn id n g e.tail e.ring (fun _ hx hne => Engine.places_next he hx hne) _
    (Engine.Ok.allIn (he.pendingPath p hp) (h.pendingPath p hp)))

/-- A sub-beat played (R4), a record taken, a record completed: what the engine works on keeps within [release, tail]. -/
theorem Engine.Ordered.playEval {e : Engine} (he : e.Ok) (h : e.Ordered) (a : EvalAt) (first : Bool) (b : Nat → Bool)
    {x : PlayState} (hx : x.path = e.path) :
    (playEval a first b e.tail x).1.path.AllIn e.places :=
  playEval_allIn a first b e.tail (fun _ hy hne => Engine.places_next he hy hne)
    (by rw [hx]; exact Engine.Ok.allIn he.path h.path)

end Sys2Proof.Machine
end

