-- ==== Sys2Proof/Laws/Ports.lean ====
section
/-! SUPPORT. The parts of the port that operations which touch the port leave: outcome list, answer queue, join state, window. -/

-- One thread: as one text the package would start more than the memory limit lets through.
set_option Elab.async false

set_option linter.all false

namespace Sys2Proof.Machine

@[simp] theorem eachChannel_port_outcomes (f : Chan → State → State) (s : State) (h : ∀ c s, (f c s).port.outcomes = s.port.outcomes) :
    (eachChannel f s).port.outcomes = s.port.outcomes := eachChannel_same (fun s => s.port.outcomes) f h s

@[simp] theorem eachChannel_port_answers (f : Chan → State → State) (s : State) (h : ∀ c s, (f c s).port.answers = s.port.answers) :
    (eachChannel f s).port.answers = s.port.answers := eachChannel_same (fun s => s.port.answers) f h s

@[simp] theorem eachChannel_port_join (f : Chan → State → State) (s : State) (h : ∀ c s, (f c s).port.join = s.port.join) :
    (eachChannel f s).port.join = s.port.join := eachChannel_same (fun s => s.port.join) f h s

@[simp] theorem eachChannel_port_window (f : Chan → State → State) (s : State) (h : ∀ c s, (f c s).port.window = s.port.window) :
    (eachChannel f s).port.window = s.port.window := eachChannel_same (fun s => s.port.window) f h s

@[simp] theorem addOutcome_ports (station seq : Nat) (r : Result) (s : State) :
    (addOutcome station seq r s).port.answers = s.port.answers ∧
      (addOutcome station seq r s).port.join = s.port.join ∧
      (addOutcome station seq r s).port.window = s.port.window := by
  refine ⟨?_, ?_, ?_⟩ <;>
    first | (unfold addOutcome; (try dsimp only); (repeat' split) <;> (try simp) <;> (repeat' split) <;> simp) | (unfold addOutcome; dsimp only; done) | rfl

@[simp] theorem takePlace_ports (station seq : Nat) (body : Option AnswerBody) (s : State) :
    (takePlace station seq body s).port.outcomes = s.port.outcomes ∧
      (takePlace station seq body s).port.join = s.port.join ∧
      (takePlace station seq body s).port.window = s.port.window := by
  refine ⟨?_, ?_, ?_⟩ <;>
    first | (unfold takePlace; (try dsimp only); (repeat' split) <;> (try simp) <;> (repeat' split) <;> simp) | (unfold takePlace; dsimp only; done) | rfl

@[simp] theorem samplerAccept_ports (n station seq t : Nat) (s : State) :
    (samplerAccept n station seq t s).port.outcomes = s.port.outcomes ∧
      (samplerAccept n station seq t s).port.join = s.port.join ∧
      (samplerAccept n station seq t s).port.window = s.port.window := by
  refine ⟨?_, ?_, ?_⟩ <;>
    first | (unfold samplerAccept; (try dsimp only); (repeat' split) <;> (try simp) <;> (repeat' split) <;> simp) | (unfold samplerAccept; dsimp only; done) | rfl

@[simp] theorem samplerSafeStop_ports (t : Nat) (s : State) :
    (samplerSafeStop t s).port.outcomes = s.port.outcomes ∧
      (samplerSafeStop t s).port.join = s.port.join ∧
      (samplerSafeStop t s).port.window = s.port.window := by
  refine ⟨?_, ?_, ?_⟩ <;>
    first | (unfold samplerSafeStop; (try dsimp only); (repeat' split) <;> (try simp) <;> (repeat' split) <;> simp) | (unfold samplerSafeStop; dsimp only; done) | rfl

@[simp] theorem checkArmed_ports (s : State) :
    (checkArmed s).port.answers = s.port.answers ∧
      (checkArmed s).port.join = s.port.join ∧
      (checkArmed s).port.window = s.port.window := by
  refine ⟨?_, ?_, ?_⟩ <;>
    first | (unfold checkArmed; (try dsimp only); (repeat' split) <;> (try simp) <;> (repeat' split) <;> simp) | (unfold checkArmed; dsimp only; done) | rfl

@[simp] theorem State.putPlay_ports (s : State) (c : Chan) (x : PlayState) :
    (State.putPlay s c x).port.outcomes = s.port.outcomes ∧
      (State.putPlay s c x).port.answers = s.port.answers ∧
      (State.putPlay s c x).port.join = s.port.join ∧
      (State.putPlay s c x).port.window = s.port.window := by
  refine ⟨?_, ?_, ?_, ?_⟩ <;>
    first | (unfold State.putPlay; (try dsimp only); (repeat' split) <;> (try simp) <;> (repeat' split) <;> simp) | (unfold State.putPlay; dsimp only; done) | rfl

@[simp] theorem takeOne_ports (c : Chan) (s : State) :
    (takeOne c s).port.outcomes = s.port.outcomes ∧
      (takeOne c s).port.answers = s.port.answers ∧
      (takeOne c s).port.join = s.port.join ∧
      (takeOne c s).port.window = s.port.window := by
  refine ⟨?_, ?_, ?_, ?_⟩ <;>
    first | (unfold takeOne; (try dsimp only); (repeat' split) <;> (try simp) <;> (repeat' split) <;> simp) | (unfold takeOne; dsimp only; done) | rfl

@[simp] theorem completeAndGoOn_ports (c : Chan) (pos : Nat) (consumed : Option Nat) (s : State) :
    (completeAndGoOn c pos consumed s).port.outcomes = s.port.outcomes ∧
      (completeAndGoOn c pos consumed s).port.answers = s.port.answers ∧
      (completeAndGoOn c pos consumed s).port.join = s.port.join ∧
      (completeAndGoOn c pos consumed s).port.window = s.port.window := by
  refine ⟨?_, ?_, ?_, ?_⟩ <;>
    first | (unfold completeAndGoOn; (try dsimp only); (repeat' split) <;> (try simp) <;> (repeat' split) <;> simp) | (unfold completeAndGoOn; dsimp only; done) | rfl

@[simp] theorem seekStep_ports (c : Chan) (t : Nat) (k : Seek) (s : State) :
    (seekStep c t k s).port.answers = s.port.answers ∧
      (seekStep c t k s).port.join = s.port.join ∧
      (seekStep c t k s).port.window = s.port.window := by
  refine ⟨?_, ?_, ?_⟩ <;>
    first | (unfold seekStep; (try dsimp only); (repeat' split) <;> (try simp) <;> (repeat' split) <;> simp) | (unfold seekStep; dsimp only; done) | rfl

@[simp] theorem playPath_ports (c : Chan) (now t : Nat) (first : Bool) (s : State) :
    (playPath c now t first s).port.outcomes = s.port.outcomes ∧
      (playPath c now t first s).port.answers = s.port.answers ∧
      (playPath c now t first s).port.join = s.port.join ∧
      (playPath c now t first s).port.window = s.port.window := by
  refine ⟨?_, ?_, ?_, ?_⟩ <;>
    first | (unfold playPath; (try dsimp only); (repeat' split) <;> (try simp) <;> (repeat' split) <;> simp) | (unfold playPath; dsimp only; done) | rfl

@[simp] theorem playBeat_ports (c : Chan) (now t k : Nat) (first : Bool) (s : State) :
    (playBeat c now t k first s).port.outcomes = s.port.outcomes ∧
      (playBeat c now t k first s).port.answers = s.port.answers ∧
      (playBeat c now t k first s).port.join = s.port.join ∧
      (playBeat c now t k first s).port.window = s.port.window := by
  refine ⟨?_, ?_, ?_, ?_⟩ <;>
    first | (unfold playBeat; (try dsimp only); (repeat' split) <;> (try simp) <;> (repeat' split) <;> simp) | (unfold playBeat; dsimp only; done) | rfl

@[simp] theorem stateBeat_ports (c : Chan) (now : Nat) (t : Option Nat) (k : Nat) (first : Bool) (s : State) :
    (stateBeat c now t k first s).port.answers = s.port.answers ∧
      (stateBeat c now t k first s).port.join = s.port.join ∧
      (stateBeat c now t k first s).port.window = s.port.window := by
  refine ⟨?_, ?_, ?_⟩ <;>
    first | (unfold stateBeat; (try dsimp only); (repeat' split) <;> (try simp) <;> (repeat' split) <;> simp) | (unfold stateBeat; dsimp only; done) | rfl

@[simp] theorem driveBeat_ports (now : Nat) (t : Option Nat) (k : Nat) (first : Bool) (c : Chan) (s : State) :
    (driveBeat now t k first c s).port.answers = s.port.answers ∧
      (driveBeat now t k first c s).port.join = s.port.join ∧
      (driveBeat now t k first c s).port.window = s.port.window := by
  refine ⟨?_, ?_, ?_⟩ <;>
    first | (unfold driveBeat; (try dsimp only); (repeat' split) <;> (try simp) <;> (repeat' split) <;> simp) | (unfold driveBeat; dsimp only; done) | rfl

@[simp] theorem driveFreeBeat_ports (now : Nat) (c : Chan) (s : State) :
    (driveFreeBeat now c s).port.answers = s.port.answers ∧
      (driveFreeBeat now c s).port.join = s.port.join ∧
      (driveFreeBeat now c s).port.window = s.port.window := by
  refine ⟨?_, ?_, ?_⟩ <;>
    first | (unfold driveFreeBeat; (try dsimp only); (repeat' split) <;> (try simp) <;> (repeat' split) <;> simp) | (unfold driveFreeBeat; dsimp only; done) | rfl

@[simp] theorem issueBeat_ports (e k : Nat) (t : Option Nat) (first : Bool) (s : State) :
    (issueBeat e k t first s).port.answers = s.port.answers ∧
      (issueBeat e k t first s).port.join = s.port.join ∧
      (issueBeat e k t first s).port.window = s.port.window := by
  refine ⟨?_, ?_, ?_⟩ <;>
    first | (unfold issueBeat; (try dsimp only); (repeat' split) <;> (try simp) <;> (repeat' split) <;> simp) | (unfold issueBeat; dsimp only; done) | rfl

@[simp] theorem issueFreeBeat_ports (e : Nat) (s : State) :
    (issueFreeBeat e s).port.answers = s.port.answers ∧
      (issueFreeBeat e s).port.join = s.port.join ∧
      (issueFreeBeat e s).port.window = s.port.window := by
  refine ⟨?_, ?_, ?_⟩ <;>
    first | (unfold issueFreeBeat; (try dsimp only); (repeat' split) <;> (try simp) <;> (repeat' split) <;> simp) | (unfold issueFreeBeat; dsimp only; done) | rfl

@[simp] theorem catchUp_ports (e : Nat) (s : State) :
    (catchUp e s).port.answers = s.port.answers ∧
      (catchUp e s).port.join = s.port.join ∧
      (catchUp e s).port.window = s.port.window := by
  unfold catchUp
  split
  · exact ⟨foldl_same (fun s => s.port.answers) _ (fun s j => by simp) _ s, foldl_same (fun s => s.port.join) _ (fun s j => by simp) _ s, foldl_same (fun s => s.port.window) _ (fun s j => by simp) _ s⟩
  · exact ⟨rfl, rfl, rfl⟩

@[simp] theorem listenRound_ports (count : Nat) (heard : Bool) (s : State) :
    (listenRound count heard s).port.outcomes = s.port.outcomes ∧
      (listenRound count heard s).port.answers = s.port.answers ∧
      (listenRound count heard s).port.window = s.port.window := by
  refine ⟨?_, ?_, ?_⟩ <;>
    first | (unfold listenRound; (try dsimp only); (repeat' split) <;> (try simp) <;> (repeat' split) <;> simp) | (unfold listenRound; dsimp only; done) | rfl

@[simp] theorem closeCues_ports (s : State) :
    (closeCues s).port.outcomes = s.port.outcomes ∧
      (closeCues s).port.answers = s.port.answers ∧
      (closeCues s).port.join = s.port.join ∧
      (closeCues s).port.window = s.port.window := by
  refine ⟨?_, ?_, ?_, ?_⟩ <;>
    first | (unfold closeCues; (try dsimp only); (repeat' split) <;> (try simp) <;> (repeat' split) <;> simp) | (unfold closeCues; dsimp only; done) | rfl

@[simp] theorem leaveLocked_ports (s : State) :
    (leaveLocked s).port.outcomes = s.port.outcomes ∧
      (leaveLocked s).port.answers.length = s.port.answers.length := by
  refine ⟨?_, ?_⟩ <;>
    first | (unfold leaveLocked; (try dsimp only); (repeat' split) <;> (try simp) <;> (repeat' split) <;> simp) | (unfold leaveLocked; dsimp only; done) | rfl

@[simp] theorem layOutWindow_ports (s : State) :
    (layOutWindow s).port.outcomes = s.port.outcomes ∧
      (layOutWindow s).port.answers = s.port.answers := by
  refine ⟨?_, ?_⟩ <;>
    first | (unfold layOutWindow; (try dsimp only); (repeat' split) <;> (try simp) <;> (repeat' split) <;> simp) | (unfold layOutWindow; dsimp only; done) | rfl

@[simp] theorem beforeBeatN_ports (e : Nat) (s : State) :
    (beforeBeatN e s).port.answers = s.port.answers ∧
      (beforeBeatN e s).port.join = s.port.join ∧
      (beforeBeatN e s).port.window = s.port.window := by
  refine ⟨?_, ?_, ?_⟩ <;>
    first | (unfold beforeBeatN; (try dsimp only); (repeat' split) <;> (try simp) <;> (repeat' split) <;> simp) | (unfold beforeBeatN; dsimp only; done) | rfl

@[simp] theorem beatN_ports (locking rolled : Bool) (e : Nat) (s : State) :
    (beatN locking rolled e s).port.answers = s.port.answers ∧
      (beatN locking rolled e s).port.join = s.port.join ∧
      (beatN locking rolled e s).port.window = s.port.window := by
  refine ⟨?_, ?_, ?_⟩ <;>
    first | (unfold beatN; (try dsimp only); (repeat' split) <;> (try simp) <;> (repeat' split) <;> simp) | (unfold beatN; dsimp only; done) | rfl

@[simp] theorem afterBeats_ports (locking rolled : Bool) (tag : Nat) (s : State) :
    (afterBeats locking rolled tag s).port.outcomes = s.port.outcomes ∧
      (afterBeats locking rolled tag s).port.answers = s.port.answers ∧
      (afterBeats locking rolled tag s).port.join = s.port.join ∧
      (afterBeats locking rolled tag s).port.window = s.port.window := by
  refine ⟨?_, ?_, ?_, ?_⟩ <;>
    first | (unfold afterBeats; (try dsimp only); (repeat' split) <;> (try simp) <;> (repeat' split) <;> simp) | (unfold afterBeats; dsimp only; done) | rfl

@[simp] theorem framePulse_ports (locking : Bool) (e d : Nat) (s : State) :
    (framePulse locking e d s).port.answers.length = s.port.answers.length := by
  first | (unfold framePulse; (try dsimp only); (repeat' split) <;> (try simp) <;> (repeat' split) <;> simp) | (unfold framePulse; dsimp only; done) | rfl

@[simp] theorem edgeUnlocked_ports (e : Nat) (s : State) :
    (edgeUnlocked e s).port.answers.length = s.port.answers.length := by
  first | (unfold edgeUnlocked; (try dsimp only); (repeat' split) <;> (try simp) <;> (repeat' split) <;> simp) | (unfold edgeUnlocked; dsimp only; done) | rfl

@[simp] theorem edgeLocked_ports (e d p : Nat) (s : State) :
    (edgeLocked e d p s).port.answers.length = s.port.answers.length := by
  first | (unfold edgeLocked; (try dsimp only); (repeat' split) <;> (try simp) <;> (repeat' split) <;> simp) | (unfold edgeLocked; dsimp only; done) | rfl

@[simp] theorem risingEdge_ports (time : Nat) (s : State) :
    (risingEdge time s).port.answers.length = s.port.answers.length := by
  first | (unfold risingEdge; (try dsimp only); (repeat' split) <;> (try simp) <;> (repeat' split) <;> simp) | (unfold risingEdge; dsimp only; done) | rfl

@[simp] theorem expireFrame_ports (q p : Nat) (s : State) :
    (expireFrame q p s).port.outcomes = s.port.outcomes ∧
      (expireFrame q p s).port.answers.length = s.port.answers.length := by
  refine ⟨?_, ?_⟩ <;>
    first | (unfold expireFrame; (try dsimp only); (repeat' split) <;> (try simp) <;> (repeat' split) <;> simp) | (unfold expireFrame; dsimp only; done) | rfl

@[simp] theorem scheduledBeat_ports (k due q p : Nat) (s : State) :
    (scheduledBeat k due q p s).port.answers = s.port.answers ∧
      (scheduledBeat k due q p s).port.join = s.port.join ∧
      (scheduledBeat k due q p s).port.window = s.port.window := by
  refine ⟨?_, ?_, ?_⟩ <;>
    first | (unfold scheduledBeat; (try dsimp only); (repeat' split) <;> (try simp) <;> (repeat' split) <;> simp) | (unfold scheduledBeat; dsimp only; done) | rfl

@[simp] theorem freeBeat_ports (q p : Nat) (s : State) :
    (freeBeat q p s).port.answers = s.port.answers ∧
      (freeBeat q p s).port.join = s.port.join ∧
      (freeBeat q p s).port.window = s.port.window := by
  refine ⟨?_, ?_, ?_⟩ <;>
    first | (unfold freeBeat; (try dsimp only); (repeat' split) <;> (try simp) <;> (repeat' split) <;> simp) | (unfold freeBeat; dsimp only; done) | rfl

@[simp] theorem takeWhen_ports (p : Record → Bool) (c : Chan) (s : State) :
    (takeWhen p c s).port.outcomes = s.port.outcomes ∧
      (takeWhen p c s).port.answers = s.port.answers ∧
      (takeWhen p c s).port.join = s.port.join ∧
      (takeWhen p c s).port.window = s.port.window := by
  refine ⟨?_, ?_, ?_, ?_⟩ <;>
    first | (unfold takeWhen; (try dsimp only); (repeat' split) <;> (try simp) <;> (repeat' split) <;> simp) | (unfold takeWhen; dsimp only; done) | rfl

@[simp] theorem expireWait_ports (c : Chan) (pos cue : Nat) (act : OnTimeout) (s : State) :
    (expireWait c pos cue act s).port.outcomes = s.port.outcomes ∧
      (expireWait c pos cue act s).port.answers = s.port.answers ∧
      (expireWait c pos cue act s).port.join = s.port.join ∧
      (expireWait c pos cue act s).port.window = s.port.window := by
  refine ⟨?_, ?_, ?_, ?_⟩ <;>
    first | (unfold expireWait; (try dsimp only); (repeat' split) <;> (try simp) <;> (repeat' split) <;> simp) | (unfold expireWait; dsimp only; done) | rfl

@[simp] theorem discardArm_ports (a : ArmFlight) (r : Result) (code : ScanCode) (s : State) :
    (discardArm a r code s).port.answers = s.port.answers ∧
      (discardArm a r code s).port.join = s.port.join ∧
      (discardArm a r code s).port.window = s.port.window := by
  refine ⟨?_, ?_, ?_⟩ <;>
    first | (unfold discardArm; (try dsimp only); (repeat' split) <;> (try simp) <;> (repeat' split) <;> simp) | (unfold discardArm; dsimp only; done) | rfl

@[simp] theorem commitArm_ports (a : ArmFlight) (s : State) :
    (commitArm a s).port.answers = s.port.answers ∧
      (commitArm a s).port.join = s.port.join ∧
      (commitArm a s).port.window = s.port.window := by
  refine ⟨?_, ?_, ?_⟩ <;>
    first | (unfold commitArm; (try dsimp only); (repeat' split) <;> (try simp) <;> (repeat' split) <;> simp) | (unfold commitArm; dsimp only; done) | rfl

@[simp] theorem unwindArm_ports (a : ArmFlight) (r : Result) (s : State) :
    (unwindArm a r s).port.answers = s.port.answers ∧
      (unwindArm a r s).port.join = s.port.join ∧
      (unwindArm a r s).port.window = s.port.window := by
  refine ⟨?_, ?_, ?_⟩ <;>
    first | (unfold unwindArm; (try dsimp only); (repeat' split) <;> (try simp) <;> (repeat' split) <;> simp) | (unfold unwindArm; dsimp only; done) | rfl

@[simp] theorem sendInTurn_ports (t : Nat) (s : State) :
    (sendInTurn t s).port.outcomes = s.port.outcomes ∧
      (sendInTurn t s).port.join = s.port.join ∧
      (sendInTurn t s).port.window = s.port.window := by
  refine ⟨?_, ?_, ?_⟩ <;>
    first | (unfold sendInTurn; (try dsimp only); (repeat' split) <;> (try simp) <;> (repeat' split) <;> simp) | (unfold sendInTurn; dsimp only; done) | rfl

@[simp] theorem beginTurn_ports (i t : Nat) (s : State) :
    (beginTurn i t s).port.outcomes = s.port.outcomes ∧
      (beginTurn i t s).port.join = s.port.join := by
  refine ⟨?_, ?_⟩ <;>
    first | (unfold beginTurn; (try dsimp only); (repeat' split) <;> (try simp) <;> (repeat' split) <;> simp) | (unfold beginTurn; dsimp only; done) | rfl

@[simp] theorem nextTurn_ports (i t : Nat) (s : State) :
    (nextTurn i t s).port.outcomes = s.port.outcomes ∧
      (nextTurn i t s).port.join = s.port.join := by
  refine ⟨?_, ?_⟩ <;>
    first | (unfold nextTurn; (try dsimp only); (repeat' split) <;> (try simp) <;> (repeat' split) <;> simp) | (unfold nextTurn; dsimp only; done) | rfl

@[simp] theorem endSending_ports (t : Nat) (s : State) :
    (endSending t s).port.outcomes = s.port.outcomes ∧
      (endSending t s).port.answers = s.port.answers ∧
      (endSending t s).port.join = s.port.join := by
  refine ⟨?_, ?_, ?_⟩ <;>
    first | (unfold endSending; (try dsimp only); (repeat' split) <;> (try simp) <;> (repeat' split) <;> simp) | (unfold endSending; dsimp only; done) | rfl

@[simp] theorem cuesSent_ports (cues : List Nat) (s : State) :
    (cuesSent cues s).port.outcomes = s.port.outcomes ∧
      (cuesSent cues s).port.answers = s.port.answers ∧
      (cuesSent cues s).port.join = s.port.join ∧
      (cuesSent cues s).port.window = s.port.window := by
  refine ⟨?_, ?_, ?_, ?_⟩ <;>
    first | (unfold cuesSent; (try dsimp only); (repeat' split) <;> (try simp) <;> (repeat' split) <;> simp) | (unfold cuesSent; dsimp only; done) | rfl

@[simp] theorem answerSent_ports (s : State) :
    (answerSent s).port.outcomes = s.port.outcomes ∧
      (answerSent s).port.join = s.port.join ∧
      (answerSent s).port.window = s.port.window := by
  refine ⟨?_, ?_, ?_⟩ <;>
    first | (unfold answerSent; (try dsimp only); (repeat' split) <;> (try simp) <;> (repeat' split) <;> simp) | (unfold answerSent; dsimp only; done) | rfl

@[simp] theorem beginReport_ports (q : Nat) (r : FullReport) (s : State) :
    (beginReport q r s).port.outcomes = s.port.outcomes ∧
      (beginReport q r s).port.answers = s.port.answers ∧
      (beginReport q r s).port.join = s.port.join ∧
      (beginReport q r s).port.window = s.port.window := by
  refine ⟨?_, ?_, ?_, ?_⟩ <;>
    first | (unfold beginReport; (try dsimp only); (repeat' split) <;> (try simp) <;> (repeat' split) <;> simp) | (unfold beginReport; dsimp only; done) | rfl

@[simp] theorem examineReport_ports (r : Report) (c : Chan) (s : State) :
    (examineReport r c s).port.answers = s.port.answers ∧
      (examineReport r c s).port.join = s.port.join ∧
      (examineReport r c s).port.window = s.port.window := by
  refine ⟨?_, ?_, ?_⟩ <;>
    first | (unfold examineReport; (try dsimp only); (repeat' split) <;> (try simp) <;> (repeat' split) <;> simp) | (unfold examineReport; dsimp only; done) | rfl

@[simp] theorem takeReport_ports (r : Report) (s : State) :
    (takeReport r s).port.answers = s.port.answers ∧
      (takeReport r s).port.join = s.port.join ∧
      (takeReport r s).port.window = s.port.window := by
  refine ⟨?_, ?_, ?_⟩ <;>
    first | (unfold takeReport; (try dsimp only); (repeat' split) <;> (try simp) <;> (repeat' split) <;> simp) | (unfold takeReport; dsimp only; done) | rfl

@[simp] theorem reportedOutcomes_ports (r : FullReport) (s : State) :
    (reportedOutcomes r s).port.answers = s.port.answers ∧
      (reportedOutcomes r s).port.join = s.port.join ∧
      (reportedOutcomes r s).port.window = s.port.window := by
  refine ⟨?_, ?_, ?_⟩ <;>
    first | (unfold reportedOutcomes; (try dsimp only); (repeat' split) <;> (try simp) <;> (repeat' split) <;> simp) | (unfold reportedOutcomes; dsimp only; done) | rfl

@[simp] theorem readBack_ports (mismatch : Bool) (s : State) :
    (readBack mismatch s).port.outcomes = s.port.outcomes ∧
      (readBack mismatch s).port.answers = s.port.answers ∧
      (readBack mismatch s).port.join = s.port.join ∧
      (readBack mismatch s).port.window = s.port.window := by
  refine ⟨?_, ?_, ?_, ?_⟩ <;>
    first | (unfold readBack; (try dsimp only); (repeat' split) <;> (try simp) <;> (repeat' split) <;> simp) | (unfold readBack; dsimp only; done) | rfl

@[simp] theorem settleTag_ports (s : State) :
    (settleTag s).port.outcomes = s.port.outcomes ∧
      (settleTag s).port.answers = s.port.answers ∧
      (settleTag s).port.window = s.port.window := by
  refine ⟨?_, ?_, ?_⟩ <;>
    first | (unfold settleTag; (try dsimp only); (repeat' split) <;> (try simp) <;> (repeat' split) <;> simp) | (unfold settleTag; dsimp only; done) | rfl

@[simp] theorem closeRound_ports (q : Nat) (s : State) :
    (closeRound q s).port.outcomes = s.port.outcomes := by
  first | (unfold closeRound; (try dsimp only); (repeat' split) <;> (try simp) <;> (repeat' split) <;> simp) | (unfold closeRound; dsimp only; done) | rfl

@[simp] theorem replaceArm_ports (s : State) :
    (replaceArm s).port.answers = s.port.answers ∧
      (replaceArm s).port.join = s.port.join ∧
      (replaceArm s).port.window = s.port.window := by
  refine ⟨?_, ?_, ?_⟩ <;>
    first | (unfold replaceArm; (try dsimp only); (repeat' split) <;> (try simp) <;> (repeat' split) <;> simp) | (unfold replaceArm; dsimp only; done) | rfl

@[simp] theorem holdSeeking_ports (s : State) :
    (holdSeeking s).port.answers = s.port.answers ∧
      (holdSeeking s).port.join = s.port.join ∧
      (holdSeeking s).port.window = s.port.window := by
  refine ⟨?_, ?_, ?_⟩ <;>
    first | (unfold holdSeeking; (try dsimp only); (repeat' split) <;> (try simp) <;> (repeat' split) <;> simp) | (unfold holdSeeking; dsimp only; done) | rfl

@[simp] theorem holdFalls_ports (s : State) :
    (holdFalls s).port.answers = s.port.answers ∧
      (holdFalls s).port.join = s.port.join ∧
      (holdFalls s).port.window = s.port.window := by
  refine ⟨?_, ?_, ?_⟩ <;>
    first | (unfold holdFalls; (try dsimp only); (repeat' split) <;> (try simp) <;> (repeat' split) <;> simp) | (unfold holdFalls; dsimp only; done) | rfl

@[simp] theorem enterSafe_ports (t : Nat) (s : State) :
    (enterSafe t s).port.outcomes = s.port.outcomes ∧
      (enterSafe t s).port.join = s.port.join ∧
      (enterSafe t s).port.window = s.port.window := by
  refine ⟨?_, ?_, ?_⟩ <;>
    first | (unfold enterSafe; (try dsimp only); (repeat' split) <;> (try simp) <;> (repeat' split) <;> simp) | (unfold enterSafe; dsimp only; done) | rfl

@[simp] theorem fetchEntries_ports (m : Arrival) (n : Nat) (s : State) :
    (fetchEntries m n s).port.outcomes = s.port.outcomes ∧
      (fetchEntries m n s).port.join = s.port.join ∧
      (fetchEntries m n s).port.window = s.port.window := by
  refine ⟨?_, ?_, ?_⟩ <;>
    first | (unfold fetchEntries; (try dsimp only); (repeat' split) <;> (try simp) <;> (repeat' split) <;> simp) | (unfold fetchEntries; dsimp only; done) | rfl

@[simp] theorem writeConversion_ports (v : Conversion) (result : Nat) (s : State) :
    (writeConversion v result s).port.outcomes = s.port.outcomes ∧
      (writeConversion v result s).port.join = s.port.join ∧
      (writeConversion v result s).port.window = s.port.window := by
  refine ⟨?_, ?_, ?_⟩ <;>
    first | (unfold writeConversion; (try dsimp only); (repeat' split) <;> (try simp) <;> (repeat' split) <;> simp) | (unfold writeConversion; dsimp only; done) | rfl

@[simp] theorem completeConversion_ports (v : Conversion) (result : Nat) (s : State) :
    (completeConversion v result s).port.outcomes = s.port.outcomes ∧
      (completeConversion v result s).port.join = s.port.join ∧
      (completeConversion v result s).port.window = s.port.window := by
  refine ⟨?_, ?_, ?_⟩ <;>
    first | (unfold completeConversion; (try dsimp only); (repeat' split) <;> (try simp) <;> (repeat' split) <;> simp) | (unfold completeConversion; dsimp only; done) | rfl

end Sys2Proof.Machine
end

