-- ==== Sys2Proof/Laws/Records.lean ====
section
/-! SUPPORT. The record commands: what each reaches when the channel needs the record it names (State.needs). -/

-- One thread: as one text the package would start more than the memory limit lets through.
set_option Elab.async false

namespace Sys2Proof.Machine

/-- A channel that needs the record `r` stands on it, unless STALL turns it away. -/
theorem standsOn_of {s : State} {c : Chan} {r : Record} (h : s.needs c r) (p : Record → Bool) (hp : p r = true)
    (hk : (s.headTaken c).taking ≠ .faults .stall) : s.standsOn c p = true := by
  obtain ⟨h1, h2, h3, h4, h5, h6⟩ := h
  simp [State.standsOn, State.needsRecord, State.playsPath, State.headRecord, h1, h2, h3, h4, h5, h6, hp, hk]

/-- What taking the record at head gives, when the channel needs it. -/
theorem headTaken_of {s : State} {c : Chan} {r : Record} (h : s.needs c r) :
    s.headTaken c = takeInPlay (s.evalAt (s.engine c).path.latest) s.cueSet s.port.openCues (ringGet (s.engine c).ring (s.engine c).path.head) (s.engine c).path := by
  obtain ⟨h1, h2, h3, h4, h5, h6⟩ := h
  simp [State.headTaken, PlayState.takeHead, State.playState, h5]

/-- An offer changes the checkpoint table alone (R49). -/
theorem offer_eq (p : Path) (t pos : Nat) : p.offer t pos = { p with table := p.tableAfterOffer t pos } := by
  unfold Path.offer Path.tableAfterOffer
  split
  · rfl
  · simp [List.drop_one]

/-- A record taken with no fault and no path end leaves what its taking gives. -/
theorem takeOne_goesOn {s : State} {c : Chan} (k : Taken) (h : s.headTaken c = k) (hk : k.taking = .goesOn ∨ k.taking = .stops) :
    takeOne c s = s.putPlay c ((s.playState c).took k) := by
  unfold takeOne; rw [h]; rcases hk with hk | hk <;> rw [hk] <;> rfl

/-- A taking that neither emits nor consumes a cue changes the channel's engine alone. -/
theorem putPlay_plain (s : State) (c : Chan) (p : Path) (r : List (Nat × Entry)) :
    s.putPlay c { path := p, ring := r, cues := s.port.openCues, consumed := s.board.consumed } =
      s.setEngine c { s.engine c with path := p, ring := r } := rfl

/-- A record command on the record it names takes it. -/
theorem exec_takes {s : State} {c : Chan} {r : Record} (h : s.needs c r) (p : Record → Bool) (hp : p r = true)
    (hk : (s.headTaken c).taking ≠ .faults .stall) : takeWhen p c s = takeOne c s := by
  unfold takeWhen; rw [if_pos (standsOn_of h p hp hk)]

/-- A completion's last reported position (R25). -/
theorem reported_eq (s : State) (c : Chan) (p : Path) (pos : Nat) (h : p.lastReported = (s.engine c).path.lastReported) :
   p.reported pos (ringGet (s.engine c).ring pos).report = { p with lastReported := (s.engine c).reportedAt pos } := by
  unfold Path.reported Engine.reportedAt
  split <;> simp [← h]

/-- The same with the record written out. -/
theorem taken_of {s : State} {c : Chan} {r : Record} (h : s.needs c r) :
    s.headTaken c = takeInPlay (s.evalAt (s.engine c).path.latest) s.cueSet s.port.openCues { record := r, report := (ringGet (s.engine c).ring (s.engine c).path.head).report, stamp := (ringGet (s.engine c).ring (s.engine c).path.head).stamp } (s.engine c).path := by
  rw [headTaken_of h, ← h.2.2.2.2.2]

/-- A record that raises a fault is not taken: the soft fault is all there is (R5, R8). -/
theorem takeOne_faults {s : State} {c : Chan} (k : FaultKind) (h : s.headTaken c = raises k (s.engine c).path) :
    takeOne c s = softFault c k s := by
  unfold takeOne; rw [h]
  simp only [raises, Taking.playEnd, endPlay]
  congr 1
  show s.setEngine c (s.engine c) = s
  simp

end Sys2Proof.Machine
end

