-- ==== Sys2Proof/Tests/Slice0.lean ====
section
/-! SUPPORT. Tests: ill-formed commands, figures of the spec's worked examples, and for every statement a state and operands that
meet its hypotheses. -/

-- One thread: as one text the package would start more than the memory limit lets through.
set_option Elab.async false

namespace Sys2Proof.Tests
open Sys2Proof Sys2Proof.Machine

/-! ## Ill-formed commands -/

def bad : Activity := { began := 1, ended := 0, bytes := [0x3F] }

theorem test_illFormed_edges : (Instr.frameEdge 0 true true).wellFormed = false ∧ (Instr.rollPulse 0 false false).wellFormed = false ∧
    (Instr.lastTakeFrame 0 true false).wellFormed = false ∧ (Instr.followerDone 0 true true 0).wellFormed = false := by decide

theorem test_illFormed_samples : (Instr.holdFall 0 [false]).wellFormed = false ∧ (Instr.holdRise 0 [true]).wellFormed = false ∧
    (Instr.limitActive 0 0 true [true, true, true, true, true, true, true]).wellFormed = false ∧
    (Instr.limitInactive 0 0 false []).wellFormed = false := by decide

theorem test_illFormed_values : (Instr.entryAbsent 16).wellFormed = false ∧ (Instr.conversionComplete 4096).wellFormed = false := by
  decide

theorem test_illFormed_activity : (Instr.reportArrival bad).wellFormed = false ∧ (Instr.busError bad).wellFormed = false ∧
    (Instr.unknownKind bad).wellFormed = false := by decide

theorem test_illFormed_kinds :
    [Instr.setupLines bad, .setupChannel bad ⟨0, 0⟩, .enlist bad, .dismiss bad, .load bad, .advance bad, .release bad, .clearRing bad,
      .arm bad, .roll bad, .disband bad, .clear bad, .cue bad, .queryRing bad, .queryCheckpoints bad, .queryRoster bad,
      .queryHoldCauses bad, .queryCueBoard bad, .queryLines bad ⟨0, 0⟩, .querySampler bad, .fetch bad, .sample bad, .answer bad,
      .queryNoKnownRegion bad].all (fun c => !c.wellFormed) = true := by decide

/-- A known kind is no UNKNOWN_KIND, and a QUERY of region 1 is no QUERY of region 2 or of no region. -/
theorem test_illFormed_otherKind :
    (Instr.unknownKind { began := 0, ended := 1, bytes := [0x08] }).wellFormed = false ∧
    (Instr.queryCheckpoints { began := 0, ended := 1, bytes := [0x20, 0, 0, 1, 1, 0, 0] }).wellFormed = false ∧
    (Instr.queryNoKnownRegion { began := 0, ended := 1, bytes := [0x20, 0, 0, 1, 1, 0, 0] }).wellFormed = false := by decide

/-! ## Figures of the spec -/

/-- The check of the characters "1" to "9" (R203). -/
theorem test_crc : crc16 [0x31, 0x32, 0x33, 0x34, 0x35, 0x36, 0x37, 0x38, 0x39] = 0x29B1#16 := by decide +kernel

/-- The eased span of chapter 1. -/
theorem test_easedSpan : (List.range' 1 16).map (fun j => carve .ease 1000 j 16) =
    [11, 42, 92, 156, 231, 316, 406, 500, 593, 683, 768, 843, 907, 957, 988, 1000] := by decide +kernel

/-- The scaled linear span of chapter 1. -/
theorem test_scaledSpan : scaled { profile := .linear, num := 3, den := 7 } 1000 = 428 ∧
    (List.range' 1 8).map (fun j => carve .linear 428 j 8) = [53, 107, 160, 214, 267, 321, 374, 428] := by decide +kernel

/-- The short seek of chapter 9: the speeds of its seven rows, and b of three speeds. -/
theorem test_shortSeek : [brakeDistance 20 20, brakeDistance 40 20, brakeDistance 60 20] = [20, 60, 120] ∧
    [(0, 215), (20, 195), (40, 155), (60, 95), (40, 55), (20, 35), (20, 15)].map (fun x => seekSpeed 20 60 x.1 x.2) =
      [20, 40, 60, 40, 20, 20, 20] := by decide +kernel

/-- The ring of chapter 3's first example, with the stamps that its play left. -/
def heldRing : List (Nat × Entry) :=
  let e (r : Record) (f : Option Nat) : Entry := { record := r, report := false, stamp := f.map fun x => { takeId := 7, frame := x, sub := 0 } }
  [(20, e (.origin 1000) (some 0)), (21, e (.span 800 2) (some 2)), (22, e (.loopOpen 3) (some 2)), (23, e (.span 160 1) (some 7)),
    (24, e (.span (-160) 1) (some 8)), (25, e .loopClose (some 8)), (26, e (.waitCue 5 0 .hold) (some 11)),
    (27, e (.span (-1600) 4) none), (28, e .pathEnd none)]

def heldEntry (t0 pos : Nat) (x : Int) (stack : List Loop) : Checkpoint :=
  { t0 := t0, pos := pos, setPoint := x, shape := { profile := .linear, num := 1, den := 1 }, stack := stack, lastReported := none }

/-- The engine of chapter 3's first example, held at t = 100. -/
def heldEngine : Engine :=
  { Engine.reset with
    ring := heldRing, release := 20, tail := 29,
    path := { Path.reset with
      head := 28, latest := 99, setPoint := 1250, progress := some (.span 27 88 1800 (-1600) .linear 32 11),
      table := [heldEntry 0 21 1000 [], heldEntry 16 23 1800 [⟨23, 3⟩], heldEntry 24 24 1960 [⟨23, 3⟩],
        heldEntry 32 23 1800 [⟨23, 2⟩], heldEntry 40 24 1960 [⟨23, 2⟩], heldEntry 48 23 1800 [⟨23, 1⟩],
        heldEntry 56 24 1960 [⟨23, 1⟩], heldEntry 88 27 1800 []] } }

/-- The scan of a pickup of that hold at `s`: how it ends, its stop position, its target, its table's length. -/
def pickup (s : Nat) : Option (ScanEnd × Nat × Int × Nat) :=
  (positionRestore 7 8 s heldEngine).1.positioning.map fun p =>
    let r := heldEngine.scanRun 7 8 (s * 8) p
    (r.2, r.1.path.head, r.1.path.setPoint, r.1.path.table.length)

/-- The pickups of chapter 3 at S = 10, 12 and 8. -/
theorem test_pickups : pickup 10 = some (.reached, 27, 1800, 7) ∧ pickup 12 = some (.reached, 28, 1400, 8) ∧
    pickup 8 = some (.reached, 25, 1800, 7) := by decide +kernel

/-- The release of chapter 3 that cuts loop copies: only 88@27 is left, and 27 is the limit. -/
theorem test_releaseCuts : ((heldEngine.moveRelease (heldEngine.releaseTo 24)).path.table.map fun q => (q.t0, q.pos)) = [(88, 27)] ∧
    heldEngine.releasable 24 = true ∧ heldEngine.releaseTo 28 = 27 := by decide +kernel

/-! ## States for the witnesses -/

/-- A setup with room to move. -/
def roomy : Setup :=
  { Setup.reset with maxStep := 100, vmax := 60, seekRate := 20, stopRate := 4, travelMin := -10000, travelMax := 10000,
                     wheelNum := 1, wheelDen := 1, gainNum := 1, gainDen := 1 }

/-- Channel 0 configured with this setup, drive and engine; the other channels as reset leaves them. -/
def withChannel (u : Setup) (d : Drive) (e : Engine) : State :=
  State.reset.setChan 0 { configured := true, setup := u, drive := d, engine := e }

/-- Take 7 of this station, S = 2, TF = 5, in take state `st`. -/
def inTake (st : TakeState) (s : State) : State :=
  { s with take := { Take.reset with state := st, id := 7, mask := [0], s := 2, tf := 5, committed := true, remaining := 2 } }

/-- The timer locked since the pulse at 100,000 µs, P = 4,000, no sub-beat left. -/
def locked (s : State) : State :=
  { s with timer := { state := .locked, reference := none, lastPulse := some 100000, period := some 4000, tag := 5,
                      schedule := none, latest := some 103500 } }

/-- A JOINED station. -/
def joined (s : State) : State := { s with port := { s.port with join := .joined } }

/-- A playing PATH channel. -/
def player : Drive := { Drive.reset with state := .playing, source := some .path, setPoint := 50, previous := some 40, playedNext := 40 }

/-- Channel 0 rolls, its engine standing on record `r` at position 1 with this path beside. -/
def onRecord (r : Record) (p : Path) (stamp : Option Stamp) : State :=
  inTake .rolling (withChannel roomy player
    { Engine.reset with
      ring := ringPut [] 1 { record := r, report := true, stamp := stamp }, tail := 3, path := { p with head := 1, latest := 20 } })

/-- Channel 0 rolls, its engine with record `x` in progress at position 1. -/
def inProgress (x : Progress) (stamp : Option Stamp) : State :=
  inTake .rolling (withChannel roomy player
    { Engine.reset with
      ring := ringPut [] 1 { record := .dwell 1, report := true, stamp := stamp }, tail := 2,
      path := { Path.reset with head := 2, latest := 20, progress := some x } })

/-- A message of this kind from station 15, seq 9, that ended at 100 µs. -/
def message (kind : Nat) (target : Option Nat) (payload : List Byte) : Activity :=
  let bs := Machine.message kind 15 target 9 payload
  { began := 1600 - bs.length * 16, ended := 1600, bytes := bs }

/-- Received bytes that reach station 0 in a JOINED port without a window. -/
def reachesHere (k : Nat) (payload : List Byte) (s : State) : Prop := s.reaches k (message k (some 0) payload)

/-- The same sent to ALL. -/
def reachesEvery (k : Nat) (payload : List Byte) (s : State) : Prop := s.reachesAll k (message k none payload)

/-- The state a command leaves. -/
def after (c : Instr) (s : State) : State :=
  match exec c s with
  | .next t => t
  | _ => s

/-! ## Witnesses: the station and the timer -/

theorem witness_step : State.reset.enginesOk ∧ State.reset.listsBounded ∧ step State.reset = .next State.reset ∧
    (∀ a b, Instr.subBeat ≠ .reset a b) ∧ exec .subBeat State.reset = .next State.reset :=
  ⟨fun c => State.afterReset_enginesOk _ _ _ _ c, by unfold State.listsBounded; decide, rfl, fun _ _ h => (nomatch h), rfl⟩

theorem witness_reset : (0#6).toNat / 16 = 0 ∧ (0x1F#6).toNat / 16 = 1 ∧ (0x20#6).toNat / 16 = 2 ∧ (0x3F#6).toNat / 16 = 3 := by
  decide

/-- ABSENT and LOST, with no reference edge, and with one 3,999, 4,000, 1,000,000 and 1,000,001 µs back. -/
theorem witness_edgesWhileUnlocked :
    let lost : Timer := { Timer.reset with state := .lost, reference := some 0 }
    Timer.reset.state = .absent ∧ Timer.reset.reference = none ∧ lost.state = .lost ∧ lost.schedule = none ∧
    micros (max 0 (3999 * 16)) - 0 = 3999 ∧ micros (max 0 (4000 * 16)) - 0 = 4000 ∧
    micros (max 0 (1000000 * 16 + 15)) - 0 = 1000000 ∧ micros (max 0 (1000001 * 16)) - 0 = 1000001 := by decide

/-- LOCKED with P = 4,000: intervals of 2,999 (a runt), 3,000 and 1,000,001 µs. -/
theorem witness_runtsAndLoss :
    let t := (locked State.reset).timer
    let e (d : Nat) := micros (max (locked State.reset).clock ((100000 + d) * 16))
    t.state = .locked ∧ t.lastPulse = some 100000 ∧ t.period = some 4000 ∧ t.schedule = none ∧
    4 * (e 2999 - 100000) < 3 * 4000 ∧ 3 * 4000 ≤ 4 * (e 3000 - 100000) ∧ e 3000 - 100000 < 4000 ∧
    1000000 < e 1000001 - 100000 := by decide

/-- An accepted pulse at 4,000 and at 1,000,000 µs, in ROLLING, FINISHED and COUNTDOWN with two frames left. -/
theorem witness_pulse (s : State) (hs : s = inTake .rolling (locked State.reset) ∨ s = inTake .finished (locked State.reset) ∨
    s = inTake .countdown (locked State.reset)) :
    s.acceptsPulse (104000 * 16) ∧ s.acceptsPulse (1100000 * 16) ∧ s.timer.lastPulse = some 100000 ∧ 1 < s.take.remaining := by
  rcases hs with rfl | rfl | rfl <;>
    exact ⟨⟨100000, 4000, rfl, rfl, rfl, by decide, by decide, by decide⟩,
      ⟨100000, 4000, rfl, rfl, rfl, by decide, by decide, by decide⟩, rfl, by decide⟩

/-- A roll with channel 0 READY on a path, and with the path ended. -/
theorem witness_roll : ∀ ended : Bool,
    let d : Drive := { Drive.reset with state := .ready, source := some .path }
    let s0 := locked (inTake .countdown (withChannel roomy d { Engine.reset with path := { Path.reset with ended := ended } }))
    let s := { s0 with take := { s0.take with remaining := 1 } }
    s.acceptsPulse (104000 * 16) ∧ s.take.state = .countdown ∧ s.take.remaining ≤ 1 ∧ s.isTakeChannel 0 = true ∧
      (s.drive 0).state = .ready ∧ (after (.rollPulse (104000 * 16) false true) s).take.tf = 2 :=
  fun ended => by cases ended <;> exact ⟨⟨100000, 4000, rfl, rfl, rfl, by decide, by decide, by decide⟩, by decide +kernel⟩

theorem witness_lastTakeFrame :
    let s0 := inTake .rolling (locked State.reset)
    let s := { s0 with take := { s0.take with tf := 16777214 } }
    s.acceptsPulse (104000 * 16) ∧ s.take.state = .rolling ∧ 16777215 ≤ s.take.tf + 1 :=
  ⟨⟨100000, 4000, rfl, rfl, rfl, by decide, by decide, by decide⟩, by decide⟩

/-- Sub-beats 1 and 7 of a frame with N = 8 scheduled, and a STOPPING channel with none scheduled. -/
theorem witness_subBeats :
    let s := inTake .rolling (locked State.reset)
    let at_ (k : Nat) := { s with timer := { s.timer with schedule := some (k, 100000 + k * 500) } }
    (at_ 1).timer.schedule = some (1, 100500) ∧ (at_ 7).timer.schedule = some (7, 103500) ∧ 7 + 1 = (at_ 7).subBeats ∧
    (after .subBeat (at_ 7)).timer.schedule = none ∧ (after .subBeat (at_ 1)).take.latest = some 41 ∧
    (let f := inTake .stopping (locked (withChannel roomy { player with state := .stopping, stop := some ⟨10, true, 50⟩ } Engine.reset))
     f.timer.schedule = none ∧ (f.drive 0).state = .stopping ∧ (f.drive 1).state ≠ .stopping ∧
       ((after .freeSubBeat f).drive 0).setPoint = 56) := by decide +kernel

/-! ## Witnesses: path records -/

theorem witness_needs (r : Record) (hr : r ≠ .none) (p : Path) (hp : p.progress = none ∧ p.ended = false) (st : Option Stamp) :
    (onRecord r p st).needs 0 r := by
  have h : ringPut [] 1 { record := r, report := true, stamp := st } = [(1, { record := r, report := true, stamp := st })] := by
    simp [ringPut, Entry.blank, hr]
  refine ⟨rfl, rfl, hp.1, hp.2, by show (1 : Nat) ≠ 3; decide, ?_⟩
  show (ringGet (ringPut [] 1 { record := r, report := true, stamp := st }) 1).record = r
  rw [h]; rfl

/-- Zero-time counts 15 and 16, four and three loops, the two remaining counts of a LOOP_CLOSE. -/
theorem witness_loops :
    let l (n : Nat) : Loop := { openAt := 1, remaining := n }
    let at_ (p : Path) := onRecord .loopClose p none
    ((at_ { Path.reset with zero := 15, stack := [l 2] }).engine 0).path.zero < 16 ∧
    ((after (.loopCloseRecord 0) (at_ { Path.reset with stack := [l 2] })).engine 0).path.stack = [l 1] ∧
    ((after (.loopCloseRecord 0) (at_ { Path.reset with stack := [l 1] })).engine 0).path.stack = [] ∧
    ((after (.loopCloseRecord 0) (at_ Path.reset)).drive 0).kind = some .pathForm ∧
    ((after (.loopOpenRecord 0) (onRecord (.loopOpen 2) { Path.reset with stack := [l 1, l 1, l 1] } none)).engine 0).path.stack.length = 4 ∧
    ((after (.loopOpenRecord 0) (onRecord (.loopOpen 2) { Path.reset with stack := [l 1, l 1, l 1, l 1] } none)).drive 0).kind =
      some .loopDepth := by decide +kernel

theorem witness_shapeSpanDwell :
    ((after (.shapeRecord 0) (onRecord (.shape .ease 3 7) Path.reset none)).engine 0).path.shape = ⟨.ease, 3, 7⟩ ∧
    ((after (.spanRecord 0) (onRecord (.span 1000 2) Path.reset none)).engine 0).path.progress =
      some (.span 1 20 0 1000 .linear 16 0) ∧
    ((after (.dwellRecord 0) (onRecord (.dwell 2) Path.reset none)).engine 0).path.progress = some (.dwell 1 20 0 16 0) := by
  decide +kernel

/-- A wait stamped at 20, at 21 (ahead), unstamped with its cue clear and set, and inside a loop. -/
theorem witness_waitCue :
    let st (n : Nat) : Option Stamp := some { takeId := 7, frame := 2, sub := n }
    let s (x : Option Stamp) := onRecord (.waitCue 63 1 .hold) Path.reset x
    let set_ (s : State) : State := { s with board := { s.board with entries := s.board.entries.set 63 { isSet := true, tag := 0 } } }
    ((after (.waitCueRecord 0) (s (st 4))).engine 0).path.head = 2 ∧
    ((after (.waitCueRecord 0) (s (st 5))).engine 0).path.progress = some (.wait 1 20 63 (some 28) .hold) ∧
    (s none).cueSet 63 = false ∧ (set_ (s none)).cueSet 63 = true ∧
    ((after (.waitCueRecord 0) (s none)).engine 0).path.progress = some (.wait 1 20 63 (some 28) .hold) ∧
    (after (.waitCueRecord 0) (set_ (s none))).board.consumed = [63] ∧
    ((after (.waitCueRecord 0) (onRecord (.waitCue 63 1 .hold) { Path.reset with stack := [⟨1, 1⟩] } none)).drive 0).kind =
      some .pathForm := by decide +kernel

/-- An EMIT_CUE with three and four other cues in the set, and one already there; an END. -/
theorem witness_emitAndEnd :
    let s (cues : List Nat) : State := let b := onRecord (.emitCue 63) Path.reset none
      { b with port := { b.port with openCues := cues } }
    (after (.emitCueRecord 0) (s [1, 2, 3])).port.openCues = [1, 2, 3, 63] ∧
    (after (.emitCueRecord 0) (s [1, 2, 3, 63])).port.openCues = [1, 2, 3, 63] ∧
    ((after (.emitCueRecord 0) (s [1, 2, 3, 4])).drive 0).kind = some .cueDrop ∧
    (after (.endRecord 0) (onRecord .pathEnd Path.reset none)).take.state = .finished := by decide +kernel

/-- NONE (a ring position never loaded) and ORIGIN at head; a count of 16. -/
theorem witness_recordFaults :
    let none_ := inTake .rolling (withChannel roomy player { Engine.reset with tail := 3 })
    (none_.needs 0 .none) ∧ ((after (.noneRecord 0) none_).drive 0).kind = some .pathForm ∧
    ((after (.originRecord 0) (onRecord (.origin 1) Path.reset none)).drive 0).kind = some .pathForm ∧
    ((after (.stall 0) (onRecord .loopClose { Path.reset with zero := 16 } none)).drive 0).kind = some .stall ∧
    ((onRecord (.span 1 1) { Path.reset with zero := 16 } none).engine 0).path.zero = 16 :=
  ⟨⟨rfl, rfl, rfl, rfl, by decide, rfl⟩, by decide +kernel⟩

/-- A SPAN and a DWELL at offset K; a wait at its stamp; a wait at its expiry, SKIP, HOLD and with its cue set. -/
theorem witness_progress :
    let wait (act : OnTimeout) := Progress.wait 1 12 5 (some 20) act
    let set_ (s : State) : State := { s with board := { s.board with entries := s.board.entries.set 5 { isSet := true, tag := 0 } } }
    ((after (.recordComplete 0) (inProgress (.span 1 12 0 100 .linear 8 8) none)).drive 0).kind = some .ringEmpty ∧
    ((after (.recordComplete 0) (inProgress (.dwell 1 12 0 8 8) none)).engine 0).path.lastReported = some 1 ∧
    ((after (.waitStampPass 0) (inProgress (wait .hold) (some ⟨7, 2, 4⟩))).engine 0).path.progress = none ∧
    ((after (.waitExpiry 0) (inProgress (wait .skip) none)).engine 0).path.progress = none ∧
    ((after (.waitExpiry 0) (inProgress (wait .hold) none)).drive 0).kind = some .cueTimeout ∧
    (after (.waitExpiry 0) (set_ (inProgress (wait .hold) none))).board.consumed = [5] := by decide +kernel

/-- A completion with a SPAN at head. -/
theorem witness_completionBeginsSpan :
    let e : Engine := { Engine.reset with ring := [(1, ⟨.dwell 1, false, none⟩), (2, ⟨.span 8 1, false, none⟩)], tail := 3,
                                          path := { Path.reset with head := 2, latest := 20, progress := some (.dwell 1 12 0 8 8) } }
    let s := inTake .rolling (withChannel roomy player e)
    e.path.head ≠ e.tail ∧ (ringGet e.ring e.path.head).record = .span 8 1 ∧ ringWf e.ring = true ∧
    ((after (.recordComplete 0) s).engine 0).path.progress = some (.span 2 20 0 8 .linear 8 0) := by decide +kernel

/-! ## Witnesses: drives -/

/-- A soft fault of a channel in motion and of one at rest; a hard fault of an energized channel, in ROLLING and in ARMED. -/
theorem witness_faults :
    let s := inTake .rolling (withChannel roomy player Engine.reset)
    let rest := inTake .rolling (withChannel roomy { player with previous := some 50 } Engine.reset)
    let armed := inTake .armed (withChannel roomy { player with state := .ready } Engine.reset)
    ((softFault 0 .stall s).drive 0).state = .stopping ∧ ((softFault 0 .stall rest).drive 0).state = .stopped ∧
    s.energized 0 = true ∧ s.energized 1 = false ∧ ((hardFault 0 .limit s).drive 0).state = .faulted ∧
    armed.energized 0 = true ∧ armed.isTakeChannel 0 = true ∧ (hardFault 0 .limit armed).take.state = .held := by decide +kernel

theorem witness_stopEnds :
    let d : Drive := { player with state := .stopping, stop := some ⟨0, true, 50⟩ }
    let s := inTake .stopping (withChannel roomy d Engine.reset)
    let two := s.setDrive 1 { d with stop := some ⟨8, true, 50⟩ }
    let f := inTake .rolling (withChannel roomy { player with followErrors := 2 } Engine.reset)
    (after (.stopped 0) s).take.state = .held ∧ (after (.stopped 0) two).take.state = .stopping ∧
    ((after (.followError 0) f).drive 0).kind = some .followError := by decide +kernel

/-- A pulse upward, one downward, and a plan on the set-point; plans that fit the interval, that do not, and after a turn. -/
theorem witness_stepPulses :
    let plan : PulsePlan := { start := 100, interval := 8000, count := 10, sent := 0 }
    let s (x : Int) := inTake .rolling (withChannel roomy { player with stepPos := x, pulses := some plan } Engine.reset)
    (s 49).energized 0 = true ∧ ((after (.stepPulse 0) (s 49)).drive 0).stepPos = 50 ∧
    ((after (.stepPulse 0) (s 51)).drive 0).stepPos = 50 ∧ after (.stepPulse 0) (s 50) = s 50 ∧
    plan.next = 100 ∧ { plan with sent := 9 }.next = 7300 ∧ { plan with interval := 79, sent := 9 }.next = 172 ∧
    (let go (d : Drive) := let e := d.issue 100 8000 50; (e.pulses.map PulsePlan.start, e.dirAt 100, e.dirAt 103)
     go { player with stepPos := 40, dirHigh := true } = (some 100, true, true) ∧
     go { player with stepPos := 60, dirHigh := true, lastPulse := some 95 } = (some 119, true, false) ∧
     go { player with stepPos := 40, dirHigh := true, dirSince := some 100 } = (some 116, true, true) ∧
     go { player with stepPos := 60, dirHigh := true, dirSince := some 101 } = (some 100, false, false) ∧
     go { player with stepPos := 50, dirHigh := true, dirSince := some 101 } = (none, false, false)) := by
  decide +kernel

theorem witness_issueChecks :
    let d : Drive := { player with limitPlus := true }
    offerCheck player roomy 150 = none ∧ offerCheck player roomy 151 = some .stepLimit ∧
    offerCheck { player with setPoint := 9990 } roomy 10001 = some .travel ∧ offerCheck d roomy 51 = some .limit ∧
    offerCheck d roomy 50 = none ∧ offerCheck d roomy 49 = none ∧
    (1 : Nat) ≤ min (seekSpeed 20 60 20 15) 15 ∧ seekSpeed 20 60 20 15 = max (20 - 20) (min 20 60) := by decide

def limited : Setup := { roomy with limitHigh := true, lines := { LineAssignment.empty with
  limitPlus := some 4, limitMinus := some 5, encA := some 6, encB := some 7, wheelA := some 8, wheelB := some 9 } }

theorem witness_limits :
    let s := inTake .rolling (withChannel limited player Engine.reset)
    let on := inTake .rolling (withChannel limited { player with limitPlus := true, limitMinus := true } Engine.reset)
    let eight (b : Bool) := List.replicate 8 b
    (s.chan 0).configured = true ∧ ((eight true).reverse.take 8).all (· == limited.limitHigh) = true ∧
    ((eight false).reverse.take 8).all (· == !limited.limitHigh) = true ∧
    ((after (.limitActive 0 0 true (eight true)) s).drive 0).state = .faulted ∧
    ((after (.limitActive 0 0 false (eight true)) s).drive 0).limitMinus = true ∧
    ((after (.limitInactive 0 0 true (eight false)) on).drive 0).limitPlus = false ∧
    ((after (.limitInactive 0 0 false (eight false)) on).drive 0).limitMinus = false := by decide +kernel

/-- Forward, backward, skip and no change, at the ends of the count's range. -/
theorem witness_encoderAndWheel :
    let s := inTake .rolling (withChannel limited { player with encoder := 0xFFFFFFFF#32 } Engine.reset)
    let go (c : Instr) := (after c s).drive 0
    (go (.encoderChange 0 0 (true, false) (true, false))).encoder = 0 ∧
    (go (.encoderChange 0 0 (false, true) (false, true))).encoder = 0xFFFFFFFE#32 ∧
    (go (.encoderChange 0 0 (true, true) (true, true))).kind = some .encoderSkip ∧
    go (.encoderChange 0 0 (false, false) (false, false)) = s.drive 0 ∧
    (go (.wheelChange 0 0 (true, false) (true, false))).wheel = 1 ∧
    (go (.wheelChange 0 0 (false, true) (false, true))).wheel = 0xFFFFFFFF#32 ∧
    (go (.wheelChange 0 0 (true, true) (true, true))).state = .playing := by decide +kernel

def followSetup : Setup := { roomy with source := .follow 3 1 1 2 100 }

theorem witness_followerDone :
    let d : Drive := { player with source := some .follow, leaderDone := 2, follow := .pair 50 50, stepPos := 50 }
    let s := locked (inTake .rolling (withChannel followSetup d Engine.reset))
    s.acceptsPulse (104000 * 16) ∧ s.timer.schedule = none ∧ (s.drive 0).follow = .pair 50 50 ∧
      ((after (.followerDone (104000 * 16) false true 0) s).drive 0).state = .done :=
  ⟨⟨100000, 4000, rfl, rfl, rfl, by decide, by decide, by decide⟩, by decide +kernel⟩

/-! ## Witnesses: the bus and the Roster -/

theorem witness_outcomes : State.reset.port.outcomes.length < 4 ∧
    4 ≤ ((List.range 4).foldl (fun s n => addOutcome 1 n .accepted s) State.reset).port.outcomes.length := by decide

/-- A LOAD dropped outside JOINED, one for station 3, one sent to ALL. -/
theorem witness_unrouted :
    let j := joined State.reset
    State.reset.port.join ≠ .joined ∧ State.reset.admission (message 0x08 (some 0) []) = .dropped ∧
    (message 0x08 (some 3) []).bears 0x08 = true ∧ j.admission (message 0x08 (some 3) []) = .valid ∧
    (arrivalOf (message 0x08 (some 3) [])).target = some 3 ∧ j.admission (message 0x08 none []) = .valid ∧
    (arrivalOf (message 0x08 none [])).target = none ∧
    (after (.load (message 0x08 none [])) j).port.outcomes = [⟨15, 9, .refusedRange⟩] := by decide +kernel

theorem witness_unknownKind :
    let j := joined State.reset
    let m (t : Option Nat) := message 0x3F t []
    (∀ t : Option Nat, (m t).began ≤ (m t).ended) ∧ (m (some 0)).kind? = some 0x3F ∧ knownKinds.contains 0x3F = false ∧
    j.admission (m (some 0)) = .valid ∧ j.admission (m (some 1)) = .valid ∧ j.admission (m none) = .valid ∧
    (after (.unknownKind (m (some 0))) j).port.outcomes = [⟨15, 9, .unknownKind⟩] ∧ (after (.unknownKind (m none)) j).port.outcomes = [] :=
  ⟨fun _ => Nat.sub_le _ _, by decide +kernel⟩

/-- In turn 2 of tag 5: a message from station 15 (not the holder), one whose check fails, and an ANSWER with no window. -/
theorem witness_busError :
    let s0 := joined (locked State.reset)
    let s := inTake .rolling { s0 with port := { s0.port with window := .turn 2 0 0 } }
    let a : Activity := { began := 101000 * 16, ended := 101100 * 16, bytes := (message 0x13 (some 0) []).bytes }
    let b : Activity := { a with bytes := [0x13, 0x07, 0, 0, 0, 0] }
    a.began ≤ a.ended ∧ s.inOpenWindow a.began = true ∧ senderOf a.bytes ≠ (s.timer.tag + 2) % 16 ∧ isSound b = false ∧
    (after (.busError a) s).holds.concerned = some 7 ∧ (after (.busError b) s).holds.flags.busError = true ∧
    (message 0x21 (some 0) []).bears 0x21 = true ∧ (joined State.reset).admission (message 0x21 (some 0) []) = .valid := by
  decide +kernel

/-- Station 0 JOINED in the report slots of the frame of the pulse at 100,000 µs, its report taken. -/
def inSlots : State :=
  let s := joined (locked State.reset)
  { s with port := { s.port with window := .slots, snapshot := some s.report } }

theorem witness_reportSlot : inSlots.port.snapshot = some inSlots.report ∧ inSlots.port.sending = none ∧
    ((after .reportSlot inSlots).port.sending.map Sending.ends) = some ((100000 + 42 + 45) * 16) ∧
    (after .reportSlot inSlots).clock = 100042 * 16 := by decide +kernel

theorem witness_reportSent :
    let s := after .reportSlot inSlots
    s.port.sending = some { what := .report inSlots.report, bytes := inSlots.report.bytes, begins := 100042 * 16,
                            ends := 100087 * 16 } ∧
    s.port.window ≠ .none ∧ s.take.state ≠ .seeking ∧ inSlots.report.body.station < s.roster.entries.length ∧
    ((after (.reportSent true) s).entry 0).present = true := by decide +kernel

/-- A report of station 15, the last slot, arriving from its slot's first instant; and one of the own number in LISTENING. -/
theorem witness_reportArrival :
    let r : FullReport := { inSlots.report with body := { inSlots.report.body with station := 15 } }
    let a : Activity := { began := (100000 + 790) * 16, ended := (100000 + 835) * 16, bytes := r.bytes }
    let own : Activity := { began := 100089 * 16 + 15, ended := 100135 * 16, bytes := inSlots.report.bytes }
    let l : State := { inSlots with port := { inSlots.port with join := .listening 1 false } }
    (readReport a).map Report.station = some 15 ∧ ((after (.reportArrival a) inSlots).entry 15).missed = 0 ∧
    ((after (.reportArrival a) l).entry 15).missed = 0 ∧ (after (.reportArrival own) l).port.join = .duplicate := by decide +kernel

/-- Follower 0 of station 3's channel 1 waiting: a leader at 200 (its target 200), at 30,000 (outside), and one not READY. -/
theorem witness_followerTarget :
    let a : ArmFlight := { station := 15, seq := 1, phase := .moving, priorStates := Quad.ofFn fun _ => .parked, disbanded := false,
                           prior := State.reset.priorRecord }
    let d : Drive := { player with state := .seeking, source := some .follow, follow := .waiting }
    let s0 := inTake .seeking (withChannel followSetup d Engine.reset)
    let s := { s0 with take := { s0.take with arm := some a } }
    let ch (st : Nat) (x : Int) : ChannelReport := { state := st, ringLow := false, lastReported := none, setPoint := x }
    let r (st : Nat) (x : Int) : Report := { inSlots.report.body with
      station := 3, takeState := 3, takeId := 7, channels := Quad.ofFn fun _ => ch st x }
    s.waitsFor 0 3 = some (a, 1) ∧ s.isTakeChannel 0 = true ∧
    ((examineReport (r 3 200) 0 s).drive 0).seek = some { target := 200, up := true, speed := 0 } ∧
    ((examineReport (r 3 (-100)) 0 s).drive 0).state = .ready ∧ (examineReport (r 3 30000) 0 s).port.outcomes = [⟨15, 1, .travel⟩] ∧
    examineReport (r 4 200) 0 s = s := by decide +kernel

/-- Round close with members 0 and 3 and no report of station 3, in ROLLING and in HELD. -/
theorem witness_roundClose :
    let st (x : TakeState) : State := let s := inTake x inSlots; { s with take := { s.take with mask := [0, 3] } }
    (st .rolling).port.window = .slots ∧ (st .rolling).timer.lastPulse = some 100000 ∧ ((st .rolling).entry 3).mark = false ∧
    (after .roundClose (st .rolling)).holds.first = some .memberMissing ∧
    (after .roundClose (st .rolling)).holds.concerned = some 3 ∧ (after .roundClose (st .held)).holds = HoldRecord.empty ∧
    (after .roundClose (st .held)).roster.summary.missing = [0, 3].filter (· ≠ 0) := by decide +kernel

/-- The fourth listening round, with nothing heard and with a report of station 3 carrying tag 200; an entry missed 7 times. -/
theorem witness_joining :
    let l : State := { inSlots with port := { inSlots.port with join := .listening 3 false } }
    let e (missed : Nat) (mark : Bool) : RosterEntry :=
      { present := true, missed := missed, mark := mark, receivedTag := 0, report := some { inSlots.report.body with tag := 200 } }
    (after .joined l).port.join = .joined ∧ (after .joined l).timer.tag = 0 ∧
    (after .joined (l.setEntry 3 (e 0 true))).timer.tag = 200 ∧ (inSlots.setEntry 15 (e 7 false)).roster.entries.length = 16 ∧
    ((after (.entryAbsent 15) (inSlots.setEntry 15 (e 7 false))).entry 15).present = false := by decide +kernel

/-- Turns with tag 5 at station 0: the own turn is turn 11. It sends cues, an answer, or nothing; turn 15 ends in silence. -/
theorem witness_turns :
    let at_ (i : Nat) (p : Port) : State := { inSlots with port := { p with join := .joined, window := .turn i 0 0, snapshot := none } }
    let place (b : Option AnswerBody) : Place := { station := 3, seq := 1, body := b, sending := false }
    let cues : Port := { Port.reset with closedCues := [1, 63] }
    let answer : Port := { Port.reset with answers := [place none, place (some (.sample 0 1 false))] }
    (after .turnStart (at_ 15 Port.reset)).port.window = .silence ∧ (after .turnStart (at_ 14 Port.reset)).port.window = .turn 15 64 64 ∧
    (inSlots.timer.tag + (10 + 1)) % 16 = inSlots.station ∧ (after .turnStart (at_ 10 Port.reset)).port.sending = none ∧
    (after .turnStart (at_ 10 cues)).port.sending.isSome = true ∧
    (after .messageSent (after .turnStart (at_ 10 cues))).board.pending = [1, 63] ∧
    (after .messageSent (after .turnStart (at_ 10 answer))).port.answers = [place none] := by decide +kernel

/-- A CUE of numbers 63 and 64 to ALL; one to this station; the latch of cue 63, set before and not. -/
theorem witness_cues :
    let j := joined State.reset
    reachesEvery 0x18 [63, 64] j ∧ (after (.cue (message 0x18 none [63, 64])) j).board.pending = [63] ∧
    reachesHere 0x18 [63] j ∧ (after (.cue (message 0x18 (some 0) [63])) j).board.pending = [] ∧
    (let s : State := { j with board := { j.board with pending := [63] } }
     s.cueSet 63 = false ∧ (latchPending 200 s).cueSet 63 = true ∧ (latchPending 200 s).cueSet 62 = false ∧
       (latchPending 3 { latchPending 200 s with board := { (latchPending 200 s).board with pending := [63] } }).board.entries.getD 63
         { isSet := false, tag := 0 } = { isSet := true, tag := 200 }) :=
  ⟨⟨by decide +kernel, by decide +kernel, by decide +kernel⟩, by decide +kernel,
    ⟨by decide +kernel, by decide +kernel, by decide +kernel⟩, by decide +kernel, by decide +kernel⟩

/-! ## Witnesses: ring and setup requests -/

/-- A little-endian field of a payload. -/
def le (n v : Nat) : List Byte := leBytes n v

/-- A JOINED station in take state `st`; channel 0 has this drive and a ring that holds an ORIGIN at 1020 and a SPAN. -/
def ringed (st : TakeState) (d : Drive) : State :=
  joined (inTake st (withChannel roomy d { Engine.reset with
    ring := [(1020, ⟨.origin 70, false, none⟩), (1021, ⟨.span 8 1, true, none⟩)], release := 1020, tail := 1022,
    path := { Path.reset with
      head := 1022, stack := [⟨1021, 2⟩],
      table := [⟨0, 1021, 70, Path.reset.shape, [], none⟩, ⟨4, 1020, 70, Path.reset.shape, [], none⟩] } }))

def rested (st : TakeState) : State := ringed st { Drive.reset with state := .parked }

/-- What a request sent to this station leaves, and the result it settles with. -/
def settledWith (c : Activity → Instr) (k : Nat) (payload : List Byte) (s : State) : List Result :=
  (after (c (message k (some 0) payload)) s).port.outcomes.map OutcomeEntry.result

def settledByAll (c : Activity → Instr) (k : Nat) (payload : List Byte) (s : State) : List Result :=
  (after (c (message k none payload)) s).port.outcomes.map OutcomeEntry.result

/-- LOAD of two records at 1023 and 0, of one that is owned, from 1024, of none, of a DWELL of 0 frames. -/
theorem witness_load :
    let span := (⟨.span (-5) 3, true, none⟩ : Entry)
    let close := (⟨.loopClose, false, none⟩ : Entry)
    let p (start : Nat) (es : List (List Byte)) : List Byte := [0] ++ le 2 start ++ [byte es.length] ++ es.flatten
    let s := rested .rolling
    reachesHere 0x08 (p 1023 [span.bytes, close.bytes]) s ∧
    readLoad (arrivalOf (message 0x08 (some 0) (p 1023 [span.bytes, close.bytes]))).payload =
      some { channel := 0, start := 1023, records := [span, close].map some } ∧
    settledWith .load 0x08 (p 1023 [span.bytes, close.bytes]) s = [.accepted] ∧
    settledWith .load 0x08 (p 1019 [span.bytes, close.bytes]) s = [.refusedOwned] ∧
    settledWith .load 0x08 (p 1024 [span.bytes]) s = [.refusedRange] ∧ settledWith .load 0x08 (p 0 []) s = [.refusedRange] ∧
    settledWith .load 0x08 (p 1023 [padTo 16 [4]]) s = [.refusedRange] :=
  ⟨⟨by decide +kernel, by decide +kernel, by decide +kernel⟩, by decide +kernel⟩

/-- ADVANCE to tail, to release − 1, to release, to 1024, for channel 4; CLEAR_RING in IDLE, SAFE, ROLLING, for channel 4. -/
theorem witness_advanceAndClear :
    let p (c x : Nat) : List Byte := [byte c] ++ le 2 x
    let s := rested .rolling
    reachesHere 0x09 (p 0 1019) s ∧ settledWith .advance 0x09 (p 0 1022) s = [.accepted] ∧
    settledWith .advance 0x09 (p 0 1019) s = [.accepted] ∧ settledWith .advance 0x09 (p 0 1020) s = [.refusedRange] ∧
    settledWith .advance 0x09 (p 0 1024) s = [.refusedRange] ∧ settledWith .advance 0x09 (p 4 1023) s = [.refusedRange] ∧
    settledWith .clearRing 0x0B [3] (rested .idle) = [.accepted] ∧ settledWith .clearRing 0x0B [0] (rested .safe) = [.accepted] ∧
    settledWith .clearRing 0x0B [0] s = [.refusedState] ∧ settledWith .clearRing 0x0B [4] (rested .idle) = [.refusedRange] :=
  ⟨⟨by decide +kernel, by decide +kernel, by decide +kernel⟩, by decide +kernel⟩

/-- RELEASE to 1021 (the limit), to 1022 (clipped at 1021), beyond head, and while SEEKING; the engine keeps its order. -/
theorem witness_release :
    let p (x : Nat) : List Byte := [0] ++ le 2 x
    let s := rested .rolling
    let e := s.engine 0
    reachesHere 0x0A (p 1021) s ∧ settledWith .release 0x0A (p 1021) s = [.accepted] ∧
    settledWith .release 0x0A (p 1022) s = [.clipped] ∧ settledWith .release 0x0A (p 1023) s = [.refusedRange] ∧
    settledWith .release 0x0A (p 1024) s = [.refusedRange] ∧
    settledWith .release 0x0A (p 1021) (ringed .seeking { Drive.reset with state := .seeking }) = [.busy] ∧
    ((after (.release (message 0x0A (some 0) (p 1022))) s).engine 0).release = 1021 ∧
    ((after (.release (message 0x0A (some 0) (p 1022))) s).engine 0).path.table.map Checkpoint.pos = [1021] ∧
    ringDistance e.release e.path.head ≤ ringDistance e.release e.tail ∧ e.mayAdvance 1019 = true ∧
    ringDistance e.release 1022 ≤ ringDistance e.release e.path.head ∧
    (∀ q ∈ e.limits, ringDistance e.release q ≤ ringDistance e.release e.path.head) :=
  ⟨⟨by decide +kernel, by decide +kernel, by decide +kernel⟩, by decide +kernel⟩

/-- The engine of those requests is in order. -/
theorem witness_enginesOk (st : TakeState) : (rested st).enginesOk := by
  have blank : Engine.reset.Ok := State.afterReset_enginesOk 0 8 ⟨0, 0⟩ [] 1
  have h0 : ((rested st).engine 0).Ok :=
    ⟨by cases st <;> decide +kernel, by cases st <;> decide +kernel, by cases st <;> decide +kernel,
      ⟨by cases st <;> decide +kernel, by cases st <;> decide +kernel, by cases st <;> decide +kernel, fun _ h => (nomatch h),
        by cases st <;> decide +kernel, by cases st <;> decide +kernel, by cases st <;> decide +kernel,
        by cases st <;> decide +kernel⟩, fun _ h => (nomatch h), fun _ h => (nomatch h)⟩
  intro c
  fin_cases c
  · exact h0
  · exact blank
  · exact blank
  · exact blank

/-- SETUP_LINES with each tally field: unchanged, off, line 23, a line that is owned, 24 and 0xFD. -/
theorem witness_setupLines :
    let p (tally : Byte) : List Byte := [2, tally, 0, 0x03, 23, 0x0C]
    let s := joined (withChannel limited Drive.reset Engine.reset)
    reachesHere 0x01 (p 0xFF) s ∧ s.lines.plain.length = 24 ∧ s.functionOwned 23 = false ∧ s.functionOwned 4 = true ∧
    (after (.setupLines (message 0x01 (some 0) (p 23))) s).lines.tally = some 23 ∧
    (after (.setupLines (message 0x01 (some 0) (p 23))) s).plainOf 0 =
      { output := true, high := true, pullUp := false, inputEnable := false } ∧
    [0xFF, 0xFE, 23, 4, 24, 0xFD].map (fun v => settledWith .setupLines 0x01 (p v) s) =
      [[.accepted], [.accepted], [.accepted], [.lineConflict], [.refusedRange], [.refusedRange]] ∧
    settledWith .setupLines 0x01 (p 0xFF) (joined (inTake .idle s)) = [.refusedState] :=
  ⟨⟨by decide +kernel, by decide +kernel, by decide +kernel⟩, by decide +kernel⟩

/-- A SETUP_CHANNEL's payload: channel, feedback kind and input, ENABLE on `enable`, max step, vmax, travel max. -/
def channelPayload (c feedback input enable maxStep vmax : Nat) (travelMax : Int) : List Byte :=
  [byte c, 0, 0, 0] ++ le 4 0 ++ le 4 0 ++ [byte feedback, byte input, 0xFF, 0xFF, byte enable] ++ List.replicate 7 0xFF ++
    [1] ++ le 4 100 ++ le 2 maxStep ++ le 2 vmax ++ le 2 20 ++ le 2 4 ++ posBytes (-1000) ++ posBytes travelMax ++ le 2 50 ++
    [3] ++ le 2 1 ++ le 2 1 ++ le 2 1 ++ le 2 1 ++ le 4 0

/-- SETUP_CHANNEL accepted; without its encoder pair; on a line of channel 0; vmax above max step; travel crossed; not SAFE. -/
theorem witness_setupChannel :
    let s := joined (withChannel limited Drive.reset Engine.reset)
    let go (p : List Byte) (s : State) : List Result :=
      (after (.setupChannel (message 0x02 (some 0) p) ⟨0xFFFFFF, 0xFFFFFF⟩) s).port.outcomes.map OutcomeEntry.result
    let ok := channelPayload 1 1 7 20 100 60 1000
    let t := after (.setupChannel (message 0x02 (some 0) ok) ⟨0xFFFFFF, 0xFFFFFF⟩) s
    reachesHere 0x02 ok s ∧ ((readChannelSetup ok).bind ChannelRequest.setup).map Setup.maxStep = some 100 ∧
    go ok s = [.accepted] ∧ (t.chan 1).configured = true ∧ t.sampler.enables.getD 7 false = true ∧
    go (channelPayload 1 0 0 20 100 60 1000) s = [.refusedRange] ∧ go (channelPayload 1 1 7 4 100 60 1000) s = [.lineConflict] ∧
    go (channelPayload 1 1 7 20 60 100 1000) s = [.refusedRange] ∧ go (channelPayload 1 1 7 20 100 60 (-1001)) s = [.refusedRange] ∧
    go ok (joined (inTake .idle s)) = [.refusedState] :=
  ⟨⟨by decide +kernel, by decide +kernel, by decide +kernel⟩, by decide +kernel⟩

/-- ENLIST with an UNSET, a FAULTED and a STOPPED configured channel and one not configured; DISMISS of the same. -/
theorem witness_enlistAndDismiss :
    let ch (st : ChanState) : Channel := {
      configured := true, setup := { roomy with feedback := .encoder },
      drive := { Drive.reset with state := st, encoder := 9, setPoint := 4 }, engine := Engine.reset }
    let s := joined { State.reset with channels := ⟨ch .unset, ch .faulted, ch .stopped, Channel.reset⟩ }
    let t := after (.enlist (message 0x03 (some 0) [])) s
    reachesHere 0x03 [] s ∧ t.take.state = .idle ∧ settledWith .enlist 0x03 [] s = [.accepted] ∧
    [(0 : Chan), 1, 2, 3].map (fun c => ((t.drive c).state, (t.drive c).setPoint)) =
      [(.parked, 9), (.faulted, 4), (.stopped, 9), (.unset, 0)] ∧
    settledWith .enlist 0x03 [] (joined (inTake .idle s)) = [.refusedState] ∧
    (let busy := { t with sampler := { t.sampler with conversion := some ⟨7, false, false, 200⟩, mode := .sweep, pass := some [] } }
     let u := after (.dismiss (message 0x04 (some 0) [])) busy
     u.take.state = .safe ∧ u.energized 0 = false ∧ u.sampler.mode = .standby ∧ u.sampler.conversion = none) ∧
    settledWith .dismiss 0x04 [] s = [.refusedState] :=
  ⟨⟨by decide +kernel, by decide +kernel, by decide +kernel⟩, by decide +kernel⟩

/-! ## Witnesses: takes -/

/-- An ARM's payload. -/
def armPayload (id kind mask s : Nat) : List Byte := le 2 id ++ [byte kind] ++ le 2 mask ++ le 3 s

/-- An ARM in flight, in phase `ph`, in a station SEEKING. -/
def inArm (ph : ArmPhase) (s0 : State) : State :=
  let s := joined (inTake .seeking s0)
  { s with take := { s.take with
      committed := false,
      arm := some {
        station := 15, seq := 1, phase := ph, priorStates := Quad.ofFn fun _ => .parked, disbanded := false,
        prior := { s.priorRecord with state := .idle, id := 0 } } } }

/-- ARM refused: not in the mask; take id 0, kind 2; a hold; each state; take 7 reused, another id, another mask, another kind. -/
theorem witness_armRefusals :
    let go (p : List Byte) (s : State) : List Result := settledByAll .arm 0x10 p s
    let p := armPayload 7 0 1 2
    let s (st : TakeState) := rested st
    let held := { (s .idle) with holds := { HoldRecord.empty with flags := { CauseFlags.clear with slip := true } } }
    let used (st : TakeState) : State := { s st with take := { (s st).take with lastId := 7 } }
    reachesEvery 0x10 p (s .idle) ∧ readArm (arrivalOf (message 0x10 none p)).payload = some ⟨7, 0, [0], 2⟩ ∧
    go (armPayload 7 0 2 2) (s .idle) = [] ∧ go (armPayload 0 0 1 2) (s .idle) = [.refusedRange] ∧
    go (armPayload 7 2 1 2) (s .idle) = [.refusedRange] ∧ go p held = [.refusedHold] ∧
    go p { s .idle with holdInput := false } = [.refusedHold] ∧
    ([.safe, .countdown, .rolling, .finished, .stopping].all fun st => go p (s st) = [.refusedState]) = true ∧
    go p (used .idle) = [.takeReused] ∧ go (armPayload 8 0 1 2) (s .held) = [.refusedState] ∧
    go (armPayload 7 0 3 2) (s .armed) = [.refusedRange] ∧ go (armPayload 7 1 1 2) (s .held) = [.refusedRange] ∧
    go p (inArm .moving State.reset) = [.refusedState] ∧ go (armPayload 8 0 1 2) (inArm .positioning State.reset) = [.refusedState] :=
  ⟨⟨by decide +kernel, by decide +kernel, by decide +kernel⟩, by decide +kernel⟩

/-- An ARM accepted in IDLE with one PATH channel on its ORIGIN, and with no take channel. -/
theorem witness_armAccepted :
    let s := rested .idle
    let none_ := joined (inTake .idle State.reset)
    let a := message 0x10 none (armPayload 7 0 1 0xFFFFFF)
    reachesEvery 0x10 (armPayload 7 0 1 0xFFFFFF) s ∧ s.holdInput = true ∧ s.holds.flags.any = false ∧ 7 ≠ s.take.lastId ∧
    (s.setup 0).takeSource .play = .path ∧ (s.engine 0).release ≠ (s.engine 0).tail ∧
    (ringGet (s.engine 0).ring (s.engine 0).release).record = .origin 70 ∧
    (after (.arm a) s).take.state = .seeking ∧ ((after (.arm a) s).engine 0).positioning.isSome = true ∧
    (after (.arm a) none_).take.state = .armed ∧ (after (.arm a) none_).take.s = 16777215 :=
  ⟨⟨by decide +kernel, by decide +kernel, by decide +kernel⟩, by decide +kernel⟩

/-- Channel 0 of a positioning whose pending path is `p`, in an ARM of take 7 that has not committed. -/
def scanning (r : Record) (u : Setup) (p : Path) : State :=
  inArm .positioning (withChannel u { Drive.reset with state := .seeking, source := some .path }
    { Engine.reset with
      ring := ringPut [(1, ⟨.origin 70, false, none⟩)] 2 ⟨r, false, none⟩, release := 1, tail := 3,
      scan := inFlightFrom 7 2 0, positioning := some { path := p, stamps := [], reached := 0, target := none } })

/-- A scan that reaches S·N = 16, inside travel and outside; one that runs out of ring; one that meets a wait. -/
theorem witness_scans :
    let pend := { Path.reset with head := 2, setPoint := 70 }
    let go (s : State) (c : Chan) := after (.scanComplete c) s
    let ends (s : State) : Option ScanEnd := (s.scanStanding 0).map fun x => (s.scanOf 0 x.2).2
    let s := scanning (.span 100 4) roomy pend
    let out := scanning (.span 100 4) { roomy with travelMax := 100 } pend
    let short := scanning (.span 100 1) roomy pend
    let wait := scanning (.waitCue 0 0 .hold) roomy pend
    ends s = some .reached ∧ (go s 0).take.committed = true ∧ ((go s 0).drive 0).seek = some { target := 120, up := true, speed := 0 } ∧
    ends out = some .reached ∧ (go out 0).take.state = .idle ∧ (go out 0).port.outcomes.map OutcomeEntry.result = [.travel] ∧
    ends short = some (.short .ringEmpty) ∧ ((after (.scanRefusal 0) short).engine 0).scan.code = .ringShort ∧
    ends wait = some .unresolved ∧ ((after (.scanRefusal 0) wait).engine 0).scan.code = .cueUnresolved ∧
    after (.scanRefusal 0) s = s := by decide +kernel

/-- Two scans in flight: the first to complete waits for the other; the second commits. -/
theorem witness_twoScans :
    let a := scanning (.span 100 4) roomy { Path.reset with head := 2, setPoint := 70 }
    let s := a.setChan 1 (a.chan 0)
    (after (.scanComplete 0) s).take.committed = false ∧
    ((after (.scanComplete 0) s).engine 0).scan.code = .positioned ∧
    (after (.scanComplete 1) (after (.scanComplete 0) s)).take.committed = true := by decide +kernel

/-- The discard of a positioning: FAULTED stays, the other take channel is as it was. -/
theorem witness_discard :
    let s0 := scanning (.span 100 4) roomy { Path.reset with head := 2, setPoint := 70 }
    let s := s0.setChan 1 { s0.chan 0 with drive := { (s0.drive 0) with state := .faulted } }
    let f := s.take.arm
    s.port.outcomes.length < 4 ∧ s.isTakeChannel 0 = true ∧ (s.engine 0).scan.code = .inFlight ∧
    (f.map fun f => (discardArm f .aborted .abandoned s).take.state) = some .idle ∧
    (f.map fun f => ((discardArm f .aborted .abandoned s).drive 0).state) = some .parked ∧
    (f.map fun f => ((discardArm f .aborted .abandoned s).drive 1).state) = some .faulted ∧
    (f.map fun f => ((discardArm f .aborted .abandoned s).engine 0).scan.code) = some .abandoned := by decide +kernel

/-- ROLL: of another take, of lead 1, 2, 15 and 16, held, not ARMED, not roll-ready, accepted. -/
theorem witness_roll_request :
    let p (id l : Nat) : List Byte := le 2 id ++ [byte l]
    let ready (st : TakeState) : State := let s := rested st
      { s with roster := { s.roster with summary := { s.roster.summary with current := true, rollReady := true } } }
    let go (x : List Byte) (s : State) : List Result := settledByAll .roll 0x11 x s
    reachesEvery 0x11 (p 7 2) (ready .armed) ∧ readRoll (arrivalOf (message 0x11 none (p 7 2))).payload = some (7, 2) ∧
    go (p 8 2) (ready .armed) = [] ∧ [1, 2, 15, 16].map (fun l => go (p 7 l) (ready .armed)) =
      [[.refusedRange], [.accepted], [.accepted], [.refusedRange]] ∧
    go (p 7 2) { ready .armed with holdInput := false } = [.refusedHold] ∧ go (p 7 2) (ready .rolling) = [.refusedState] ∧
    go (p 7 2) (rested .armed) = [.refusedState] ∧
    (after (.roll (message 0x11 none (p 7 15))) (ready .armed)).take.remaining = 15 :=
  ⟨⟨by decide +kernel, by decide +kernel, by decide +kernel⟩, by decide +kernel⟩

/-- DISBAND: of another take; in ROLLING and STOPPING; in HELD with a channel READY, FAULTED, STOPPED without and with a fault
kind; and in a positioning. -/
theorem witness_disband :
    let go (x : List Byte) (s : State) : List Result := settledByAll .disband 0x12 x s
    let ch (st : ChanState) (k : Option FaultKind) : Channel := {
      configured := true, setup := roomy,
      drive := { Drive.reset with state := st, kind := k, source := some .path }, engine := Engine.reset }
    let held := joined (inTake .held { State.reset with channels :=
      ⟨ch .ready none, ch .faulted (some .limit), ch .stopped none, ch .stopped (some .stall)⟩ })
    let t := after (.disband (message 0x12 none (le 2 7))) held
    let arm := scanning (.span 100 4) roomy { Path.reset with head := 2, setPoint := 70 }
    reachesEvery 0x12 (le 2 7) held ∧ readDisband (arrivalOf (message 0x12 none (le 2 7))).payload = some 7 ∧
    go (le 2 8) held = [] ∧ go (le 2 7) (rested .rolling) = [.refusedState] ∧ go (le 2 7) (rested .stopping) = [.refusedState] ∧
    t.take.lastId = 7 ∧ [(0 : Chan), 1, 2, 3].map (fun c => (t.drive c).state) = [.parked, .faulted, .parked, .stopped] ∧
    (arm.take.arm.map ArmFlight.phase) = some .positioning ∧ go (le 2 7) arm = [.aborted, .accepted] :=
  ⟨⟨by decide +kernel, by decide +kernel, by decide +kernel⟩, by decide +kernel⟩

/-- CLEAR in each take state, of a channel FAULTED, STOPPED and PARKED, with and without feedback. -/
theorem witness_clear :
    let ch (st : ChanState) (f : Feedback) : Channel := {
      configured := true, setup := { roomy with feedback := f },
      drive := { Drive.reset with state := st, kind := some .stall, setPoint := 4, encoder := 9 }, engine := Engine.reset }
    let s (st : TakeState) := joined (inTake st { State.reset with
      channels := ⟨ch .faulted .encoder, ch .faulted .none, ch .stopped .none, ch .parked .none⟩,
      holds := { HoldRecord.empty with flags := { CauseFlags.clear with busError := true } } })
    let t (st : TakeState) := after (.clear (message 0x13 (some 0) [])) (s st)
    reachesHere 0x13 [] (s .held) ∧
    ([.seeking, .countdown, .rolling, .finished, .stopping].all fun st => settledWith .clear 0x13 [] (s st) = [.refusedState]) = true ∧
    ([.safe, .idle, .armed, .held].all fun st => settledWith .clear 0x13 [] (s st) = [.accepted]) = true ∧
    (t .held).holds.flags.any = false ∧
    [(0 : Chan), 1, 2, 3].map (fun c => (((t .held).drive c).state, ((t .held).drive c).setPoint)) =
      [(.parked, 9), (.parked, 4), (.stopped, 4), (.parked, 4)] ∧ ((t .idle).drive 2).state = .parked :=
  ⟨⟨by decide +kernel, by decide +kernel, by decide +kernel⟩, by decide +kernel⟩

/-- HOLD falling in every take state and phase, and rising; a playing channel in motion, one at rest. -/
theorem witness_hold :
    let fall (s : State) := after (.holdFall 0 [true, false, false]) s
    let roll := inTake .rolling (withChannel roomy player Engine.reset)
    let rest := inTake .finished (withChannel roomy { player with previous := some 50 } Engine.reset)
    let arm (ph : ArmPhase) := inArm ph State.reset
    ([.safe, .idle, .armed, .stopping, .held].all fun st => (fall (inTake st State.reset)).take.state = st) = true ∧
    (fall (arm .positioning)).take.state = .idle ∧ (fall (arm .moving)).port.outcomes.map OutcomeEntry.result = [.aborted] ∧
    (fall (arm .unwinding)).port.outcomes = [] ∧
    (fall roll).take.state = .stopping ∧ ((fall roll).drive 0).state = .stopping ∧ (fall rest).take.state = .held ∧
    ((fall rest).drive 0).state = .stopped ∧ (fall (inTake .countdown State.reset)).take.state = .held ∧
    (after (.holdRise 0 [false, true, true]) (fall roll)).holdInput = true := by decide +kernel

/-! ## Witnesses: sampler, queries, log, lines, formats -/

/-- Waking with a pass, with a single, with neither; a check conversion of 4,095 and of 4,094; a single's answer. -/
theorem witness_converter :
    let u : Setup := { roomy with feedback := .analog 7, breakCheck := true }
    let s := inTake .idle (withChannel u { Drive.reset with state := .parked } Engine.reset)
    let wake (p : Option (List Nat)) (x : Option PendingSingle) : State :=
      { s with sampler := { s.sampler with waking := some 320, mode := .sweep, pass := p, single := x } }
    let conv (single : Bool) : State := { s with
      sampler := { s.sampler with conversion := some ⟨7, single, true, 400⟩, mode := .sweep },
      port := { s.port with answers := [⟨3, 1, some (.sample 0 1 false), false⟩, ⟨3, 2, none, false⟩] } }
    ((after .wakeEnd (wake (some [7]) none)).sampler.conversion.map Conversion.input) = some 7 ∧
    (after .wakeEnd (wake none (some ⟨0, 15, 9⟩))).sampler.mode = .single ∧
    (after .wakeEnd (wake none none)).sampler.mode = .sweep ∧
    (after (.conversionComplete 4095) (conv false)).sampler.breaks.getD 7 false = true ∧
    ((after (.conversionComplete 4095) (conv false)).drive 0).kind = some .wireBreak ∧
    ((after (.conversionComplete 4094) (conv false)).drive 0).state = .parked ∧
    (after (.conversionComplete 4094) (conv true)).port.answers =
      [⟨3, 1, some (.sample 0 1 false), false⟩, ⟨3, 2, some (.sample 7 4094 false), false⟩] ∧
    s.energized 0 = true := by decide +kernel

/-- FETCH of 0, 1, 6 and 7 entries, with and without room; SAMPLE of 7 and 8, asleep, idle, at work, and busy. -/
theorem witness_fetchAndSample :
    let j := joined State.reset
    let full : State := { j with port := { j.port with answers := List.replicate 4 ⟨3, 1, none, false⟩ } }
    let awake (v : Option Conversion) : State := { j with sampler := { j.sampler with mode := .sweep, conversion := v } }
    let t (s : State) := after (.sample (message 0x23 (some 0) [7])) s
    reachesHere 0x22 [6] j ∧ reachesHere 0x23 [7] j ∧
    [0, 1, 6, 7].map (fun n => settledWith .fetch 0x22 [n] j) =
      [[.refusedRange], [.accepted], [.accepted], [.refusedRange]] ∧ settledWith .fetch 0x22 [1] full = [.busy] ∧
    settledWith .sample 0x23 [8] j = [.refusedRange] ∧ settledWith .sample 0x23 [7] full = [.busy] ∧
    settledWith .sample 0x23 [7] (awake (some ⟨0, true, false, 400⟩)) = [.busy] ∧
    (t j).sampler.waking = some 1920 ∧ (t (awake none)).sampler.conversion = some ⟨7, true, false, 1648⟩ ∧
    (t (awake (some ⟨0, false, false, 400⟩))).sampler.single = some ⟨7, 15, 9⟩ :=
  ⟨⟨by decide +kernel, by decide +kernel, by decide +kernel⟩, ⟨by decide +kernel, by decide +kernel, by decide +kernel⟩,
    by decide +kernel⟩

/-- A QUERY of every region with room, at its last parameters; of regions 1, 3 and 7 with none; out of range; of no region. -/
theorem witness_queries :
    let j := joined State.reset
    let full : State := { j with port := { j.port with answers := List.replicate 4 ⟨3, 1, none, false⟩ } }
    let q (p : List Byte) := message 0x20 (some 0) p
    let go (c : Instr) (s : State) : List Result := (after c s).port.outcomes.map OutcomeEntry.result
    reachesHere 0x20 [1, 3, 0xFF, 3, 4] j ∧ (q [1, 3, 0xFF, 3, 4]).region? = some 1 ∧ (q []).region? = none ∧
    (q [8]).region? = some 8 ∧ params 4 (arrivalOf (q [1, 3, 0xFF, 3, 4])).payload = some [3, 0xFF, 3, 4] ∧
    [go (.queryRing (q [1, 3, 0xFF, 3, 4])) j, go (.queryCheckpoints (q [2, 3, 15, 2])) j, go (.queryRoster (q [3, 15])) j,
      go (.queryHoldCauses (q [4])) j, go (.queryCueBoard (q [5])) j, go (.queryLines (q [6]) ⟨5, 5⟩) j, go (.querySampler (q [7])) j] =
      List.replicate 7 [.accepted] ∧
    [go (.queryRing (q [1, 4, 0, 0, 1])) j, go (.queryRing (q [1, 0, 0, 4, 1])) j, go (.queryRing (q [1, 0, 0, 0, 0])) j,
      go (.queryRing (q [1, 0, 0, 0, 5])) j, go (.queryRoster (q [3, 16])) j, go (.queryNoKnownRegion (q [])) j,
      go (.queryNoKnownRegion (q [0])) j, go (.queryNoKnownRegion (q [8])) j] = List.replicate 8 [.refusedRange] ∧
    go (.queryRing (q [1, 3, 0xFF, 3, 4])) full = [.busy] ∧ go (.querySampler (q [7])) full = [.busy] :=
  ⟨⟨by decide +kernel, by decide +kernel, by decide +kernel⟩, by decide +kernel⟩

/-- A log of 511 entries, of 512 without and with its gap; a pulse with a flagged channel. -/
theorem witness_captureLog :
    let x : CaptureEntry := { takeId := 7, tf := 5, channel := 0, setPoint := 50, feedback := none }
    let l (n : Nat) (g : Bool) : CaptureLog := { entries := List.replicate n x, gap := g, firstGap := if g then some 1 else none }
    let s := inTake .rolling (withChannel { roomy with capture := true } player Engine.reset)
    (offerCapture x (l 511 false)).entries.length = 512 ∧ (offerCapture x (l 512 false)).firstGap = some 5 ∧
    offerCapture x (l 512 true) = l 512 true ∧ (capturePulse s).log.entries = [x] ∧
    capturePulse (inTake .held s) = inTake .held s := by decide +kernel

/-- The snapshot of a JOINED station in ROLLING, its channel's ring low. -/
theorem witness_snapshot :
    let s := joined (inTake .rolling (withChannel { roomy with lowMark := 2 } player { Engine.reset with tail := 2 }))
    s.port.join = .joined ∧ ((layOutWindow s).port.snapshot.map fun r => (r.body.frame, (r.body.channels.get 0).ringLow)) =
      some (5, true) := by decide +kernel

/-- A channel energized and not; TALLY on line 23 in ROLLING. -/
theorem witness_clamp :
    let s0 := inTake .rolling (withChannel roomy player Engine.reset)
    let s := { s0 with lines := { s0.lines with tally := some 23 } }
    s.energized 0 = true ∧ (inTake .safe s).energized 0 = false ∧ s.functionLevel 0 .enable = some false ∧
    (inTake .safe s).functionLevel 0 .step = some false ∧ s.drivenLevel 23 = true ∧
    (inTake .finished s).drivenLevel 23 = false := by decide +kernel

/-- A report and ring entries at the ends of their fields. -/
theorem witness_formats :
    let ch (x : Int) : ChannelReport := { state := 15, ringLow := true, lastReported := some 1023, setPoint := x }
    let r : FullReport := { inSlots.report with
      body := { inSlots.report.body with
        station := 15, takeState := 15, tag := 255, takeId := 65535, frame := 16777215,
        channels := ⟨ch (-2147483648), ch 2147483647, { ch (-1) with lastReported := none }, ch 0⟩ },
      outcomes := [⟨15, 255, .aborted⟩] }
    let back (x : Record) := readEntry (⟨x, true, none⟩ : Entry).bytes = some ⟨x, true, none⟩
    r.bytes.length = 45 ∧ readReport { began := 0, ended := 1, bytes := r.bytes } = some r.body ∧
    back (.origin (-2147483648)) ∧ back (.shape .easeOut 4096 1) ∧ back (.span (-1073741824) 65535) ∧ back (.dwell 1) ∧
    back (.loopOpen 65535) ∧ back (.waitCue 63 65535 .hold) ∧ back (.emitCue 63) ∧ back .pathEnd ∧ back .none := by
  decide +kernel

/-! ## Witnesses: sub-beats at a drive, and the pulse -/

/-- Channel 0 alone energized in take 7, TF = 5, with sub-beat 3 due at 101,500 µs: take sub-beat 43. -/
def beating (st : TakeState) (u : Setup) (d : Drive) (e : Engine) : State :=
  let s := locked (inTake st (withChannel u d e))
  { s with timer := { s.timer with schedule := some (3, 101500) } }

/-- The same with no sub-beat left: the next free-running one falls at 104,000 µs. -/
def freeBeating (d : Drive) : State := locked (inTake .stopping (withChannel roomy d Engine.reset))

theorem witness_beating (st : TakeState) (u : Setup) (hu : u.feedback = .none) (d : Drive) (e : Engine)
    (hd : d.state ≠ .unset ∧ d.state ≠ .faulted) (hs : st ≠ .safe) :
    (beating st u d e).dueAt 3 101500 ∧ (beating st u d e).alone 0 ∧ (beating st u d e).follows 0 := by
  refine ⟨⟨101500, 100000, 4000, rfl, rfl, rfl, ?_⟩, ⟨?_, ?_⟩, ?_⟩
  · show 101500 = max (0 / 16) 101500
    decide
  · show (decide (d.state ≠ .unset) && decide (d.state ≠ .faulted) && decide (st ≠ .safe)) = true
    simp [hd.1, hd.2, hs]
  · intro b hb
    fin_cases b
    · exact absurd rfl hb
    · rfl
    · rfl
    · rfl
  · intro y h
    have hn : (beating st u d e).feedback 0 = none := by
      show (match u.feedback with
        | .encoder => some d.encoder.toInt
        | .analog n => _
        | .none => none) = none
      rw [hu]
    rw [hn] at h; cases h

theorem witness_freeBeating (d : Drive) (hd : d.state = .stopping) :
    (freeBeating d).freeAt 104000 ∧ (freeBeating d).alone 0 ∧ (freeBeating d).follows 0 := by
  refine ⟨⟨100000, 4000, rfl, rfl, rfl, ?_⟩, ⟨?_, ?_⟩, fun y h => by cases h⟩
  · show 104000 = max (0 / 16) (max (100000 + 4000) (103500 + 4000 / 8))
    decide
  · show (decide (d.state ≠ .unset) && decide (d.state ≠ .faulted) && _) = true
    rw [hd]; rfl
  · intro b hb
    fin_cases b
    · exact absurd rfl hb
    · rfl
    · rfl
    · rfl

/-- A channel that holds: reissued, with a backlog at the bound and past it; a following error once, and the second time; HELD
with and without a frame of the take. -/
theorem witness_holds :
    let d : Drive := { Drive.reset with state := .parked, setPoint := 50 }
    let go (u : Setup) (d : Drive) := (after .subBeat (beating .idle u d Engine.reset)).drive 0
    let far : Setup := { roomy with feedback := .encoder, followLimit := 49 }
    let held (b : Bool) := let s := beating .held roomy d Engine.reset
      { s with take := { s.take with inTakeFrame := b } }
    (go roomy d).setPoint = 50 ∧ (go roomy { d with stepPos := -150 }).pulses.map PulsePlan.count = some 200 ∧
    (go roomy { d with stepPos := -151 }).kind = some .stepBacklog ∧ (go far d).followErrors = 1 ∧
    (go far { d with followErrors := 1 }).kind = some .followError ∧
    (beating .idle far { d with followErrors := 1 } Engine.reset).errorsAfter 0 = 2 ∧
    (go { far with followLimit := 50 } { d with followErrors := 1 }).followErrors = 0 ∧
    (after .subBeat (held true)).take.latest = some 43 ∧ (after .subBeat (held false)).take.latest = none := by decide +kernel

/-- A span begun at 40, K = 8, at offset 3; the same a step too far; a span that ends at 43, with a SPAN, an END and nothing at
head. -/
theorem witness_playing :
    let e (x : Progress) (r : Record) : Engine := { Engine.reset with
      ring := ringPut [] 2 ⟨r, false, none⟩, tail := 3, path := { Path.reset with head := 2, progress := some x } }
    let go (u : Setup) (x : Progress) (r : Record) := after .subBeat (beating .rolling u player (e x r))
    let on := Progress.span 1 40 0 160 .linear 8 2
    let off := Progress.span 1 35 0 60 .linear 8 7
    5 * (beating .rolling roomy player Engine.reset).subBeats + 3 = 40 + 3 ∧
    ((go roomy on .none).drive 0).setPoint = 60 ∧ ((go roomy on .none).engine 0).path.progress = some (.span 1 40 0 160 .linear 8 3) ∧
    ((go { roomy with maxStep := 9 } on .none).drive 0).kind = some .stepLimit ∧
    ((go { roomy with maxStep := 9 } on .none).drive 0).setPoint = 50 ∧
    ((go roomy off (.span 8 1)).engine 0).path.progress = some (.span 2 43 60 8 .linear 8 0) ∧
    ((go roomy off .pathEnd).drive 0).state = .done ∧ ((go roomy off .none).drive 0).kind = some .pathForm ∧
    ((go roomy off .none).drive 0).setPoint = 60 ∧ ((go roomy off .none).drive 0).state = .stopping := by decide +kernel

/-- A stop profile from 10 at rate 4, from 4, and toward an active limit or beyond travel, scheduled and free-running. -/
theorem witness_stopping :
    let d (v : Nat) : Drive := { player with state := .stopping, stop := some ⟨v, true, 50⟩, stepPos := 50 }
    let go (u : Setup) (d : Drive) := (after .subBeat (beating .stopping u d Engine.reset)).drive 0
    let free (d : Drive) := (after .freeSubBeat (freeBeating d)).drive 0
    (go roomy (d 10)).setPoint = 56 ∧ (free (d 10)).setPoint = 56 ∧ (go roomy (d 4)).state = .stopped ∧
    (free (d 4)).setPoint = 50 ∧ (go { roomy with travelMax := 55 } (d 10)).kind = some .travel ∧
    (go { roomy with travelMax := 55 } (d 10)).state = .stopping ∧ (go { roomy with travelMax := 55 } (d 10)).setPoint = 50 ∧
    (go roomy { (d 10) with limitPlus := true }).kind = some .limit := by decide +kernel

/-- A seek's first step, its last, and one beyond travel. -/
theorem witness_seeking :
    let d (x : Int) : Drive := { player with state := .seeking, seek := some ⟨x, true, 0⟩, stepPos := 50 }
    let go (u : Setup) (d : Drive) := (after .subBeat (beating .seeking u d Engine.reset)).drive 0
    (go roomy (d 200)).setPoint = 70 ∧ (go roomy (d 200)).seek = some ⟨200, true, 20⟩ ∧ (go roomy (d 60)).state = .ready ∧
    (go { roomy with travelMax := 69 } (d 200)).kind = some .travel := by decide +kernel

/-- A follower a third of its pair on, a WHEEL channel, a follower whose frame begins with and without its leader's report, and
the leader-done count at a round close. -/
theorem witness_following :
    let f : Drive := { player with source := some .follow, follow := .pair 50 130, stepPos := 50 }
    let w : Drive := { player with source := some .wheel, wheelOffset := 40, wheel := 12, stepPos := 50 }
    let still : Drive := { f with follow := .pair 50 50, leaderDone := 1 }
    let go (d : Drive) := (after .subBeat (beating .rolling followSetup d Engine.reset)).drive 0
    let leader (tag : Nat) (x : Int) (st : Nat) (s : State) : State := s.setEntry 3
      { present := true, missed := 0, mark := true, receivedTag := tag,
        report := some { s.report.body with
          takeId := 7, channels := Quad.ofFn fun _ => { state := st, ringLow := false, lastReported := none, setPoint := x } } }
    let s := locked (inTake .rolling (withChannel followSetup still Engine.reset))
    let pulse (s : State) := ((after (.frameEdge (104000 * 16) false true) s).drive 0).follow
    let close (n : Nat) (d : Drive) := ((after .roundClose (leader 5 0 n (inTake .rolling
      { inSlots with channels := (withChannel followSetup d Engine.reset).channels }))).drive 0).leaderDone
    (go f).setPoint = 80 ∧ (go w).setPoint = 52 ∧ (s.setup 0).leader = some (3, 1) ∧
    pulse (leader 5 60 4 s) = .pair 50 130 ∧ pulse (leader 4 60 4 s) = .pair 50 50 ∧
    close 5 still = 2 ∧ close 5 { still with leaderDone := 2 } = 2 ∧ close 4 still = 0 := by decide +kernel

/-- An accepted pulse with a cue pending, set before and not; with a flagged channel, in ROLLING and in HELD; JOINED and
LISTENING; with a message of the own turn not begun, and lost lock with it. -/
theorem witness_pulseLeaves :
    let d : Drive := { Drive.reset with state := .parked }
    let s := joined (locked (inTake .rolling (withChannel { roomy with capture := true } d Engine.reset)))
    let cued : State := { s with board := { s.board with pending := [63] } }
    let t (s : State) := after (.frameEdge (104000 * 16) false true) s
    let turn (begins : Nat) : State := { s with port := { s.port with
      closedCues := [1], openCues := [2], sending := some { what := .cues [1], bytes := [], begins := begins, ends := begins } } }
    s.acceptsPulse (104000 * 16) ∧ ((t cued).board.entries.getD 63 ⟨false, 0⟩) = ⟨true, 6⟩ ∧ (t cued).board.pending = [] ∧
    (t s).log.entries.map CaptureEntry.tf = [6] ∧ (t (inTake .held s)).log.entries = [] ∧
    (t s).port.snapshot = some (t s).report ∧ (t { s with port := { s.port with join := .listening 1 true } }).port.snapshot = none ∧
    (t (turn (104000 * 16 + 1))).port.sending = none ∧ (t (turn (104000 * 16))).port.sending.isSome = true ∧
    (t (turn 0)).port.closedCues = [1, 2] ∧
    (after (.frameEdge (103999 * 16) false true) (turn (103999 * 16 + 1))).port.sending.isSome = false ∧
    (after .lostFrameExpiry (turn (108000 * 16))).port.sending.isSome = true ∧
    (after .lostFrameExpiry (turn (108000 * 16 + 1))).port.closedCues = [1, 2] :=
  ⟨⟨100000, 4000, rfl, rfl, rfl, by decide, by decide, by decide⟩, by decide +kernel⟩

/-! ## Witnesses: reports examined, rounds judged, the guard -/

/-- Follower 0 of station 3's channel 1 waits in SEEKING; a report of station 3 in its slot, ending at round close and a period
after it. -/
theorem witness_reportsExamined :
    let a : ArmFlight := { station := 15, seq := 1, phase := .moving, priorStates := Quad.ofFn fun _ => .parked, disbanded := false,
                           prior := State.reset.priorRecord }
    let d : Drive := { player with state := .seeking, source := some .follow, follow := .waiting }
    let s0 := inTake .seeking { inSlots with channels := (withChannel followSetup d Engine.reset).channels }
    let s := { s0 with take := { s0.take with arm := some a } }
    let r : FullReport := { inSlots.report with body := { inSlots.report.body with
      station := 3, takeState := 3, takeId := 7,
      channels := Quad.ofFn fun _ => { state := 3, ringLow := false, lastReported := none, setPoint := 200 } } }
    let m (ends : Nat) : Activity := { began := 100190 * 16, ended := ends, bytes := r.bytes }
    ((after (.reportArrival (m (100840 * 16))) s).drive 0).seek = some ⟨200, true, 0⟩ ∧
    ((after (.reportArrival (m (100840 * 16 + 1))) s).entry 3).present = false ∧
    (after (.reportSent false) (after .reportSlot s)).take.state = .seeking ∧
    ((after (.reportSent false) (after .reportSlot s)).entry 0).present = true := by decide +kernel

/-- Station 0 at round close with members 0 and 3, both heard, in take state `st`; what station 3's report shows. -/
def round (st : TakeState) (f : Report → Report) : State :=
  let s := inTake st inSlots
  let own := { s.report.body with tag := 5 }
  let e (r : Report) : RosterEntry := { present := true, missed := 0, mark := true, receivedTag := 5, report := some r }
  (({ s with take := { s.take with mask := [0, 3] } }).setEntry 0 (e own)).setEntry 3 (e (f { own with station := 3 }))

/-- A member in agreement, of another take, in another state, of another tag, of another frame; a hold record empty and not;
the frame field outside the running states; roll-ready; the take completed; the tag realigned, by this station's own report. -/
theorem witness_roundsJudged :
    let t (st : TakeState) (f : Report → Report) := after .roundClose (round st f)
    let y (st : TakeState) (f : Report → Report) := (t st f).roster.summary
    let used : State := { round .rolling (fun r => { r with takeId := 8 }) with
      holds := { HoldRecord.empty with flags := { CauseFlags.clear with slip := true }, first := some .slip } }
    (y .rolling id).causes = [] ∧ (y .rolling fun r => { r with takeId := 8 }).disagreeing = [3] ∧
    (y .finished fun r => { r with takeState := 7 }).disagreeing = [3] ∧
    (y .rolling fun r => { r with takeState := 6 }).disagreeing = [] ∧
    (t .rolling fun r => { r with tag := 6, takeId := 8 }).holds.first = some .disagree ∧
    (y .rolling fun r => { r with tag := 6, takeId := 8 }).causes = [.disagree, .slip] ∧
    (t .rolling fun r => { r with frame := 6 }).holds.concerned = some 3 ∧
    (y .held fun r => { r with frame := 6 }).slipping = [] ∧ (y .held fun r => { r with tag := 6 }).slipping = [3] ∧
    (after .roundClose used).holds.first = some .slip ∧ (after .roundClose used).holds.flags.disagree = true ∧
    (y .armed id).rollReady = true ∧ (t .finished id).take.state = .idle ∧ (t .finished id).take.lastId = 7 ∧
    (t .finished fun r => { r with takeState := 5 }).take.state = .finished ∧
    (after .roundClose ((round .held id).setEntry 0 RosterEntry.reset)).timer.tag = 5 ∧
    (after .roundClose ((round .held fun r => { r with tag := 200 }).setEntry 0 RosterEntry.reset)).timer.tag = 200 ∧
    (t .rolling fun r => { r with tag := 200 }).timer.tag = 5 := by decide +kernel

/-- Turn 0 of a frame with tag 16 is station 0's: cues, an answer, nothing, and a message that would meet the guard; the own
turn 11 of tag 5, pushed to the guard. -/
theorem witness_guard :
    let s (p : Port) : State := { inSlots with
      timer := { inSlots.timer with tag := 16 }, port := { p with join := .joined, window := .slots } }
    let cues : Port := { Port.reset with closedCues := [1, 63] }
    let answer : Port := { Port.reset with answers := [⟨3, 1, some (.sample 0 1 false), false⟩] }
    let short (x : State) : State := { x with timer := { x.timer with period := some 1049 } }
    let late (idle : Nat) : State := { inSlots with port := { cues with join := .joined, window := .turn 10 0 idle } }
    ((after .roundClose (s cues)).port.sending.map fun x => (x.begins, x.ends)) = some (100841 * 16, 100849 * 16) ∧
    (after .roundClose (s answer)).port.sending.isSome = true ∧ (after .roundClose (s Port.reset)).port.sending = none ∧
    (after .roundClose (short (s cues))).port.sending.isSome = true ∧
    (after .roundClose { short (s cues) with timer := { (s cues).timer with period := some 1048 } }).port.sending = none ∧
    ((100000 + 4000 - 200) * 16 : Nat) = (103787 * 16 + 64) + 16 + 8 * 16 ∧
    (after .turnStart (late (103787 * 16))).port.sending.isSome = true ∧
    (after .turnStart (late (103787 * 16 + 1))).port.sending = none := by decide +kernel

/-! ## Witnesses: entry checks, pickups, rings in order, the rest -/

/-- A station in `st` with channel 0 set up and driven so, its ring as in the ring requests. -/
def entering (st : TakeState) (u : Setup) (d : Drive) : State :=
  let s := ringed st d
  s.setChan 0 { s.chan 0 with setup := u }

/-- Take 7 armed again at S by the sender. -/
def armAgain (s : Nat) (x : State) : State := after (.arm (message 0x10 none (armPayload 7 0 1 s))) x

/-- ARM refused by each entry check, in IDLE and in HELD; the fault kind of a STOPPED channel. -/
theorem witness_entryRefusals :
    let parked : Drive := { Drive.reset with state := .parked }
    let go (x : State) := (armAgain 2 x).port.outcomes.map OutcomeEntry.result
    let noOrigin := let s := entering .idle roomy parked
      s.setEngine 0 { s.engine 0 with release := 1021 }
    let lost := let s := entering .held roomy parked
      s.setEngine 0 { s.engine 0 with path := { (s.engine 0).path with table := [⟨17, 1021, 70, Path.reset.shape, [], none⟩] } }
    go (entering .idle roomy { parked with state := .faulted }) = [.channelFaulted] ∧
    go (entering .held roomy { parked with state := .stopped, kind := some .stall }) = [.channelFaulted] ∧
    go (entering .idle followSetup parked) = [.leaderAbsent] ∧ go noOrigin = [.noOrigin] ∧ go lost = [.notRetained] ∧
    ¬(noOrigin.engine 0).onOrigin ∧ (armAgain 2 noOrigin).take.state = .idle ∧ ((armAgain 2 noOrigin).drive 0).state = .parked ∧
    ((armAgain 2 lost).engine 0).scan.code = .notRetained ∧ (armAgain 2 lost).take.state = .held := by
  refine ⟨by decide +kernel, by decide +kernel, by decide +kernel, by decide +kernel, by decide +kernel, ?_, by decide +kernel,
    by decide +kernel, by decide +kernel, by decide +kernel⟩
  rintro ⟨_, x, hx⟩
  exact absurd hx (by simp [State.engine, State.chan, entering, ringed, joined, inTake, withChannel, Quad.get, Quad.set,
    State.setChan, State.setEngine, ringGet])

/-- A pickup from HELD and a re-arm from ARMED restore the newest checkpoint at or before S·N; a FOLLOW channel waits, a WHEEL
channel is READY; an ARM in SEEKING ends the one in flight. -/
theorem witness_armAgain :
    let stopped : Drive := { Drive.reset with state := .stopped }
    let go (st : TakeState) := armAgain 2 (entering st roomy stopped)
    let wheels : Setup := { roomy with lines := { LineAssignment.empty with wheelA := some 8, wheelB := some 9 } }
    let record (x : State) : State := { x with take := { x.take with kind := .recordTake } }
    let arm (k : Nat) (x : State) : State := after (.arm (message 0x10 none (armPayload 7 k 9 2))) x
    let led : State := let s := record (entering .held followSetup stopped)
      ({ s with take := { s.take with mask := [0, 3] } }).setEntry 3 { RosterEntry.reset with present := true, missed := 0 }
    let wheel : State := let s := record (entering .held wheels stopped)
      { s with take := { s.take with mask := [0, 3] } }
    let again := scanning (.span 100 4) roomy { Path.reset with head := 2, setPoint := 70 }
    (go .held).take.state = .seeking ∧ ((go .held).engine 0).positioning.map Positioning.reached = some 4 ∧
    ((go .armed).engine 0).scan.start = some 4 ∧ (go .held).take.committed = true ∧
    ((arm 1 led).drive 0).follow = .waiting ∧ (arm 1 led).take.state = .seeking ∧
    (arm 1 wheel).take.state = .armed ∧ ((arm 1 wheel).drive 0).state = .ready ∧
    again.port.outcomes.length < 4 ∧ (armAgain 2 again).port.outcomes.map OutcomeEntry.result = [.aborted] ∧
    (armAgain 2 again).take.state = .seeking := by decide +kernel

/-- The station of the ring requests has its rings in order; RELEASE meets a positioning whose channel has faulted. -/
theorem witness_ringsInOrder : (rested .rolling).RingsInOrder ∧
    (let s0 := scanning (.span 100 4) roomy { Path.reset with head := 2, setPoint := 70 }
     let s := hardFault 0 .limit s0
     (s.drive 0).state = .faulted ∧ (s.engine 0).positioning ≠ none ∧
       (after (.release (message 0x0A (some 0) ([0] ++ le 2 1))) s).port.outcomes.map OutcomeEntry.result = [.busy]) := by
  refine ⟨⟨witness_enginesOk .rolling, ?_, ?_⟩, by decide +kernel⟩
  · intro c
    fin_cases c
    · refine ⟨?_, fun p hp => (nomatch hp)⟩
      show ∀ x ∈ ((rested .rolling).engine 0).path.positions, ringDistance 1020 x ≤ ringDistance 1020 1022
      decide +kernel
    · exact Engine.reset_ordered
    · exact Engine.reset_ordered
    · exact Engine.reset_ordered
  · rintro ⟨c, hc⟩
    fin_cases c <;> exact absurd rfl hc

/-- The commit writes the pending stamps of both rings; a conversion frees the converter for the next input of the pass, for the
single, and for nothing. -/
theorem witness_commitAndConverter :
    let a := scanning (.span 100 4) roomy { Path.reset with head := 2, setPoint := 70 }
    let stamped (e : Engine) : Engine := { e with positioning := e.positioning.map fun p => { p with stamps := [(1, ⟨7, 2, 0⟩)] } }
    let s := (a.setChan 1 (a.chan 0)).setEngine 1 (stamped (a.engine 0))
    let t := after (.scanComplete 1) (after (.scanComplete 0) s)
    let conv (p : Option (List Nat)) (x : Option PendingSingle) : State := { State.reset with
      sampler := { State.reset.sampler with conversion := some ⟨7, false, false, 400⟩, mode := .sweep, pass := p, single := x } }
    let u (p : Option (List Nat)) (x : Option PendingSingle) := (after (.conversionComplete 9) (conv p x)).sampler
    (ringGet (t.engine 1).ring 1).stamp = some ⟨7, 2, 0⟩ ∧
    (u (some [3]) (some ⟨0, 15, 9⟩)).conversion = some ⟨3, false, false, 448⟩ ∧
    (u (some []) (some ⟨0, 15, 9⟩)).conversion = some ⟨0, true, false, 448⟩ ∧ (u none none).mode = .standby := by decide +kernel

/-- Every region with no place free, and with a payload of another length. -/
theorem witness_queriesRefused :
    let j := joined State.reset
    let full : State := { j with port := { j.port with answers := List.replicate 4 ⟨3, 1, none, false⟩ } }
    let q (p : List Byte) := message 0x20 (some 0) p
    let go (s : State) (c : Instr) : List Result := (after c s).port.outcomes.map OutcomeEntry.result
    ([.queryRing (q [1, 3, 0xFF, 3, 4]), .queryCheckpoints (q [2, 3, 15, 2]), .queryRoster (q [3, 15]), .queryHoldCauses (q [4]),
      .queryCueBoard (q [5]), .queryLines (q [6]) ⟨0, 0⟩, .querySampler (q [7])].map (go full)) = List.replicate 7 [.busy] ∧
    ([.queryRing (q [1, 3]), .queryCheckpoints (q [2]), .queryCheckpoints (q [2, 4, 0, 1]), .queryCheckpoints (q [2, 0, 16, 1]),
      .queryCheckpoints (q [2, 0, 0, 3]), .queryRoster (q [3]), .queryHoldCauses (q [4, 0]), .queryCueBoard (q [5, 0]),
      .queryLines (q [6, 0]) ⟨0, 0⟩, .querySampler (q [7, 0])].map (go j)) = List.replicate 10 [.refusedRange] := by decide +kernel

/-- Line 3: undriven with its pull-up, driven low against it, with input enable off, and an output. -/
theorem witness_pins :
    let s (p : Plain) (pins : Pins) : State := { State.reset with
      lines := { State.reset.lines with plain := List.replicate 24 p, pins := pins } }
    let up : Plain := { Plain.reset with pullUp := true }
    (s up ⟨0, 0⟩).inputLevel 3 = true ∧ (s up ⟨8, 0⟩).inputLevel 3 = false ∧ (s Plain.reset ⟨8, 8⟩).inputLevel 3 = true ∧
    (s { up with inputEnable := false } ⟨0, 0⟩).inputLevel 3 = false ∧
    (s { up with output := true, high := true } ⟨0, 0⟩).inputLevel 3 = true ∧
    ((s { up with output := true } ⟨0, 0⟩).effective 3).pullUp = false := by decide +kernel

/-! ## Witnesses: unwinding, activity that ends in the guard, fields out of range -/

/-- A station SEEKING with the ARM in flight `f` of its own take 7, channel 0 driven so. -/
def unwinding (f : ArmFlight → ArmFlight) (d : Drive) : State :=
  let s0 := inTake .seeking (locked (withChannel roomy d Engine.reset))
  let a : ArmFlight := { station := 15, seq := 1, phase := .moving, priorStates := Quad.ofFn fun _ => .stopped, disbanded := false,
                         prior := { s0.priorRecord with state := .held, s := 1, tf := 4 } }
  joined { s0 with take := { s0.take with arm := some (f a) } }

/-- A channel in seek motion at 10 steps a sub-beat, upward. -/
def seeker : Drive := { player with state := .seeking, seek := some { target := 900, up := true, speed := 10 } }

/-- An unwinding begins: a channel in motion, one that has issued nothing yet, one waiting for its leader; back to HELD, to IDLE. -/
theorem witness_unwindingBegins :
    let fall (f : ArmFlight → ArmFlight) (d : Drive) := after (.holdFall 0 [true, false, false]) (unwinding f d)
    let fresh (f : ArmFlight) : ArmFlight := { f with prior := { f.prior with state := .idle, id := 0 } }
    let moves := fall id seeker
    let still := fall id { seeker with previous := none }
    let waits := fall fresh { seeker with source := some .follow, seek := none, follow := .waiting }
    moves.someStopping ∧ moves.take.state = .seeking ∧ (moves.take.arm.map ArmFlight.phase) = some .unwinding ∧
    (moves.drive 0).stop = some { speed := 10, up := true, position := 50 } ∧ (moves.drive 0).seek = none ∧
    ¬still.someStopping ∧ still.take.state = .held ∧ still.take.s = 1 ∧ still.take.tf = 4 ∧ (still.drive 0).state = .parked ∧
    waits.take.state = .idle ∧ waits.take.lastId = 7 ∧ waits.take.id = 0 ∧ (waits.drive 0).state = .parked ∧
    (waits.drive 0).follow = .none ∧ waits.port.outcomes.map OutcomeEntry.result = [.aborted] := by
  refine ⟨⟨0, by decide +kernel⟩, by decide +kernel, by decide +kernel, by decide +kernel, by decide +kernel, ?_, by decide +kernel⟩
  rintro ⟨c, h⟩
  exact absurd h.2 (by revert c; decide +kernel)

/-- An unwinding ends at STOPPED, at a hard fault, at a sub-beat and at a free one; and goes on while channel 1 is STOPPING. -/
theorem witness_unwindingEnds :
    let f (a : ArmFlight) : ArmFlight := { a with phase := .unwinding }
    let slow (v : Nat) : Drive := { seeker with state := .stopping, seek := none, stop := some { speed := v, up := true, position := 50 } }
    let s := unwinding f (slow 0)
    let one := unwinding f (slow 4)
    let due : State := { one with timer := { one.timer with schedule := some (7, 103500) } }
    let both := s.setDrive 1 (slow 1)
    let held (t : State) : Bool := decide (t.take.state = .held)
    held (after (.stopped 0) s) = true ∧ held (hardFault 0 .limit one) = true ∧ ((hardFault 0 .limit one).drive 0).state = .faulted ∧
    due.timer.schedule = some (7, 103500) ∧ held (after .subBeat due) = true ∧ held (after .freeSubBeat one) = true ∧
    one.energized 0 = true ∧ ([(1 : Chan), 2, 3].all fun b => one.energized b = false) = true ∧
    (after (.stopped 0) both).take = both.take ∧ (hardFault 0 .limit both).take = both.take ∧
    ((after (.stopped 0) both).drive 0).state = .stopped := by decide +kernel

/-- DISBAND while the ARM moves and while it unwinds: the outcomes, and the take left for IDLE once nothing is STOPPING. -/
theorem witness_disbandUnwinds :
    let go (s : State) := after (.disband (message 0x12 none (le 2 7))) s
    let stopping : Drive := { seeker with state := .stopping, seek := none, stop := some { speed := 0, up := true, position := 50 } }
    let moves := go (unwinding id seeker)
    let unwinds := go (unwinding (fun a => { a with phase := .unwinding }) stopping)
    moves.port.outcomes.map OutcomeEntry.result = [.aborted, .accepted] ∧ (moves.drive 0).state = .stopping ∧
    (moves.take.arm.map ArmFlight.disbanded) = some true ∧ unwinds.port.outcomes.map OutcomeEntry.result = [.accepted] ∧
    (after (.stopped 0) unwinds).take.state = .idle ∧ (after (.stopped 0) unwinds).take.lastId = 7 ∧
    (go (inArm .positioning State.reset)).take.state = .idle := by decide +kernel

/-- In turn 2 of tag 5: broken activity that ends at the very beginning of the guard, and a period after it. -/
theorem witness_busErrorInGuard :
    let s0 := joined (locked State.reset)
    let s := inTake .rolling { s0 with port := { s0.port with window := .turn 2 0 0 } }
    let a (ended : Nat) : Activity := { began := 103700 * 16, ended := ended, bytes := [0x13, 0x07, 0, 0, 0, 0] }
    s.inOpenWindow (103700 * 16) = true ∧ isSound (a 0) = false ∧ (100000 + 4000 - 200) * 16 = 103800 * 16 ∧
    (after (.busError (a (103800 * 16))) s).holds.concerned = some 7 ∧
    (after (.busError (a (103800 * 16 + 1))) s).holds.first = some .busError ∧
    (after (.busError (a (103800 * 16 + 1))) s).holds.concerned = none := by decide +kernel

/-- ARM for the take in POSITIONING with another mask and another kind; SETUP_CHANNEL with each kind of field out of range, of
another length, and in IDLE. -/
theorem witness_outOfRange :
    let arm (kind mask : Nat) := settledByAll .arm 0x10 (armPayload 7 kind mask 2) (inArm .positioning State.reset)
    let ok := channelPayload 1 1 7 20 100 60 1000
    let go (p : List Byte) (s : State) : List Result := settledWith (fun a => .setupChannel a ⟨0, 0⟩) 0x02 p s
    let s := joined State.reset
    let follow := (ok.set 1 1).set 4 1 |>.set 6 1
    let other (i : Nat) (v : Byte) : List Byte := follow.set i v
    arm 0 3 = [.refusedRange] ∧ arm 1 1 = [.refusedRange] ∧ go follow s = [.accepted] ∧
    (([(0, 4), (1, 2), (2, 16), (3, 4), (4, 0), (6, 0), (12, 3), (13, 8), (14, 24), (23, 254), (28, 0x80), (33, 0), (46, 4),
        (54, 0)] : List (Nat × Byte)).all
      fun x => go (other x.1 x.2) s = [.refusedRange]) = true ∧
    go (ok ++ [0]) s = [.refusedRange] ∧ go (ok ++ [0]) (joined (inTake .idle s)) = [.refusedRange] ∧
    go (channelPayload 4 1 7 20 100 60 1000) (joined (inTake .idle s)) = [.refusedState] := by decide +kernel

/-! ## Witnesses: across a pulse, before JOINED, listening, the sweep trigger -/

/-- Station 0 rolling in turn 2 (station 7's, tag 5), P = 5,000, and the early pulse at 104,000 µs that ends that window. -/
def pulsedOver : State :=
  let s0 := joined (locked State.reset)
  let s := inTake .rolling { s0 with
    timer := { s0.timer with period := some 5000 }, port := { s0.port with window := .turn 2 (103000 * 16) (103000 * 16) } }
  after (.frameEdge (104000 * 16) false true) s

/-- A message of station `n` from 10 µs before that pulse until 10 µs after it. -/
def crossing (kind n : Nat) (payload : List Byte) : Activity :=
  { began := 103990 * 16, ended := 104010 * 16, bytes := Machine.message kind n (some 0) 9 payload }

/-- A QUERY of the roster begun in its sender's turn, one of another station, one begun after the pulse, a broken one. -/
theorem witness_acrossThePulse :
    let s := pulsedOver
    let t := after (.queryRoster (crossing 0x20 7 [3, 3])) s
    let late : Activity := { crossing 0x20 7 [3, 3] with began := 104000 * 16 }
    s.port.window = .slots ∧
    s.port.ended = some { opens := 100840 * 16, closes := 104000 * 16, turn := some { holder := 7, began := 103000 * 16 } } ∧
    s.admission (crossing 0x20 7 [3, 3]) = .valid ∧ t.port.outcomes.map OutcomeEntry.result = [.accepted] ∧
    t.port.answers.map Place.body = [some (.roster (s.entry 3) s.roster.summary)] ∧ s.roster.summary.current = false ∧
    s.admission late = .dropped ∧ s.admission (crossing 0x20 8 [3, 3]) = .failed ∧
    (after (.busError (crossing 0x20 8 [3, 3])) s).holds.first = some .busError ∧
    (after (.busError (crossing 0x20 8 [3, 3])) s).holds.concerned = none := by decide +kernel

/-- In the silence and in a turn: a report kind is a bus error by either row. -/
theorem witness_busErrorOfAReport :
    let s0 := joined (locked State.reset)
    let s (w : Window) := inTake .rolling { s0 with port := { s0.port with window := w } }
    let a : Activity := { began := 101000 * 16, ended := 101100 * 16, bytes := inSlots.report.bytes }
    a.kind? = some 0x30 ∧ (after (.busError a) (s .silence)).holds.first = some .busError ∧
    (after (.busError a) (s .silence)).holds.concerned = none ∧
    (after (.reportArrival a) (s (.turn 2 0 0))).holds.concerned = some 7 ∧
    (after (.busError a) (s (.turn 2 (101000 * 16 + 1) 0))).holds.concerned = some 7 := by decide +kernel

/-- A CUE before the first lock, in LISTENING with lock lost, at a DUPLICATE port, with another kind; the pulse that locks. -/
theorem witness_cuesBeforeJoined :
    let cue := message 0x18 none [5, 63]
    let at_ (j : Join) (x : TimerState) : State := { State.reset with
      timer := { Timer.reset with state := x, reference := some 0 }, port := { Port.reset with join := j } }
    let pend (s : State) := (after (.cue cue) s).board.pending
    let t := after (.frameEdge (4000 * 16) false true) (after (.cue cue) (at_ .unjoined .absent))
    (arrivalOf cue).target = none ∧ isSound cue = true ∧ pend (at_ .unjoined .absent) = [5, 63] ∧
    pend (at_ (.listening 2 true) .lost) = [5, 63] ∧ pend (at_ (.listening 2 true) .locked) = [] ∧
    pend (at_ .duplicate .lost) = [] ∧
    (after (.load (message 0x08 (some 0) [])) (at_ .unjoined .absent)).port.outcomes = [] ∧
    t.board.pending = [] ∧ t.board.entries.getD 63 { isSet := false, tag := 0 } = { isSet := true, tag := 1 } ∧
    t.port.join = .listening 0 false ∧ t.port.window = .slots := by decide +kernel

/-- A listening round of a count below 3, heard and not; the count at a loss of lock. -/
theorem witness_listening :
    let l (n : Nat) : State := { inSlots with port := { inSlots.port with join := .listening n false } }
    let e : RosterEntry :=
      { present := true, missed := 0, mark := true, receivedTag := 0, report := some { inSlots.report.body with tag := 200 } }
    (after .roundClose (l 0)).port.join = .listening 1 false ∧ (after .roundClose (l 2)).timer.tag = inSlots.timer.tag ∧
    (after .roundClose ((l 2).setEntry 3 e)).port.join = .listening 3 true ∧
    (after .roundClose ((l 2).setEntry 3 e)).timer.tag = 200 ∧ after .joined (l 2) = l 2 ∧
    (after .lostFrameExpiry (l 2)).port.join = .listening 0 false := by decide +kernel

/-- A sub-beat's trigger with the converter asleep, awake and free, waking, and with a pass in flight; a free sub-beat. -/
theorem witness_sweepTrigger :
    let u : Setup := { roomy with feedback := .analog 7 }
    let s := locked (inTake .idle (withChannel u { Drive.reset with state := .parked } Engine.reset))
    let due (x : Sampler) : State := { s with timer := { s.timer with schedule := some (7, 103500) }, sampler := x }
    let go (x : Sampler) := (after .subBeat (due x)).sampler
    let base := State.reset.sampler
    let stopping : Drive := { Drive.reset with state := .stopping, stop := some { speed := 9, up := true, position := 0 } }
    (go base).waking = some (103500 * 16 + 320) ∧ (go base).pass = some [7] ∧
    (go { base with mode := .sweep }).conversion = some ⟨7, false, false, 103500 * 16 + 48⟩ ∧
    (go { base with mode := .sweep }).pass = some [] ∧ (go { base with mode := .sweep, waking := some 0 }).pass = some [7] ∧
    (go { base with mode := .sweep, pass := some [3] }) = { base with mode := .sweep, pass := some [3], overrun := true } ∧
    (after .freeSubBeat (s.setDrive 0 stopping)).sampler.pass = some [7] := by decide +kernel

/-- At a count of 16: a WAIT_CUE whose cue is set, one whose cue is clear, one stamped before and one after, and a DWELL. -/
theorem witness_stallOfAWait :
    let p := { Path.reset with zero := 16 }
    let wait : Record := .waitCue 5 0 .hold
    let set (s : State) : State := { s with board := { s.board with entries := s.board.entries.set 5 ⟨true, 0⟩ } }
    let go (s : State) := ((after (.stall 0) s).drive 0).kind
    let st (frame : Nat) : Option Stamp := some { takeId := 7, frame := frame, sub := 0 }
    go (set (onRecord wait p none)) = some .stall ∧ go (onRecord wait p none) = none ∧
    go (onRecord wait p (st 2)) = some .stall ∧ go (onRecord wait p (st 3)) = none ∧ go (onRecord (.dwell 1) p none) = none ∧
    go (set (onRecord wait { p with zero := 15 } none)) = none ∧
    offerCheck { player with limitPlus := true } roomy 51 = some .limit ∧
    offerCheck { player with limitMinus := true } roomy 49 = some .limit := by decide +kernel

end Sys2Proof.Tests
end

