-- ==== Sys2Proof/Proofs/EnginesInOrder.lean ====
section
/-! Every command keeps the four Path Engines in order (R3, R26, R48): the message handlers first, then the requests that work
on an engine, the Frame Timer's edges, and one arm for each row of the table. -/

set_option Elab.async false

namespace Sys2Proof.Machine

/-! ## What arrives on the bus -/

/-- A message received keeps the engines in order when its owner does. -/
theorem receive_enginesOk {act : Arrival → State → State} (h : ∀ m s, s.enginesOk → (act m s).enginesOk) {s : State}
    (hs : s.enginesOk) (a : Activity) : (receive a act s).enginesOk := by
  unfold receive
  split
  · exact h _ _ (enginesOk_of_engine (s.heard_engine a) hs)
  · exact enginesOk_of_engine (busErrorAt_engine a s) hs
  · exact enginesOk_of_engine (s.heard_engine a) hs

theorem receiveKind_enginesOk {act : Arrival → State → State} (h : ∀ m s, s.enginesOk → (act m s).enginesOk) {s : State}
    (hs : s.enginesOk) (k : Nat) (a : Activity) : (receiveKind k a act s).enginesOk := by
  unfold receiveKind
  split
  · exact receive_enginesOk h hs a
  · exact hs

theorem addressed_enginesOk {f : Arrival → State → Settled} (h : ∀ m s, s.enginesOk → (f m s).2.enginesOk) (m : Arrival)
    {s : State} (hs : s.enginesOk) : (addressed f m s).enginesOk := by
  unfold addressed
  split
  · split
    · exact enginesOk_of_engine (addOutcome_engine _ _ _ _) (h m s hs)
    · exact hs
  · exact enginesOk_of_engine (addOutcome_engine _ _ _ _) hs

theorem broadcast_enginesOk {f : Arrival → State → State} (h : ∀ m s, s.enginesOk → (f m s).enginesOk) (m : Arrival)
    {s : State} (hs : s.enginesOk) : (broadcast f m s).enginesOk := by
  unfold broadcast
  split
  · split
    · exact enginesOk_of_engine (addOutcome_engine _ _ _ _) hs
    · exact hs
  · exact h m s hs

/-- A request to this station whose owner leaves all engines as they stand. -/
theorem request_enginesOk {f : Arrival → State → Settled} (h : ∀ m s, (f m s).2.engine = s.engine) {s : State}
    (hs : s.enginesOk) (k : Nat) (a : Activity) : (receiveKind k a (addressed f) s).enginesOk :=
  receiveKind_enginesOk (fun m _ => addressed_enginesOk (fun m s => enginesOk_of_engine (h m s)) m) hs k a

/-- A QUERY, or any request that a row recognizes by more than its kind, whose owner leaves all engines as they stand. -/
theorem query_enginesOk {f : Arrival → State → Settled} (h : ∀ m s, (f m s).2.engine = s.engine) {s : State}
    (hs : s.enginesOk) (b : Bool) (a : Activity) : (if b then receive a (addressed f) s else s).enginesOk := by
  split
  · exact receive_enginesOk (fun m _ => addressed_enginesOk (fun m s => enginesOk_of_engine (h m s)) m) hs a
  · exact hs

/-! ## The ring and setup requests -/

theorem settleLoad_enginesOk (m : Arrival) (s : State) (hs : s.enginesOk) : (settleLoad m s).2.enginesOk := by
  unfold settleLoad
  split
  · exact hs
  · split
    · split
      · exact hs
      · rename_i c es _ _ hr
        split
        · have hp := Nat.lt_of_not_le fun h => hr (.inl h)
          exact hs.setEngine { hs c with ring := ringWf_writeEntries es (hs c).ring hp }
        · exact hs
    · exact hs

theorem settleAdvance_enginesOk (m : Arrival) (s : State) (hs : s.enginesOk) : (settleAdvance m s).2.enginesOk := by
  unfold settleAdvance
  split
  · split
    · split
      · rename_i c _ hx
        unfold Engine.mayAdvance at hx
        rw [Bool.and_eq_true, decide_eq_true_iff] at hx
        exact hs.setEngine { hs c with tail := hx.1 }
      · exact hs
    · exact hs
  · exact hs

theorem settleRelease_enginesOk (m : Arrival) (s : State) (hs : s.enginesOk) : (settleRelease m s).2.enginesOk := by
  unfold settleRelease
  split
  · split
    · dsimp only
      split
      · exact hs
      · rename_i c _ hx
        split
        · exact hs
        · split
          · exact hs
          · exact hs.setEngine ((hs c).moveRelease ((hs c).releaseTo (Nat.lt_of_not_le hx)))
    · exact hs
  · exact hs

theorem settleClearRing_enginesOk (m : Arrival) (s : State) (hs : s.enginesOk) : (settleClearRing m s).2.enginesOk := by
  unfold settleClearRing
  split
  · split
    · exact hs.setEngine (hs _).cleared
    · exact hs
  · exact hs

/-- SETUP_CHANNEL writes the channel's setup beside its engine, which stands. -/
theorem applySetup_engine (c : Chan) (u : Setup) (pins : Pins) (s : State) : (applySetup c u pins s).engine = s.engine := by
  have hset : (s.setChan c { s.chan c with configured := true, setup := u }).engine = s.engine := by
    funext d
    by_cases h : d = c
    · subst h; simp [State.engine]
    · simp [State.engine, h]
  unfold applySetup
  dsimp only
  rw [State.engine_mk, startInputs_engine]
  exact hset

theorem settleSetupChannel_engine (pins : Pins) (m : Arrival) (s : State) :
    (settleSetupChannel pins m s).2.engine = s.engine := by
  unfold settleSetupChannel
  split
  · rfl
  · split
    · rfl
    · split
      · (repeat' split)
        any_goals rfl
        exact applySetup_engine _ _ _ _
      · rfl

/-! ## The take requests and the hold line -/

theorem acceptArm_enginesOk {s : State} (hs : s.enginesOk) (m : Arrival) (id : Nat) (k : TakeKind) (mask : List Nat)
    (start : Nat) : (acceptArm m id k mask start s).enginesOk := by
  unfold acceptArm
  dsimp only
  set a : ArmFlight :=
    { station := m.sender, seq := m.seq, phase := .positioning, prior := s.priorRecord,
      priorStates := Quad.ofFn (fun c => (s.drive c).state), disbanded := false }
  have hc := entryChecks_enginesOk a allChannels (enginesOk_of_engine (enterSeeking_engine a id k mask start s) hs)
  split
  · rename_i t r ht
    rw [ht] at hc
    exact discardArm_enginesOk hc a r .discarded
  · rename_i t ht
    rw [ht] at hc
    split
    · exact hc
    · exact commitArm_enginesOk hc a

theorem replaceArm_enginesOk {s : State} (hs : s.enginesOk) : (replaceArm s).enginesOk := by
  unfold replaceArm
  split
  · exact discardArm_enginesOk hs _ _ _
  · exact hs

theorem settleArm_enginesOk (m : Arrival) (s : State) (hs : s.enginesOk) : (settleArm m s).enginesOk := by
  have refused (r : Result) : (addOutcome m.sender m.seq r s).enginesOk :=
    enginesOk_of_engine (addOutcome_engine _ _ _ _) hs
  unfold settleArm
  split
  · split
    · unfold armMember
      split
      · exact refused _
      · split
        · exact refused _
        · split
          · exact refused _
          · split
            · exact refused _
            · exact acceptArm_enginesOk (replaceArm_enginesOk hs) _ _ _ _ _
    · exact hs
  · exact refused _

theorem disbandMember_enginesOk (m : Arrival) {s : State} (hs : s.enginesOk) : (disbandMember m s).enginesOk := by
  have settles {t : State} (h : t.enginesOk) (r : Result) : (addOutcome m.sender m.seq r t).enginesOk :=
    enginesOk_of_engine (addOutcome_engine _ _ _ _) h
  unfold disbandMember
  split
  · exact settles hs _
  · exact settles hs _
  · rename_i a _ _
    unfold disbandSeeking
    split
    · exact settles (enginesOk_of_engine (disbandAtRest_engine _) (discardArm_enginesOk hs a _ _)) _
    · exact settles (enginesOk_of_engine (unwindArm_engine _ _ _) hs) _
    · exact settles (enginesOk_of_engine (s.engine_mk _ _ _ _ _ _ _ _ _ _ _ _ _ _ _) hs) _
  · exact settles (enginesOk_of_engine (disbandAtRest_engine _) hs) _

theorem settleDisband_enginesOk (m : Arrival) (s : State) (hs : s.enginesOk) : (settleDisband m s).enginesOk := by
  unfold settleDisband
  split
  · split
    · exact disbandMember_enginesOk m hs
    · exact hs
  · exact enginesOk_of_engine (addOutcome_engine _ _ _ _) hs

theorem holdFalls_enginesOk {s : State} (hs : s.enginesOk) : (holdFalls s).enginesOk := by
  have seeking : (holdSeeking s).enginesOk := by
    unfold holdSeeking
    split
    · split
      · exact discardArm_enginesOk hs _ _ _
      · exact enginesOk_of_engine (unwindArm_engine _ _ _) hs
      · exact hs
    · exact hs
  unfold holdFalls
  split
  any_goals exact hs
  · exact seeking
  all_goals exact enginesOk_of_engine (enterStopping_engine s) hs

/-! ## The Frame Timer -/

theorem edgeUnlocked_enginesOk (e : Nat) {s : State} (hs : s.enginesOk) : (edgeUnlocked e s).enginesOk := by
  unfold edgeUnlocked
  split
  · exact hs
  · split
    · exact framePulse_enginesOk hs _ _ _
    · exact hs

theorem edgeLocked_enginesOk (e d p : Nat) {s : State} (hs : s.enginesOk) : (edgeLocked e d p s).enginesOk := by
  unfold edgeLocked
  split
  · exact enginesOk_of_engine (raiseFrameFault_engine s) hs
  · split
    · exact framePulse_enginesOk hs _ _ _
    · exact enginesOk_of_engine (by simp) hs

theorem risingEdge_enginesOk (time : Nat) {s : State} (hs : s.enginesOk) : (risingEdge time s).enginesOk := by
  have ht : (s.atTime time).enginesOk := hs
  unfold risingEdge
  dsimp only
  split
  · exact edgeLocked_enginesOk _ _ _ ht
  all_goals exact edgeUnlocked_enginesOk _ ht

/-- A row that is a whole edge when its event stands (log 3), and nothing otherwise. -/
theorem edgeRow_enginesOk (time : Nat) {s : State} (hs : s.enginesOk) (p : Prop) [Decidable p] :
    (if p then risingEdge time s else s).enginesOk := by
  split
  · exact risingEdge_enginesOk time hs
  · exact hs

theorem scheduledBeat_enginesOk {s : State} (hs : s.enginesOk) (k due q p : Nat) : (scheduledBeat k due q p s).enginesOk := by
  have ht : (s.atTime (max (micros s.clock) due * Config.tick)).enginesOk := hs
  unfold scheduledBeat
  dsimp only
  exact enginesOk_of_engine (State.engine_mk _ _ _ _ _ _ _ _ _ _ _ _ _ _ _ _) (issueBeat_enginesOk ht _ _ _ _)

/-! ## One row of the table -/

/-- The next state an outcome gives, if any, has its engines in order. -/
def NextEnginesOk (o : Host.Outcome State Fault Refusal) : Prop := ∀ t, o = .next t → t.enginesOk

theorem nextEnginesOk {t : State} (h : t.enginesOk) : NextEnginesOk (.next t) := by
  intro u hu
  cases hu
  exact h

/-- A row that leaves all engines as they stand. -/
theorem nextEnginesOk_of_engine {s t : State} (hs : s.enginesOk) (h : t.engine = s.engine) : NextEnginesOk (.next t) :=
  nextEnginesOk (enginesOk_of_engine h hs)

theorem execRecordComplete_enginesOk (c : Chan) {s : State} (hs : s.enginesOk) : NextEnginesOk (execRecordComplete c s) := by
  unfold execRecordComplete
  split
  · rename_i pos hpos
    split
    · exact nextEnginesOk (completeAndGoOn_enginesOk hs c pos none ((hs c).path.completing_lt hpos))
    · exact nextEnginesOk hs
  · exact nextEnginesOk hs

/-- A wait stands at a ring position. -/
theorem waitStanding_lt {s : State} (hs : s.enginesOk) {c : Chan} {pos : Nat}
    {w : Option Stamp × Nat × Option Nat × OnTimeout} (h : s.waitStanding c = some (pos, w)) : pos < Config.ringSize := by
  unfold State.waitStanding at h
  split at h
  · rename_i hp
    split at h
    · cases h
      exact (hs c).path.progress _ hp
    · cases h
  · cases h

theorem execWaitStampPass_enginesOk (c : Chan) {s : State} (hs : s.enginesOk) : NextEnginesOk (execWaitStampPass c s) := by
  unfold execWaitStampPass
  split
  · rename_i hw
    split
    · exact nextEnginesOk (completeAndGoOn_enginesOk hs c _ none (waitStanding_lt hs hw))
    · exact nextEnginesOk hs
  · exact nextEnginesOk hs

theorem expireWait_enginesOk {s : State} (hs : s.enginesOk) (c : Chan) {pos : Nat} (hp : pos < Config.ringSize) (cue : Nat)
    (act : OnTimeout) : (expireWait c pos cue act s).enginesOk := by
  unfold expireWait
  split
  · exact completeAndGoOn_enginesOk hs c pos _ hp
  · split
    · exact completeAndGoOn_enginesOk hs c pos _ hp
    · exact enginesOk_of_engine (softFault_engine _ _ _) hs

theorem execWaitExpiry_enginesOk (c : Chan) {s : State} (hs : s.enginesOk) : NextEnginesOk (execWaitExpiry c s) := by
  unfold execWaitExpiry
  split
  · rename_i hw
    split
    · exact nextEnginesOk (expireWait_enginesOk hs c (waitStanding_lt hs hw) _ _)
    · exact nextEnginesOk hs
  · exact nextEnginesOk hs

/-- A scan that stands is one of channel `c`'s positioning in flight. -/
theorem scanStanding_positioning {s : State} {c : Chan} {a : ArmFlight} {p : Positioning}
    (h : s.scanStanding c = some (a, p)) : (s.engine c).positioning = some p := by
  unfold State.scanStanding at h
  split at h
  · rename_i hp
    split at h
    · cases h
      exact hp
    · cases h
  · cases h

theorem execScanComplete_enginesOk (c : Chan) {s : State} (hs : s.enginesOk) : NextEnginesOk (execScanComplete c s) := by
  unfold execScanComplete
  split
  · rename_i a p hp
    have hx : (s.scanOf c p).1.Ok := Engine.scanRun_ok (hs c) (scanStanding_positioning hp) _ _ _
    split
    · rename_i x hr
      rw [hr] at hx
      have hpos := positioned_enginesOk hs c p hx
      dsimp only
      split
      · exact nextEnginesOk (discardArm_enginesOk hpos _ _ _)
      · split
        · exact nextEnginesOk (commitArm_enginesOk hpos _)
        · exact nextEnginesOk hpos
    · exact nextEnginesOk hs
  · exact nextEnginesOk hs

theorem execScanRefusal_enginesOk (c : Chan) {s : State} (hs : s.enginesOk) : NextEnginesOk (execScanRefusal c s) := by
  unfold execScanRefusal
  split
  · split
    · exact nextEnginesOk hs
    · exact nextEnginesOk (discardArm_enginesOk (scanRefused_enginesOk hs _ _ _ _) _ _ _)
    · exact nextEnginesOk (discardArm_enginesOk (scanRefused_enginesOk hs _ _ _ _) _ _ _)
  · exact nextEnginesOk hs

/-- Every command keeps the four Path Engines in order. -/
theorem exec_enginesOk (i : Instr) {s : State} (hs : s.enginesOk) : NextEnginesOk (exec i s) := by
  cases i with
  | reset straps pins => exact nextEnginesOk (State.afterReset_enginesOk _ _ _ _)
  | frameEdge time before after => exact nextEnginesOk (edgeRow_enginesOk time hs _)
  | rollPulse time before after => exact nextEnginesOk (edgeRow_enginesOk time hs _)
  | lastTakeFrame time before after => exact nextEnginesOk (edgeRow_enginesOk time hs _)
  | followerDone time before after c => exact nextEnginesOk (edgeRow_enginesOk time hs _)
  | lostFrameExpiry =>
    change NextEnginesOk (execLostFrameExpiry s)
    unfold execLostFrameExpiry
    split
    · exact nextEnginesOk_of_engine hs (expireFrame_engine _ _ _)
    · exact nextEnginesOk hs
  | subBeat =>
    change NextEnginesOk (execSubBeat s)
    unfold execSubBeat
    split
    · exact nextEnginesOk (scheduledBeat_enginesOk hs _ _ _ _)
    · exact nextEnginesOk hs
  | freeSubBeat =>
    change NextEnginesOk (execFreeSubBeat s)
    unfold execFreeSubBeat
    (repeat' split) <;> exact nextEnginesOk_of_engine hs (by simp)
  | stopped c =>
    change NextEnginesOk (execStopped c s)
    unfold execStopped
    (repeat' split) <;> exact nextEnginesOk_of_engine hs (by simp)
  | recordComplete c => exact execRecordComplete_enginesOk c hs
  | originRecord c => exact nextEnginesOk (takeWhen_enginesOk hs _ c)
  | shapeRecord c => exact nextEnginesOk (takeWhen_enginesOk hs _ c)
  | spanRecord c => exact nextEnginesOk (takeWhen_enginesOk hs _ c)
  | dwellRecord c => exact nextEnginesOk (takeWhen_enginesOk hs _ c)
  | loopOpenRecord c => exact nextEnginesOk (takeWhen_enginesOk hs _ c)
  | loopCloseRecord c => exact nextEnginesOk (takeWhen_enginesOk hs _ c)
  | waitCueRecord c => exact nextEnginesOk (takeWhen_enginesOk hs _ c)
  | emitCueRecord c => exact nextEnginesOk (takeWhen_enginesOk hs _ c)
  | endRecord c => exact nextEnginesOk (takeWhen_enginesOk hs _ c)
  | noneRecord c => exact nextEnginesOk (takeWhen_enginesOk hs _ c)
  | stall c =>
    change NextEnginesOk (execStall c s)
    unfold execStall
    split
    · exact nextEnginesOk (takeOne_enginesOk hs c)
    · exact nextEnginesOk hs
  | waitStampPass c => exact execWaitStampPass_enginesOk c hs
  | waitExpiry c => exact execWaitExpiry_enginesOk c hs
  | followError c => exact nextEnginesOk_of_engine hs (faultOnFollow_engine c s)
  | stepPulse c =>
    change NextEnginesOk (execStepPulse c s)
    unfold execStepPulse
    (repeat' split) <;> exact nextEnginesOk_of_engine hs (by simp)
  | reportSlot =>
    change NextEnginesOk (execReportSlot s)
    unfold execReportSlot
    (repeat' split) <;> exact nextEnginesOk_of_engine hs (by simp)
  | reportSent mismatch =>
    change NextEnginesOk (execReportSent mismatch s)
    unfold execReportSent endSending
    (repeat' split) <;> exact nextEnginesOk_of_engine hs (by simp)
  | reportArrival a =>
    change NextEnginesOk (execReportArrival a s)
    unfold execReportArrival
    split
    · split <;> exact nextEnginesOk_of_engine hs (by simp)
    · exact nextEnginesOk_of_engine hs (by simp)
    · split
      · exact nextEnginesOk (receive_enginesOk (fun _ _ h => h) hs a)
      · exact nextEnginesOk hs
  | roundClose =>
    change NextEnginesOk (execRoundClose s)
    unfold execRoundClose
    (repeat' split) <;> exact nextEnginesOk_of_engine hs (by simp)
  | joined =>
    change NextEnginesOk (execJoined s)
    unfold execJoined
    (repeat' split) <;> exact nextEnginesOk_of_engine hs (by simp)
  | entryAbsent station =>
    change NextEnginesOk (execEntryAbsent station s)
    unfold execEntryAbsent
    (repeat' split) <;> exact nextEnginesOk_of_engine hs (by simp)
  | turnStart =>
    change NextEnginesOk (execTurnStart s)
    unfold execTurnStart
    (repeat' split) <;> exact nextEnginesOk_of_engine hs (by simp)
  | messageSent =>
    change NextEnginesOk (execMessageSent s)
    unfold execMessageSent
    (repeat' split) <;> exact nextEnginesOk_of_engine hs (by simp)
  | busError a =>
    change NextEnginesOk (execBusError a s)
    unfold execBusError
    split <;> exact nextEnginesOk_of_engine hs (by simp)
  | setupLines a => exact nextEnginesOk (request_enginesOk settleSetupLines_engine hs _ a)
  | setupChannel a pins => exact nextEnginesOk (request_enginesOk (settleSetupChannel_engine pins) hs _ a)
  | enlist a => exact nextEnginesOk (request_enginesOk settleEnlist_engine hs _ a)
  | dismiss a => exact nextEnginesOk (request_enginesOk settleDismiss_engine hs _ a)
  | load a => exact nextEnginesOk (receiveKind_enginesOk (fun m _ => addressed_enginesOk settleLoad_enginesOk m) hs _ a)
  | advance a => exact nextEnginesOk (receiveKind_enginesOk (fun m _ => addressed_enginesOk settleAdvance_enginesOk m) hs _ a)
  | release a => exact nextEnginesOk (receiveKind_enginesOk (fun m _ => addressed_enginesOk settleRelease_enginesOk m) hs _ a)
  | clearRing a =>
    exact nextEnginesOk (receiveKind_enginesOk (fun m _ => addressed_enginesOk settleClearRing_enginesOk m) hs _ a)
  | arm a => exact nextEnginesOk (receiveKind_enginesOk (fun m _ => broadcast_enginesOk settleArm_enginesOk m) hs _ a)
  | roll a =>
    exact nextEnginesOk (receiveKind_enginesOk
      (fun m _ => broadcast_enginesOk (fun m s => enginesOk_of_engine (settleRoll_engine m s)) m) hs _ a)
  | disband a => exact nextEnginesOk (receiveKind_enginesOk (fun m _ => broadcast_enginesOk settleDisband_enginesOk m) hs _ a)
  | clear a => exact nextEnginesOk (request_enginesOk settleClear_engine hs _ a)
  | cue a =>
    exact nextEnginesOk (receiveKind_enginesOk (fun m s => enginesOk_of_engine (settleCue_engine m s)) hs _ a)
  | queryRing a => exact nextEnginesOk (query_enginesOk settleQueryRing_engine hs _ a)
  | queryCheckpoints a => exact nextEnginesOk (query_enginesOk settleQueryCheckpoints_engine hs _ a)
  | queryRoster a => exact nextEnginesOk (query_enginesOk settleQueryRoster_engine hs _ a)
  | queryHoldCauses a => exact nextEnginesOk (query_enginesOk (plainQuery_engine _) hs _ a)
  | queryCueBoard a => exact nextEnginesOk (query_enginesOk (plainQuery_engine _) hs _ a)
  | queryLines a pins =>
    change NextEnginesOk (execQueryLines a pins s)
    unfold execQueryLines
    split
    · exact nextEnginesOk (receive_enginesOk
        (fun m _ => addressed_enginesOk (fun m s => enginesOk_of_engine (plainQuery_engine _ m s)) m)
        (enginesOk_of_engine (s.withPins_engine pins) hs) a)
    · exact nextEnginesOk hs
  | querySampler a => exact nextEnginesOk (query_enginesOk settleQuerySampler_engine hs _ a)
  | queryNoKnownRegion a => exact nextEnginesOk (query_enginesOk (fun _ _ => rfl) hs _ a)
  | fetch a => exact nextEnginesOk (request_enginesOk settleFetch_engine hs _ a)
  | sample a => exact nextEnginesOk (request_enginesOk settleSample_engine hs _ a)
  | answer a => exact nextEnginesOk (receiveKind_enginesOk (fun _ _ h => h) hs _ a)
  | unknownKind a =>
    change NextEnginesOk (execUnknownKind a s)
    unfold execUnknownKind
    split
    · exact nextEnginesOk (receive_enginesOk (fun m s => enginesOk_of_engine (settleUnknown_engine m s)) hs a)
    · exact nextEnginesOk hs
  | scanComplete c => exact execScanComplete_enginesOk c hs
  | scanRefusal c => exact execScanRefusal_enginesOk c hs
  | holdFall time samples =>
    change NextEnginesOk (execHoldFall time samples s)
    unfold execHoldFall
    split
    · exact nextEnginesOk (holdFalls_enginesOk (s := { s.atTime time with holdInput := false }) hs)
    · exact nextEnginesOk hs
  | holdRise time samples =>
    change NextEnginesOk (execHoldRise time samples s)
    unfold execHoldRise
    split <;> exact nextEnginesOk hs
  | limitActive time c plus samples =>
    change NextEnginesOk (execLimitActive time c plus samples s)
    unfold execLimitActive
    split <;> exact nextEnginesOk_of_engine hs (by simp)
  | limitInactive time c plus samples =>
    change NextEnginesOk (execLimitInactive time c plus samples s)
    unfold execLimitInactive
    split <;> exact nextEnginesOk_of_engine hs (by simp)
  | encoderChange time c first second =>
    change NextEnginesOk (execEncoderChange time c first second s)
    unfold execEncoderChange
    dsimp only
    (repeat' split) <;> exact nextEnginesOk_of_engine hs (by simp)
  | wheelChange time c first second =>
    change NextEnginesOk (execWheelChange time c first second s)
    unfold execWheelChange
    split <;> exact nextEnginesOk_of_engine hs (by simp)
  | wakeEnd =>
    change NextEnginesOk (execWakeEnd s)
    unfold execWakeEnd
    split <;> exact nextEnginesOk_of_engine hs (by simp)
  | conversionComplete result =>
    change NextEnginesOk (execConversionComplete result s)
    unfold execConversionComplete
    (repeat' split) <;> exact nextEnginesOk_of_engine hs (by simp)

/-- Settles O3: the front command's row keeps the engines in order, and idling changes nothing. -/
theorem everyStepKeepsTheEnginesInOrder : Obligations.EveryStepKeepsTheEnginesInOrder := by
  intro s t hs ht
  unfold step at ht
  split at ht
  · cases ht
    exact hs
  · rename_i rest _
    have hq : (s.withPending rest).enginesOk := hs
    exact exec_enginesOk _ hq t ht

/-- Settles O4. -/
theorem resetLeavesTheEnginesInOrder : Obligations.ResetLeavesTheEnginesInOrder :=
  State.afterReset_enginesOk 0 8 _ []

end Sys2Proof.Machine
end

