-- ==== Sys2Proof/Proofs/RecordsTaken.lean ====
section
/-! The record rows (R5, R7 to R24): what a row leaves, by how its record's taking ends, and then each kind of record. -/

set_option Elab.async false

namespace Sys2Proof.Machine

variable {s : State} {c : Chan} {r : Record}

/-! ## A row, by how the taking ends -/

/-- A record that completes at once: its entry is stamped, and the path is as the taking leaves it. -/
theorem takeWhen_stamped (h : s.needs c r) (p : Record → Bool) (hp : p r = true) {q : Path}
    (hk : s.headTaken c = { path := q, stamp := some ((s.engine c).path.head, s.stampHere c), taking := .goesOn }) :
    takeWhen p c s = s.stampedWith c (s.engine c).path.head q := by
  rw [exec_takes h p hp (by rw [hk]; exact fun h => nomatch h), takeOne_goesOn _ hk (.inl rfl)]
  rfl

/-- A record left in progress: the path alone moves. -/
theorem takeWhen_stops (h : s.needs c r) (p : Record → Bool) (hp : p r = true) {q : Path}
    (hk : s.headTaken c = { path := q, taking := .stops }) : takeWhen p c s = s.withPath c q := by
  rw [exec_takes h p hp (by rw [hk]; exact fun h => nomatch h), takeOne_goesOn _ hk (.inr rfl)]
  rfl

/-- A record that raises a fault other than STALL: the soft fault is all there is. -/
theorem takeWhen_faults (h : s.needs c r) (p : Record → Bool) (hp : p r = true) {k : FaultKind} (hn : k ≠ .stall)
    (hk : s.headTaken c = raises k (s.engine c).path) : takeWhen p c s = softFault c k s := by
  rw [exec_takes h p hp (by rw [hk]; exact fun h => hn (Taking.faults.inj h)), takeOne_faults k hk]

/-- Below the limit of 16 a record without path time is not turned away (R7). -/
theorem not_zeroTimeLimit {n : Nat} (h : n < 16) : ¬ Config.zeroTimeLimit ≤ n := Nat.not_le.mpr h

/-! ## SHAPE, SPAN and DWELL -/

/-- Settles O14. -/
theorem shapeAndDwellTaken : Obligations.ShapeAndDwellTaken := by
  refine ⟨fun s c pr num den h hz => ?_, fun s c l h => ?_⟩
  · refine congrArg Host.Outcome.next (takeWhen_stamped h _ rfl ?_)
    rw [taken_of h]
    change takeShape _ pr num den (ringGet (s.engine c).ring (s.engine c).path.head).report _ = _
    rw [takeShape, if_neg (not_zeroTimeLimit hz), reported_eq s c] <;> rfl
  · refine congrArg Host.Outcome.next (takeWhen_stops h _ rfl ?_)
    rw [taken_of h]
    change takeDwell _ l _ = _
    rw [takeDwell, offer_eq]
    rfl

/-- Settles O15. -/
theorem spanTaken : Obligations.SpanTaken := by
  intro s c d l h
  refine congrArg Host.Outcome.next (takeWhen_stops h _ rfl ?_)
  rw [taken_of h]
  change takeSpan _ d l _ = _
  rw [takeSpan, offer_eq]
  rfl

/-! ## Loops -/

/-- LOOP_OPEN below the zero-time limit (R15). -/
theorem headTaken_loopOpen {count : Nat} (h : s.needs c (.loopOpen count)) (hz : (s.engine c).path.zero < 16) :
    s.headTaken c = if 4 ≤ (s.engine c).path.stack.length then raises .loopDepth (s.engine c).path else
      { path := { (s.engine c).path with
          head := ((s.engine c).path.head + 1) % 1024,
          stack := { openAt := ((s.engine c).path.head + 1) % 1024, remaining := count } :: (s.engine c).path.stack,
          zero := (s.engine c).path.zero + 1, lastReported := (s.engine c).reportedAt (s.engine c).path.head },
        stamp := some ((s.engine c).path.head, s.stampHere c), taking := .goesOn } := by
  rw [taken_of h]
  change takeLoopOpen _ count (ringGet (s.engine c).ring (s.engine c).path.head).report _ = _
  rw [takeLoopOpen, if_neg (not_zeroTimeLimit hz), reported_eq s c] <;> rfl

/-- LOOP_CLOSE with no loop open (R16). -/
theorem takeLoopClose_nil (a : EvalAt) (b : Bool) {p : Path} (hz : p.zero < 16) (h : p.stack = []) :
    takeLoopClose a b p = raises .pathForm p := by
  unfold takeLoopClose
  simp only [if_neg (not_zeroTimeLimit hz), h]

/-- LOOP_CLOSE of an open loop: a repeat, or a pop (R16). -/
theorem takeLoopClose_cons (a : EvalAt) (b : Bool) {p : Path} {l : Loop} {rest : List Loop} (hz : p.zero < 16)
    (h : p.stack = l :: rest) :
    takeLoopClose a b p =
      { path := ((if 1 < l.remaining then
            { p with head := l.openAt, stack := { l with remaining := l.remaining - 1 } :: rest }
          else { p.past with stack := rest }).reported p.head b).counted,
        stamp := some (p.head, stampAt a.takeId a.n a.t), taking := .goesOn } := by
  unfold takeLoopClose
  simp only [if_neg (not_zeroTimeLimit hz), h]

/-- Settles O16. -/
theorem loopsOpenedAndClosed : Obligations.LoopsOpenedAndClosed := by
  refine ⟨fun s c count h hz => ⟨fun hl => ?_, fun hl => ?_⟩, fun s c h hz => ?_⟩
  · refine congrArg Host.Outcome.next (takeWhen_stamped h _ rfl ?_)
    rw [headTaken_loopOpen h hz, if_neg (Nat.not_le.mpr hl)]
  · refine congrArg Host.Outcome.next (takeWhen_faults h _ rfl (by decide) ?_)
    rw [headTaken_loopOpen h hz, if_pos hl]
  · have hk : s.headTaken c = takeLoopClose (s.evalAt (s.engine c).path.latest)
        (ringGet (s.engine c).ring (s.engine c).path.head).report (s.engine c).path := taken_of h
    refine ⟨fun hst => ?_, fun l rest hst hl => ?_, fun l rest hst hl => ?_⟩
    · exact congrArg Host.Outcome.next (takeWhen_faults h _ rfl (by decide) (hk.trans (takeLoopClose_nil _ _ hz hst)))
    · refine congrArg Host.Outcome.next (takeWhen_stamped h _ rfl ?_)
      rw [hk, takeLoopClose_cons _ _ hz hst, if_pos hl, reported_eq s c] <;> rfl
    · refine congrArg Host.Outcome.next (takeWhen_stamped h _ rfl ?_)
      rw [hk, takeLoopClose_cons _ _ hz hst, if_neg (Nat.not_lt.mpr hl), reported_eq s c] <;> rfl

/-! ## WAIT_CUE -/

/-- A WAIT_CUE outside a loop with a stamp of the current take: the stamp alone decides (R19). -/
theorem headTaken_waitStamped {cue timeout : Nat} {act : OnTimeout} {st : Stamp}
    (h : s.needs c (.waitCue cue timeout act)) (hst : (s.engine c).path.stack = [])
    (hs : (ringGet (s.engine c).ring (s.engine c).path.head).currentStamp s.take.id = some st) :
    s.headTaken c = if st.subBeat s.subBeats ≤ (s.engine c).path.latest then
        passAtOnce (s.stampHere c) (ringGet (s.engine c).ring (s.engine c).path.head).report none (s.engine c).path
      else beginWait (s.evalAt (s.engine c).path.latest) cue timeout act (s.engine c).path := by
  have hk : s.headTaken c = takeWaitInPlay (s.evalAt (s.engine c).path.latest) (s.cueSet cue)
      { ringGet (s.engine c).ring (s.engine c).path.head with record := .waitCue cue timeout act }
      cue timeout act (s.engine c).path := taken_of h
  have hs : Entry.currentStamp { ringGet (s.engine c).ring (s.engine c).path.head with record := .waitCue cue timeout act }
      (s.evalAt (s.engine c).path.latest).takeId = some st := hs
  rw [hk, takeWaitInPlay, if_neg (by rw [hst]; exact fun h => h rfl), hs]
  exact if_congr Iff.rfl rfl rfl

/-- A WAIT_CUE outside a loop with no stamp of the current take: the Cue Board decides (R20). -/
theorem headTaken_waitUnstamped {cue timeout : Nat} {act : OnTimeout} (h : s.needs c (.waitCue cue timeout act))
    (hst : (s.engine c).path.stack = [])
    (hs : (ringGet (s.engine c).ring (s.engine c).path.head).currentStamp s.take.id = none) :
    s.headTaken c = if s.cueSet cue then
        passAtOnce (s.stampHere c) (ringGet (s.engine c).ring (s.engine c).path.head).report (some cue) (s.engine c).path
      else beginWait (s.evalAt (s.engine c).path.latest) cue timeout act (s.engine c).path := by
  have hk : s.headTaken c = takeWaitInPlay (s.evalAt (s.engine c).path.latest) (s.cueSet cue)
      { ringGet (s.engine c).ring (s.engine c).path.head with record := .waitCue cue timeout act }
      cue timeout act (s.engine c).path := taken_of h
  have hs : Entry.currentStamp { ringGet (s.engine c).ring (s.engine c).path.head with record := .waitCue cue timeout act }
      (s.evalAt (s.engine c).path.latest).takeId = none := hs
  rw [hk, takeWaitInPlay, if_neg (by rw [hst]; exact fun h => h rfl), hs]
  exact if_congr Iff.rfl rfl rfl

/-- A WAIT_CUE inside a loop is PATH_FORM (R20). -/
theorem headTaken_waitInLoop {cue timeout : Nat} {act : OnTimeout} (h : s.needs c (.waitCue cue timeout act))
    (hst : (s.engine c).path.stack ≠ []) : s.headTaken c = raises .pathForm (s.engine c).path := by
  rw [taken_of h]
  change takeWaitInPlay _ _ _ _ _ _ _ = _
  rw [takeWaitInPlay, if_pos hst]

/-- A wait passed below the zero-time limit. -/
theorem passAtOnce_below (hz : (s.engine c).path.zero < 16) (q : Option Nat) :
    passAtOnce (s.stampHere c) (ringGet (s.engine c).ring (s.engine c).path.head).report q (s.engine c).path =
      { path := { (s.engine c).path with
          head := ((s.engine c).path.head + 1) % 1024, zero := (s.engine c).path.zero + 1,
          lastReported := (s.engine c).reportedAt (s.engine c).path.head },
        stamp := some ((s.engine c).path.head, s.stampHere c), consumed := q, taking := .goesOn } := by
  rw [passAtOnce, if_neg (not_zeroTimeLimit hz), reported_eq s c] <;> rfl

/-- Settles O17. -/
theorem waitCueTaken : Obligations.WaitCueTaken := by
  intro s c cue timeout act h
  refine ⟨fun hst => ?_, fun st hst hs ht => ?_, fun st hst hs ht hz => ?_, fun hst hs hq => ?_, fun hst hs hq hz => ?_⟩
  · exact congrArg Host.Outcome.next (takeWhen_faults h _ rfl (by decide) (headTaken_waitInLoop h hst))
  · exact congrArg Host.Outcome.next
      (takeWhen_stops h _ rfl ((headTaken_waitStamped h hst hs).trans (if_neg (Nat.not_le.mpr ht))))
  · refine congrArg Host.Outcome.next (takeWhen_stamped h _ rfl ?_)
    rw [headTaken_waitStamped h hst hs, if_pos ht, passAtOnce_below hz]
  · exact congrArg Host.Outcome.next
      (takeWhen_stops h _ rfl ((headTaken_waitUnstamped h hst hs).trans (if_neg (by simp [hq]))))
  · have hk := headTaken_waitUnstamped h hst hs
    rw [if_pos hq, passAtOnce_below hz] at hk
    refine congrArg Host.Outcome.next ?_
    rw [exec_takes h _ rfl (by rw [hk]; exact fun h => nomatch h), takeOne_goesOn _ hk (.inl rfl)]
    rfl

/-! ## EMIT_CUE and END -/

/-- EMIT_CUE below the zero-time limit (R22). -/
theorem headTaken_emit {cue : Nat} (h : s.needs c (.emitCue cue)) (hz : (s.engine c).path.zero < 16) :
    s.headTaken c = if !s.port.openCues.contains cue && decide (4 ≤ s.port.openCues.length) then
        raises .cueDrop (s.engine c).path
      else
        { path := { (s.engine c).path with
            head := ((s.engine c).path.head + 1) % 1024, zero := (s.engine c).path.zero + 1,
            lastReported := (s.engine c).reportedAt (s.engine c).path.head },
          stamp := some ((s.engine c).path.head, s.stampHere c), emitted := some cue, taking := .goesOn } := by
  rw [taken_of h]
  change takeEmitInPlay _ _ cue (ringGet (s.engine c).ring (s.engine c).path.head).report _ = _
  rw [takeEmitInPlay, if_neg (not_zeroTimeLimit hz), reported_eq s c] <;> rfl

/-- EMIT_CUE with room for its cue, or its cue already there: the record completes, and the cue is in the set. -/
theorem takeWhen_emits {cue : Nat} (h : s.needs c (.emitCue cue)) (hz : (s.engine c).path.zero < 16)
    (hroom : s.port.openCues.contains cue = true ∨ s.port.openCues.length < 4) (p : Record → Bool)
    (hp : p (.emitCue cue) = true) :
    takeWhen p c s = { s.stampedWith c (s.engine c).path.head { (s.engine c).path with
      head := ((s.engine c).path.head + 1) % 1024, zero := (s.engine c).path.zero + 1,
      lastReported := (s.engine c).reportedAt (s.engine c).path.head } with
        port := { s.port with openCues := addCue s.port.openCues cue } } := by
  have hk := headTaken_emit h hz
  rw [if_neg (by rcases hroom with hc | hl <;> simp_all)] at hk
  rw [exec_takes h p hp (by rw [hk]; exact fun h => nomatch h), takeOne_goesOn _ hk (.inl rfl)]
  rfl

/-- END taken (R24). -/
theorem takeOne_end (h : s.needs c .pathEnd) :
    takeOne c s = becomeDone c (s.stampedWith c (s.engine c).path.head { (s.engine c).path with
      head := ((s.engine c).path.head + 1) % 1024, ended := true,
      lastReported := (s.engine c).reportedAt (s.engine c).path.head }) ∧
    (s.headTaken c).taking = .ends := by
  have hk : s.headTaken c = takeEnd (s.evalAt (s.engine c).path.latest)
      (ringGet (s.engine c).ring (s.engine c).path.head).report (s.engine c).path := taken_of h
  refine ⟨?_, by rw [hk]; rfl⟩
  rw [takeOne, hk, takeEnd, reported_eq s c] <;> rfl

/-- FINISHED judged: only the take state can change (R126). -/
theorem checkFinished_eq (s : State) : checkFinished s = { s with take := { s.take with
    state := if s.take.state = .rolling ∧ s.allTake (fun d => decide (d.state = .done)) then .finished
             else s.take.state } } := by
  unfold checkFinished
  split <;> rfl

/-- Settles O18. -/
theorem emitCueAndEndTaken : Obligations.EmitCueAndEndTaken := by
  refine ⟨fun s c cue h hz => ⟨fun hc => ?_, fun hc hl => ?_, fun hc hl => ?_⟩, fun s c h => ?_⟩
  · refine congrArg Host.Outcome.next ((takeWhen_emits h hz (.inl hc) _ rfl).trans ?_)
    rw [addCue, if_pos hc]
    rfl
  · refine congrArg Host.Outcome.next ((takeWhen_emits h hz (.inr hl) _ rfl).trans ?_)
    rw [addCue, if_neg (by rw [hc]; exact Bool.false_ne_true)]
  · refine congrArg Host.Outcome.next (takeWhen_faults h _ rfl (by decide) ?_)
    rw [headTaken_emit h hz, if_pos (by rw [hc, decide_eq_true hl]; rfl)]
  · obtain ⟨hend, hk⟩ := takeOne_end h
    refine congrArg Host.Outcome.next ?_
    rw [exec_takes h _ rfl (by rw [hk]; exact fun h => nomatch h), hend, becomeDone, checkFinished_eq,
      State.stampedWith, State.drive_setEngine]
    rfl

/-! ## NONE, ORIGIN and STALL -/

/-- A STALL below a count of 16 is raised by no record (R7). -/
theorem takeInPlay_stall {a : EvalAt} {b : Nat → Bool} {cues : List Nat} {e : Entry} {p : Path}
    (h : (takeInPlay a b cues e p).taking = .faults .stall) : 16 ≤ p.zero := by
  by_contra hz
  have hz : ¬ Config.zeroTimeLimit ≤ p.zero := hz
  unfold takeInPlay at h
  split at h
  · cases h
  · cases h
  · rw [takeShape, if_neg hz] at h
    cases h
  · cases h
  · cases h
  · rw [takeLoopOpen, if_neg hz] at h
    split at h <;> cases h
  · rw [takeLoopClose, if_neg hz] at h
    split at h <;> cases h
  · unfold takeWaitInPlay passAtOnce at h
    simp only [if_neg hz] at h
    (repeat' split at h) <;> cases h
  · rw [takeEmitInPlay, if_neg hz] at h
    split at h <;> cases h
  · cases h

/-- A channel that needs a record stalls exactly when its taking is STALL. -/
theorem stalls_of (h : s.needs c r) : s.stalls c = decide ((s.headTaken c).taking = .faults .stall) := by
  obtain ⟨h1, h2, h3, h4, h5, -⟩ := h
  simp [State.stalls, State.needsRecord, State.playsPath, h1, h2, h3, h4, h5]

/-- STALL raised: the soft fault is all there is. -/
theorem execStall_raises (h : s.needs c r) (hk : s.headTaken c = raises .stall (s.engine c).path) :
    exec (.stall c) s = .next (softFault c .stall s) := by
  refine congrArg Host.Outcome.next ?_
  rw [stalls_of h, if_pos (by rw [hk]; rfl), takeOne_faults _ hk]

/-- The row STALL where its event does not stand (log 2). -/
theorem execStall_stands (h : s.needs c r) (hk : (s.headTaken c).taking ≠ .faults .stall) :
    exec (.stall c) s = .next s := by
  refine congrArg Host.Outcome.next ?_
  rw [stalls_of h, if_neg (by simpa using hk)]

/-- At a count below 16 the row STALL changes nothing. -/
theorem execStall_below (hz : (s.engine c).path.zero < 16) : exec (.stall c) s = .next s := by
  refine congrArg Host.Outcome.next (if_neg fun h => ?_)
  simp only [State.stalls, Bool.and_eq_true, decide_eq_true_iff] at h
  obtain ⟨⟨-, hne⟩, hk⟩ := h
  have hk : (takeInPlay (s.evalAt (s.engine c).path.latest) s.cueSet s.port.openCues
      (ringGet (s.engine c).ring (s.engine c).path.head) (s.engine c).path).taking = .faults .stall := by
    rw [State.headTaken, PlayState.takeHead] at hk
    rwa [if_neg (show (s.playState c).path.head ≠ (s.engine c).tail from hne)] at hk
  exact absurd (takeInPlay_stall hk) (Nat.not_le.mpr hz)

/-- A wait that would be passed at once, at a count of 16. -/
theorem passAtOnce_stalls {st : Stamp} {b : Bool} {q : Option Nat} {p : Path} (hz : p.zero = 16) :
    passAtOnce st b q p = raises .stall p := if_pos (Nat.le_of_eq hz.symm)

/-- Settles O19. -/
theorem recordFormFaults : Obligations.RecordFormFaults := by
  intro s c
  refine ⟨fun h => ?_, fun x h => ?_, fun hz => ?_, execStall_below⟩
  · exact congrArg Host.Outcome.next (takeWhen_faults h _ rfl (by decide) (taken_of h))
  · exact congrArg Host.Outcome.next (takeWhen_faults h _ rfl (by decide) (taken_of h))
  have full : Config.zeroTimeLimit ≤ (s.engine c).path.zero := Nat.le_of_eq hz.symm
  refine ⟨fun pr num den h => ?_, fun count h => ?_, fun h => ?_, fun cue h => ?_, fun cue timeout act h => ?_,
    fun d l h => ?_, fun l h => ?_, fun h => ?_, fun h => ?_, fun x h => ?_⟩
  · exact execStall_raises h ((taken_of h).trans (if_pos full))
  · exact execStall_raises h ((taken_of h).trans (if_pos full))
  · exact execStall_raises h ((taken_of h).trans (if_pos full))
  · exact execStall_raises h ((taken_of h).trans (if_pos full))
  · refine ⟨fun st hst hs ht => ?_, fun hst hs hq => ?_, fun st hst hs ht => ?_, fun hst hs hq => ?_, fun hst => ?_⟩
    · exact execStall_raises h (((headTaken_waitStamped h hst hs).trans (if_pos ht)).trans (passAtOnce_stalls hz))
    · exact execStall_raises h (((headTaken_waitUnstamped h hst hs).trans (if_pos hq)).trans (passAtOnce_stalls hz))
    · refine execStall_stands h ?_
      rw [headTaken_waitStamped h hst hs, if_neg (Nat.not_le.mpr ht)]
      exact fun h => nomatch h
    · refine execStall_stands h ?_
      rw [headTaken_waitUnstamped h hst hs, if_neg (by simp [hq])]
      exact fun h => nomatch h
    · refine execStall_stands h ?_
      rw [headTaken_waitInLoop h hst]
      exact fun h => nomatch h
  all_goals
    refine execStall_stands h ?_
    rw [taken_of h]
    exact fun h => nomatch h

end Sys2Proof.Machine
end

