-- ==== Sys2Proof/Proofs/PathEvaluated.lean ====
section
/-! A sub-beat of a channel that plays its path (R4, R6, R10, R156): what the evaluation leaves of the engine, the cue set and the
Cue Board, what is offered to the drive, and a span carved. -/

set_option Elab.async false

namespace Sys2Proof.Machine

variable {s : State} {c : Chan}

/-! ## Carving (R10) -/

theorem carve_zero (pr : Profile) (d : Int) (k : Nat) : carve pr d 0 k = 0 := by
  cases pr <;> simp [carve, trunc]

/-- At offset K every profile has come to D'. -/
theorem carve_full (pr : Profile) (d : Int) {k : Nat} (hk : 0 < k) : carve pr d k k = d := by
  have h0 : (k : Int) ≠ 0 := by omega
  have hp (n : Nat) : (k : Int) ^ n ≠ 0 := pow_ne_zero n h0
  cases pr with
  | linear => exact Int.mul_tdiv_cancel d h0
  | easeIn => exact Int.mul_tdiv_cancel d (hp 2)
  | easeOut =>
    have hw : (2 * (k : Int) * k - (k : Int) ^ 2) = (k : Int) ^ 2 := by ring
    simp only [carve, trunc, hw]
    exact Int.mul_tdiv_cancel d (hp 2)
  | ease =>
    have hw : ((k : Int) ^ 2 * (3 * (k : Int) - 2 * k)) = (k : Int) ^ 3 := by ring
    simp only [carve, trunc, hw]
    exact Int.mul_tdiv_cancel d (hp 3)

/-- Truncation toward zero mirrors every profile. -/
theorem carve_neg (pr : Profile) (d : Int) (j k : Nat) : carve pr (-d) j k = -carve pr d j k := by
  cases pr <;> simp only [carve, trunc, neg_mul, Int.neg_tdiv]

/-- A span in progress moved to offset `j` (R6). -/
theorem advanceTo_span {p : Path} {pos t0 k i : Nat} {start d : Int} {pr : Profile}
    (h : p.progress = some (.span pos t0 start d pr k i)) (j : Nat) :
    p.advanceTo (t0 + j) = { p with progress := some (.span pos t0 start d pr k j), setPoint := start + carve pr d j k } := by
  unfold Path.advanceTo
  rw [h]
  simp only [Nat.add_sub_cancel_left]

/-- The evaluation of a sub-beat inside a span: the span stands at its offset, and no record is taken. -/
theorem playEval_insideSpan {x : PlayState} {pos t0 k i j : Nat} {start d : Int} {pr : Profile}
    (h : x.path.progress = some (.span pos t0 start d pr k i)) (hj : j < k) {a : EvalAt} (ha : a.t = t0 + j)
    (board : Nat → Bool) (tail : Nat) :
    playEval a false board tail x = ({ x with path := { x.path with
      progress := some (.span pos t0 start d pr k j), setPoint := start + carve pr d j k, zero := 0, latest := t0 + j } },
      .stands) := by
  have hp : Path.advanceTo { x.path with zero := 0, latest := a.t } a.t = { x.path with
      progress := some (.span pos t0 start d pr k j), setPoint := start + carve pr d j k, zero := 0, latest := t0 + j } := by
    rw [ha]
    exact advanceTo_span (p := { x.path with zero := 0, latest := t0 + j }) h j
  unfold playEval
  simp only [Bool.false_eq_true, if_false, hp, Path.completing, if_neg (Nat.not_le.mpr hj)]
  split <;> rfl

/-! ## What an evaluation leaves -/

/-- The evaluation of channel `c`'s path at take sub-beat `t`; `first` at the roll pulse. -/
def State.evaluated (s : State) (c : Chan) (t : Nat) (first : Bool := false) : PlayState × PlayEnd :=
  playEval (s.evalAt t) first s.cueSet (s.engine c).tail (s.playState c)

/-- What follows the evaluation of a path touches the drive alone: engine, cue set and board are as the evaluation left them. -/
theorem playPath_leaves (c : Chan) (now t : Nat) (first : Bool) (s : State) :
    (playPath c now t first s).engine = (s.putPlay c (s.evaluated c t first).1).engine ∧
    (playPath c now t first s).port = { s.port with openCues := (s.evaluated c t first).1.cues } ∧
    (playPath c now t first s).board = { s.board with consumed := (s.evaluated c t first).1.consumed } := by
  unfold playPath
  dsimp only
  rw [show playEval (s.evalAt t) first s.cueSet (s.engine c).tail (s.playState c) = s.evaluated c t first from rfl]
  set x := (s.evaluated c t first).1
  obtain ⟨-, -, hport, -, hboard, -⟩ := playSetPoint_frame c now t x.path.setPoint (s.putPlay c x)
  have hengine := playSetPoint_engine c now t x.path.setPoint (s.putPlay c x)
  split
  · exact ⟨hengine, hport, hboard⟩
  · split
    · obtain ⟨-, -, dport, -, -, dboard, -⟩ := becomeDone_frame c (playSetPoint c now t x.path.setPoint (s.putPlay c x))
      exact ⟨(becomeDone_engine _ _).trans hengine, dport.trans hport, dboard.trans hboard⟩
    · exact ⟨hengine, hport, hboard⟩
  · rename_i k _
    obtain ⟨-, -, fport, -, fboard, -⟩ := playFault_frame c now t k x.path.setPoint (s.putPlay c x)
    exact ⟨playFault_engine _ _ _ _ _ _, fport, fboard⟩

theorem putPlay_engine (s : State) (c : Chan) (x : PlayState) :
    (s.putPlay c x).engine c = { s.engine c with path := x.path, ring := x.ring } :=
  State.engine_setEngine s c _

/-- The evaluation handed back, and the drive as the sub-beat found it. -/
theorem putPlay_beating (s : State) (k e : Nat) (c : Chan) (x : PlayState) :
    ((s.beating k e c).putPlay c x).drive c = s.monitored c ∧
    ((s.beating k e c).putPlay c x).setup = s.setup ∧
    ((s.beating k e c).putPlay c x).interval = s.interval ∧
    ((s.beating k e c).putPlay c x).energized c = s.energized c ∧
    ((s.beating k e c).putPlay c x).take = (s.beating k e c).take := by
  obtain ⟨hd, -, hu, -, hi, he, -, -, -⟩ := s.beating_same k e c
  have hdrive : ((s.beating k e c).putPlay c x).drive c = s.monitored c := (State.putPlay_drive _ _ _ _).trans hd
  obtain ⟨-, -, -, htake, -, -, -, -, hsetup⟩ := State.putPlay_frame (s.beating k e c) c x
  refine ⟨hdrive, hsetup.trans hu, hi, ?_, htake⟩
  rw [← he, State.energized, State.energized, hdrive, hd]
  rfl

/-- While the take runs, scheduled sub-beat `k` carries TF·N + k (R73). -/
theorem takeSubBeat_running (h : s.take.state = .rolling ∨ s.take.state = .finished) (k : Nat) :
    s.takeSubBeat k = some (s.take.tf * s.subBeats + k) := by
  unfold State.takeSubBeat
  rcases h with h | h <;> rw [h]

/-- Channel `c` plays its path in a running take, alone energized, and its monitor lets it go on to the sub-beat at hand. -/
structure State.PlaysAt (s : State) (c : Chan) (k e : Nat) : Prop where
  due : s.dueAt k e
  alone : s.alone c
  follows : s.follows c
  running : s.take.state = .rolling ∨ s.take.state = .finished
  playing : (s.drive c).state = .playing
  path : (s.drive c).source = some .path

/-- SUB_BEAT of a channel that plays its path: one evaluation, and the drive as the offer leaves it. -/
theorem subBeat_plays {k e : Nat} (h : s.PlaysAt c k e) :
    let now := s.take.tf * s.subBeats + k
    let v := s.beating k e c
    let x := (v.evaluated c now).1
    ∃ t, exec .subBeat s = .next t ∧ t.drive c = (playPath c (e * Config.tick) now false v).drive c ∧
      t.engine c = { s.engine c with path := x.path, ring := x.ring } ∧ t.port = { s.port with openCues := x.cues } ∧
      t.board = (consumeCues { v with board := { v.board with consumed := x.consumed } }).board := by
  intro now v x
  obtain ⟨t, ht, hdrive, hengine, hport, hboard⟩ := subBeat_alone_follows h.due h.alone h.follows
  obtain ⟨hd, he, -, hp, -⟩ := s.beating_same k e c
  have hu : stateBeat c (e * Config.tick) (s.takeSubBeat k) k false v = playPath c (e * Config.tick) now false v := by
    have hst : (v.drive c).state = .playing := by rw [hd]; exact h.playing
    have hsrc : (v.drive c).source = some .path := by rw [hd]; exact h.path
    rw [takeSubBeat_running h.running, stateBeat, hst]
    dsimp only
    rw [playBeat, hsrc]
  obtain ⟨le, lp, lb⟩ := playPath_leaves c (e * Config.tick) now false v
  refine ⟨t, ht, by rw [hdrive, hu], ?_, ?_, ?_⟩
  · rw [hengine, hu, le, putPlay_engine, he]
  · rw [hport, hu, lp, hp]
  · rw [hboard, hu]
    unfold consumeCues
    rw [lb]

/-- An evaluation after which the path stands: its set-point is offered (R156 to R158). -/
theorem playPath_stands {k e now : Nat} (h : s.PlaysAt c k e) {x : PlayState}
    (hr : (s.beating k e c).evaluated c now = (x, .stands)) :
    ∀ t : State, t.drive c = (playPath c (e * Config.tick) now false (s.beating k e c)).drive c →
      s.Offered t c x.path.setPoint (s.monitored c)
        (s.issued e x.path.setPoint { s.monitored c with playedNext := now + 1 }) := by
  intro t ht
  obtain ⟨hd, hu, hi, he, -⟩ := putPlay_beating s k e c x
  have hp : playPath c (e * Config.tick) now false (s.beating k e c) =
      playSetPoint c (e * Config.tick) now x.path.setPoint ((s.beating k e c).putPlay c x) := by
    unfold playPath
    dsimp only
    rw [show playEval _ false _ _ _ = (x, .stands) from hr]
  have ho := playSetPoint_offered (s := s) (u := (s.beating k e c).putPlay c x) (e * Config.tick) now x.path.setPoint
    (by rw [hu]) (by rw [he]; exact h.alone.1)
  rw [hd, hi, ← hp] at ho
  exact ⟨fun h1 h2 => ht.trans (ho.issues h1 h2), fun h1 h2 => by rw [ht]; exact ho.backlog h1 h2,
    fun f h1 => by rw [ht]; exact ho.fails f h1⟩

/-! ## Span carving -/

/-- Settles O13: the profiles by arithmetic; SUB_BEAT by the evaluation inside a span. -/
theorem spanCarving : Obligations.SpanCarving := by
  refine ⟨fun d j k hk _ => ⟨rfl, rfl, rfl, rfl, fun pr => ⟨⟨carve_zero pr d k, carve_full pr d hk, carve_neg pr d j k⟩,
    fun p pos t0 i start hp => advanceTo_span hp j⟩⟩, ?_⟩
  intro s c n e pos t0 k j i start d pr hdue halone hfollows hrun hplay hpath hspan hnow hj
  have h : s.PlaysAt c n e := ⟨hdue, halone, hfollows, hrun, hplay, hpath⟩
  obtain ⟨-, he, -⟩ := s.beating_same n e c
  have hx : ((s.beating n e c).playState c).path.progress = some (.span pos t0 start d pr k i) := by
    change ((s.beating n e c).engine c).path.progress = _
    rw [he, hspan]
  have hr := playEval_insideSpan (a := (s.beating n e c).evalAt (t0 + j)) hx hj rfl (s.beating n e c).cueSet
    ((s.beating n e c).engine c).tail
  obtain ⟨t, ht, hdrive, hengine, -, -⟩ := subBeat_plays h
  rw [hnow] at hdrive hengine
  refine ⟨t, ht, ?_, playPath_stands h hr t hdrive⟩
  rw [hengine, State.evaluated, hr]
  simp only [State.playState, he]

end Sys2Proof.Machine
end

