-- ==== Sys2Proof/Proofs/RecordsInProgress.lean ====
section
/-! Records in progress (R6, R19 to R21, R31, R43): the rows that end one, what a completion leaves in the ring and where the
engine goes on, and SUB_BEAT as one evaluation of the path. -/

set_option Elab.async false

namespace Sys2Proof.Machine

variable {s : State} {c : Chan}

/-! ## The rows -/

theorem playsPath_of (hplay : (s.drive c).state = .playing) (hpath : (s.drive c).source = some .path) :
    s.playsPath c = true := by
  rw [State.playsPath, hplay, hpath]
  rfl

theorem execRecordComplete_of {pos : Nat} (hp : s.playsPath c = true) (hc : (s.engine c).path.completing = some pos) :
    exec (.recordComplete c) s = .next (completeAndGoOn c pos none s) := by
  change execRecordComplete c s = _
  unfold execRecordComplete
  rw [hc]
  exact congrArg Host.Outcome.next (if_pos hp)

theorem waitStanding_of {pos began cue : Nat} {expiry : Option Nat} {act : OnTimeout} (hp : s.playsPath c = true)
    (h : (s.engine c).path.progress = some (.wait pos began cue expiry act)) :
    s.waitStanding c = some (pos, (ringGet (s.engine c).ring pos).currentStamp s.take.id, cue, expiry, act) := by
  unfold State.waitStanding
  rw [h]
  exact if_pos hp

/-- WAIT_EXPIRY of an unstamped wait whose expiry has come (R21). -/
theorem execWaitExpiry_of {pos began cue x : Nat} {act : OnTimeout} (hp : s.playsPath c = true)
    (h : (s.engine c).path.progress = some (.wait pos began cue (some x) act))
    (hs : (ringGet (s.engine c).ring pos).currentStamp s.take.id = none) (hx : x ≤ (s.engine c).path.latest) :
    exec (.waitExpiry c) s = .next (expireWait c pos cue act s) := by
  change execWaitExpiry c s = _
  unfold execWaitExpiry
  rw [waitStanding_of hp h, hs]
  exact congrArg Host.Outcome.next (if_pos hx)

theorem execWaitStampPass_of {pos began cue : Nat} {expiry : Option Nat} {act : OnTimeout} {st : Stamp}
    (hp : s.playsPath c = true) (h : (s.engine c).path.progress = some (.wait pos began cue expiry act))
    (hs : (ringGet (s.engine c).ring pos).currentStamp s.take.id = some st)
    (hle : st.subBeat s.subBeats ≤ (s.engine c).path.latest) :
    exec (.waitStampPass c) s = .next (completeAndGoOn c pos none s) := by
  change execWaitStampPass c s = _
  unfold execWaitStampPass
  rw [waitStanding_of hp h, hs]
  exact congrArg Host.Outcome.next (if_pos hle)

/-! ## Stamps written at one sub-beat (R2, R31) -/

/-- Ring `t` is ring `r` with the stamp `st` written into some of its entries: records and REPORT flags stand. -/
structure StampedBy (st : Stamp) (r t : List (Nat × Entry)) : Prop where
  record : ∀ x, (ringGet t x).record = (ringGet r x).record
  report : ∀ x, (ringGet t x).report = (ringGet r x).report
  stamp : ∀ x, (ringGet t x).stamp = (ringGet r x).stamp ∨ (ringGet t x).stamp = some st

theorem StampedBy.refl (st : Stamp) (r : List (Nat × Entry)) : StampedBy st r r :=
  ⟨fun _ => rfl, fun _ => rfl, fun _ => .inl rfl⟩

theorem StampedBy.trans {st : Stamp} {r t u : List (Nat × Entry)} (h : StampedBy st r t) (k : StampedBy st t u) :
    StampedBy st r u where
  record x := (k.record x).trans (h.record x)
  report x := (k.report x).trans (h.report x)
  stamp x := by
    rcases k.stamp x with hk | hk
    · rw [hk]
      exact h.stamp x
    · exact .inr hk

/-- An entry stamped with `st` stays so. -/
theorem StampedBy.keeps {st : Stamp} {r t : List (Nat × Entry)} (h : StampedBy st r t) {x : Nat}
    (hx : (ringGet r x).stamp = some st) : (ringGet t x).stamp = some st := by
  rcases h.stamp x with hs | hs
  · exact hs.trans hx
  · exact hs

theorem stampedBy_ringStamp {r : List (Nat × Entry)} (hr : ringWf r = true) (p : Nat) (st : Stamp) :
    StampedBy st r (ringStamp r p st) := by
  have h (x : Nat) : ringGet (ringStamp r p st) x =
      if x = p then { ringGet r p with stamp := some st } else ringGet r x := by
    by_cases hx : x = p
    · rw [if_pos hx, hx]
      exact ringGet_ringPut_same p _ hr
    · rw [if_neg hx]
      exact ringGet_ringPut_ne _ hx hr
  constructor
  · intro x
    rw [h]
    split <;> simp_all
  · intro x
    rw [h]
    split <;> simp_all
  · intro x
    rw [h]
    split
    · exact .inr rfl
    · exact .inl rfl

/-- In play every stamp written names the sub-beat evaluated (R2). -/
theorem takeInPlay_stamp (a : EvalAt) (b : Nat → Bool) (cues : List Nat) (e : Entry) (p : Path) :
    ∀ y ∈ (takeInPlay a b cues e p).stamp, y.2 = stampAt a.takeId a.n a.t := by
  unfold takeInPlay takeShape takeSpan takeDwell takeLoopOpen takeLoopClose takeWaitInPlay takeEmitInPlay takeEnd passAtOnce
    beginWait raises
  intro y hy
  (repeat' split at hy) <;> cases hy <;> rfl

theorem takeHead_stamp (a : EvalAt) (b : Nat → Bool) (tail : Nat) (x : PlayState) :
    ∀ y ∈ (x.takeHead a b tail).stamp, y.2 = stampAt a.takeId a.n a.t := by
  unfold PlayState.takeHead
  split
  · exact fun y hy => nomatch hy
  · exact takeInPlay_stamp _ _ _ _ _

theorem stampedBy_took {x : PlayState} (hx : x.Ok) {k : Taken} {st : Stamp} (hk : ∀ y ∈ k.stamp, y.2 = st) :
    StampedBy st x.ring (x.took k).ring := by
  unfold PlayState.took PlayState.stamped
  split
  · rename_i p v hv
    obtain rfl : v = st := hk _ hv
    exact stampedBy_ringStamp hx.ring p v
  · exact .refl _ _

/-- The takings of one sub-beat stamp with that sub-beat alone. -/
theorem stampedBy_playLoop (a : EvalAt) (b : Nat → Bool) (tail fuel : Nat) : ∀ {x : PlayState}, x.Ok →
    StampedBy (stampAt a.takeId a.n a.t) x.ring (playLoop a b tail fuel x).1.ring := by
  induction fuel with
  | zero => exact fun _ => .refl _ _
  | succ n ih =>
    intro x hx
    have hk := stampedBy_took hx (takeHead_stamp a b tail x)
    unfold playLoop
    dsimp only
    split
    · exact hk.trans (ih (hx.took (hx.takeHead a b tail)))
    · exact hk
    · exact hk
    · exact hk
    · exact .refl _ _

/-! ## A completion -/

/-- What a completion at `pos` works on is the play state of `s` with the record complete and stamped. -/
theorem completed_playState (s : State) (c : Chan) (pos : Nat) :
    (s.playState c).completed (s.evalAt (s.engine c).path.latest) pos none =
      (s.stampedWith c pos { (s.engine c).path with
        progress := none, lastReported := (s.engine c).reportedAt pos }).playState c := by
  have hp : (s.engine c).path.complete pos (ringGet (s.engine c).ring pos).report =
      { (s.engine c).path with progress := none, lastReported := (s.engine c).reportedAt pos } := by
    unfold Path.complete
    rw [reported_eq s c]
    rfl
  unfold PlayState.completed State.stampedWith
  simp only [State.playState, State.engine_setEngine, hp]
  rfl

/-- The entry at `pos` is stamped with the sub-beat; every record and REPORT flag stands (R2, R31). -/
theorem completeAndGoOn_stamps (hs : s.enginesOk) {pos : Nat} (hpos : pos < 1024) (q : Option Nat) :
    StampedBy (s.stampHere c) (s.engine c).ring ((completeAndGoOn c pos q s).engine c).ring ∧
    (ringGet ((completeAndGoOn c pos q s).engine c).ring pos).stamp = some (s.stampHere c) := by
  set a := s.evalAt (s.engine c).path.latest with ha
  set x := (s.playState c).completed a pos q with hx
  have hw : ringWf (s.engine c).ring = true := (hs c).ring
  have hring : ((completeAndGoOn c pos q s).engine c).ring = (goOn a s.cueSet (s.engine c).tail x).1.ring := by
    unfold completeAndGoOn
    rw [endPlay_engine, putPlay_engine]
  have hloop : StampedBy (s.stampHere c) x.ring (goOn a s.cueSet (s.engine c).tail x).1.ring :=
    stampedBy_playLoop a s.cueSet (s.engine c).tail 18 ((hs.playState c).completed a pos q hpos)
  have hxr : x.ring = ringStamp (s.engine c).ring pos (s.stampHere c) := rfl
  rw [hring]
  refine ⟨.trans (hxr ▸ stampedBy_ringStamp hw pos _) hloop, hloop.keeps ?_⟩
  rw [hxr, ringStamp, ringGet_ringPut_same _ _ hw]

/-- A completion with head on tail is RING_EMPTY (R43). -/
theorem completeAndGoOn_ringEmpty {pos : Nat} (h : (s.engine c).path.head = (s.engine c).tail) :
    completeAndGoOn c pos none s = softFault c .ringEmpty (s.stampedWith c pos { (s.engine c).path with
      progress := none, lastReported := (s.engine c).reportedAt pos }) := by
  set u := s.stampedWith c pos { (s.engine c).path with
    progress := none, lastReported := (s.engine c).reportedAt pos } with hu
  have hg : goOn (s.evalAt (s.engine c).path.latest) s.cueSet (s.engine c).tail (u.playState c) =
      (u.playState c, .faults .ringEmpty) := by
    have hk : (u.playState c).takeHead (s.evalAt (s.engine c).path.latest) s.cueSet (s.engine c).tail =
        raises .ringEmpty (u.playState c).path := by
      refine if_pos ?_
      simp only [hu, State.playState, State.stampedWith, State.engine_setEngine, h]
    unfold goOn playLoop
    rw [hk]
    rfl
  unfold completeAndGoOn
  dsimp only
  rw [completed_playState, ← hu, hg]
  refine congrArg (softFault c .ringEmpty) ?_
  simp only [hu, State.putPlay, State.playState, State.stampedWith, State.engine_setEngine]

theorem setEngine_setEngine (s : State) (c : Chan) (e f : Engine) : (s.setEngine c e).setEngine c f = s.setEngine c f := by
  have h (q : Quad Channel) (x y : Channel) : (q.set c x).set c y = q.set c y := by fin_cases c <;> rfl
  simp only [State.setEngine, State.setChan, State.chan, Quad.get_set_same, h]

/-- A completion with a SPAN at head: the span begins at once (R6, R9). -/
theorem completeAndGoOn_span (hs : s.enginesOk) {pos l : Nat} {d : Int}
    (h : (s.engine c).path.head ≠ (s.engine c).tail)
    (hr : (ringGet (s.engine c).ring (s.engine c).path.head).record = .span d l) :
    let e := s.engine c
    let u := s.stampedWith c pos { e.path with progress := none, lastReported := e.reportedAt pos }
    completeAndGoOn c pos none s = u.withPath c { (u.engine c).path with
      head := (e.path.head + 1) % 1024,
      progress := some (.span e.path.head e.path.latest e.path.setPoint
        ((d * e.path.shape.num).tdiv e.path.shape.den) e.path.shape.profile (l * s.subBeats) 0),
      table := (u.engine c).path.tableAfterOffer e.path.latest e.path.head } := by
  intro e u
  have hu : u.engine c = { e with
      path := { e.path with progress := none, lastReported := e.reportedAt pos },
      ring := ringStamp e.ring pos (s.stampHere c) } := State.engine_setEngine s c _
  have hrec : (ringGet (u.engine c).ring (u.engine c).path.head).record = .span d l := by
    rw [hu]
    exact ((stampedBy_ringStamp (hs c).ring pos _).record _).trans hr
  have hk : (u.playState c).takeHead (s.evalAt e.path.latest) s.cueSet e.tail =
      takeSpan (s.evalAt e.path.latest) d l (u.engine c).path := by
    refine (if_neg ?_).trans ?_
    · change (u.engine c).path.head ≠ _
      rw [hu]
      exact h
    · change takeInPlay _ _ _ (ringGet (u.engine c).ring (u.engine c).path.head) (u.engine c).path = _
      unfold takeInPlay
      rw [hrec]
  unfold completeAndGoOn
  dsimp only
  rw [completed_playState]
  change endPlay c (goOn _ _ _ (u.playState c)).2 (s.putPlay c (goOn _ _ _ (u.playState c)).1) = _
  have hg : goOn (s.evalAt e.path.latest) s.cueSet e.tail (u.playState c) =
      ((u.playState c).took (takeSpan (s.evalAt e.path.latest) d l (u.engine c).path), .stands) := by
    unfold goOn playLoop
    rw [hk]
    rfl
  rw [hg]
  unfold takeSpan
  rw [offer_eq]
  simp only [endPlay, State.putPlay, State.withPath, PlayState.took, PlayState.stamped, State.playState, hu]
  change _ = (s.setEngine c _).setEngine c _
  rw [setEngine_setEngine]
  rfl

/-! ## SUB_BEAT as one evaluation -/

/-- With no cue consumed before, the sub-beat evaluates the state as it stands. -/
theorem beating_evaluated (hc : s.board.consumed = []) (k e now : Nat) :
    (s.beating k e c).evaluated c now =
      playEval { takeId := s.take.id, n := s.subBeats, t := now } false s.cueSet (s.engine c).tail
        { path := (s.engine c).path, ring := (s.engine c).ring, cues := s.port.openCues, consumed := [] } := by
  obtain ⟨-, he, -, hp, -, -, hn, ht, hb⟩ := s.beating_same k e c
  have hid : (s.beating k e c).take.id = s.take.id := by rw [ht]
  have hcue : (s.beating k e c).cueSet = s.cueSet := by
    funext q
    rw [State.cueSet, State.cueSet, hb hc]
  rw [State.evaluated, State.evalAt, State.playState, hid, hn, hcue, he, hp, hb hc, hc]

/-- The set flags once the consumed cues are cleared (R20). -/
theorem foldl_clearCue_isSet (l : List Nat) (q : Nat) : ∀ es : List CueEntry,
    ((l.foldl clearCue es).getD q { isSet := false, tag := 0 }).isSet =
      ((es.getD q { isSet := false, tag := 0 }).isSet && !l.contains q) := by
  induction l with
  | nil => simp
  | cons x xs ih =>
    intro es
    rw [List.foldl_cons, ih, List.contains_cons]
    have hx : ((clearCue es x).getD q { isSet := false, tag := 0 }).isSet =
        ((es.getD q { isSet := false, tag := 0 }).isSet && !(q == x)) := by
      unfold clearCue
      simp only [List.getD_eq_getElem?_getD, List.getElem?_set]
      by_cases h : x = q
      · subst h
        by_cases hl : x < es.length <;> simp [hl]
      · simp [h, Ne.symm h]
    rw [hx]
    cases (es.getD q { isSet := false, tag := 0 }).isSet <;> cases (q == x) <;> simp

/-- An offer that passes its checks and leaves no backlog: the drive that issues. -/
theorem playSetPoint_passes {u : State} {now t : Nat} {x : Int} (he : u.energized c = true)
    (ho : offerCheck (u.drive c) (u.setup c) x = none)
    (hb : (x - (u.drive c).stepPos).natAbs ≤ 2 * (u.setup c).maxStep) :
    (playSetPoint c now t x u).drive c = { u.drive c with playedNext := t + 1 }.issue now u.interval x :=
  (playSetPoint_offered (s := u) now t x rfl he).issues ho hb

theorem becomeDone_drive (u : State) : (becomeDone c u).drive c = { u.drive c with state := .done, follow := .none } := by
  rw [becomeDone, State.drive_def, checkFinished_channels, ← State.drive_def, State.drive_setDrive]

/-- An evaluation that ends at an END: the set-point is issued and the channel is DONE (R24). -/
theorem playPath_ends {k e now : Nat} (h : s.PlaysAt c k e) {x : PlayState}
    (hr : (s.beating k e c).evaluated c now = (x, .ends))
    (ho : offerCheck (s.monitored c) (s.setup c) x.path.setPoint = none)
    (hb : (x.path.setPoint - (s.monitored c).stepPos).natAbs ≤ 2 * (s.setup c).maxStep) :
    (playPath c (e * Config.tick) now false (s.beating k e c)).drive c =
      { s.issued e x.path.setPoint { s.monitored c with playedNext := now + 1 } with state := .done, follow := .none } := by
  obtain ⟨hd, hu, hi, he, -⟩ := putPlay_beating s k e c x
  have hs := playSetPoint_passes (u := (s.beating k e c).putPlay c x) (now := e * Config.tick) (t := now)
    (x := x.path.setPoint) (by rw [he]; exact h.alone.1) (by rw [hd, hu]; exact ho) (by rw [hd, hu]; exact hb)
  rw [hd, hi] at hs
  have hplay : ((playSetPoint c (e * Config.tick) now x.path.setPoint
      ((s.beating k e c).putPlay c x)).drive c).state = .playing := by
    rw [hs, (Drive.issue_same _ _ _ _).2.2.1]
    exact h.playing
  unfold playPath
  dsimp only
  rw [show playEval _ false _ _ _ = (x, .ends) from hr]
  dsimp only
  rw [if_pos hplay, becomeDone_drive, hs]
  rfl

/-- An evaluation that ends at a record fault: the kind recorded, the set-point issued, the stop entered (R8, R148). -/
theorem playPath_faults {k e now : Nat} (h : s.PlaysAt c k e) {x : PlayState} {f : FaultKind}
    (hr : (s.beating k e c).evaluated c now = (x, .faults f))
    (ho : offerCheck (s.monitored c) (s.setup c) x.path.setPoint = none)
    (hb : (x.path.setPoint - (s.monitored c).stepPos).natAbs ≤ 2 * (s.setup c).maxStep) :
    (playPath c (e * Config.tick) now false (s.beating k e c)).drive c =
      (s.issued e x.path.setPoint { s.monitored c with
        playedNext := now + 1, kind := some ((s.monitored c).kind.getD f) }).enterStop := by
  obtain ⟨hd, hu, hi, he, ht⟩ := putPlay_beating s k e c x
  set v := (s.beating k e c).putPlay c x
  obtain ⟨-, htimer, -, -, htake, -, -, -, -, hsetup⟩ :=
    raiseCause_frame .channelFault (some c.val) (some f) (v.setDrive c ((v.drive c).recordKind f))
  obtain ⟨-, -, -, -, -, -, -, hbt, -⟩ := s.beating_same k e c
  set w := raiseCause .channelFault (some c.val) (some f) (v.setDrive c ((v.drive c).recordKind f)) with hw
  have hwd : w.drive c = (s.monitored c).recordKind f := by
    rw [hw, State.drive_def, raiseCause_channels, ← State.drive_def, State.drive_setDrive, hd]
  have hwu : w.setup = s.setup := hsetup.trans ((State.setDrive_setup _ _ _).trans hu)
  have hwt : w.take = v.take := htake.trans (State.setDrive_take _ _ _)
  have hwe : w.energized c = true := by
    have hev := h.alone.1
    rw [← he] at hev
    rw [← hev, State.energized, State.energized, hwd, hwt, hd]
    rfl
  have hwi : w.interval = s.interval := by
    rw [← hi, State.interval, State.interval, htimer, State.setDrive_timer, hw]
    have : (raiseCause .channelFault (some c.val) (some f) (v.setDrive c ((v.drive c).recordKind f))).subBeats =
        v.subBeats := by
      unfold raiseCause
      (repeat' split) <;> rfl
    rw [this]
  have hs := playSetPoint_passes (u := w) (now := e * Config.tick) (t := now) (x := x.path.setPoint) hwe
    (by rw [hwd, hwu]; exact ho) (by rw [hwd, hwu]; exact hb)
  rw [hwd, hwi] at hs
  set z := playSetPoint c (e * Config.tick) now x.path.setPoint w with hz
  have hplay : (z.drive c).state = .playing := by
    rw [hs, (Drive.issue_same _ _ _ _).2.2.1]
    exact h.playing
  have hrun : z.take.state ≠ .seeking := by
    have hwr : w.take.state = .rolling ∨ w.take.state = .finished := by
      rw [hwt, ht, hbt]
      exact h.running
    obtain ⟨hzr, -⟩ := (playSetPoint_runs c (e * Config.tick) now x.path.setPoint w).playing hwr
    rw [← hz] at hzr
    rcases hzr with hzr | hzr <;> rw [hzr] <;> decide
  unfold playPath
  dsimp only
  rw [show playEval _ false _ _ _ = (x, .faults f) from hr]
  dsimp only
  rw [playFault]
  change (if (z.drive c).state = .playing then checkRest (z.setDrive c (z.drive c).enterStop) else z).drive c = _
  rw [if_pos hplay, State.drive_def, checkRest_channels (s := z.setDrive c (z.drive c).enterStop) hrun, ← State.drive_def,
    State.drive_setDrive, hs]
  rfl

theorem advanceTo_latest (p : Path) (t : Nat) : (p.advanceTo t).latest = p.latest := by
  unfold Path.advanceTo
  split <;> rfl

/-- A record that ends at the sub-beat completes as the row RECORD_COMPLETE has it. -/
theorem playEval_completes {now pos : Nat} (hc : s.board.consumed = [])
    (hended : (Path.advanceTo { (s.engine c).path with zero := 0, latest := now } now).ended = false)
    (hpos : (Path.advanceTo { (s.engine c).path with zero := 0, latest := now } now).completing = some pos) :
    let path := Path.advanceTo { (s.engine c).path with zero := 0, latest := now } now
    let r := playEval { takeId := s.take.id, n := s.subBeats, t := now } false s.cueSet (s.engine c).tail
      { path := (s.engine c).path, ring := (s.engine c).ring, cues := s.port.openCues, consumed := [] }
    (completeAndGoOn c pos none (s.withPath c path)).engine c =
      { s.engine c with path := r.1.path, ring := r.1.ring } := by
  intro path r
  have hr : r = goOn { takeId := s.take.id, n := s.subBeats, t := now } s.cueSet (s.engine c).tail
      (PlayState.completed { takeId := s.take.id, n := s.subBeats, t := now } pos none
        { path := path, ring := (s.engine c).ring, cues := s.port.openCues, consumed := [] }) := by
    simp only [r, playEval, Bool.false_eq_true, if_false, hended, hpos]
    rfl
  have he : (s.withPath c path).engine c = { s.engine c with path := path } := State.engine_setEngine s c _
  have hl : path.latest = now := advanceTo_latest _ _
  unfold completeAndGoOn
  rw [endPlay_engine, putPlay_engine, he, hr]
  simp only [State.evalAt, State.playState, he, hl]
  simp only [State.withPath, State.setEngine_take, State.setEngine_subBeats, State.setEngine_port, State.setEngine_board, hc]
  rfl

/-- Settles O20. -/
theorem recordsInProgressEndAndGoOn : Obligations.RecordsInProgressEndAndGoOn := by
  refine ⟨fun s c hplay hpath => ?_, fun s c pos hs hpos => ?_, ?_⟩
  · have hp := playsPath_of hplay hpath
    refine ⟨fun pos t0 st d pr k j h hk => ?_, fun pos t0 st k j h hk => ?_, fun pos began cue expiry act h =>
      ⟨fun st hst hle => execWaitStampPass_of hp h hst hle, fun x hst hx hle => ?_⟩⟩
    · refine execRecordComplete_of hp ?_
      rw [Path.completing, h]
      exact if_pos hk
    · refine execRecordComplete_of hp ?_
      rw [Path.completing, h]
      exact if_pos hk
    · subst hx
      rw [execWaitExpiry_of hp h hst hle]
      unfold expireWait
      refine ⟨fun hq => by rw [if_pos hq], fun hq ha => ?_, fun hq ha => ?_⟩
      · rw [if_neg (by rw [hq]; exact Bool.false_ne_true), ha]
      · rw [if_neg (by rw [hq]; exact Bool.false_ne_true), ha]
  · refine ⟨fun q => ?_, completeAndGoOn_ringEmpty, fun d l hne hr => completeAndGoOn_span hs hne hr⟩
    obtain ⟨hst, hat⟩ := completeAndGoOn_stamps (c := c) hs hpos q
    exact ⟨hat, fun x => ⟨hst.record x, hst.report x⟩⟩
  · intro s c k e hdue halone hfollows hrun hplay hpath hc now r x d passes path
    have h : s.PlaysAt c k e := ⟨hdue, halone, hfollows, hrun, hplay, hpath⟩
    have hev : (s.beating k e c).evaluated c now = r := beating_evaluated hc k e now
    obtain ⟨t, ht, hdrive, hengine, hport, hboard⟩ := subBeat_plays h
    rw [hev] at hengine hport hboard
    obtain ⟨-, -, -, -, -, -, -, -, hsame⟩ := s.beating_same k e c
    refine ⟨t, ht, hengine, by rw [hport], fun q => ?_, fun hr => ?_, fun hr hp => ?_, fun f hr hp => ?_, fun pos hended hpos => ?_⟩
    · rw [State.cueSet, hboard, consumeCues, hsame hc]
      exact foldl_clearCue_isSet _ _ _
    · exact playPath_stands h (hev.trans (Prod.ext rfl hr)) t hdrive
    · exact hdrive.trans (playPath_ends h (hev.trans (Prod.ext rfl hr)) hp.1 hp.2)
    · exact hdrive.trans (playPath_faults h (hev.trans (Prod.ext rfl hr)) hp.1 hp.2)
    · rw [hengine]
      exact (playEval_completes hc hended hpos).symm

end Sys2Proof.Machine
end

