-- ==== Sys2Proof/Proofs/AcceptedPulse.lean ====
section
/-! The pulse accepted in LOCKED (R64, R67, R69, R72, R122): the take record and the ended open window it leaves. -/

set_option Elab.async false

namespace Sys2Proof.Machine

variable {s : State}

/-! ## The take record at a pulse -/

/-- What follows sub-beat N leaves the take record to the followers, TF and the mark of the frame. -/
theorem afterBeats_take (locking rolled : Bool) (tag : Nat) (s : State) :
    (afterBeats locking rolled tag s).take = (markTakeFrame (if rolled then eachChannel (followerPulse tag) s
      else riseTF (eachChannel (followerPulse tag) s))).take := by
  have hclose (t : State) : (closeCues t).take = t.take := rfl
  have hrise (t : State) : (riseTF (closeCues t)).take = (riseTF t).take := by
    unfold riseTF
    rw [hclose]
    split <;> rfl
  unfold afterBeats
  dsimp only
  obtain ⟨-, -, -, -, hcap, -⟩ := capturePulse_frame (lastFrameFault (markTakeFrame
    (if rolled then (if locking then eachChannel (followerPulse tag) s else closeCues (eachChannel (followerPulse tag) s))
      else riseTF (if locking then eachChannel (followerPulse tag) s
        else closeCues (eachChannel (followerPulse tag) s)))))
  obtain ⟨-, -, -, -, hlast, -⟩ := lastFrameFault_frame (markTakeFrame
    (if rolled then (if locking then eachChannel (followerPulse tag) s else closeCues (eachChannel (followerPulse tag) s))
      else riseTF (if locking then eachChannel (followerPulse tag) s
        else closeCues (eachChannel (followerPulse tag) s))))
  rw [hcap, hlast, markTakeFrame_take, markTakeFrame_take]
  cases rolled <;> cases locking <;> simp only [Bool.false_eq_true, if_false, if_true, hrise, hclose]

/-- The state as the catch-up sub-beats and the latch leave it at a pulse at `e` after interval `d` (R18, R69, log 13). -/
def State.latchedAt (s : State) (e d : Nat) : State :=
  beforeBeatN e { s with timer := { s.timer with period := some d } }

/-- What a pulse does, in order, from the latch on. -/
theorem framePulse_eq (locking : Bool) (e d : Nat) (s : State) :
    framePulse locking e d s = (layOutWindow (keepUnbegun (beginFrame e d (afterBeats locking (s.latchedAt e d).rolls
      (s.latchedAt e d).timer.tag (beatN locking (s.latchedAt e d).rolls e (s.latchedAt e d)))))).withEnded
        (s.endedWindow e) := rfl

theorem latchedAt_runs (s : State) (e d : Nat) : RunsOn s (s.latchedAt e d) :=
  RunsOn.trans (t := { s with timer := { s.timer with period := some d } }) (RunsOn.of_take rfl) (beforeBeatN_runs e _)

/-- The take record after a pulse that is not the roll: that of the followers' turn, TF risen, the frame marked. -/
theorem framePulse_take {e d : Nat} (hroll : (s.latchedAt e d).rolls = false) :
    (framePulse false e d s).take = (markTakeFrame (riseTF (eachChannel (followerPulse (s.latchedAt e d).timer.tag)
      (beatN false false e (s.latchedAt e d))))).take := by
  rw [framePulse_eq, hroll, State.withEnded_take]
  simp only [layOutWindow_frame]
  rw [keepUnbegun_take]
  simp only [beginFrame_frame]
  rw [afterBeats_take, if_neg Bool.false_ne_true]

/-- A pulse that ends a frame and is not the roll issues sub-beat N after the countdown (R69, R122). -/
theorem beatN_eq (e : Nat) (u : State) :
    beatN false false e u =
      issueBeat e (countDown u).subBeats ((countDown u).takeSubBeat (countDown u).subBeats) false (countDown u) := by
  unfold beatN
  simp only [Bool.false_eq_true, if_false]

/-- Sub-beat N and the followers' turn run the take on from the countdown. -/
theorem beatN_runs (e tag : Nat) (u : State) :
    RunsOn (countDown u) (eachChannel (followerPulse tag) (beatN false false e u)) := by
  rw [beatN_eq]
  exact RunsOn.trans (issueBeat_runs _ _ _ _ _) (eachFollower_runs tag _)

/-- TF rises in ROLLING and FINISHED (R72). -/
theorem riseTF_playing (h : s.take.state = .rolling ∨ s.take.state = .finished) :
    (riseTF s).take = { s.take with tf := min (s.take.tf + 1) Config.lastTakeFrame } := by
  unfold riseTF
  rcases h with h | h <;> rw [h]

theorem riseTF_countdown (h : s.take.state = .countdown) : (riseTF s).take = s.take := by
  unfold riseTF
  rw [h]

/-- A pulse in ROLLING and FINISHED: TF rises by one, to its greatest value (R72). -/
theorem framePulse_playing {e d : Nat} (hs : s.take.state = .rolling ∨ s.take.state = .finished) :
    ((framePulse false e d s).take.state = .rolling ∨ (framePulse false e d s).take.state = .finished) ∧
      (framePulse false e d s).take.tf = min (s.take.tf + 1) Config.lastTakeFrame := by
  have hsu := latchedAt_runs s e d
  have htake := framePulse_take (s := s) (e := e) (d := d)
  generalize s.latchedAt e d = u at hsu htake
  have hcount : u.take.state ≠ .countdown := by
    rcases (hsu.playing hs).1 with h | h <;> rw [h] <;> decide
  have hroll : u.rolls = false := by
    rw [State.rolls, decide_eq_false hcount]
    rfl
  have huv := beatN_runs e u.timer.tag u
  rw [countDown, if_neg hcount] at huv
  generalize eachChannel (followerPulse u.timer.tag) (beatN false false e u) = v at htake huv
  obtain ⟨hst, htf⟩ := (hsu.trans huv).playing hs
  rw [htake hroll, markTakeFrame_take, riseTF_playing hst, ← htf]
  exact ⟨hst, rfl⟩

/-- A countdown with frames left goes on: the latch of a pulse leaves it so. -/
theorem RunsOn.countdown {t : State} (h : RunsOn s t) (hs : s.take.state = .countdown) :
    t.take = { s.take with latest := t.take.latest } := by
  obtain ⟨ht, hst⟩ := h (by rw [hs]; rfl)
  have hst : t.take.state = s.take.state := by
    rcases hst with hst | ⟨hst, -⟩
    · exact hst
    · rw [hs] at hst
      cases hst
  rw [hst] at ht
  exact ht

/-- A countdown with frames left falls by one (R122). -/
theorem framePulse_countdown {e d : Nat} (hs : s.take.state = .countdown) (hr : 1 < s.take.remaining) :
    (framePulse false e d s).take.state = .countdown ∧
      (framePulse false e d s).take.remaining = s.take.remaining - 1 ∧ (framePulse false e d s).take.tf = s.take.tf := by
  have hut := (latchedAt_runs s e d).countdown hs
  have htake := framePulse_take (s := s) (e := e) (d := d)
  generalize s.latchedAt e d = u at hut htake
  have hust : u.take.state = .countdown := by rw [hut, hs]
  have hrem : u.take.remaining = s.take.remaining := by rw [hut]
  have hroll : u.rolls = false := by
    rw [State.rolls, hrem, decide_eq_false (Nat.not_le.mpr hr), Bool.and_false]
  have hcd : countDown u = { u with take := { u.take with remaining := u.take.remaining - 1 } } := by
    unfold countDown
    rw [if_pos hust]
    exact if_neg (show u.take.remaining - 1 ≠ 0 by omega)
  have hwv := beatN_runs e u.timer.tag u
  rw [hcd] at hwv
  generalize eachChannel (followerPulse u.timer.tag) (beatN false false e u) = v at htake hwv
  have hvt := hwv.countdown hust
  have hvst : v.take.state = .countdown := by rw [hvt, hust]
  rw [htake hroll, markTakeFrame_take, riseTF_countdown hvst]
  refine ⟨hvst, ?_, ?_⟩
  · rw [hvt, hrem]
  · rw [hvt, hut]

/-! ## The ended open window (log 44) -/

/-- The open window that a pulse at `e` ends, of the frame begun at `q` with period `p`, while `x` is the turn that stands. -/
def windowEnded (q p e : Nat) (x : Option EndedTurn) : EndedWindow :=
  { opens := (q + 840) * 16, closes := min ((q + p - 200) * 16) (e * 16), turn := x }

theorem endedWindow_none {e : Nat} (hw : s.port.window = .none) : s.endedWindow e = none := by
  unfold State.endedWindow
  split
  · simp only [hw]
  · rfl

/-- Outside a turn the window ended with none standing. -/
theorem endedWindow_between {q p e : Nat} (hq : s.timer.lastPulse = some q) (hp : s.timer.period = some p)
    (hw : s.port.window = .slots ∨ s.port.window = .silence) : s.endedWindow e = some (windowEnded q p e none) := by
  unfold State.endedWindow State.guardAt windowEnded
  rcases hw with hw | hw <;>
    simp only [hq, hp, hw, Config.roundCloseAt, Config.guardLength, Config.tick]

/-- In a turn the window ended with that turn standing, its holder by the tag before the pulse. -/
theorem endedWindow_turn {q p e i began idle : Nat} (hq : s.timer.lastPulse = some q) (hp : s.timer.period = some p)
    (hw : s.port.window = .turn i began idle) :
    s.endedWindow e = some (windowEnded q p e (some { holder := (s.timer.tag + i) % 16, began := began })) := by
  unfold State.endedWindow State.guardAt windowEnded State.holder
  simp only [hq, hp, hw, Config.roundCloseAt, Config.guardLength, Config.tick]

/-- Settles O9: the take record and the port as the pulse leaves them; the order of its work is that of `framePulse`. -/
theorem pulseAcceptedWhileLocked : Obligations.PulseAcceptedWhileLocked := by
  intro s time e q ha he hq
  have hexec : exec (.frameEdge time false true) s = .next (framePulse false e (e - q) (s.atTime time)) := by
    rw [he]
    exact congrArg Host.Outcome.next (risingEdge_accepted ha hq)
  have hended : (framePulse false e (e - q) (s.atTime time)).port.ended = (s.atTime time).endedWindow e := rfl
  refine ⟨⟨_, hexec, framePulse_timer e (e - q) (s.atTime time), framePulse_playing (s := s.atTime time),
    framePulse_countdown (s := s.atTime time), fun hw => ?_, fun p' hp' => ⟨fun hw => ?_, fun i began idle hw => ?_⟩⟩, hexec⟩
  · exact hended.trans (endedWindow_none (s := s.atTime time) hw)
  · exact hended.trans (endedWindow_between (s := s.atTime time) hq hp' hw)
  · exact hended.trans (endedWindow_turn (s := s.atTime time) hq hp' hw)

end Sys2Proof.Machine
end

