-- ==== Sys2Proof/Proofs/TrafficAdmitted.lean ====
section
/-! What the port admits, and what a message that meets no owner leaves (R78, R79, R82, R84, R86; logs 43, 44). -/

set_option Elab.async false

namespace Sys2Proof.Machine

variable {s : State} {a : Activity}

/-! ## The outcome list (R86) -/

theorem addOutcome_room (station seq : Nat) (r : Result) (h : s.port.outcomes.length < 4) :
    addOutcome station seq r s = { s with port := { s.port with
      outcomes := s.port.outcomes ++ [{ station := station, seq := seq, result := r }] } } := if_pos h

theorem addOutcome_full (station seq : Nat) (r : Result) (h : 4 ≤ s.port.outcomes.length) :
    addOutcome station seq r s = { s with port := { s.port with overflow := true, lateOverflow := true } } :=
  if_neg (Nat.not_lt.mpr h)

/-! ## What arrives in the slots (log 44) -/

theorem EndedWindow.has_iff (w : EndedWindow) (t : Nat) : w.has t = true ↔ w.opens ≤ t ∧ t < w.closes := by
  rw [EndedWindow.has, Bool.and_eq_true, decide_eq_true_iff, decide_eq_true_iff]

/-- In the slots: valid when begun in its sender's turn before the pulse, else a bus error when begun in the window that the
pulse ended, else dropped. -/
theorem admission_inSlots (hj : s.port.join = .joined) (hw : s.port.window = .slots) :
    s.admission a = if s.beganInEndedTurn a ∧ isSound a = true then .valid
      else if s.beganInEnded a then .failed else .dropped := by
  unfold State.admission
  rw [if_pos hj, hw]

theorem beganInEnded_none (h : s.port.ended = none) : s.beganInEnded a = false := by
  rw [State.beganInEnded, h]
  rfl

theorem beganInEnded_of {w : EndedWindow} (h : s.port.ended = some w) : s.beganInEnded a = w.has a.began := by
  rw [State.beganInEnded, h]
  rfl

/-- Begun in the turn that stood, by its holder. -/
theorem beganInEndedTurn_holder {w : EndedWindow} {x : EndedTurn} (h : s.port.ended = some w) (hw : w.has a.began = true)
    (hx : w.turn = some x) (hb : x.began ≤ a.began) (hs : senderOf a.bytes = x.holder) : s.beganInEndedTurn a = true := by
  simp [State.beganInEndedTurn, h, hw, hx, hb, hs]

theorem beganInEndedTurn_none {w : EndedWindow} (h : s.port.ended = some w) (hx : w.turn = none) :
    s.beganInEndedTurn a = false := by
  simp [State.beganInEndedTurn, h, hx]

/-! ## Outside JOINED (log 43) -/

theorem takesCue_iff : s.takesCue a = true ↔
    s.timer.state ≠ .locked ∧ s.port.join ≠ .duplicate ∧ a.bears 0x18 = true ∧ isSound a = true := by
  simp only [State.takesCue, Bool.and_eq_true, decide_eq_true_iff, and_assoc]

/-- A CUE that R18 takes before the station has JOINED. -/
theorem admission_takesCue (hj : s.port.join ≠ .joined) (ht : s.takesCue a = true) : s.admission a = .valid := by
  rw [State.admission_unjoined hj, if_pos ht]

/-! ## A valid message handed on -/

theorem receiveKind_valid {k : Nat} (act : Arrival → State → State) (hk : a.bears k = true) (hv : s.admission a = .valid) :
    receiveKind k a act s = act (arrivalOf a) (s.heard a) := by
  unfold receiveKind receive
  rw [if_pos hk, hv]

/-- A request sent to ALL is turned away (R84). -/
theorem addressed_all (f : Arrival → State → Settled) {m : Arrival} (h : m.target = none) :
    addressed f m s = addOutcome m.sender m.seq .refusedRange s := by
  unfold addressed
  rw [h]

/-- Settles O28. -/
theorem outcomesAndUnroutedTraffic : Obligations.OutcomesAndUnroutedTraffic := by
  refine ⟨fun s station seq r => ⟨addOutcome_room station seq r, fun h => ?_⟩, fun s a =>
    ⟨fun hj => ⟨fun h => ?_, fun h1 h2 h3 h4 => admission_takesCue hj (takesCue_iff.mpr ⟨h1, h2, h3, h4⟩)⟩,
      fun hj hw => ⟨fun he => State.admission_slots hj hw (beganInEnded_none he), fun w he => ⟨fun hout => ?_, fun h1 h2 =>
        ⟨fun x hx hb hs hsend => ?_, fun hx => ?_⟩⟩⟩, fun hk hd => ?_, fun n hk hv ht hn => ?_, fun hk hv ht => ?_⟩⟩
  · rw [addOutcome_full station seq r h]
    exact ⟨rfl, rfl, rfl, rfl⟩
  · rw [State.admission_unjoined hj, if_neg]
    intro ht
    obtain ⟨h1, h2, h3, h4⟩ := takesCue_iff.mp ht
    simp_all
  · refine State.admission_slots hj hw ?_
    rw [beganInEnded_of he, Bool.eq_false_iff, ne_eq, EndedWindow.has_iff]
    omega
  · have hin := (w.has_iff a.began).mpr ⟨h1, h2⟩
    rw [admission_inSlots hj hw, if_pos ⟨beganInEndedTurn_holder he hin hx hb hsend, hs⟩]
  · have hin := (w.has_iff a.began).mpr ⟨h1, h2⟩
    rw [admission_inSlots hj hw, if_neg (by rw [beganInEndedTurn_none he hx]; exact fun h => Bool.false_ne_true h.1),
      if_pos ((beganInEnded_of he).trans hin)]
  · exact congrArg Host.Outcome.next (receiveKind_dropped _ hk hd)
  · exact congrArg Host.Outcome.next (receiveKind_elsewhere _ hk hv ht hn)
  · exact congrArg Host.Outcome.next ((receiveKind_valid _ hk hv).trans (addressed_all _ ht))

end Sys2Proof.Machine
end

