-- ==== Sys2Proof/Proofs/CuesPendAndLatch.lean ====
section
/-! CUE numbers pend, and are latched at a pulse (R18, R84, R90): the pending set and the entries, what a sub-beat leaves of the
board, and the station none of whose paths can examine a wait. -/

set_option Elab.async false

namespace Sys2Proof.Machine

variable {s t u : State} {c : Chan} {a : Activity}

/-! ## The pending set -/

theorem mem_addCue {l : List Nat} {q x : Nat} : x ∈ addCue l q ↔ x ∈ l ∨ x = q := by
  unfold addCue
  split
  · rename_i h
    have hq : q ∈ l := List.contains_iff_mem.mp h
    constructor
    · exact .inl
    · rintro (hx | rfl)
      · exact hx
      · exact hq
  · rw [List.mem_append, List.mem_singleton]

theorem mem_foldl_addCue {x : Nat} (l : List Nat) : ∀ {p : List Nat}, x ∈ l.foldl addCue p ↔ x ∈ p ∨ x ∈ l := by
  induction l with
  | nil => simp
  | cons q qs ih =>
    intro p
    rw [List.foldl_cons, ih, mem_addCue, List.mem_cons, or_assoc]

theorem nodup_addCue {l : List Nat} (h : l.Nodup) (q : Nat) : (addCue l q).Nodup := by
  unfold addCue
  split
  · exact h
  · rename_i hq
    have hq : q ∉ l := fun hm => hq (List.contains_iff_mem.mpr hm)
    exact List.Nodup.append h (List.nodup_singleton q) (by simpa using hq)

theorem nodup_foldl_addCue (l : List Nat) : ∀ {p : List Nat}, p.Nodup → (l.foldl addCue p).Nodup := by
  induction l with
  | nil => exact id
  | cons q qs ih => exact fun h => ih (nodup_addCue h q)

/-- The numbers of a CUE that pend: those of its payload below 64. -/
theorem mem_pendCues {p : List Byte} {x : Nat} :
    x ∈ (pendCues ((p.map BitVec.toNat).filter (· < 64)) s).board.pending ↔
      x ∈ s.board.pending ∨ (x < 64 ∧ ∃ y ∈ p, y.toNat = x) := by
  unfold pendCues
  rw [mem_foldl_addCue]
  simp only [List.mem_filter, List.mem_map, decide_eq_true_iff]
  tauto

/-- A CUE to ALL of one to four numbers: they join the pending set. -/
theorem settleCue_all {m : Arrival} (ht : m.target = none) (h1 : 1 ≤ m.payload.length) (h4 : m.payload.length ≤ 4) :
    settleCue m s = pendCues ((m.payload.map BitVec.toNat).filter (· < 64)) s := by
  unfold settleCue readCues
  rw [ht, if_pos ⟨h1, h4⟩]

/-- A CUE to one station is dropped (R84). -/
theorem settleCue_one {m : Arrival} {n : Nat} (ht : m.target = some n) : settleCue m s = s := by
  unfold settleCue
  rw [ht]

/-- A CUE that the port takes. -/
theorem execCue_all (hk : a.bears 0x18 = true) (hv : s.admission a = .valid) (ht : (arrivalOf a).target = none)
    (h1 : 1 ≤ (arrivalOf a).payload.length) (h4 : (arrivalOf a).payload.length ≤ 4) :
    exec (.cue a) s = .next (pendCues (((arrivalOf a).payload.map BitVec.toNat).filter (· < 64)) (s.heard a)) :=
  congrArg Host.Outcome.next ((receiveKind_valid _ hk hv).trans (settleCue_all ht h1 h4))

/-! ## The latch (R18) -/

theorem latchCue_length (g : Nat) (es : List CueEntry) (q : Nat) : (latchCue g es q).length = es.length := by
  unfold latchCue
  split
  · rfl
  · exact List.length_set

/-- One cue latched: its entry is set with the pulse's tag unless it is set already; every other entry stands. -/
theorem latchCue_getD (g q x : Nat) {es : List CueEntry} (hx : x < es.length) :
    (latchCue g es q).getD x { isSet := false, tag := 0 } =
      if x = q ∧ (es.getD x { isSet := false, tag := 0 }).isSet = false then { isSet := true, tag := g }
      else es.getD x { isSet := false, tag := 0 } := by
  have hd (y : CueEntry) : es.getD x y = es[x] := List.getD_eq_getElem es y hx
  unfold latchCue
  by_cases hq : x = q
  · subst hq
    rw [hd, hd]
    by_cases hs : es[x].isSet = true
    · rw [if_pos hs, if_neg (by simp [hs]), hd]
    · rw [if_neg hs, if_pos ⟨rfl, Bool.eq_false_iff.mpr hs⟩, List.getD_eq_getElem _ _ (by rwa [List.length_set]),
        List.getElem_set_self]
  · have hn : ¬ (x = q ∧ (es.getD x { isSet := false, tag := 0 }).isSet = false) := fun h => hq h.1
    rw [if_neg hn]
    split
    · rfl
    · rw [List.getD_eq_getElem _ _ (by rwa [List.length_set]), List.getElem_set_ne (Ne.symm hq), hd]

/-- The entries after a latch: those of the pending set that were not set carry the pulse's tag, the others stand. -/
theorem foldl_latchCue_getD (g x : Nat) (l : List Nat) : ∀ {es : List CueEntry}, x < es.length →
    (l.foldl (latchCue g) es).getD x { isSet := false, tag := 0 } =
      if x ∈ l ∧ (es.getD x { isSet := false, tag := 0 }).isSet = false then { isSet := true, tag := g }
      else es.getD x { isSet := false, tag := 0 } := by
  induction l with
  | nil => simp
  | cons q qs ih =>
    intro es hx
    rw [List.foldl_cons, ih (by rwa [latchCue_length]), latchCue_getD g q x hx]
    simp only [List.mem_cons]
    generalize es.getD x { isSet := false, tag := 0 } = e
    by_cases hs : e.isSet = false
    · by_cases hq : x = q
      · simp [hq, hs]
      · simp [hq]
    · simp [hs]

theorem latchPending_getD {g q : Nat} (hq : q < 64) (hl : s.board.entries.length = 64) :
    (latchPending g s).board.entries.getD q { isSet := false, tag := 0 } =
      if q ∈ s.board.pending ∧ (s.board.entries.getD q { isSet := false, tag := 0 }).isSet = false then
        { isSet := true, tag := g }
      else s.board.entries.getD q { isSet := false, tag := 0 } := foldl_latchCue_getD g q _ (by rwa [hl])

/-! ## What a sub-beat leaves of the pending set -/

theorem playPath_pending (c : Chan) (now t : Nat) (first : Bool) (s : State) :
    (playPath c now t first s).board.pending = s.board.pending := by
  obtain ⟨-, -, hb⟩ := playPath_leaves c now t first s
  rw [hb]

theorem stateBeat_pending (c : Chan) (now : Nat) (t : Option Nat) (k : Nat) (first : Bool) (s : State) :
    (stateBeat c now t k first s).board.pending = s.board.pending := by
  unfold stateBeat
  split
  any_goals simp
  · split <;> simp
  · split <;> simp
  · split
    · unfold playBeat
      split
      · exact playPath_pending _ _ _ _ _
      all_goals simp
    · simp

theorem driveBeat_pending (now : Nat) (t : Option Nat) (k : Nat) (first : Bool) (c : Chan) (s : State) :
    (driveBeat now t k first c s).board.pending = s.board.pending := by
  unfold driveBeat
  split
  · rw [stateBeat_pending]
    simp
  · rfl

theorem issueBeat_pending (e k : Nat) (t : Option Nat) (first : Bool) (s : State) :
    (issueBeat e k t first s).board.pending = s.board.pending := by
  have hc (s : State) : (consumeCues s).board.pending = s.board.pending := rfl
  unfold issueBeat
  simp only [samplerTrigger_frame, checkFinished_frame, hc]
  rw [eachChannel_same (fun s => s.board.pending) _ (fun c s => driveBeat_pending _ _ _ _ c s)]
  simp [hc]

theorem beatN_pending (locking rolled : Bool) (e : Nat) (s : State) :
    (beatN locking rolled e s).board.pending = s.board.pending := by
  unfold beatN
  dsimp only
  split
  · simp
  · rw [issueBeat_pending]
    simp

/-- What a pulse does with the board after the latch is sub-beat N. -/
theorem framePulse_board (locking : Bool) (e d : Nat) (s : State) :
    (framePulse locking e d s).board =
      (beatN locking (s.latchedAt e d).rolls e (s.latchedAt e d)).board := by
  rw [framePulse_eq, State.withEnded_board]
  simp only [layOutWindow_frame, keepUnbegun_board, beginFrame_frame, afterBeats_frame]

/-- Every pulse leaves the pending set empty. -/
theorem framePulse_pending (locking : Bool) (e d : Nat) (s : State) : (framePulse locking e d s).board.pending = [] := by
  rw [framePulse_board, beatN_pending]
  rfl

/-! ## A station none of whose paths examines a wait -/

/-- The drive plays no path, and is neither READY nor SEEKING to play one. -/
def Drive.Quiet (d : Drive) : Prop :=
  d.source = some .path → d.state ≠ .playing ∧ d.state ≠ .ready ∧ d.state ≠ .seeking

/-- No path of the station can examine a wait, and no cue waits to be consumed. -/
structure State.Calm (s : State) : Prop where
  drives : ∀ c, (s.drive c).Quiet
  consumed : s.board.consumed = []

/-- From a calm station the operation leaves a calm one, with its board as it stood. -/
def KeepsCalm (s t : State) : Prop := s.Calm → t.Calm ∧ t.board = s.board

theorem KeepsCalm.refl (s : State) : KeepsCalm s s := fun h => ⟨h, rfl⟩

theorem KeepsCalm.trans (h : KeepsCalm s t) (k : KeepsCalm t u) : KeepsCalm s u := by
  intro hs
  obtain ⟨ht, hbt⟩ := h hs
  obtain ⟨hu, hbu⟩ := k ht
  exact ⟨hu, hbu.trans hbt⟩

/-- An operation that leaves the board, and every quiet drive quiet. -/
theorem KeepsCalm.of_drives (hb : t.board = s.board) (hd : ∀ c, (s.drive c).Quiet → (t.drive c).Quiet) : KeepsCalm s t :=
  fun h => ⟨⟨fun c => hd c (h.drives c), by rw [hb]; exact h.consumed⟩, hb⟩

theorem KeepsCalm.of_channels (hc : t.channels = s.channels) (hb : t.board = s.board) : KeepsCalm s t :=
  .of_drives hb fun c h => by rwa [State.drive_def, hc, ← State.drive_def]

theorem KeepsCalm.setDrive {d : Drive} (h : (s.drive c).Quiet → d.Quiet) : KeepsCalm s (s.setDrive c d) := by
  refine .of_drives rfl fun b hb => ?_
  by_cases hbc : b = c
  · subst hbc
    rw [State.drive_setDrive]
    exact h hb
  · rwa [State.drive_setDrive_ne _ _ _ _ hbc]

theorem KeepsCalm.each {f : Chan → State → State} (h : ∀ c s, KeepsCalm s (f c s)) (s : State) :
    KeepsCalm s (eachChannel f s) := (((h 0 _).trans (h 1 _)).trans (h 2 _)).trans (h 3 _)

/-- A drive with the state and the source of a quiet one. -/
theorem Drive.Quiet.same {d e : Drive} (hst : e.state = d.state) (hsrc : e.source = d.source) (h : d.Quiet) : e.Quiet := by
  unfold Drive.Quiet
  rw [hst, hsrc]
  exact h

/-- A drive stopped, faulted, parked or done is quiet whatever its source. -/
theorem Drive.Quiet.of_state {d : Drive} {st : ChanState} (h : d.state = st)
    (hst : st ≠ .playing ∧ st ≠ .ready ∧ st ≠ .seeking) : d.Quiet := fun _ => h ▸ hst

theorem Drive.Quiet.of_source {d : Drive} (h : d.source ≠ some .path) : d.Quiet := fun k => absurd k h

theorem Drive.quiet_enterStop (d : Drive) : d.enterStop.Quiet := by
  unfold Drive.enterStop
  dsimp only
  split
  · exact .of_state (st := .stopped) rfl (by decide)
  · exact .of_state (st := .stopping) rfl (by decide)

theorem Drive.issue_source (t i : Nat) (x : Int) (d : Drive) : (d.issue t i x).source = d.source := by
  unfold Drive.issue Drive.setDir Drive.holdDir
  dsimp only
  (repeat' split) <;> rfl

/-- A drive whose state and source are kept, and then an operation that keeps the station calm. -/
theorem KeepsCalm.of_setDrive_same {d : Drive} (h : KeepsCalm (s.setDrive c d) t) (hst : d.state = (s.drive c).state)
    (hsrc : d.source = (s.drive c).source) : KeepsCalm s t :=
  .trans (.setDrive fun hq => hq.same hst hsrc) h

theorem checkRest_calm (s : State) : KeepsCalm s (checkRest s) := by
  refine .of_drives (by simp) fun c hq => ?_
  rcases checkRest_drive s c with h | ⟨-, h⟩ | ⟨-, -, -, h | h⟩
  · rwa [h]
  · rw [h]
    exact .of_source (fun h => nomatch h)
  · rw [h]
    exact .of_state (st := .parked) rfl (by decide)
  · rw [h]
    exact .of_source (fun h => nomatch h)

theorem raiseCause_calm (cause : Cause) (o : Option Nat) (k : Option FaultKind) (s : State) :
    KeepsCalm s (raiseCause cause o k s) :=
  .of_channels (raiseCause_channels _ _ _ _) (by simp)

theorem hardFault_calm (c : Chan) (k : FaultKind) (s : State) : KeepsCalm s (hardFault c k s) := by
  unfold hardFault
  split
  · dsimp only
    refine KeepsCalm.trans ?_ (.of_channels (samplerSettle_channels _) (by simp))
    refine KeepsCalm.trans ?_ (checkRest_calm _)
    have hd : KeepsCalm s (s.setDrive c (((s.drive c).holdDir s.clock).hardFault k)) :=
      .setDrive fun _ => .of_state (st := .faulted) rfl (by decide)
    have hr := hd.trans (raiseCause_calm .channelFault (some c.val) (some k) _)
    split
    · exact hr.trans (.of_channels rfl rfl)
    · exact hr
  · exact .refl s

theorem softFault_calm (c : Chan) (k : FaultKind) (s : State) : KeepsCalm s (softFault c k s) := by
  unfold softFault
  dsimp only
  refine KeepsCalm.trans (KeepsCalm.trans (.setDrive fun hq => ?_) (raiseCause_calm _ _ _ _)) (checkRest_calm _)
  split
  · exact hq.same rfl rfl
  · exact Drive.quiet_enterStop _

theorem faults_calm (c : Chan) (f : FaultKind) (s : State) :
    KeepsCalm s (if f.isHard then hardFault c f s else softFault c f s) := by
  split
  · exact hardFault_calm c f s
  · exact softFault_calm c f s

theorem issueSetPoint_calm (c : Chan) (now : Nat) (x : Int) (s : State) : KeepsCalm s (issueSetPoint c now x s) := by
  have hd : KeepsCalm s (s.setDrive c ((s.drive c).issue now s.interval x)) :=
    .setDrive fun hq => hq.same (Drive.issue_same _ _ _ _).2.2.1 (Drive.issue_source _ _ _ _)
  unfold issueSetPoint
  dsimp only
  split
  · exact hd.trans (hardFault_calm _ _ _)
  · exact hd

theorem monitor_calm (c : Chan) (s : State) : KeepsCalm s (monitor c s) := by
  unfold monitor faultOnFollow
  split
  · split
    · exact .of_setDrive_same (hardFault_calm _ _ _) rfl rfl
    · exact .setDrive fun hq => hq.same rfl rfl
  · exact .setDrive fun hq => hq.same rfl rfl
  · exact .refl s

theorem playSetPoint_calm (c : Chan) (now t : Nat) (x : Int) (s : State) : KeepsCalm s (playSetPoint c now t x s) := by
  unfold playSetPoint
  split
  · exact faults_calm _ _ _
  · exact .of_setDrive_same (issueSetPoint_calm _ _ _ _) rfl rfl

theorem stopStep_calm (c : Chan) (now : Nat) (k : Stop) (s : State) : KeepsCalm s (stopStep c now k s) := by
  unfold stopStep
  dsimp only
  split
  · exact KeepsCalm.trans (.setDrive fun _ => .of_state (st := .stopped) rfl (by decide)) (checkRest_calm _)
  · split
    · exact .of_setDrive_same (faults_calm _ _ _) rfl rfl
    · exact .of_setDrive_same (issueSetPoint_calm _ _ _ _) rfl rfl

/-- A seeking channel that becomes READY was quiet, so it does not play a path. -/
theorem becomeReady_calm (h : (s.drive c).state = .seeking) : KeepsCalm s (becomeReady c s) :=
  .setDrive fun hq => .of_source fun hp => (hq hp).2.2 h

theorem seekStep_calm (c : Chan) (now : Nat) (k : Seek) (s : State) : KeepsCalm s (seekStep c now k s) := by
  unfold seekStep
  dsimp only
  split
  · exact faults_calm _ _ _
  · split
    · rename_i h
      refine KeepsCalm.trans (KeepsCalm.trans ?_ (becomeReady_calm h.1))
        (.of_channels (checkArmed_channels _) (by simp))
      exact .of_setDrive_same (issueSetPoint_calm _ _ _ _) rfl rfl
    · exact .of_setDrive_same (issueSetPoint_calm _ _ _ _) rfl rfl

theorem stateBeat_calm (c : Chan) (now : Nat) (t : Option Nat) (k : Nat) (first : Bool) (s : State) :
    KeepsCalm s (stateBeat c now t k first s) := by
  unfold stateBeat
  split
  case h_1 | h_2 => exact .refl s
  case h_3 | h_4 | h_5 | h_6 => exact issueSetPoint_calm _ _ _ _
  case h_7 =>
    split
    · exact seekStep_calm _ _ _ _
    · exact issueSetPoint_calm _ _ _ _
  case h_8 =>
    split
    · exact stopStep_calm _ _ _ _
    · exact .refl s
  case h_9 hplay =>
    split
    · unfold playBeat
      split
      · rename_i hpath
        exact fun h => absurd hplay (h.drives c hpath).1
      · exact playSetPoint_calm _ _ _ _ _
      · exact playSetPoint_calm _ _ _ _ _
      · exact issueSetPoint_calm _ _ _ _
    · exact issueSetPoint_calm _ _ _ _

theorem driveBeat_calm (now : Nat) (t : Option Nat) (k : Nat) (first : Bool) (c : Chan) (s : State) :
    KeepsCalm s (driveBeat now t k first c s) := by
  unfold driveBeat
  split
  · exact (monitor_calm _ _).trans (stateBeat_calm _ _ _ _ _ _)
  · exact .refl s

/-- Nothing to consume. -/
theorem consumeCues_calm (s : State) : KeepsCalm s (consumeCues s) := by
  intro h
  have hb : (consumeCues s).board = s.board := by
    unfold consumeCues
    rw [h.consumed, List.foldl_nil, ← h.consumed]
  exact KeepsCalm.of_channels (t := consumeCues s) rfl hb h

theorem issueBeat_calm (e k : Nat) (t : Option Nat) (first : Bool) (s : State) : KeepsCalm s (issueBeat e k t first s) := by
  have h0 : KeepsCalm s (noteTakeSubBeat t { s with timer := { s.timer with latest := some e } }) := by
    cases t <;> exact .of_channels rfl rfl
  unfold issueBeat
  dsimp only
  refine KeepsCalm.trans ?_ (.of_channels (samplerTrigger_channels _ _) (by simp))
  refine KeepsCalm.trans ?_ (.of_channels (checkFinished_channels _) (by simp))
  refine KeepsCalm.trans ?_ (consumeCues_calm _)
  exact (h0.trans (consumeCues_calm _)).trans (.each (fun c s => driveBeat_calm _ _ _ _ c s) _)

theorem foldl_calm {α : Type} {f : State → α → State} (h : ∀ s x, KeepsCalm s (f s x)) (l : List α) (s : State) :
    KeepsCalm s (l.foldl f s) := by
  induction l generalizing s with
  | nil => exact .refl s
  | cons x xs ih => exact (h s x).trans (ih _)

theorem catchUp_calm (e : Nat) (s : State) : KeepsCalm s (catchUp e s) := by
  unfold catchUp
  split
  · exact KeepsCalm.trans (foldl_calm (fun s j => issueBeat_calm e j _ false s) _ s) (.of_channels rfl rfl)
  · exact .refl s

theorem rollChannel_calm (c : Chan) (s : State) : KeepsCalm s (rollChannel c s) := by
  unfold rollChannel
  split
  · refine .setDrive fun hq => ?_
    unfold Drive.rolled
    dsimp only
    split
    · rename_i hr
      exact .of_source fun hp => (hq hp).2.1 hr
    · exact hq.same rfl rfl
  · exact .refl s

theorem countDown_calm (s : State) : KeepsCalm s (countDown s) := by
  have hroll (s : State) : KeepsCalm s (rollStart s) :=
    KeepsCalm.trans (t := { s with take := { s.take with state := .rolling, tf := s.take.s, remaining := 0 } })
      (.of_channels rfl rfl) (.each rollChannel_calm _)
  unfold countDown
  split
  · dsimp only
    split
    · exact KeepsCalm.trans (.of_channels rfl rfl) (hroll _)
    · exact .of_channels rfl rfl
  · exact .refl s

theorem beatN_calm (locking rolled : Bool) (e : Nat) (s : State) : KeepsCalm s (beatN locking rolled e s) := by
  unfold beatN
  dsimp only
  split
  · exact countDown_calm s
  · exact (countDown_calm s).trans (issueBeat_calm _ _ _ _ _)

/-- The pulse of a calm station does to the board what the latch does. -/
theorem framePulse_calm (h : s.Calm) (locking : Bool) (e d : Nat) :
    (framePulse locking e d s).board = (latchPending ((s.timer.tag + 1) % 256) s).board := by
  set s1 : State := { s with timer := { s.timer with period := some d } } with hs1
  have h1 : s1.Calm := ⟨h.drives, h.consumed⟩
  obtain ⟨hcalm, hboard⟩ := catchUp_calm e s1 h1
  have hlatch : s.latchedAt e d = latchPending ((s.timer.tag + 1) % 256) (catchUp e s1) := rfl
  have hl : (s.latchedAt e d).Calm := by
    rw [hlatch]
    exact ⟨hcalm.drives, hcalm.consumed⟩
  rw [framePulse_board, (beatN_calm _ _ _ _ hl).2, hlatch]
  unfold latchPending
  dsimp only
  rw [hboard]

/-! ## The pulse that locks (R63, R70) -/

/-- An edge at a valid interval after the reference locks the timer. -/
theorem risingEdge_locks {time r : Nat} (hst : s.timer.state = .absent ∨ s.timer.state = .lost)
    (hr : s.timer.reference = some r) (h1 : 4000 ≤ micros (max s.clock time) - r)
    (h2 : micros (max s.clock time) - r ≤ 1000000) :
    risingEdge time s =
      framePulse true (micros (max s.clock time)) (micros (max s.clock time) - r) (s.atTime time) := by
  have hu : risingEdge time s = edgeUnlocked (micros (max s.clock time)) (s.atTime time) := by
    unfold risingEdge
    rcases hst with hst | hst <;> simp only [State.atTime_timer, hst, State.clock_atTime]
  rw [hu]
  unfold edgeUnlocked
  rw [State.atTime_timer, hr]
  exact if_pos ((validPeriod_iff _).mpr ⟨h1, h2⟩)

/-- With no sub-beat scheduled the locking pulse issues none: the board is latched, and that is all. -/
theorem framePulse_locks (hs : s.timer.schedule = none) (e d : Nat) :
    (framePulse true e d s).board = (latchPending ((s.timer.tag + 1) % 256) s).board := by
  have hlatch : s.latchedAt e d =
      latchPending ((s.timer.tag + 1) % 256) { s with timer := { s.timer with period := some d } } := by
    rw [State.latchedAt, beforeBeatN, catchUp]
    simp only [hs]
    rfl
  rw [framePulse_board, beatN, if_pos rfl]
  simp only [countDown_frame, hlatch]
  rfl

/-- Settles O37. -/
theorem cuesPendAndLatch : Obligations.CuesPendAndLatch := by
  refine ⟨fun s a ⟨hk, hv, ht⟩ h1 h4 => ?_, fun s a ⟨hk, hv, ht⟩ => ?_, fun s g q hq hl => ?_, fun s time ha => ?_,
    fun s time r hst hr hsch h1 h2 hl => ?_, fun s a hst hj hk hs ht h1 h4 => ?_⟩
  · exact ⟨_, execCue_all hk hv ht h1 h4, fun x => mem_pendCues, nodup_foldl_addCue _, rfl, rfl, rfl, rfl⟩
  · exact congrArg Host.Outcome.next ((receiveKind_valid _ hk hv).trans (settleCue_one ht))
  · have hget := latchPending_getD (g := g) hq hl
    refine ⟨rfl, fun hp => ?_, fun hp => ?_, fun hc => ?_, fun hc hp => ?_⟩
    · rw [State.cueSet, hget]
      split
      · rfl
      · rename_i h
        exact Bool.eq_true_of_not_eq_false fun hf => h ⟨hp, hf⟩
    · rw [State.cueSet, hget, if_neg fun h => hp h.1]
      rfl
    · rw [hget, if_neg fun h => by rw [State.cueSet, h.2] at hc; cases hc]
    · rw [hget, if_pos ⟨hp, hc⟩]
  · obtain ⟨q, p, hlock, hlast, hper, hint⟩ := ha
    have hrise := risingEdge_accepted (s := s) (time := time) ⟨q, p, hlock, hlast, hper, hint⟩ hlast
    refine ⟨_, congrArg Host.Outcome.next hrise, framePulse_pending _ _ _ _, fun hl hc hquiet q hq => ?_⟩
    have hcalm : (s.atTime time).Calm := ⟨fun c => hquiet c, hc⟩
    rw [framePulse_calm hcalm]
    exact latchPending_getD (s := s.atTime time) hq hl
  · have hrise := risingEdge_locks hst hr h1 h2
    refine ⟨_, congrArg Host.Outcome.next hrise, framePulse_pending _ _ _ _, fun q hq => ?_⟩
    rw [framePulse_locks (s := s.atTime time) hsch]
    exact latchPending_getD (s := s.atTime time) hq hl
  · have hn : s.port.join ≠ .joined ∧ s.port.join ≠ .duplicate := by
      rcases hj with hj | ⟨n, heard, hj⟩ <;> rw [hj] <;> exact ⟨nofun, nofun⟩
    have hv := admission_takesCue hn.1 (takesCue_iff.mpr ⟨hst, hn.2, hk, hs⟩)
    exact ⟨_, execCue_all hk hv ht h1 h4, rfl, fun x => mem_pendCues⟩

end Sys2Proof.Machine
end

