-- ==== Sys2Proof/Proofs/OrderKept.lean ====
section
/-! Operations that keep the four rings in R27's order (State.RingsInOrder): the rules an operation is judged by, then faults,
issues and beats, which leave each positioning as it stands. -/

set_option Elab.async false

namespace Sys2Proof.Machine

variable {s t u : State} {c : Chan}

/-- An ARM is in flight in its phase POSITIONING (R51, R109). -/
def Take.positions (k : Take) : Prop := k.state = .seeking ∧ ∃ a, k.arm = some a ∧ a.phase = .positioning

theorem State.positionsInArm_iff :
    s.positionsInArm ↔ ((∃ c, (s.engine c).positioning ≠ none) → s.take.positions) := .rfl

/-- A station whose rings are in order has them in order after the operation. -/
def KeepsOrder (s t : State) : Prop := s.RingsInOrder → t.RingsInOrder

theorem KeepsOrder.refl (s : State) : KeepsOrder s s := id

theorem KeepsOrder.trans (h : KeepsOrder s t) (k : KeepsOrder t u) : KeepsOrder s u := k ∘ h

theorem KeepsOrder.each {f : Chan → State → State} (h : ∀ c s, KeepsOrder s (f c s)) (s : State) :
    KeepsOrder s (eachChannel f s) := (((h 0 _).trans (h 1 _)).trans (h 2 _)).trans (h 3 _)

theorem KeepsOrder.foldl {α : Type} {f : State → α → State} (h : ∀ s x, KeepsOrder s (f s x)) (l : List α) (s : State) :
    KeepsOrder s (l.foldl f s) := by
  induction l generalizing s with
  | nil => exact .refl s
  | cons x xs ih => exact (h s x).trans (ih _)

/-! ## Operations that leave the engines -/

/-- The engines stand, and so does an ARM in its phase POSITIONING. -/
theorem KeepsOrder.of_engine (he : t.engine = s.engine) (hp : s.take.positions → t.take.positions) : KeepsOrder s t := by
  intro h
  refine ⟨enginesOk_of_engine he h.ok, fun c => ?_, fun ⟨c, hc⟩ => ?_⟩
  · rw [he]
    exact h.ordered c
  · rw [he] at hc
    exact hp (h.positioning ⟨c, hc⟩)

/-- The engines and the take record stand. -/
theorem KeepsOrder.of_take (he : t.engine = s.engine) (ht : t.take = s.take) : KeepsOrder s t :=
  .of_engine he fun hp => by rwa [ht]

/-- The engines stand, and no ARM is in flight in SEEKING. -/
theorem KeepsOrder.elsewhere (he : t.engine = s.engine) (hs : s.take.state ≠ .seeking) : KeepsOrder s t :=
  .of_engine he fun hp => absurd hp.1 hs

/-- The engines stand, and the ARM in flight is past its phase POSITIONING. -/
theorem KeepsOrder.past {a : ArmFlight} (he : t.engine = s.engine) (ha : s.take.arm = some a) (hp : a.phase ≠ .positioning) :
    KeepsOrder s t := by
  refine .of_engine he ?_
  rintro ⟨-, b, hb, hq⟩
  cases ha.symm.trans hb
  exact absurd hq hp

theorem KeepsOrder.setDrive (c : Chan) (d : Drive) (s : State) : KeepsOrder s (s.setDrive c d) := .of_take (by simp) rfl

theorem addOutcome_keepsOrder (station seq : Nat) (r : Result) (s : State) : KeepsOrder s (addOutcome station seq r s) :=
  .of_take (by simp) (by simp)

/-! ## Rest, completion, faults (R117, R118, R126, R132, R166, R167) -/

theorem checkRest_keepsOrder (s : State) : KeepsOrder s (checkRest s) := by
  refine .of_engine (by simp) fun h => ?_
  obtain ⟨hs, a, ha, hp⟩ := h
  unfold checkRest
  split
  · simp only [hs, ha, hp]
    exact ⟨hs, a, ha, hp⟩
  · exact ⟨hs, a, ha, hp⟩

theorem checkFinished_keepsOrder (s : State) : KeepsOrder s (checkFinished s) := by
  unfold checkFinished
  split
  · rename_i h
    exact .elsewhere rfl (by rw [h.1]; decide)
  · exact .refl s

theorem checkArmed_keepsOrder (s : State) : KeepsOrder s (checkArmed s) := by
  refine .of_engine (by simp) fun h => ?_
  obtain ⟨hs, a, ha, hp⟩ := h
  have harmed : checkArmed s = s := by
    unfold checkArmed
    rw [ha]
    exact if_neg fun h => by rw [hp] at h; cases h.2.1
  rw [harmed]
  exact ⟨hs, a, ha, hp⟩

theorem hardFault_keepsOrder (c : Chan) (k : FaultKind) (s : State) : KeepsOrder s (hardFault c k s) := by
  unfold hardFault
  split
  · dsimp only
    refine KeepsOrder.trans ?_ (.of_take (samplerSettle_engine _) (by simp))
    refine KeepsOrder.trans ?_ (checkRest_keepsOrder _)
    split
    · rename_i h
      exact .elsewhere (by simp) (by simp at h; rw [h.1]; decide)
    · exact .of_take (by simp) (by simp)
  · exact .refl s

theorem softFault_keepsOrder (c : Chan) (k : FaultKind) (s : State) : KeepsOrder s (softFault c k s) :=
  KeepsOrder.trans (.of_take (by simp) (by simp)) (checkRest_keepsOrder _)

theorem faults_keepsOrder (c : Chan) (f : FaultKind) (s : State) :
    KeepsOrder s (if f.isHard then hardFault c f s else softFault c f s) := by
  split
  · exact hardFault_keepsOrder c f s
  · exact softFault_keepsOrder c f s

theorem becomeDone_keepsOrder (c : Chan) (s : State) : KeepsOrder s (becomeDone c s) :=
  (KeepsOrder.setDrive c _ s).trans (checkFinished_keepsOrder _)

theorem endPlay_keepsOrder (c : Chan) (e : PlayEnd) (s : State) : KeepsOrder s (endPlay c e s) := by
  cases e with
  | stands => exact .refl s
  | ends => exact becomeDone_keepsOrder c s
  | faults k => exact softFault_keepsOrder c k s

/-! ## Issues and steps (R145, R157, R158, R160, R164) -/

theorem issueSetPoint_keepsOrder (c : Chan) (now : Nat) (x : Int) (s : State) : KeepsOrder s (issueSetPoint c now x s) := by
  unfold issueSetPoint
  dsimp only
  split
  · exact (KeepsOrder.setDrive c _ s).trans (hardFault_keepsOrder _ _ _)
  · exact .setDrive c _ s

theorem faultOnFollow_keepsOrder (c : Chan) (s : State) : KeepsOrder s (faultOnFollow c s) := by
  unfold faultOnFollow
  split
  · exact hardFault_keepsOrder _ _ _
  · exact .refl s

theorem monitor_keepsOrder (c : Chan) (s : State) : KeepsOrder s (monitor c s) := by
  unfold monitor
  split
  · exact (KeepsOrder.setDrive c _ s).trans (faultOnFollow_keepsOrder _ _)
  · exact .setDrive c _ s
  · exact .refl s

theorem seekStep_keepsOrder (c : Chan) (now : Nat) (k : Seek) (s : State) : KeepsOrder s (seekStep c now k s) := by
  unfold seekStep
  dsimp only
  split
  · exact faults_keepsOrder _ _ _
  · have hissue (d : Drive) (x : Int) : KeepsOrder s (issueSetPoint c now x (s.setDrive c d)) :=
      (KeepsOrder.setDrive c d s).trans (issueSetPoint_keepsOrder _ _ _ _)
    split
    · exact ((hissue _ _).trans (.setDrive c _ _)).trans (checkArmed_keepsOrder _)
    · exact hissue _ _

theorem finishStop_keepsOrder (c : Chan) (s : State) : KeepsOrder s (finishStop c s) :=
  (KeepsOrder.setDrive c _ s).trans (checkRest_keepsOrder _)

theorem stopStep_keepsOrder (c : Chan) (now : Nat) (k : Stop) (s : State) : KeepsOrder s (stopStep c now k s) := by
  unfold stopStep
  dsimp only
  split
  · exact finishStop_keepsOrder c s
  · split
    · exact (KeepsOrder.setDrive c _ s).trans (faults_keepsOrder _ _ _)
    · exact (KeepsOrder.setDrive c _ s).trans (issueSetPoint_keepsOrder _ _ _ _)

theorem playSetPoint_keepsOrder (c : Chan) (now t : Nat) (x : Int) (s : State) :
    KeepsOrder s (playSetPoint c now t x s) := by
  unfold playSetPoint
  split
  · exact faults_keepsOrder _ _ _
  · exact (KeepsOrder.setDrive c _ s).trans (issueSetPoint_keepsOrder _ _ _ _)

theorem playFault_keepsOrder (c : Chan) (now t : Nat) (k : FaultKind) (x : Int) (s : State) :
    KeepsOrder s (playFault c now t k x s) := by
  have hplay : KeepsOrder s (playSetPoint c now t x
      (raiseCause .channelFault (some c.val) (some k) (s.setDrive c ((s.drive c).recordKind k)))) :=
    KeepsOrder.trans (.of_take (by simp) (by simp)) (playSetPoint_keepsOrder _ _ _ _ _)
  unfold playFault
  dsimp only
  split
  · exact (hplay.trans (.setDrive c _ _)).trans (checkRest_keepsOrder _)
  · exact hplay

/-! ## Play: the engine of one channel goes on within [release, tail] (R4, R5, R27) -/

/-- One engine replaced by one in order that is positioned only if the other was. -/
theorem State.RingsInOrder.setEngine (h : s.RingsInOrder) {e : Engine} (hok : e.Ok) (ho : e.Ordered)
    (hp : e.positioning ≠ none → (s.engine c).positioning ≠ none) : (s.setEngine c e).RingsInOrder := by
  refine ⟨h.ok.setEngine hok, fun d => ?_, fun ⟨d, hd⟩ => h.positioning ⟨d, ?_⟩⟩
  all_goals by_cases hdc : d = c
  · subst hdc
    rwa [State.engine_setEngine]
  · rw [State.engine_setEngine_ne _ _ _ _ hdc]
    exact h.ordered d
  · subst hdc
    rw [State.engine_setEngine] at hd
    exact hp hd
  · rwa [State.engine_setEngine_ne _ _ _ _ hdc] at hd

theorem State.RingsInOrder.allIn (h : s.RingsInOrder) (c : Chan) : (s.playState c).path.AllIn (s.engine c).places :=
  Engine.Ok.allIn (h.ok c).path (h.ordered c).path

theorem State.RingsInOrder.putPlay (h : s.RingsInOrder) {x : PlayState} (hx : x.Ok)
    (ha : x.path.AllIn (s.engine c).places) : (s.putPlay c x).RingsInOrder :=
  KeepsOrder.of_take (s := s.setEngine c { s.engine c with path := x.path, ring := x.ring }) rfl rfl
    (h.setEngine { h.ok c with ring := hx.ring, path := hx.path } ((h.ordered c).withPath ha x.ring) id)

/-- Head moves on from a record it may read to the next position of [release, tail]. -/
theorem State.RingsInOrder.next (h : s.RingsInOrder) (c : Chan) :
    ∀ x, (s.engine c).places x → x ≠ (s.engine c).tail → (s.engine c).places (ringStep x 1) :=
  fun _ hx hne => Engine.places_next (h.ok c) hx hne

theorem takeHead_allIn {P : Nat → Prop} (a : EvalAt) (b : Nat → Bool) (tail : Nat)
    (hs : ∀ x, P x → x ≠ tail → P (ringStep x 1)) {x : PlayState} (h : x.path.AllIn P) : (x.takeHead a b tail).path.AllIn P := by
  unfold PlayState.takeHead
  split
  · exact h
  · exact takeInPlay_allIn h (hs _ h.head ‹_›) _ _ _ _

theorem takeOne_keepsOrder (c : Chan) (s : State) : KeepsOrder s (takeOne c s) := by
  intro h
  have hok : ((s.playState c).took (s.headTaken c)).Ok := (h.ok.playState c).took ((h.ok.playState c).takeHead _ _ _)
  have hin : ((s.playState c).took (s.headTaken c)).path.AllIn (s.engine c).places := by
    rw [PlayState.took_path]
    exact takeHead_allIn _ _ _ (h.next c) (h.allIn c)
  exact endPlay_keepsOrder _ _ _ (h.putPlay hok hin)

theorem takeWhen_keepsOrder (p : Record → Bool) (c : Chan) (s : State) : KeepsOrder s (takeWhen p c s) := by
  unfold takeWhen
  split
  · exact takeOne_keepsOrder c s
  · exact .refl s

theorem completeAndGoOn_keepsOrder (c : Chan) {pos : Nat} (hp : pos < Config.ringSize) (q : Option Nat) (s : State) :
    KeepsOrder s (completeAndGoOn c pos q s) := by
  intro h
  have hok := PlayState.Ok.playLoop (s.evalAt (s.engine c).path.latest) s.cueSet (s.engine c).tail 18
    ((h.ok.playState c).completed (s.evalAt (s.engine c).path.latest) pos q hp)
  have hin : ((s.playState c).completed (s.evalAt (s.engine c).path.latest) pos q).path.AllIn (s.engine c).places := by
    rw [PlayState.completed_path]
    exact (h.allIn c).complete _ _
  exact endPlay_keepsOrder _ _ _ (h.putPlay hok (playLoop_allIn _ _ _ (h.next c) _ hin))

theorem playPath_keepsOrder (c : Chan) (now t : Nat) (first : Bool) (s : State) :
    KeepsOrder s (playPath c now t first s) := by
  have hput : KeepsOrder s (s.putPlay c (s.evaluated c t first).1) := fun h =>
    h.putPlay ((h.ok.playState c).playEval _ _ _ _) ((h.ordered c).playEval (h.ok c) _ _ _ rfl)
  have hplay := hput.trans (playSetPoint_keepsOrder c now t (s.evaluated c t first).1.path.setPoint _)
  unfold playPath
  dsimp only
  split
  · exact hplay
  · split
    · exact hplay.trans (becomeDone_keepsOrder _ _)
    · exact hplay
  · exact hput.trans (playFault_keepsOrder _ _ _ _ _ _)

theorem playBeat_keepsOrder (c : Chan) (now t k : Nat) (first : Bool) (s : State) :
    KeepsOrder s (playBeat c now t k first s) := by
  unfold playBeat
  split
  · exact playPath_keepsOrder _ _ _ _ _
  · exact playSetPoint_keepsOrder _ _ _ _ _
  · exact playSetPoint_keepsOrder _ _ _ _ _
  · exact issueSetPoint_keepsOrder _ _ _ _

/-! ## Sub-beats and pulses -/

theorem stateBeat_keepsOrder (c : Chan) (now : Nat) (t : Option Nat) (k : Nat) (first : Bool) (s : State) :
    KeepsOrder s (stateBeat c now t k first s) := by
  unfold stateBeat
  split
  case h_1 | h_2 => exact .refl s
  case h_3 | h_4 | h_5 | h_6 => exact issueSetPoint_keepsOrder _ _ _ _
  case h_7 =>
    split
    · exact seekStep_keepsOrder _ _ _ _
    · exact issueSetPoint_keepsOrder _ _ _ _
  case h_8 =>
    split
    · exact stopStep_keepsOrder _ _ _ _
    · exact .refl s
  case h_9 =>
    split
    · exact playBeat_keepsOrder _ _ _ _ _ _
    · exact issueSetPoint_keepsOrder _ _ _ _

theorem driveBeat_keepsOrder (now : Nat) (t : Option Nat) (k : Nat) (first : Bool) (c : Chan) (s : State) :
    KeepsOrder s (driveBeat now t k first c s) := by
  unfold driveBeat
  split
  · exact (monitor_keepsOrder _ _).trans (stateBeat_keepsOrder _ _ _ _ _ _)
  · exact .refl s

theorem driveFreeBeat_keepsOrder (now : Nat) (c : Chan) (s : State) : KeepsOrder s (driveFreeBeat now c s) := by
  unfold driveFreeBeat
  split
  · exact (monitor_keepsOrder _ _).trans (stateBeat_keepsOrder _ _ _ _ _ _)
  · exact .refl s

theorem samplerTrigger_keepsOrder (t : Nat) (s : State) : KeepsOrder s (samplerTrigger t s) :=
  .of_take (by simp) (by simp)

theorem issueBeat_keepsOrder (e k : Nat) (t : Option Nat) (first : Bool) (s : State) :
    KeepsOrder s (issueBeat e k t first s) := by
  have hnote : KeepsOrder s (consumeCues (noteTakeSubBeat t { s with timer := { s.timer with latest := some e } })) := by
    cases t with
    | none => exact .of_take rfl rfl
    | some x => exact .of_engine rfl id
  unfold issueBeat
  dsimp only
  refine KeepsOrder.trans ?_ (samplerTrigger_keepsOrder _ _)
  refine KeepsOrder.trans ?_ (checkFinished_keepsOrder _)
  refine KeepsOrder.trans ?_ (.of_take (consumeCues_engine _) (consumeCues_take _))
  exact hnote.trans (.each (fun c s => driveBeat_keepsOrder _ _ _ _ c s) _)

theorem issueFreeBeat_keepsOrder (e : Nat) (s : State) : KeepsOrder s (issueFreeBeat e s) := by
  have htimer : KeepsOrder s { s with timer := { s.timer with latest := some e } } := .of_take rfl rfl
  unfold issueFreeBeat
  refine KeepsOrder.trans ?_ (samplerTrigger_keepsOrder _ _)
  exact htimer.trans (.each (fun c s => driveFreeBeat_keepsOrder _ c s) _)

theorem catchUp_keepsOrder (e : Nat) (s : State) : KeepsOrder s (catchUp e s) := by
  unfold catchUp
  split
  · exact (KeepsOrder.foldl (fun s j => issueBeat_keepsOrder e j _ false s) _ s).trans (.of_take rfl rfl)
  · exact .refl s

theorem countDown_keepsOrder (s : State) : KeepsOrder s (countDown s) := by
  by_cases h : s.take.state = .countdown
  · exact .elsewhere (by simp) (by rw [h]; decide)
  · unfold countDown
    rw [if_neg h]
    exact .refl s

theorem beatN_keepsOrder (locking rolled : Bool) (e : Nat) (s : State) : KeepsOrder s (beatN locking rolled e s) := by
  unfold beatN
  dsimp only
  split
  · exact countDown_keepsOrder s
  · exact (countDown_keepsOrder s).trans (issueBeat_keepsOrder _ _ _ _ _)

theorem followerPulse_keepsOrder (tag : Nat) (c : Chan) (s : State) : KeepsOrder s (followerPulse tag c s) := by
  unfold followerPulse
  dsimp only
  split
  · split
    · exact becomeDone_keepsOrder c s
    · exact .setDrive c _ s
  · exact .refl s

/-- TF and the mark of a take frame leave an ARM in flight alone. -/
theorem riseTF_keepsOrder (s : State) : KeepsOrder s (riseTF s) := by
  unfold riseTF
  split <;> exact .of_engine rfl id

theorem afterBeats_keepsOrder (locking rolled : Bool) (tag : Nat) (s : State) :
    KeepsOrder s (afterBeats locking rolled tag s) := by
  have hcues (u : State) : KeepsOrder u (if locking then u else closeCues u) := by
    split
    · exact .refl u
    · exact .of_take rfl rfl
  have hrise (u : State) : KeepsOrder u (if rolled then u else riseTF u) := by
    split
    · exact .refl u
    · exact riseTF_keepsOrder u
  have hmark (u : State) : KeepsOrder u (markTakeFrame u) := .of_engine rfl id
  unfold afterBeats
  dsimp only
  refine KeepsOrder.trans ?_ (.of_take (capturePulse_engine _) (by simp))
  refine KeepsOrder.trans ?_ (.of_take (lastFrameFault_engine _) (by simp))
  refine KeepsOrder.trans ?_ (hmark _)
  refine KeepsOrder.trans ?_ (hrise _)
  exact KeepsOrder.trans (.each (followerPulse_keepsOrder tag) s) (hcues _)

theorem framePulse_keepsOrder (locking : Bool) (e d : Nat) (s : State) : KeepsOrder s (framePulse locking e d s) := by
  have hperiod : KeepsOrder s { s with timer := { s.timer with period := some d } } := .of_take rfl rfl
  have hbefore (u : State) : KeepsOrder u (beforeBeatN e u) :=
    (catchUp_keepsOrder e u).trans (.of_take (latchPending_engine _ _) rfl)
  unfold framePulse
  dsimp only
  refine KeepsOrder.trans ?_ (.of_take (State.withEnded_engine _ _) rfl)
  refine KeepsOrder.trans ?_ (.of_take (layOutWindow_engine _) (by simp))
  refine KeepsOrder.trans ?_ (.of_take (keepUnbegun_engine _) (by simp))
  refine KeepsOrder.trans ?_ (.of_take (beginFrame_engine _ _ _) (by simp))
  refine KeepsOrder.trans ?_ (afterBeats_keepsOrder _ _ _ _)
  exact (hperiod.trans (hbefore _)).trans (beatN_keepsOrder _ _ _ _)

theorem edgeUnlocked_keepsOrder (e : Nat) (s : State) : KeepsOrder s (edgeUnlocked e s) := by
  unfold edgeUnlocked
  split
  · exact .of_take rfl rfl
  · split
    · exact framePulse_keepsOrder _ _ _ _
    · exact .of_take rfl rfl

theorem edgeLocked_keepsOrder (e d p : Nat) (s : State) : KeepsOrder s (edgeLocked e d p s) := by
  unfold edgeLocked
  split
  · exact .of_take (by simp) (by simp)
  · split
    · exact framePulse_keepsOrder _ _ _ _
    · exact .of_take (by simp) (by simp)

theorem risingEdge_keepsOrder (time : Nat) (s : State) : KeepsOrder s (risingEdge time s) := by
  refine KeepsOrder.trans (.of_take (t := s.atTime time) rfl rfl) ?_
  unfold risingEdge
  dsimp only
  split
  · exact edgeLocked_keepsOrder _ _ _ _
  all_goals exact edgeUnlocked_keepsOrder _ _

/-- A row that is a whole edge when its event stands (log 3), and nothing otherwise. -/
theorem edgeRow_keepsOrder (time : Nat) (s : State) (p : Prop) [Decidable p] :
    KeepsOrder s (if p then risingEdge time s else s) := by
  split
  · exact risingEdge_keepsOrder time s
  · exact .refl s

theorem scheduledBeat_keepsOrder (k due q p : Nat) (s : State) : KeepsOrder s (scheduledBeat k due q p s) := by
  have htime : KeepsOrder s (s.atTime (max (micros s.clock) due * Config.tick)) := .of_take rfl rfl
  have hbeat := htime.trans (issueBeat_keepsOrder (max (micros s.clock) due) k
    ((s.atTime (max (micros s.clock) due * Config.tick)).takeSubBeat k) false _)
  unfold scheduledBeat
  dsimp only
  exact hbeat.trans (.of_take (State.engine_mk _ _ _ _ _ _ _ _ _ _ _ _ _ _ _ _) rfl)

theorem freeBeat_keepsOrder (q p : Nat) (s : State) : KeepsOrder s (freeBeat q p s) :=
  KeepsOrder.trans (.of_take (t := s.atTime _) rfl rfl) (issueFreeBeat_keepsOrder _ _)

end Sys2Proof.Machine
end

