-- ==== Sys2Proof/Proofs/RingsInOrder.lean ====
section
/-! Every step keeps the four rings in R27's order: an ARM's discard, commit and entry (R51 to R54, R114 to R119), the ring and
take requests, the reports, and one arm for each row of the table. -/

set_option Elab.async false

namespace Sys2Proof.Machine

variable {s t : State} {c : Chan}

/-! ## What arrives on the bus -/

theorem heard_keepsOrder (a : Activity) (s : State) : KeepsOrder s (s.heard a) := .of_take rfl rfl

theorem receive_keepsOrder {act : Arrival → State → State} (h : ∀ m s, KeepsOrder s (act m s)) (a : Activity) (s : State) :
    KeepsOrder s (receive a act s) := by
  unfold receive
  split
  · exact (heard_keepsOrder a s).trans (h _ _)
  · exact .of_take (busErrorAt_engine a s) (by simp)
  · exact heard_keepsOrder a s

theorem receiveKind_keepsOrder {act : Arrival → State → State} (h : ∀ m s, KeepsOrder s (act m s)) (k : Nat) (a : Activity)
    (s : State) : KeepsOrder s (receiveKind k a act s) := by
  unfold receiveKind
  split
  · exact receive_keepsOrder h a s
  · exact .refl s

theorem addressed_keepsOrder {f : Arrival → State → Settled} (h : ∀ m s, KeepsOrder s (f m s).2) (m : Arrival) (s : State) :
    KeepsOrder s (addressed f m s) := by
  unfold addressed
  split
  · split
    · exact (h m s).trans (addOutcome_keepsOrder _ _ _ _)
    · exact .refl s
  · exact addOutcome_keepsOrder _ _ _ s

theorem broadcast_keepsOrder {f : Arrival → State → State} (h : ∀ m s, KeepsOrder s (f m s)) (m : Arrival) (s : State) :
    KeepsOrder s (broadcast f m s) := by
  unfold broadcast
  split
  · split
    · exact addOutcome_keepsOrder _ _ _ s
    · exact .refl s
  · exact h m s

/-- A request to this station, by its owner. -/
theorem request_keepsOrder {f : Arrival → State → Settled} (h : ∀ m s, KeepsOrder s (f m s).2) (k : Nat) (a : Activity)
    (s : State) : KeepsOrder s (receiveKind k a (addressed f) s) :=
  receiveKind_keepsOrder (addressed_keepsOrder h) k a s

/-- A QUERY, or any request that a row recognizes by more than its kind. -/
theorem query_keepsOrder {f : Arrival → State → Settled} (h : ∀ m s, KeepsOrder s (f m s).2) (b : Bool) (a : Activity)
    (s : State) : KeepsOrder s (if b then receive a (addressed f) s else s) := by
  split
  · exact receive_keepsOrder (addressed_keepsOrder h) a s
  · exact .refl s

/-! ## Engines in R27's order, whatever the take record -/

/-- Every engine is in order, with its pointers in R27's order. -/
def State.enginesOrdered (s : State) : Prop := ∀ c : Chan, (s.engine c).Ok ∧ (s.engine c).Ordered

theorem State.RingsInOrder.engines (h : s.RingsInOrder) : s.enginesOrdered := fun c => ⟨h.ok c, h.ordered c⟩

theorem State.enginesOrdered.of_engine (h : s.enginesOrdered) (he : t.engine = s.engine) : t.enginesOrdered := by
  intro c
  rw [he]
  exact h c

theorem State.enginesOrdered.setEngine (h : s.enginesOrdered) {e : Engine} (hok : e.Ok) (ho : e.Ordered) :
    (s.setEngine c e).enginesOrdered := by
  intro d
  by_cases hdc : d = c
  · subst hdc
    rw [State.engine_setEngine]
    exact ⟨hok, ho⟩
  · rw [State.engine_setEngine_ne _ _ _ _ hdc]
    exact h d

/-- With no positioning in flight the take record is free. -/
theorem State.enginesOrdered.unpositioned (h : s.enginesOrdered) (hn : ∀ c, (s.engine c).positioning = none) : s.RingsInOrder :=
  ⟨fun c => (h c).1, fun c => (h c).2, fun ⟨c, hc⟩ => absurd (hn c) hc⟩

/-- With an ARM in its phase POSITIONING the engines may be positioned. -/
theorem State.enginesOrdered.inArm (h : s.enginesOrdered) (hp : s.take.positions) : s.RingsInOrder :=
  ⟨fun c => (h c).1, fun c => (h c).2, fun _ => hp⟩

/-- What each channel's turn gives that channel, and every other turn leaves it, all four have. -/
theorem eachChannel_each (P : Chan → State → Prop) (f : Chan → State → State) (hself : ∀ c s, P c (f c s))
    (hkeep : ∀ c d s, P d s → P d (f c s)) (s : State) (c : Chan) : P c (eachChannel f s) := by
  have h0 := hself 0 s
  have h1 := hself 1 (f 0 s)
  have h2 := hself 2 (f 1 (f 0 s))
  fin_cases c
  · exact hkeep 3 _ _ (hkeep 2 _ _ (hkeep 1 _ _ h0))
  · exact hkeep 3 _ _ (hkeep 2 _ _ h1)
  · exact hkeep 3 _ _ h2
  · exact hself 3 _

/-- Channel `c`'s positioning ended leaves those of the other channels as they are. -/
theorem setEngine_unpositioned {d : Chan} {e : Engine} (he : e.positioning = none) (h : (s.engine d).positioning = none) :
    ((s.setEngine c e).engine d).positioning = none := by
  by_cases hdc : d = c
  · subst hdc
    rwa [State.engine_setEngine]
  · rwa [State.engine_setEngine_ne _ _ _ _ hdc]

/-! ## Discard (R51, R115) -/

/-- The engines a discard at channel `c` leaves. -/
theorem discardChannel_engine_cases (code : ScanCode) (g : Nat) (c : Chan) (s : State) :
    (discardChannel code g c s).engine = (s.setEngine c { s.engine c with
        positioning := none, scan := (s.engine c).scan.discarded code s.freeCount g }).engine ∨
      (s.engine c).positioning = none ∧ discardChannel code g c s = s := by
  unfold discardChannel
  split
  · exact .inl rfl
  · exact .inr ⟨‹_›, rfl⟩

theorem Engine.Ordered.unpositioned {e : Engine} (h : e.Ordered) (r : ScanResult) :
    Engine.Ordered { e with positioning := none, scan := r } := ⟨h.path, fun _ hp => nomatch hp⟩

theorem discardChannel_enginesOrdered (code : ScanCode) (g : Nat) (c : Chan) (s : State) (h : s.enginesOrdered) :
    (discardChannel code g c s).enginesOrdered := by
  have hok := discardChannel_enginesOk (fun c => (h c).1) code g c
  rcases discardChannel_engine_cases code g c s with he | ⟨-, he⟩
  · refine fun d => ⟨hok d, ?_⟩
    rw [he]
    by_cases hdc : d = c
    · subst hdc
      rw [State.engine_setEngine]
      exact (h d).2.unpositioned _
    · rw [State.engine_setEngine_ne _ _ _ _ hdc]
      exact (h d).2
  · rwa [he]

theorem discardChannel_unpositioned (code : ScanCode) (g : Nat) (s : State) (c : Chan) :
    ((eachChannel (discardChannel code g) s).engine c).positioning = none := by
  refine eachChannel_each (fun c s => (s.engine c).positioning = none) _ (fun c s => ?_) (fun c d s h => ?_) s c
  · rcases discardChannel_engine_cases code g c s with he | ⟨hn, he⟩
    · rw [he, State.engine_setEngine]
    · rwa [he]
  · rcases discardChannel_engine_cases code g c s with he | ⟨-, he⟩
    · rw [he]
      exact setEngine_unpositioned rfl h
    · rwa [he]

/-- What follows the discard of the scans leaves the engines. -/
theorem discardArm_engine (a : ArmFlight) (r : Result) (code : ScanCode) (s : State) :
    (discardArm a r code s).engine = (eachChannel (discardChannel code (s.take.s * s.subBeats)) s).engine := by
  unfold discardArm
  dsimp only
  rw [addOutcome_engine]
  split <;> simp

/-- An ARM that ends by discard leaves no positioning, and every engine in its order. -/
theorem discardArm_ringsInOrder (h : s.enginesOrdered) (a : ArmFlight) (r : Result) (code : ScanCode) :
    (discardArm a r code s).RingsInOrder := by
  have he := discardArm_engine a r code s
  have heach := eachChannel_keeps State.enginesOrdered _ (discardChannel_enginesOrdered code (s.take.s * s.subBeats)) s h
  refine (heach.of_engine he).unpositioned fun c => ?_
  rw [he]
  exact discardChannel_unpositioned _ _ s c

theorem discardArm_keepsOrder (a : ArmFlight) (r : Result) (code : ScanCode) (s : State) :
    KeepsOrder s (discardArm a r code s) := fun h => discardArm_ringsInOrder h.engines a r code

/-! ## Commit (R51, R116) -/

/-- The engines a commit at channel `c` leaves. -/
theorem commitChannel_engine_cases (g : Nat) (c : Chan) (s : State) :
    (∃ p, (s.engine c).positioning = some p ∧
        (commitChannel g c s).engine = (s.setEngine c ((s.engine c).commit g p)).engine) ∨
      (s.engine c).positioning = none ∧ (commitChannel g c s).engine = s.engine := by
  unfold commitChannel
  cases hp : (s.engine c).positioning with
  | none =>
    refine .inr ⟨rfl, ?_⟩
    dsimp only
    (repeat' split) <;> simp
  | some p =>
    refine .inl ⟨p, rfl, ?_⟩
    dsimp only
    (repeat' split) <;> simp

theorem commitChannel_enginesOrdered (g : Nat) (c : Chan) (s : State) (h : s.enginesOrdered) :
    (commitChannel g c s).enginesOrdered := by
  rcases commitChannel_engine_cases g c s with ⟨p, hp, he⟩ | ⟨-, he⟩
  · exact (h.setEngine ((h c).1.commit hp g) ((h c).2.commit hp g)).of_engine he
  · exact h.of_engine he

theorem commitChannel_unpositioned (g : Nat) (s : State) (c : Chan) :
    ((eachChannel (commitChannel g) s).engine c).positioning = none := by
  refine eachChannel_each (fun c s => (s.engine c).positioning = none) _ (fun c s => ?_) (fun c d s h => ?_) s c
  · rcases commitChannel_engine_cases g c s with ⟨p, -, he⟩ | ⟨hn, he⟩
    · rw [he, State.engine_setEngine]
      rfl
    · rwa [he]
  · rcases commitChannel_engine_cases g c s with ⟨p, -, he⟩ | ⟨-, he⟩
    · rw [he]
      exact setEngine_unpositioned rfl h
    · rwa [he]

/-- What follows the commit of the channels leaves the engines. -/
theorem commitArm_engine (a : ArmFlight) (s : State) :
    (commitArm a s).engine = (eachChannel (commitChannel (s.take.s * s.subBeats)) s).engine := by
  unfold commitArm
  dsimp only
  rw [checkArmed_engine]
  split <;> simp

/-- A commit leaves no positioning, and every engine in its order. -/
theorem commitArm_ringsInOrder (h : s.enginesOrdered) (a : ArmFlight) : (commitArm a s).RingsInOrder := by
  have he := commitArm_engine a s
  have heach := eachChannel_keeps State.enginesOrdered _ (commitChannel_enginesOrdered (s.take.s * s.subBeats)) s h
  refine (heach.of_engine he).unpositioned fun c => ?_
  rw [he]
  exact commitChannel_unpositioned _ s c

/-! ## The scan commands (R54 to R56) -/

theorem positioned_enginesOrdered (h : s.enginesOrdered) {p : Positioning} (hp : (s.engine c).positioning = some p) :
    (positioned c p (s.scanOf c p).1 s).enginesOrdered := by
  obtain ⟨hok, ho⟩ := h c
  have hpos := positioned_enginesOk (fun c => (h c).1) c p (Engine.scanRun_ok hok hp s.take.id s.subBeats (s.take.s * s.subBeats))
  refine h.setEngine ?_ ⟨ho.path, fun q hq => ?_⟩
  · have hc := hpos c
    unfold positioned at hc
    rwa [State.engine_setEngine] at hc
  · cases hq
    exact ho.scanRun hok hp _ _ _

theorem scanRefused_enginesOrdered (h : s.enginesOrdered) (c : Chan) (code : ScanCode) (k : Option FaultKind) (x : ScanState) :
    (scanRefused c code k x s).enginesOrdered := by
  have hok := scanRefused_enginesOk (fun c => (h c).1) c code k x
  refine h.setEngine ?_ ((h c).2.unpositioned _)
  have hc := hok c
  unfold scanRefused at hc
  rwa [State.engine_setEngine] at hc

/-- A scan that stands is one of an ARM in its phase POSITIONING. -/
theorem scanStanding_positions {a : ArmFlight} {p : Positioning} (h : s.scanStanding c = some (a, p)) : s.take.positions := by
  unfold State.scanStanding at h
  split at h
  · rename_i hs ha _
    split at h
    · rename_i hp
      exact ⟨hs, _, ha, hp.1⟩
    · cases h
  · cases h

/-! ## An ARM entered and replaced (R114, R119) -/

theorem entryCheck_enginesOrdered (a : ArmFlight) (c : Chan) (h : s.enginesOrdered) : (entryCheck a c s).1.enginesOrdered := by
  obtain ⟨hok, ho⟩ := h c
  unfold entryCheck
  split
  · exact h
  · split
    · exact h
    · split
      · unfold positionChannel
        dsimp only
        split
        · exact h.setEngine (positionNew_ok hok _ _ _) (positionNew_ordered hok ho _ _ _)
        · exact h.setEngine (positionRestore_ok hok _ _ _) (positionRestore_ordered hok ho _ _ _)
      · split <;> exact h
      · exact h

/-- The entry checks leave the take record, and every engine in its order. -/
theorem entryChecks_enginesOrdered (a : ArmFlight) (cs : List Chan) : ∀ {s : State}, s.enginesOrdered →
    (entryChecks a cs s).1.enginesOrdered ∧ (entryChecks a cs s).1.take = s.take := by
  induction cs with
  | nil => exact fun h => ⟨h, rfl⟩
  | cons c cs ih =>
    intro s h
    have hc := entryCheck_enginesOrdered a c h
    have ht : (entryCheck a c s).1.take = s.take := by simp
    unfold entryChecks
    split
    · rename_i u hu
      rw [hu] at hc ht
      exact ⟨(ih hc).1, (ih hc).2.trans ht⟩
    · rename_i u r hu
      rw [hu] at hc ht
      exact ⟨hc, ht⟩

theorem enterSeeking_positions {a : ArmFlight} (ha : a.phase = .positioning) (id : Nat) (k : TakeKind) (mask : List Nat)
    (start : Nat) (s : State) : (enterSeeking a id k mask start s).take.positions := ⟨rfl, a, rfl, ha⟩

theorem acceptArm_keepsOrder (m : Arrival) (id : Nat) (k : TakeKind) (mask : List Nat) (start : Nat) (s : State) :
    KeepsOrder s (acceptArm m id k mask start s) := by
  intro h
  unfold acceptArm
  dsimp only
  set a : ArmFlight :=
    { station := m.sender, seq := m.seq, phase := .positioning, prior := s.priorRecord,
      priorStates := Quad.ofFn (fun c => (s.drive c).state), disbanded := false }
  obtain ⟨hc, ht⟩ := entryChecks_enginesOrdered a allChannels (h.engines.of_engine (enterSeeking_engine a id k mask start s))
  split
  · rename_i u r hu
    rw [hu] at hc
    exact discardArm_ringsInOrder hc a r .discarded
  · rename_i u hu
    rw [hu] at hc ht
    split
    · refine hc.inArm ?_
      rw [ht]
      exact enterSeeking_positions rfl id k mask start s
    · exact commitArm_ringsInOrder hc a

theorem replaceArm_keepsOrder (s : State) : KeepsOrder s (replaceArm s) := by
  unfold replaceArm
  split
  · exact discardArm_keepsOrder _ _ _ s
  · exact .refl s

theorem settleArm_keepsOrder (m : Arrival) (s : State) : KeepsOrder s (settleArm m s) := by
  have refused (r : Result) : KeepsOrder s (addOutcome m.sender m.seq r s) := addOutcome_keepsOrder _ _ r s
  unfold settleArm
  split
  · split
    · unfold armMember
      split
      · exact refused _
      · split
        · exact refused _
        · split
          · exact refused _
          · split
            · exact refused _
            · exact (replaceArm_keepsOrder s).trans (acceptArm_keepsOrder _ _ _ _ _ _)
    · exact .refl s
  · exact refused _

/-! ## ROLL, DISBAND and the hold line (R121, R129, R131) -/

theorem settleRoll_keepsOrder (m : Arrival) (s : State) : KeepsOrder s (settleRoll m s) := by
  unfold settleRoll
  split
  · split
    · split
      · exact addOutcome_keepsOrder _ _ _ s
      · rename_i hcheck
        refine .elsewhere (by simp) fun hs => ?_
        unfold State.rollCheck at hcheck
        (repeat' split at hcheck) <;> simp_all
    · exact .refl s
  · exact addOutcome_keepsOrder _ _ _ s

/-- The end of a take with nothing in motion, when no ARM positions. -/
theorem disbandAtRest_keepsOrder (h : ¬ s.take.positions) : KeepsOrder s (disbandAtRest s) :=
  .of_engine (disbandAtRest_engine s) fun hp => absurd hp h

theorem Take.positions_arm {k : Take} {a : ArmFlight} (h : k.positions) (ha : k.arm = some a) : a.phase = .positioning := by
  obtain ⟨-, b, hb, hp⟩ := h
  cases ha.symm.trans hb
  exact hp

theorem disbandSeeking_keepsOrder (m : Arrival) {a : ArmFlight} (ha : s.take.arm = some a) :
    KeepsOrder s (disbandSeeking m a s) := by
  unfold disbandSeeking
  split
  · intro h
    have hd := discardArm_ringsInOrder h.engines a .aborted .abandoned
    have hn (c : Chan) : ((discardArm a .aborted .abandoned s).engine c).positioning = none := by
      rw [discardArm_engine]
      exact discardChannel_unpositioned _ _ s c
    refine addOutcome_keepsOrder _ _ _ _ ((hd.engines.of_engine (disbandAtRest_engine _)).unpositioned fun c => ?_)
    rw [disbandAtRest_engine]
    exact hn c
  · rename_i hp
    exact .past (by simp) ha (by rw [hp]; decide)
  · rename_i hp
    exact .past (by simp) ha (by rw [hp]; decide)

theorem settleDisband_keepsOrder (m : Arrival) (s : State) : KeepsOrder s (settleDisband m s) := by
  unfold settleDisband
  split
  · split
    · unfold disbandMember
      split
      · exact addOutcome_keepsOrder _ _ _ s
      · exact addOutcome_keepsOrder _ _ _ s
      · rename_i ha
        exact disbandSeeking_keepsOrder m ha
      · rename_i hno
        refine (disbandAtRest_keepsOrder ?_).trans (addOutcome_keepsOrder _ _ _ _)
        rintro ⟨hs, a, ha, -⟩
        exact hno a hs ha
    · exact .refl s
  · exact addOutcome_keepsOrder _ _ _ s

theorem holdFalls_keepsOrder (s : State) : KeepsOrder s (holdFalls s) := by
  have seeking : KeepsOrder s (holdSeeking s) := by
    unfold holdSeeking
    split
    · rename_i ha
      split
      · exact discardArm_keepsOrder _ _ _ s
      · rename_i hp
        exact .past (unwindArm_engine _ _ _) ha (by rw [hp]; decide)
      · exact .refl s
    · exact .refl s
  have stopping (h : s.take.state ≠ .seeking) : KeepsOrder s (enterStopping s) := .elsewhere (enterStopping_engine s) h
  unfold holdFalls
  split
  case h_6 => exact seeking
  case h_7 | h_8 | h_9 => exact stopping (by simp only [*]; decide)
  all_goals exact .refl s

/-! ## The ring requests (R29 to R38) -/

theorem settleLoad_keepsOrder (m : Arrival) (s : State) : KeepsOrder s (settleLoad m s).2 := by
  unfold settleLoad
  split
  · exact .refl s
  · split
    · split
      · exact .refl s
      · rename_i c es _ _ hr
        split
        · intro h
          have hp := Nat.lt_of_not_le fun hx => hr (.inl hx)
          exact h.setEngine { h.ok c with ring := ringWf_writeEntries es (h.ok c).ring hp }
            ⟨(h.ordered c).path, (h.ordered c).pendingPath⟩ id
        · exact .refl s
    · exact .refl s

theorem mayAdvance_iff {e : Engine} {x : Nat} :
    e.mayAdvance x = true ↔ x < 1024 ∧ ringDistance e.release e.tail ≤ ringDistance e.release x := by
  rw [Engine.mayAdvance, Bool.and_eq_true, decide_eq_true_iff, decide_eq_true_iff]
  rfl

theorem settleAdvance_keepsOrder (m : Arrival) (s : State) : KeepsOrder s (settleAdvance m s).2 := by
  unfold settleAdvance
  split
  · split
    · split
      · rename_i c _ hx
        exact fun h => h.setEngine { h.ok c with tail := (mayAdvance_iff.mp hx).1 } ((h.ordered c).advance hx) id
      · exact .refl s
    · exact .refl s
  · exact .refl s

/-- Neither SEEKING nor positioned (R34, R39, log 54). -/
theorem positions_false_iff : s.positions c = false ↔ (s.drive c).state ≠ .seeking ∧ (s.engine c).positioning = none := by
  rw [State.positions, Bool.or_eq_false_iff, decide_eq_false_iff_not, Option.isSome_eq_false_iff, Option.isNone_iff_eq_none]

theorem settleRelease_keepsOrder (m : Arrival) (s : State) : KeepsOrder s (settleRelease m s).2 := by
  unfold settleRelease
  split
  · split
    · dsimp only
      split
      · exact .refl s
      · rename_i c _ hx
        split
        · exact .refl s
        · rename_i hpos
          split
          · exact .refl s
          · rename_i hle
            intro h
            have hlt := Nat.lt_of_not_le hx
            have hn := (positions_false_iff.mp (Bool.eq_false_of_not_eq_true hpos)).2
            exact h.setEngine ((h.ok c).moveRelease ((h.ok c).releaseTo hlt))
              ((h.ordered c).moveRelease (h.ok c) hn hlt (Nat.le_of_not_lt hle)) id
    · exact .refl s
  · exact .refl s

/-- Outside SEEKING no engine is positioned. -/
theorem State.RingsInOrder.unpositioned (h : s.RingsInOrder) (hs : s.take.state ≠ .seeking) (c : Chan) :
    (s.engine c).positioning = none := by
  by_contra hc
  exact hs (h.positioning ⟨c, hc⟩).1

theorem settleClearRing_keepsOrder (m : Arrival) (s : State) : KeepsOrder s (settleClearRing m s).2 := by
  unfold settleClearRing
  split
  · split
    · rename_i c _ hst
      intro h
      have hs : s.take.state ≠ .seeking := by rcases hst with hst | hst <;> rw [hst] <;> decide
      exact h.setEngine (h.ok c).cleared (.cleared (h.unpositioned hs c)) id
    · exact .refl s
  · exact .refl s

/-! ## The other requests -/

theorem settleSetupChannel_take (pins : Pins) (m : Arrival) (s : State) : (settleSetupChannel pins m s).2.take = s.take := by
  unfold settleSetupChannel
  (repeat' split) <;> rfl

theorem settleSetupLines_take (m : Arrival) (s : State) : (settleSetupLines m s).2.take = s.take := by
  unfold settleSetupLines
  (repeat' split) <;> rfl

theorem settleEnlist_keepsOrder (m : Arrival) (s : State) : KeepsOrder s (settleEnlist m s).2 := by
  unfold settleEnlist
  split
  · exact .refl s
  · split
    · rename_i h
      exact .elsewhere (by simp) (by rw [h]; decide)
    · exact .refl s

theorem settleDismiss_keepsOrder (m : Arrival) (s : State) : KeepsOrder s (settleDismiss m s).2 := by
  unfold settleDismiss
  split
  · exact .refl s
  · split
    · rename_i h
      exact .elsewhere (by simp) (by rw [h]; decide)
    · exact .refl s

theorem settleClear_take (m : Arrival) (s : State) : (settleClear m s).2.take = s.take := by
  unfold settleClear
  split
  · rfl
  · split
    · exact eachChannel_same State.take _ (fun c s => by simp) _
    · rfl

theorem answerWith_take (m : Arrival) (b : AnswerBody) (s : State) : (answerWith m b s).2.take = s.take := by
  unfold answerWith
  split <;> rfl

theorem plainQuery_take (body : State → AnswerBody) (m : Arrival) (s : State) : (plainQuery body m s).2.take = s.take := by
  unfold plainQuery
  split
  · exact answerWith_take _ _ s
  · rfl

theorem settleQueryRing_take (m : Arrival) (s : State) : (settleQueryRing m s).2.take = s.take := by
  unfold settleQueryRing
  (repeat' split) <;> first | exact answerWith_take _ _ s | rfl

theorem settleQueryCheckpoints_take (m : Arrival) (s : State) : (settleQueryCheckpoints m s).2.take = s.take := by
  unfold settleQueryCheckpoints
  (repeat' split) <;> first | exact answerWith_take _ _ s | rfl

theorem settleQueryRoster_take (m : Arrival) (s : State) : (settleQueryRoster m s).2.take = s.take := by
  unfold settleQueryRoster
  (repeat' split) <;> first | exact answerWith_take _ _ s | rfl

theorem settleQuerySampler_take (m : Arrival) (s : State) : (settleQuerySampler m s).2.take = s.take := by
  unfold settleQuerySampler
  dsimp only
  split
  · exact plainQuery_take samplerBody m s
  · exact plainQuery_take samplerBody m s

theorem settleFetch_take (m : Arrival) (s : State) : (settleFetch m s).2.take = s.take := by
  unfold settleFetch
  (repeat' split) <;> rfl

theorem settleSample_take (m : Arrival) (s : State) : (settleSample m s).2.take = s.take := by
  unfold settleSample
  (repeat' split) <;> simp [refuse]

theorem settleCue_take (m : Arrival) (s : State) : (settleCue m s).take = s.take := by
  unfold settleCue
  split <;> rfl

theorem settleUnknown_keepsOrder (m : Arrival) (s : State) : KeepsOrder s (settleUnknown m s) := by
  unfold settleUnknown
  split
  · exact addOutcome_keepsOrder _ _ _ s
  · exact .refl s

/-! ## Reports, round close, the converter -/

theorem examineReport_keepsOrder (r : Report) (c : Chan) (s : State) : KeepsOrder s (examineReport r c s) := by
  unfold examineReport
  split
  · rename_i a ch hw
    have hmoving : s.take.arm = some a ∧ a.phase = .moving := by
      unfold State.waitsFor at hw
      split at hw
      · rename_i ha _ _
        split at hw
        · rename_i hp
          cases hw
          exact ⟨ha, hp.1⟩
        · cases hw
      · cases hw
    exact .past (by (repeat' split) <;> simp) hmoving.1 (by rw [hmoving.2]; decide)
  · exact .refl s

theorem takeReport_keepsOrder (r : Report) (s : State) : KeepsOrder s (takeReport r s) :=
  KeepsOrder.trans (.of_take (rosterWrite_engine r s) rfl) (.each (examineReport_keepsOrder r) _)

theorem completeTake_keepsOrder (s : State) : KeepsOrder s (completeTake s) := by
  unfold completeTake
  split
  · rename_i h
    exact .elsewhere (by simp) (by rw [h.1]; decide)
  · exact .refl s

theorem closeRound_keepsOrder (q : Nat) (s : State) : KeepsOrder s (closeRound q s) := by
  unfold closeRound
  dsimp only
  refine KeepsOrder.trans ?_ (.of_take (beginTurn_engine _ _ _) (by simp))
  refine KeepsOrder.trans ?_ (completeTake_keepsOrder _)
  exact .of_take (by simp) (by simp)

theorem completeConversion_keepsOrder (v : Conversion) (result : Nat) (s : State) :
    KeepsOrder s (completeConversion v result s) := by
  have hwrite : KeepsOrder s (writeConversion v result (s.atTime v.completes)) := .of_take (by simp) (by simp)
  have hbreak (c : Chan) (u : State) : KeepsOrder u (wireBreak v.input c u) := by
    unfold wireBreak
    split
    · exact hardFault_keepsOrder _ _ _
    · exact .refl u
  unfold completeConversion
  dsimp only
  refine KeepsOrder.trans ?_ (.of_take (samplerBegin_engine _ _) (by simp))
  split
  · exact hwrite.trans (.each hbreak _)
  · exact hwrite

/-! ## One row of the table -/

/-- The next state an outcome gives, if any, has its rings in order when `s` has. -/
def NextKeepsOrder (s : State) (o : Host.Outcome State Fault Refusal) : Prop := ∀ t, o = .next t → KeepsOrder s t

theorem KeepsOrder.next (h : KeepsOrder s t) : NextKeepsOrder s (.next t) := by
  intro u hu
  cases hu
  exact h

/-- A row that leaves the engines and the take record. -/
theorem nextKeepsOrder_of_take (he : t.engine = s.engine) (ht : t.take = s.take) : NextKeepsOrder s (.next t) :=
  (KeepsOrder.of_take he ht).next

/-- A wait that stands at a channel of a station in order stands at a ring position. -/
theorem execWait_keepsOrder {pos : Nat} {w : Option Stamp × Nat × Option Nat × OnTimeout} (hw : s.waitStanding c = some (pos, w))
    (q : Option Nat) : KeepsOrder s (completeAndGoOn c pos q s) :=
  fun h => completeAndGoOn_keepsOrder c (waitStanding_lt h.ok hw) q s h

theorem execRecordComplete_keepsOrder (c : Chan) (s : State) : NextKeepsOrder s (execRecordComplete c s) := by
  unfold execRecordComplete
  split
  · rename_i pos hpos
    split
    · exact KeepsOrder.next fun h => completeAndGoOn_keepsOrder c ((h.ok c).path.completing_lt hpos) none s h
    · exact (KeepsOrder.refl s).next
  · exact (KeepsOrder.refl s).next

theorem execWaitStampPass_keepsOrder (c : Chan) (s : State) : NextKeepsOrder s (execWaitStampPass c s) := by
  unfold execWaitStampPass
  split
  · rename_i hw
    split
    · exact (execWait_keepsOrder hw none).next
    · exact (KeepsOrder.refl s).next
  · exact (KeepsOrder.refl s).next

theorem execWaitExpiry_keepsOrder (c : Chan) (s : State) : NextKeepsOrder s (execWaitExpiry c s) := by
  unfold execWaitExpiry
  split
  · rename_i hw
    split
    · refine KeepsOrder.next ?_
      unfold expireWait
      split
      · exact execWait_keepsOrder hw _
      · split
        · exact execWait_keepsOrder hw _
        · exact softFault_keepsOrder _ _ _
    · exact (KeepsOrder.refl s).next
  · exact (KeepsOrder.refl s).next

theorem execScanComplete_keepsOrder (c : Chan) (s : State) : NextKeepsOrder s (execScanComplete c s) := by
  unfold execScanComplete
  split
  · rename_i a p hp
    split
    · rename_i x hr
      refine KeepsOrder.next fun h => ?_
      have hpos := positioned_enginesOrdered h.engines (scanStanding_positioning hp)
      rw [hr] at hpos
      split
      · exact discardArm_ringsInOrder hpos _ _ _
      · split
        · exact commitArm_ringsInOrder hpos _
        · refine hpos.inArm ?_
          rw [(positioned_frame c p x s).2.2.2.2.1]
          exact scanStanding_positions hp
    · exact (KeepsOrder.refl s).next
  · exact (KeepsOrder.refl s).next

theorem execScanRefusal_keepsOrder (c : Chan) (s : State) : NextKeepsOrder s (execScanRefusal c s) := by
  unfold execScanRefusal
  split
  · split
    · exact (KeepsOrder.refl s).next
    · exact KeepsOrder.next fun h => discardArm_ringsInOrder (scanRefused_enginesOrdered h.engines _ _ _ _) _ _ _
    · exact KeepsOrder.next fun h => discardArm_ringsInOrder (scanRefused_enginesOrdered h.engines _ _ _ _) _ _ _
  · exact (KeepsOrder.refl s).next

theorem State.reset_ringsInOrder (st n : Nat) (pins : Pins) (q : List Instr) : (State.afterReset st n pins q).RingsInOrder := by
  have h : (State.afterReset st n pins q).enginesOrdered := by
    intro c
    fin_cases c <;> exact ⟨Engine.reset_ok, Engine.reset_ordered⟩
  refine h.unpositioned fun c => ?_
  fin_cases c <;> rfl

/-- Every command keeps the four rings in R27's order. -/
theorem exec_keepsOrder (i : Instr) (s : State) : NextKeepsOrder s (exec i s) := by
  have same : NextKeepsOrder s (.next s) := (KeepsOrder.refl s).next
  cases i with
  | reset straps pins => exact KeepsOrder.next fun _ => State.reset_ringsInOrder _ _ _ _
  | frameEdge time before after => exact (edgeRow_keepsOrder time s _).next
  | rollPulse time before after => exact (edgeRow_keepsOrder time s _).next
  | lastTakeFrame time before after => exact (edgeRow_keepsOrder time s _).next
  | followerDone time before after c => exact (edgeRow_keepsOrder time s _).next
  | lostFrameExpiry =>
    change NextKeepsOrder s (execLostFrameExpiry s)
    unfold execLostFrameExpiry
    split
    · exact nextKeepsOrder_of_take (expireFrame_engine _ _ _) (by simp)
    · exact same
  | subBeat =>
    change NextKeepsOrder s (execSubBeat s)
    unfold execSubBeat
    split
    · exact (scheduledBeat_keepsOrder _ _ _ _ s).next
    · exact same
  | freeSubBeat =>
    change NextKeepsOrder s (execFreeSubBeat s)
    unfold execFreeSubBeat
    split
    · split
      · exact (freeBeat_keepsOrder _ _ s).next
      · exact same
    · exact same
  | stopped c =>
    change NextKeepsOrder s (execStopped c s)
    unfold execStopped
    split
    · split
      · exact (finishStop_keepsOrder c s).next
      · exact same
    · exact same
  | recordComplete c => exact execRecordComplete_keepsOrder c s
  | originRecord c => exact (takeWhen_keepsOrder _ c s).next
  | shapeRecord c => exact (takeWhen_keepsOrder _ c s).next
  | spanRecord c => exact (takeWhen_keepsOrder _ c s).next
  | dwellRecord c => exact (takeWhen_keepsOrder _ c s).next
  | loopOpenRecord c => exact (takeWhen_keepsOrder _ c s).next
  | loopCloseRecord c => exact (takeWhen_keepsOrder _ c s).next
  | waitCueRecord c => exact (takeWhen_keepsOrder _ c s).next
  | emitCueRecord c => exact (takeWhen_keepsOrder _ c s).next
  | endRecord c => exact (takeWhen_keepsOrder _ c s).next
  | noneRecord c => exact (takeWhen_keepsOrder _ c s).next
  | stall c =>
    change NextKeepsOrder s (execStall c s)
    unfold execStall
    split
    · exact (takeOne_keepsOrder c s).next
    · exact same
  | waitStampPass c => exact execWaitStampPass_keepsOrder c s
  | waitExpiry c => exact execWaitExpiry_keepsOrder c s
  | followError c => exact (faultOnFollow_keepsOrder c s).next
  | stepPulse c =>
    change NextKeepsOrder s (execStepPulse c s)
    unfold execStepPulse
    (repeat' split) <;> exact nextKeepsOrder_of_take (by simp) (by simp)
  | reportSlot =>
    change NextKeepsOrder s (execReportSlot s)
    unfold execReportSlot
    (repeat' split) <;> exact nextKeepsOrder_of_take (by simp) (by simp)
  | reportSent mismatch =>
    change NextKeepsOrder s (execReportSent mismatch s)
    have hsent (r : FullReport) (x : Sending) : KeepsOrder s (readBack mismatch (reportedOutcomes r (endSending x.ends s))) :=
      .of_take (by simp) (by simp)
    unfold execReportSent
    dsimp only
    split
    · split
      · split
        · exact (hsent _ _).next
        · exact ((hsent _ _).trans (takeReport_keepsOrder _ _)).next
      · exact same
      · exact same
    · exact same
  | reportArrival a =>
    change NextKeepsOrder s (execReportArrival a s)
    have htaken (r : Report) : KeepsOrder s (takeReport r (s.heard a)) :=
      (heard_keepsOrder a s).trans (takeReport_keepsOrder r _)
    unfold execReportArrival
    split
    · split
      · exact nextKeepsOrder_of_take (by simp) (by simp)
      · exact (htaken _).next
    · exact (htaken _).next
    · split
      · exact (receive_keepsOrder (fun _ u => .refl u) a s).next
      · exact same
  | roundClose =>
    change NextKeepsOrder s (execRoundClose s)
    unfold execRoundClose
    split
    · exact (closeRound_keepsOrder _ s).next
    · exact same
  | joined =>
    change NextKeepsOrder s (execJoined s)
    unfold execJoined
    split
    · split
      · exact (closeRound_keepsOrder _ s).next
      · exact same
    · exact same
  | entryAbsent station =>
    change NextKeepsOrder s (execEntryAbsent station s)
    unfold execEntryAbsent
    split
    · split
      · exact (closeRound_keepsOrder _ s).next
      · exact same
    · exact same
  | turnStart =>
    change NextKeepsOrder s (execTurnStart s)
    unfold execTurnStart
    (repeat' split) <;> exact nextKeepsOrder_of_take (by simp) (by simp)
  | messageSent =>
    change NextKeepsOrder s (execMessageSent s)
    unfold execMessageSent
    (repeat' split) <;> exact nextKeepsOrder_of_take (by simp) (by simp)
  | busError a =>
    change NextKeepsOrder s (execBusError a s)
    unfold execBusError
    split <;> exact nextKeepsOrder_of_take (by simp) (by simp)
  | setupLines a =>
    exact (request_keepsOrder (fun m s => .of_take (settleSetupLines_engine m s) (settleSetupLines_take m s)) _ a s).next
  | setupChannel a pins =>
    exact (request_keepsOrder
      (fun m s => .of_take (settleSetupChannel_engine pins m s) (settleSetupChannel_take pins m s)) _ a s).next
  | enlist a => exact (request_keepsOrder settleEnlist_keepsOrder _ a s).next
  | dismiss a => exact (request_keepsOrder settleDismiss_keepsOrder _ a s).next
  | load a => exact (request_keepsOrder settleLoad_keepsOrder _ a s).next
  | advance a => exact (request_keepsOrder settleAdvance_keepsOrder _ a s).next
  | release a => exact (request_keepsOrder settleRelease_keepsOrder _ a s).next
  | clearRing a => exact (request_keepsOrder settleClearRing_keepsOrder _ a s).next
  | arm a => exact (receiveKind_keepsOrder (broadcast_keepsOrder settleArm_keepsOrder) _ a s).next
  | roll a => exact (receiveKind_keepsOrder (broadcast_keepsOrder settleRoll_keepsOrder) _ a s).next
  | disband a => exact (receiveKind_keepsOrder (broadcast_keepsOrder settleDisband_keepsOrder) _ a s).next
  | clear a => exact (request_keepsOrder (fun m s => .of_take (settleClear_engine m s) (settleClear_take m s)) _ a s).next
  | cue a => exact (receiveKind_keepsOrder (fun m s => .of_take (settleCue_engine m s) (settleCue_take m s)) _ a s).next
  | queryRing a =>
    exact (query_keepsOrder (fun m s => .of_take (settleQueryRing_engine m s) (settleQueryRing_take m s)) _ a s).next
  | queryCheckpoints a =>
    exact (query_keepsOrder
      (fun m s => .of_take (settleQueryCheckpoints_engine m s) (settleQueryCheckpoints_take m s)) _ a s).next
  | queryRoster a =>
    exact (query_keepsOrder (fun m s => .of_take (settleQueryRoster_engine m s) (settleQueryRoster_take m s)) _ a s).next
  | queryHoldCauses a =>
    exact (query_keepsOrder (fun m s => .of_take (plainQuery_engine _ m s) (plainQuery_take _ m s)) _ a s).next
  | queryCueBoard a =>
    exact (query_keepsOrder (fun m s => .of_take (plainQuery_engine _ m s) (plainQuery_take _ m s)) _ a s).next
  | queryLines a pins =>
    change NextKeepsOrder s (execQueryLines a pins s)
    unfold execQueryLines
    split
    · exact (KeepsOrder.trans (.of_take (s.withPins_engine pins) rfl) (receive_keepsOrder
        (addressed_keepsOrder fun m s => .of_take (plainQuery_engine _ m s) (plainQuery_take _ m s)) a _)).next
    · exact same
  | querySampler a =>
    exact (query_keepsOrder (fun m s => .of_take (settleQuerySampler_engine m s) (settleQuerySampler_take m s)) _ a s).next
  | queryNoKnownRegion a => exact (query_keepsOrder (fun _ s => .refl s) _ a s).next
  | fetch a => exact (request_keepsOrder (fun m s => .of_take (settleFetch_engine m s) (settleFetch_take m s)) _ a s).next
  | sample a => exact (request_keepsOrder (fun m s => .of_take (settleSample_engine m s) (settleSample_take m s)) _ a s).next
  | answer a => exact (receiveKind_keepsOrder (fun _ s => .refl s) _ a s).next
  | unknownKind a =>
    change NextKeepsOrder s (execUnknownKind a s)
    unfold execUnknownKind
    split
    · exact (receive_keepsOrder settleUnknown_keepsOrder a s).next
    · exact same
  | scanComplete c => exact execScanComplete_keepsOrder c s
  | scanRefusal c => exact execScanRefusal_keepsOrder c s
  | holdFall time samples =>
    change NextKeepsOrder s (execHoldFall time samples s)
    unfold execHoldFall
    split
    · have hlow : KeepsOrder s { s.atTime time with holdInput := false } := .of_take rfl rfl
      exact (hlow.trans (holdFalls_keepsOrder _)).next
    · exact same
  | holdRise time samples =>
    change NextKeepsOrder s (execHoldRise time samples s)
    unfold execHoldRise
    split <;> exact nextKeepsOrder_of_take rfl rfl
  | limitActive time c plus samples =>
    change NextKeepsOrder s (execLimitActive time c plus samples s)
    unfold execLimitActive
    split
    · exact (KeepsOrder.trans (.of_take (by simp) (by simp)) (hardFault_keepsOrder c .limit _)).next
    · exact same
  | limitInactive time c plus samples =>
    change NextKeepsOrder s (execLimitInactive time c plus samples s)
    unfold execLimitInactive
    split <;> exact nextKeepsOrder_of_take (by simp) (by simp)
  | encoderChange time c first second =>
    change NextKeepsOrder s (execEncoderChange time c first second s)
    unfold execEncoderChange
    dsimp only
    split
    · split
      · exact (KeepsOrder.trans (.of_take (by simp) (by simp)) (hardFault_keepsOrder c .encoderSkip _)).next
      · exact nextKeepsOrder_of_take (by simp) (by simp)
    · exact same
  | wheelChange time c first second =>
    change NextKeepsOrder s (execWheelChange time c first second s)
    unfold execWheelChange
    split <;> exact nextKeepsOrder_of_take (by simp) (by simp)
  | wakeEnd =>
    change NextKeepsOrder s (execWakeEnd s)
    unfold execWakeEnd
    split <;> exact nextKeepsOrder_of_take (by simp) (by simp)
  | conversionComplete result =>
    change NextKeepsOrder s (execConversionComplete result s)
    unfold execConversionComplete
    split
    · split
      · exact (completeConversion_keepsOrder _ _ s).next
      · exact same
    · exact same

theorem step_keepsOrder (s : State) : NextKeepsOrder s (step s) := by
  unfold step
  split
  · exact (KeepsOrder.refl s).next
  · rename_i rest _
    have hqueue : KeepsOrder s (s.withPending rest) := .of_take rfl rfl
    exact fun t ht => hqueue.trans (exec_keepsOrder _ _ t ht)

/-! ## The pointers under the ring requests -/

/-- What stands between two positions stays between them when release moves up to the first. -/
theorem ringDistance_moved_le {r y a b : Nat} (hr : r < Config.ringSize) (hy : y < Config.ringSize) (ha : a < Config.ringSize)
    (hb : b < Config.ringSize) (hya : ringDistance r y ≤ ringDistance r a) (hab : ringDistance r a ≤ ringDistance r b) :
    ringDistance y a ≤ ringDistance y b := by
  rw [ringDistance_moved hr hy ha hya, ringDistance_moved hr hy hb (hya.trans hab)]
  exact Nat.sub_le_sub_right hab _

/-- RELEASE keeps head between release and tail, and no farther from release, and every limit at or before head. -/
theorem moveRelease_pointers {e : Engine} {x : Nat} (he : e.Ok) (hx : x < 1024)
    (hht : ringDistance e.release e.path.head ≤ ringDistance e.release e.tail)
    (hxh : ringDistance e.release x ≤ ringDistance e.release e.path.head)
    (hl : ∀ p ∈ e.limits, ringDistance e.release p ≤ ringDistance e.release e.path.head) :
    let f := e.moveRelease (e.releaseTo x)
    ringDistance f.release f.path.head ≤ ringDistance f.release f.tail ∧
      ringDistance f.release f.path.head ≤ ringDistance e.release e.path.head ∧
      ∀ p ∈ f.limits, ringDistance f.release p ≤ ringDistance f.release f.path.head := by
  obtain ⟨hnear, hlimits⟩ := foldl_nearer_le e e.limits x
  have hy : e.releaseTo x < Config.ringSize := he.releaseTo hx
  have hyh : ringDistance e.release (e.releaseTo x) ≤ ringDistance e.release e.path.head := hnear.trans hxh
  refine ⟨ringDistance_moved_le he.release hy he.path.head he.tail hyh hht, ?_, fun p hp => ?_⟩
  · exact (ringDistance_moved he.release hy he.path.head hyh).le.trans (Nat.sub_le _ _)
  · exact ringDistance_moved_le he.release hy (he.limits p hp) he.path.head (hlimits p hp) (hl p hp)

/-- Settles O41: a step is the front command's row, and each row keeps the order. -/
theorem ringRequestsKeepThePointersInOrder : Obligations.RingRequestsKeepThePointersInOrder := by
  refine ⟨fun s t h ht => step_keepsOrder s t ht h, State.reset_ringsInOrder 0 8 _ [], fun e x he hx hht => ?_⟩
  exact ⟨fun hm => hht.trans (mayAdvance_iff.mp hm).2, moveRelease_pointers he hx hht, rfl, rfl, rfl⟩

end Sys2Proof.Machine
end

