-- ==== Sys2Proof/Proofs/RingRequestsSettled.lean ====
section
/-! How the ring requests are settled (R29 to R39): what each answers and leaves, by its checks in order, and where a RELEASE
moves release. -/

set_option Elab.async false

namespace Sys2Proof.Machine

variable {s u : State} {c : Chan} {a : Activity} {m : Arrival}

/-- A valid request to this station whose owner answers `r` and leaves `u`. -/
theorem receiveKind_settles {k : Nat} {f : Arrival → State → Settled} {r : Result} (h : s.reaches k a)
    (hf : f (arrivalOf a) (s.heard a) = (r, u)) :
    Host.Outcome.next (φ := Fault) (ρ := Refusal) (receiveKind k a (addressed f) s) = .next (State.settled a r u) := by
  rw [receiveKind_reaches f h, hf]

theorem chan?_above {n : Nat} (h : 3 < n) : chan? n = none := dif_neg (by omega)

theorem chan?_lt {n : Nat} (h : chan? n = some c) : n < 4 := by
  by_contra hn
  rw [chan?_above (by omega)] at h
  cases h

/-! ## LOAD (R30, R31) -/

theorem wellFormedRecords_eq_some {rs : List (Option Entry)} : ∀ {es : List Entry},
    wellFormedRecords rs = some es ↔ rs = es.map some := by
  induction rs with
  | nil =>
    intro es
    cases es <;> simp [wellFormedRecords]
  | cons r rs ih =>
    intro es
    cases r with
    | none => cases es <;> simp [wellFormedRecords]
    | some e =>
      cases es with
      | nil => simp [wellFormedRecords]
      | cons x xs => simp [wellFormedRecords, ih, and_comm]

/-- LOAD's checks ahead of the free region: the payload, the channel, the records, the start and the count. -/
theorem settleLoad_range (h : readLoad m.payload = none ∨ ∃ q, readLoad m.payload = some q ∧
      (3 < q.channel ∨ none ∈ q.records ∨ 1024 ≤ q.start ∨ q.records.length = 0 ∨ 4 < q.records.length)) :
    settleLoad m s = (.refusedRange, s) := by
  unfold settleLoad
  rcases h with h | ⟨q, hq, h⟩
  · rw [h]
    rfl
  · rw [hq]
    dsimp only
    split
    · rename_i c es hc hes
      have hn := chan?_lt hc
      rw [wellFormedRecords_eq_some] at hes
      have hnone : none ∉ q.records := by simp [hes]
      rw [hes, List.length_map] at h
      refine if_pos (show 1024 ≤ q.start ∨ es.length = 0 ∨ 4 < es.length from ?_)
      rcases h with h | h | h
      · omega
      · exact absurd (hes ▸ h) hnone
      · exact h
    · rfl

/-- LOAD with every check ahead of the free region passed. -/
theorem settleLoad_free {q : LoadRequest} {es : List Entry} (hq : readLoad m.payload = some q) (hc : chan? q.channel = some c)
    (hes : q.records = es.map some) (hs : q.start < 1024) (h1 : 1 ≤ es.length) (h4 : es.length ≤ 4) :
    settleLoad m s = if (s.engine c).freeFrom q.start es.length then
      (.accepted, s.setEngine c { s.engine c with ring := writeEntries (s.engine c).ring q.start es })
    else (.refusedOwned, s) := by
  have hrange : ¬ (Config.ringSize ≤ q.start ∨ es.length = 0 ∨ 4 < es.length) := by
    unfold Config.ringSize
    omega
  unfold settleLoad
  rw [hq]
  dsimp only
  rw [hc, wellFormedRecords_eq_some.mpr hes]
  dsimp only
  rw [if_neg hrange]
  rfl

theorem freeFrom_iff {e : Engine} {p n : Nat} : e.freeFrom p n = true ↔ ∀ k < n, e.isFree ((p + k) % 1024) = true := by
  simp only [Engine.freeFrom, List.all_eq_true, List.mem_range]
  rfl

/-- What stands at `x` after a LOAD's writes from `p`: the record at its distance from `p`, or what stood there. -/
theorem ringGet_writeEntries {x : Nat} (hx : x < 1024) (es : List Entry) : ∀ {r : List (Nat × Entry)} {p : Nat},
    ringWf r = true → p < 1024 → es.length ≤ 1024 → ringGet (writeEntries r p es) x =
      if (x + 1024 - p) % 1024 < es.length then es.getD ((x + 1024 - p) % 1024) Entry.blank else ringGet r x := by
  induction es with
  | nil => intros; rfl
  | cons e es ih =>
    intro r p hr hp hlen
    rw [List.length_cons] at hlen ⊢
    rw [writeEntries, ih (ringWf_ringPut e hr hp) (ringStep_lt p 1) (by omega)]
    by_cases hxp : x = p
    · have hfar : (x + 1024 - ringStep p 1) % 1024 = 1023 := by
        unfold ringStep Config.ringSize
        omega
      have hnear : (x + 1024 - p) % 1024 = 0 := by omega
      rw [hfar, hnear, if_neg (by omega), if_pos (by omega), hxp, ringGet_ringPut_same p e hr]
      rfl
    · have hnext : (x + 1024 - p) % 1024 = (x + 1024 - ringStep p 1) % 1024 + 1 := by
        unfold ringStep Config.ringSize
        omega
      rw [hnext, List.getD_cons_succ, ringGet_ringPut_ne e hxp hr]
      simp only [Nat.add_lt_add_iff_right]

/-- A record that a LOAD reads has no stamp (R31). -/
theorem readLoad_stamp {p : List Byte} {q : LoadRequest} (h : readLoad p = some q) {e : Entry} (he : some e ∈ q.records) :
    e.stamp = none := by
  unfold readLoad at h
  dsimp only at h
  split at h
  · cases h
    obtain ⟨b, -, hb⟩ := List.mem_map.mp he
    obtain ⟨r, -, rfl⟩ := Option.map_eq_some_iff.mp hb
    rfl
  · cases h

/-- Settles O38. -/
theorem loadWritesFreeEntries : Obligations.LoadWritesFreeEntries := by
  refine ⟨fun s a h hq => receiveKind_settles h (settleLoad_range ?_), fun s a q c hok h hq hc => ⟨?_, ?_⟩⟩
  · exact hq.imp_right fun ⟨q, hq, hc⟩ => ⟨q, hq, .inl hc⟩
  · intro es hes hs h1 h4
    have hload := settleLoad_free (s := s.heard a) hq hc hes hs h1 h4
    refine ⟨fun hfree => ⟨writeEntries (s.engine c).ring q.start es, ?_, ?_, fun x hx => ?_, fun p hp => ?_⟩, fun hown => ?_⟩
    · exact receiveKind_settles h (hload.trans (if_pos (freeFrom_iff.mpr hfree)))
    · exact ringWf_writeEntries es (hok c).ring hs
    · exact readLoad_stamp hq (hes ▸ List.mem_map_of_mem hx)
    · exact ringGet_writeEntries hp es (hok c).ring hs (by omega)
    · obtain ⟨k, hk, hf⟩ := hown
      refine receiveKind_settles h (hload.trans (if_neg fun hfree => ?_))
      exact absurd (freeFrom_iff.mp hfree k hk) (by rw [State.heard_engine, hf]; decide)
  · intro hbad
    refine receiveKind_settles h (settleLoad_range (.inr ⟨q, hq, ?_⟩))
    tauto

/-! ## ADVANCE and CLEAR_RING (R33, R38) -/

theorem settleAdvance_at {n x : Nat} (hp : readChannelPosition m.payload = some (n, x)) (hc : chan? n = some c) :
    settleAdvance m s = if (s.engine c).mayAdvance x then (.accepted, s.setEngine c { s.engine c with tail := x })
      else (.refusedRange, s) := by
  unfold settleAdvance
  rw [hp]
  dsimp only
  rw [hc]
  rfl

theorem settleAdvance_above {n x : Nat} (hp : readChannelPosition m.payload = some (n, x)) (hn : 3 < n) :
    settleAdvance m s = (.refusedRange, s) := by
  unfold settleAdvance
  rw [hp]
  dsimp only
  rw [chan?_above hn]
  rfl

theorem settleClearRing_at {n : Nat} (hp : readByte m.payload = some n) (hc : chan? n = some c) :
    settleClearRing m s = if s.take.state = .idle ∨ s.take.state = .safe then (.accepted, s.setEngine c (s.engine c).cleared)
      else (.refusedState, s) := by
  unfold settleClearRing
  rw [hp, Option.bind_some, hc]
  rfl

theorem settleClearRing_above {n : Nat} (hp : readByte m.payload = some n) (hn : 3 < n) :
    settleClearRing m s = (.refusedRange, s) := by
  unfold settleClearRing
  rw [hp, Option.bind_some, chan?_above hn]
  rfl

/-- Settles O39. -/
theorem advanceAndClearRing : Obligations.AdvanceAndClearRing := by
  refine ⟨fun s a n x h hp => ⟨fun c hc => ?_, fun hn => ?_⟩, fun s a n h hp => ⟨fun c hc => ?_, fun hn => ?_⟩⟩
  · have hadvance := settleAdvance_at (s := s.heard a) hp hc
    refine ⟨fun hx hle => ?_, fun hno => ?_⟩
    · exact receiveKind_settles h (hadvance.trans (if_pos (mayAdvance_iff.mpr ⟨hx, hle⟩)))
    · refine receiveKind_settles h (hadvance.trans (if_neg fun hm => ?_))
      obtain ⟨hx, hle⟩ := mayAdvance_iff.mp hm
      rw [State.heard_engine] at hle
      omega
  · exact receiveKind_settles h (settleAdvance_above hp hn)
  · have hclear := settleClearRing_at (s := s.heard a) hp hc
    refine ⟨fun hst => ?_, fun hi hs => ?_⟩
    · exact receiveKind_settles h (hclear.trans (if_pos hst))
    · exact receiveKind_settles h (hclear.trans (if_neg (not_or.mpr ⟨hi, hs⟩)))
  · exact receiveKind_settles h (settleClearRing_above hp hn)

/-! ## RELEASE (R34 to R36, R39) -/

/-- A RELEASE to a ring position of one of the four channels. -/
theorem settleRelease_at {n x : Nat} (hp : readChannelPosition m.payload = some (n, x)) (hc : chan? n = some c)
    (hx : x < 1024) : settleRelease m s =
      if s.positions c then (.busy, s)
      else if ringDistance (s.engine c).release (s.engine c).path.head < ringDistance (s.engine c).release x then
        (.refusedRange, s)
      else (if (s.engine c).releasable x then .accepted else .clipped,
        s.setEngine c ((s.engine c).moveRelease ((s.engine c).releaseTo x))) := by
  have hr : ¬ Config.ringSize ≤ x := Nat.not_le.mpr hx
  unfold settleRelease
  rw [hp]
  dsimp only
  rw [hc]
  dsimp only
  rw [if_neg hr]
  rfl

theorem settleRelease_range {n x : Nat} (hp : readChannelPosition m.payload = some (n, x)) (h : 3 < n ∨ 1024 ≤ x) :
    settleRelease m s = (.refusedRange, s) := by
  unfold settleRelease
  rw [hp]
  dsimp only
  split
  · rename_i c hc
    have hn := chan?_lt hc
    exact if_pos (show 1024 ≤ x by omega)
  · rfl

theorem Engine.mem_limits {e : Engine} {p : Nat} :
    p ∈ e.limits ↔ p ∈ e.path.stack.map Loop.openAt ∨ ∃ pr, e.path.progress = some pr ∧ p = pr.position := by
  simp only [Engine.limits, List.mem_append, Option.mem_toList, Option.map_eq_some_iff, eq_comm]

theorem Engine.releasable_iff {e : Engine} {x : Nat} :
    e.releasable x = true ↔ ∀ p ∈ e.limits, ringDistance e.release x ≤ ringDistance e.release p := by
  simp only [Engine.releasable, List.all_eq_true, decide_eq_true_eq]

theorem foldl_nearer_mem (e : Engine) (l : List Nat) : ∀ x : Nat, l.foldl e.nearer x = x ∨ l.foldl e.nearer x ∈ l := by
  induction l with
  | nil => exact fun x => .inl rfl
  | cons p ps ih =>
    intro x
    rw [List.foldl_cons]
    rcases ih (e.nearer x p) with h | h
    · rw [h]
      unfold Engine.nearer
      split
      · exact .inr List.mem_cons_self
      · exact .inl rfl
    · exact .inr (List.mem_cons_of_mem _ h)

/-- Release moves as far as R' exactly where no limit is nearer. -/
theorem Engine.releaseTo_distance (e : Engine) (x : Nat) :
    (e.releasable x = true → ringDistance e.release (e.releaseTo x) = ringDistance e.release x) ∧
      (e.releasable x = false → ringDistance e.release (e.releaseTo x) < ringDistance e.release x) := by
  obtain ⟨hle, hlimits⟩ := foldl_nearer_le e e.limits x
  refine ⟨fun h => ?_, fun h => ?_⟩
  · rcases foldl_nearer_mem e e.limits x with heq | hmem
    · exact congrArg _ heq
    · exact le_antisymm hle (releasable_iff.mp h _ hmem)
  · by_contra hge
    refine absurd (releasable_iff.mpr fun p hp => ?_) (by rw [h]; decide)
    exact le_trans (Nat.le_of_not_lt hge) (hlimits p hp)

/-- Settles O40. -/
theorem releaseMovesToTheLimit : Obligations.ReleaseMovesToTheLimit := by
  intro s a n x _ h hp
  refine ⟨fun hr => receiveKind_settles h (settleRelease_range hp hr), fun c hc hx => ?_⟩
  have hrel := settleRelease_at (s := s.heard a) hp hc hx
  have hfree (hs : (s.drive c).state ≠ .seeking) (hn : (s.engine c).positioning = none) : (s.heard a).positions c ≠ true := by
    rw [Ne, Bool.not_eq_true]
    exact positions_false_iff.mpr ⟨hs, hn⟩
  refine ⟨fun hbusy => ?_, fun hs hn hbeyond => ?_, fun hs hn hle => ?_⟩
  · refine receiveKind_settles h (hrel.trans (if_pos ?_))
    by_contra hno
    obtain ⟨hs, hn⟩ := positions_false_iff.mp (Bool.eq_false_of_not_eq_true hno)
    exact hbusy.elim hs fun k => k hn
  · exact receiveKind_settles h (hrel.trans ((if_neg (hfree hs hn)).trans (if_pos hbeyond)))
  · have hmove := hrel.trans ((if_neg (hfree hs hn)).trans (if_neg (Nat.not_lt.mpr hle)))
    obtain ⟨hnear, hlimits⟩ := foldl_nearer_le (s.engine c) (s.engine c).limits x
    obtain ⟨haccept, hclip⟩ := (s.engine c).releaseTo_distance x
    refine ⟨(s.engine c).releaseTo x, ?_, hnear, fun l hl => ?_, fun pr hpr => ?_, _, ?_, receiveKind_settles h hmove⟩
    · exact (foldl_nearer_mem _ _ x).imp_right Engine.mem_limits.mp
    · exact hlimits _ (Engine.mem_limits.mpr (.inl (List.mem_map_of_mem hl)))
    · exact hlimits _ (Engine.mem_limits.mpr (.inr ⟨pr, hpr, rfl⟩))
    · rw [State.heard_engine]
      cases hx : (s.engine c).releasable x with
      | true => exact .inl ⟨rfl, haccept hx⟩
      | false => exact .inr ⟨rfl, hclip hx⟩

end Sys2Proof.Machine
end

