-- ==== Sys2Proof/Proofs/QueriesAnswered.lean ====
section
/-! QUERY of every region (R45, R60, R88, R107, R153, R182, R200): the row reached by the region named, the region's checks, and
the answer with a place free or BUSY without (R87). -/

set_option Elab.async false

namespace Sys2Proof.Machine

variable {s u v : State} {c : Chan} {a : Activity} {m : Arrival} {b : AnswerBody} {p : List Byte}

/-! ## A QUERY reaching its row -/

theorem queries_of {r : Nat} (h : s.reaches 0x20 a) (hr : a.region? = some r) : queries r a = true := by
  rw [queries, h.1, hr, Bool.true_and, beq_self_eq_true]

theorem queriesNothing_of (h : s.reaches 0x20 a) (hr : a.region? = none ∨ a.region? = some 0 ∨ ∃ r, a.region? = some r ∧ 7 < r) :
    queriesNothing a = true := by
  rw [queriesNothing, h.1, Bool.true_and, Bool.not_eq_true']
  rcases hr with hr | hr | ⟨r, hr, h7⟩
  · rw [hr]
    rfl
  · rw [hr]
    rfl
  · rw [hr]
    exact decide_eq_false (by omega)

/-- A QUERY of the row's region, whose owner answers `r` and leaves `u`. What another region's row leaves (`v`) is no matter. -/
theorem query_settles {f : Arrival → State → Settled} {q : Bool} {r : Result} (h : s.reaches 0x20 a) (hq : q = true)
    (hf : f (arrivalOf a) (s.heard a) = (r, u)) :
    Host.Outcome.next (φ := Fault) (ρ := Refusal) (if q then receive a (addressed f) s else v) =
      .next (State.settled a r u) := by
  rw [if_pos hq, ← receiveKind_settles h hf, receiveKind, if_pos h.1]

theorem answerWith_room (h : s.port.answers.length < 4) (b : AnswerBody) :
    answerWith m b s = (.accepted, takePlace m.sender m.seq (some b) s) := if_pos (decide_eq_true h)

theorem answerWith_full (h : ¬ s.port.answers.length < 4) (b : AnswerBody) : answerWith m b s = (.busy, s) :=
  if_neg (by rw [answerRoom, decide_eq_false h]; decide)

/-- A QUERY whose parameters hold is answered with a place free, and BUSY with none (R87). -/
theorem query_answers {f : Arrival → State → Settled} {q : Bool} (h : s.reaches 0x20 a) (hq : q = true)
    (hf : f (arrivalOf a) (s.heard a) = answerWith (arrivalOf a) b (s.heard a)) :
    (s.port.answers.length < 4 → Host.Outcome.next (φ := Fault) (ρ := Refusal)
      (if q then receive a (addressed f) s else v) = .next (State.settled a .accepted
        (takePlace (arrivalOf a).sender (arrivalOf a).seq (some b) (s.heard a)))) ∧
    (¬ s.port.answers.length < 4 → Host.Outcome.next (φ := Fault) (ρ := Refusal)
      (if q then receive a (addressed f) s else v) = .next (State.settled a .busy (s.heard a))) :=
  ⟨fun hr => query_settles h hq (hf.trans (answerWith_room (s := s.heard a) hr b)),
    fun hr => query_settles h hq (hf.trans (answerWith_full (s := s.heard a) hr b))⟩

/-! ## The checks of each region -/

theorem params_none {n : Nat} (h : p.length ≠ n + 1) : params n p = none := if_neg h

theorem settleQueryRing_in (hp : params 4 m.payload = some p) (hc : chan? (field p 0 1) = some c) (hs : field p 1 2 < 1024)
    (h1 : 1 ≤ field p 3 1) (h4 : field p 3 1 ≤ 4) :
    settleQueryRing m s = answerWith m (ringBody s c (field p 1 2) (field p 3 1)) s := by
  unfold settleQueryRing
  rw [hp]
  dsimp only
  rw [hc]
  exact if_pos ⟨hs, h1, h4⟩

theorem settleQueryRing_out (hp : params 4 m.payload = some p)
    (h : 3 < field p 0 1 ∨ 1024 ≤ field p 1 2 ∨ field p 3 1 = 0 ∨ 4 < field p 3 1) :
    settleQueryRing m s = (.refusedRange, s) := by
  unfold settleQueryRing
  rw [hp]
  dsimp only
  split
  · rename_i c hc
    have hn := chan?_lt hc
    refine if_neg ?_
    unfold Config.ringSize
    omega
  · rfl

theorem settleQueryRing_length (h : m.payload.length ≠ 5) : settleQueryRing m s = (.refusedRange, s) := by
  unfold settleQueryRing
  rw [params_none h]
  rfl

theorem settleQueryCheckpoints_in (hp : params 3 m.payload = some p) (hc : chan? (field p 0 1) = some c)
    (hs : field p 1 1 < 16) (h1 : 1 ≤ field p 2 1) (h2 : field p 2 1 ≤ 2) :
    settleQueryCheckpoints m s = answerWith m (checkpointBody s c (field p 1 1) (field p 2 1)) s := by
  unfold settleQueryCheckpoints
  rw [hp]
  dsimp only
  rw [hc]
  exact if_pos ⟨hs, h1, h2⟩

theorem settleQueryCheckpoints_out (hp : params 3 m.payload = some p)
    (h : 3 < field p 0 1 ∨ 16 ≤ field p 1 1 ∨ field p 2 1 = 0 ∨ 2 < field p 2 1) :
    settleQueryCheckpoints m s = (.refusedRange, s) := by
  unfold settleQueryCheckpoints
  rw [hp]
  dsimp only
  split
  · rename_i c hc
    have hn := chan?_lt hc
    exact if_neg (by omega)
  · rfl

theorem settleQueryCheckpoints_length (h : m.payload.length ≠ 4) : settleQueryCheckpoints m s = (.refusedRange, s) := by
  unfold settleQueryCheckpoints
  rw [params_none h]
  rfl

theorem settleQueryRoster_in (hp : params 1 m.payload = some p) (hn : field p 0 1 < 16) :
    settleQueryRoster m s = answerWith m (.roster (s.entry (field p 0 1)) s.roster.summary) s := by
  unfold settleQueryRoster
  rw [hp]
  exact if_pos hn

theorem settleQueryRoster_out (hp : params 1 m.payload = some p) (hn : 16 ≤ field p 0 1) :
    settleQueryRoster m s = (.refusedRange, s) := by
  unfold settleQueryRoster
  rw [hp]
  exact if_neg (Nat.not_lt.mpr hn)

theorem settleQueryRoster_length (h : m.payload.length ≠ 2) : settleQueryRoster m s = (.refusedRange, s) := by
  unfold settleQueryRoster
  rw [params_none h]
  rfl

theorem plainQuery_in (body : State → AnswerBody) (h : m.payload.length = 1) :
    plainQuery body m s = answerWith m (body s) s := by
  unfold plainQuery
  rw [params, if_pos h]

theorem plainQuery_length (body : State → AnswerBody) (h : m.payload.length ≠ 1) :
    plainQuery body m s = (.refusedRange, s) := by
  unfold plainQuery
  rw [params_none h]
  rfl

/-- The sampler's overrun flag is cleared with the answer alone (R176, R182). -/
theorem settleQuerySampler_accepted (h : plainQuery samplerBody m s = (.accepted, u)) :
    settleQuerySampler m s = (.accepted, clearOverrun u) := by
  unfold settleQuerySampler
  rw [h]
  rfl

theorem settleQuerySampler_refused {r : Result} (h : plainQuery samplerBody m s = (r, u)) (hr : r ≠ .accepted) :
    settleQuerySampler m s = (r, u) := by
  unfold settleQuerySampler
  rw [h]
  exact if_neg hr

/-- The pins seen with the QUERY of the lines are no matter for its arrival. -/
theorem withPins_reaches {k : Nat} (pins : Pins) (h : s.reaches k a) : (s.withPins pins).reaches k a := h

/-- Settles O55: one region after the other, each by its checks. -/
theorem queriesAnswerFromTheState : Obligations.QueriesAnswerFromTheState := by
  intro s a p h
  refine ⟨fun hr => ?_, fun hr => ?_, fun hr => ?_, fun hr => ?_, fun hr => ?_, fun pins hr => ?_, fun hr => ?_, fun hr => ?_⟩
  · have hq := queries_of h hr
    refine ⟨fun c hp hc hs h1 h4 => query_answers h hq (settleQueryRing_in hp hc hs h1 h4), fun hp ho => ?_, fun hl => ?_⟩
    · exact query_settles h hq (settleQueryRing_out hp ho)
    · exact query_settles h hq (settleQueryRing_length hl)
  · have hq := queries_of h hr
    refine ⟨fun c hp hc hs h1 h2 => query_answers h hq (settleQueryCheckpoints_in hp hc hs h1 h2), fun hp ho => ?_, fun hl => ?_⟩
    · exact query_settles h hq (settleQueryCheckpoints_out hp ho)
    · exact query_settles h hq (settleQueryCheckpoints_length hl)
  · have hq := queries_of h hr
    refine ⟨fun hp hn => query_answers h hq (settleQueryRoster_in hp hn), fun hp hn => ?_, fun hl => ?_⟩
    · exact query_settles h hq (settleQueryRoster_out hp hn)
    · exact query_settles h hq (settleQueryRoster_length hl)
  · have hq := queries_of h hr
    exact ⟨fun hl => query_answers h hq (plainQuery_in holdBody hl), fun hl => query_settles h hq (plainQuery_length _ hl)⟩
  · have hq := queries_of h hr
    exact ⟨fun hl => query_answers h hq (plainQuery_in _ hl), fun hl => query_settles h hq (plainQuery_length _ hl)⟩
  · have hw := withPins_reaches pins h
    have hq := queries_of h hr
    exact ⟨fun hl => query_answers hw hq (plainQuery_in linesBody hl), fun hl => query_settles hw hq (plainQuery_length _ hl)⟩
  · have hq := queries_of h hr
    have hplain := plainQuery_in (m := arrivalOf a) (s := s.heard a) samplerBody
    refine ⟨fun hl hroom => ?_, fun hl hfull => ?_, fun hl => ?_⟩
    · exact query_settles h hq (settleQuerySampler_accepted ((hplain hl).trans (answerWith_room (s := s.heard a) hroom _)))
    · exact query_settles h hq
        (settleQuerySampler_refused ((hplain hl).trans (answerWith_full (s := s.heard a) hfull _)) (by decide))
    · exact query_settles h hq (settleQuerySampler_refused (plainQuery_length _ hl) (by decide))
  · exact query_settles h (queriesNothing_of h hr) rfl

end Sys2Proof.Machine
end

