-- ==== Sys2Proof/Proofs/WindowLaidOut.lean ====
section
/-! The window and the snapshot of a pulse (R74, R81, R97): what `layOutWindow` leaves in each join state, and that nothing
before it in a pulse changes the join state. -/

set_option Elab.async false

namespace Sys2Proof.Machine

variable {s : State} {c : Chan}

/-! ## The window -/

/-- A JOINED station's window: the round begun, the snapshot that of the report as it stands. -/
theorem layOutWindow_joined (h : s.port.join = .joined) :
    layOutWindow s = { startRound s with
      port := { s.port with join := .joined, window := .slots, snapshot := some s.report, lateOverflow := false } } := by
  unfold layOutWindow
  rw [h]
  rfl

/-- A LISTENING station's window: the round begun, no snapshot. -/
theorem layOutWindow_listening {n : Nat} {b : Bool} (h : s.port.join = .listening n b) :
    layOutWindow s = { startRound s with
      port := { s.port with join := .listening n b, window := .slots, snapshot := none } } := by
  unfold layOutWindow
  rw [h]
  rfl

/-- A roster entry at the start of a round (R97). -/
def RosterEntry.unmarked (e : RosterEntry) : RosterEntry := { e with mark := false }

theorem startRound_entry (s : State) (n : Nat) : (startRound s).entry n = (s.entry n).unmarked :=
  List.getD_map s.roster.entries RosterEntry.reset RosterEntry.unmarked

/-- Every round mark is clear once the round has begun (R97). -/
theorem startRound_mark (s : State) (n : Nat) : ((startRound s).entry n).mark = false := by
  rw [startRound_entry, RosterEntry.unmarked]

/-! ## The fields of the report -/

theorem frameField_countdown (h : s.take.state = .countdown) : s.frameField = s.take.remaining := by
  rw [State.frameField, h]

theorem frameField_arming (h : s.take.state = .seeking ∨ s.take.state = .armed) : s.frameField = s.take.s := by
  rcases h with h | h <;> rw [State.frameField, h]

theorem frameField_taking
    (h : s.take.state = .rolling ∨ s.take.state = .finished ∨ s.take.state = .stopping ∨ s.take.state = .held) :
    s.frameField = s.take.tf := by
  rcases h with h | h | h | h <;> rw [State.frameField, h]

theorem frameField_idle (h : s.take.state = .safe ∨ s.take.state = .idle) : s.frameField = 0 := by
  rcases h with h | h <;> rw [State.frameField, h]

/-- RING_LOW (R41): a channel seeking, ready or playing on its path, with no more loaded than the low mark. -/
theorem ringLow_iff : s.ringLow c = true ↔
    ((s.drive c).state = .seeking ∨ (s.drive c).state = .ready ∨ (s.drive c).state = .playing) ∧
      (s.drive c).source = some .path ∧ (s.engine c).loaded ≤ (s.setup c).lowMark := by
  simp only [State.ringLow, Bool.and_eq_true, Bool.or_eq_true, decide_eq_true_eq, or_assoc, and_assoc]

theorem channelReport_get (s : State) (c : Chan) : s.report.body.channels.get c = s.channelReport c :=
  Quad.get_ofFn s.channelReport c

/-! ## The window at a pulse -/

/-- A pulse's work before the window is laid out. -/
def State.pulsed (s : State) (e d : Nat) : State :=
  keepUnbegun (beginFrame e d (afterBeats false (s.latchedAt e d).rolls (s.latchedAt e d).timer.tag
    (beatN false (s.latchedAt e d).rolls e (s.latchedAt e d))))

theorem framePulse_pulsed (s : State) (e d : Nat) :
    framePulse false e d s = (layOutWindow (s.pulsed e d)).withEnded (s.endedWindow e) := rfl

/-- A pulse's work before the window leaves the join state. -/
theorem pulsed_join (s : State) (e d : Nat) : (s.pulsed e d).port.join = s.port.join := by
  have hbegin (t : State) : (beginFrame e d t).port = t.port := rfl
  obtain ⟨-, -, hafter, -⟩ := afterBeats_ports false (s.latchedAt e d).rolls (s.latchedAt e d).timer.tag
    (beatN false (s.latchedAt e d).rolls e (s.latchedAt e d))
  obtain ⟨-, hbeat, -⟩ := beatN_ports false (s.latchedAt e d).rolls e (s.latchedAt e d)
  obtain ⟨-, hlatch, -⟩ := beforeBeatN_ports e { s with timer := { s.timer with period := some d } }
  calc (s.pulsed e d).port.join
      = (afterBeats false (s.latchedAt e d).rolls (s.latchedAt e d).timer.tag
          (beatN false (s.latchedAt e d).rolls e (s.latchedAt e d))).port.join := by
        rw [State.pulsed, keepUnbegun_join, hbegin]
    _ = (s.latchedAt e d).port.join := by rw [hafter, hbeat]
    _ = s.port.join := hlatch

/-- An accepted pulse is its work, and then the window laid out. -/
theorem frameEdge_pulsed {time : Nat} (h : s.acceptsPulse time) : ∃ u w, u.port.join = s.port.join ∧
    exec (.frameEdge time false true) s = .next ((layOutWindow u).withEnded w) := by
  obtain ⟨q, -, -, hq, -⟩ := id h
  exact ⟨_, _, pulsed_join (s.atTime time) _ _, congrArg Host.Outcome.next (risingEdge_accepted h hq)⟩

/-- Settles O57: the two forms of the window, each read field by field. -/
theorem snapshotShowsTheStation : Obligations.SnapshotShowsTheStation := by
  refine ⟨fun s h => ?_, fun s time ha => ⟨fun hj => ?_, fun count heard hj => ?_⟩⟩
  · rw [layOutWindow_joined h]
    refine ⟨s.report, rfl, rfl, rfl, rfl, rfl, rfl, rfl, rfl, rfl, rfl, rfl, frameField_countdown, frameField_arming,
      frameField_taking, frameField_idle, fun c => ?_, rfl, startRound_mark s, rfl⟩
    rw [channelReport_get]
    exact ⟨rfl, rfl, rfl, ringLow_iff⟩
  · obtain ⟨u, w, hu, hexec⟩ := frameEdge_pulsed ha
    rw [layOutWindow_joined (hu.trans hj)] at hexec
    exact ⟨_, hexec, rfl, rfl, rfl, startRound_mark u, rfl⟩
  · obtain ⟨u, w, hu, hexec⟩ := frameEdge_pulsed ha
    rw [layOutWindow_listening (hu.trans hj)] at hexec
    exact ⟨_, hexec, hj.symm, rfl, rfl, startRound_mark u, rfl⟩

end Sys2Proof.Machine
end

