-- ==== Sys2Proof/Proofs/RingEntryBytes.lean ====
section
/-! The 16 bytes of a ring entry read back (R201, R206): the value of little-endian bytes, the position format, and record
by record what stands in bytes 2..9. -/

set_option Elab.async false

namespace Sys2Proof.Machine

variable {n v : Nat} {x : Int} {bs : List Byte} {e : Entry}

/-! ## Bytes of a value -/

theorem leBytes_length (n v : Nat) : (leBytes n v).length = n := by
  induction n generalizing v with
  | zero => rfl
  | succ n ih => rw [leBytes, List.length_cons, ih]

theorem leValue_leBytes (n v : Nat) : leValue (leBytes n v) = v % 256 ^ n := by
  induction n generalizing v with
  | zero => rw [Nat.pow_zero, Nat.mod_one, leBytes, leValue]
  | succ n ih =>
    rw [leBytes, leValue, ih, byte, BitVec.toNat_ofNat, pow_succ' 256 n]
    exact Nat.mod_mul.symm

theorem leValue_leBytes_of_lt (h : v < 256 ^ n) : leValue (leBytes n v) = v := by
  rw [leValue_leBytes, Nat.mod_eq_of_lt h]

theorem leValue_byte_of_lt (h : v < 256) : leValue [byte v] = v := leValue_leBytes_of_lt (n := 1) h

/-- A position of the format survives its 32 bits. -/
theorem positionBits_toInt (h : inFormat x = true) : (positionBits x).toInt = x := by
  rw [positionBits, if_pos h]
  rw [inFormat, Bool.and_eq_true, decide_eq_true_eq, decide_eq_true_eq] at h
  exact BitVec.toInt_ofInt_eq_self (by decide) (by omega) (by omega)

/-- A position of the format survives its four bytes. -/
theorem signedField_of_posBytes {i : Nat} (hb : field bs i 4 = leValue (posBytes x)) (h : inFormat x = true) :
    signedField bs i = x := by
  rw [signedField, hb, posBytes, leValue_leBytes_of_lt (positionBits x).isLt, BitVec.ofNat_toNat, BitVec.setWidth_eq,
    positionBits_toInt h]

/-! ## The length of an entry's bytes -/

theorem padTo_length (h : bs.length ≤ n) : (padTo n bs).length = n := by
  rw [padTo, List.length_append, List.length_replicate]
  omega

theorem stampBytes_length (st : Option Stamp) : (stampBytes st).length = 6 := by
  cases st <;> rfl

theorem fieldBytes_length_le (r : Record) : r.fieldBytes.length ≤ 8 := by
  cases r <;> simp [Record.fieldBytes, posBytes, leBytes_length]

theorem bytes_length (e : Entry) : e.bytes.length = 16 := by
  rw [Entry.bytes, List.length_append, List.length_append, padTo_length (fieldBytes_length_le _), stampBytes_length]
  rfl

/-! ## The record read back

In each entry the bytes of a field stand where `readRecord` looks for them, whatever the padding and the stamp: that is
evaluation of the list, and the field's value is the lemma about its bytes. -/

theorem code_lt (r : Record) : r.code < 256 := by
  cases r <;> simp [Record.code]

theorem field_code (e : Entry) : field e.bytes 0 1 = e.record.code := leValue_byte_of_lt (code_lt e.record)

theorem testBit_report (e : Entry) : (field e.bytes 1 1).testBit 0 = e.report := by
  have hfield : field e.bytes 1 1 = leValue [byte (bit e.report)] := rfl
  rw [hfield]
  cases e.report <;> rfl

theorem within_iff {lo hi : Nat} : within lo hi v = true ↔ lo ≤ v ∧ v ≤ hi := by
  rw [within, Bool.and_eq_true, decide_eq_true_eq, decide_eq_true_eq]

theorem readRecord_origin (hr : e.record = .origin x) (h : inFormat x = true) :
    readRecord e.bytes = some (.origin x) := by
  obtain ⟨r, p, st⟩ := e
  subst hr
  have hx := signedField_of_posBytes (bs := Entry.bytes ⟨.origin x, p, st⟩) (i := 2) rfl h
  unfold readRecord
  rw [field_code, hx]
  rfl

theorem readRecord_shape {p : Profile} {num den : Nat} (hr : e.record = .shape p num den) (hn : 1 ≤ num ∧ num ≤ 4096)
    (hd : 1 ≤ den ∧ den ≤ 4096) : readRecord e.bytes = some (.shape p num den) := by
  obtain ⟨r, b, st⟩ := e
  subst hr
  have hp : field (Entry.bytes ⟨.shape p num den, b, st⟩) 2 1 = p.code := by
    cases p <;> rfl
  have hnum : field (Entry.bytes ⟨.shape p num den, b, st⟩) 3 2 = num := leValue_leBytes_of_lt (n := 2) (by omega)
  have hden : field (Entry.bytes ⟨.shape p num den, b, st⟩) 5 2 = den := leValue_leBytes_of_lt (n := 2) (by omega)
  have hin : (within 1 4096 num && within 1 4096 den) = true := by
    rw [Bool.and_eq_true, within_iff, within_iff]
    exact ⟨hn, hd⟩
  unfold readRecord
  rw [field_code, hp, hnum, hden]
  cases p <;> exact if_pos hin

theorem readRecord_span {d : Int} {l : Nat} (hr : e.record = .span d l) (hd : d.natAbs ≤ 1073741824)
    (hl : 1 ≤ l ∧ l ≤ 65535) : readRecord e.bytes = some (.span d l) := by
  obtain ⟨r, b, st⟩ := e
  subst hr
  have hformat : inFormat d = true := by
    rw [inFormat, Bool.and_eq_true, decide_eq_true_eq, decide_eq_true_eq]
    omega
  have hdist := signedField_of_posBytes (bs := Entry.bytes ⟨.span d l, b, st⟩) (i := 2) rfl hformat
  have hlen : field (Entry.bytes ⟨.span d l, b, st⟩) 6 2 = l := leValue_leBytes_of_lt (n := 2) (by omega)
  unfold readRecord
  rw [field_code, hdist, hlen]
  exact if_pos ⟨hd, within_iff.mpr hl⟩

theorem readRecord_dwell {l : Nat} (hr : e.record = .dwell l) (hl : 1 ≤ l ∧ l ≤ 65535) :
    readRecord e.bytes = some (.dwell l) := by
  obtain ⟨r, b, st⟩ := e
  subst hr
  have hlen : field (Entry.bytes ⟨.dwell l, b, st⟩) 2 2 = l := leValue_leBytes_of_lt (n := 2) (by omega)
  unfold readRecord
  rw [field_code, hlen]
  exact if_pos (within_iff.mpr hl)

theorem readRecord_loopOpen {k : Nat} (hr : e.record = .loopOpen k) (hk : 1 ≤ k ∧ k ≤ 65535) :
    readRecord e.bytes = some (.loopOpen k) := by
  obtain ⟨r, b, st⟩ := e
  subst hr
  have hcount : field (Entry.bytes ⟨.loopOpen k, b, st⟩) 2 2 = k := leValue_leBytes_of_lt (n := 2) (by omega)
  unfold readRecord
  rw [field_code, hcount]
  exact if_pos (within_iff.mpr hk)

theorem readRecord_waitCue {q t : Nat} {act : OnTimeout} (hr : e.record = .waitCue q t act) (hq : q < 64)
    (ht : t ≤ 65535) : readRecord e.bytes = some (.waitCue q t act) := by
  obtain ⟨r, b, st⟩ := e
  subst hr
  have hcue : field (Entry.bytes ⟨.waitCue q t act, b, st⟩) 2 1 = q := leValue_byte_of_lt (by omega)
  have htime : field (Entry.bytes ⟨.waitCue q t act, b, st⟩) 3 2 = t := leValue_leBytes_of_lt (n := 2) (by omega)
  have hact : field (Entry.bytes ⟨.waitCue q t act, b, st⟩) 5 1 = act.code := by
    cases act <;> rfl
  unfold readRecord
  rw [field_code, hcue, htime, hact]
  cases act <;> exact if_pos hq

theorem readRecord_emitCue {q : Nat} (hr : e.record = .emitCue q) (hq : q < 64) :
    readRecord e.bytes = some (.emitCue q) := by
  obtain ⟨r, b, st⟩ := e
  subst hr
  have hcue : field (Entry.bytes ⟨.emitCue q, b, st⟩) 2 1 = q := leValue_byte_of_lt (by omega)
  unfold readRecord
  rw [field_code, hcue]
  exact if_pos hq

/-- A record without fields is read by its code alone. -/
theorem readRecord_bare (hr : e.record = .none ∨ e.record = .loopClose ∨ e.record = .pathEnd) :
    readRecord e.bytes = some e.record := by
  unfold readRecord
  rw [field_code]
  rcases hr with hr | hr | hr <;> rw [hr] <;> rfl

/-- Settles O60: record by record. -/
theorem ringEntriesReadBack : Obligations.RingEntriesReadBack := by
  intro e h
  refine ⟨bytes_length e, ?_⟩
  have hrecord : readRecord e.bytes = some e.record := by
    cases hr : e.record with
    | none => exact (readRecord_bare (.inl hr)).trans (congrArg some hr)
    | loopClose => exact (readRecord_bare (.inr (.inl hr))).trans (congrArg some hr)
    | pathEnd => exact (readRecord_bare (.inr (.inr hr))).trans (congrArg some hr)
    | origin x =>
      rw [hr] at h
      exact readRecord_origin hr h
    | shape p num den =>
      rw [hr] at h
      obtain ⟨hn, hn', hd⟩ := h
      exact readRecord_shape hr ⟨hn, hn'⟩ hd
    | span d l =>
      rw [hr] at h
      obtain ⟨hd, hl⟩ := h
      exact readRecord_span hr hd hl
    | dwell l =>
      rw [hr] at h
      exact readRecord_dwell hr h
    | loopOpen k =>
      rw [hr] at h
      exact readRecord_loopOpen hr h
    | waitCue q t act =>
      rw [hr] at h
      obtain ⟨hq, ht⟩ := h
      exact readRecord_waitCue hr hq ht
    | emitCue q =>
      rw [hr] at h
      exact readRecord_emitCue hr h
  rw [readEntry, hrecord, Option.map_some, testBit_report]

end Sys2Proof.Machine
end

