-- ==== Sys2Proof/Proofs/ArmDiscarded.lean ====
section
/-! An ARM that ends by discard (R51, R58, R115): what it leaves of each engine, of each drive, of the take record and of the
outcome list. -/

set_option Elab.async false

namespace Sys2Proof.Machine

variable {s : State} {c : Chan}

/-! ## One channel's turn of four -/

/-- What channel `c`'s own turn makes of the channel, all four turns make of it, when the others leave it. -/
theorem eachChannel_chan (R : Channel → Channel → Prop) (f : Chan → State → State)
    (hself : ∀ s, R (s.chan c) ((f c s).chan c)) (hother : ∀ d s, d ≠ c → (f d s).chan c = s.chan c) (s : State) :
    R (s.chan c) ((eachChannel f s).chan c) := by
  obtain ⟨u, hbefore, hafter⟩ := eachChannel_split (fun s t => t.chan c = s.chan c) (fun _ => rfl)
    (fun _ _ _ h k => k.trans h) f c hother s
  rw [hafter, ← hbefore]
  exact hself u

theorem setDrive_chan (s : State) (c : Chan) (d : Drive) : (s.setDrive c d).chan c = { s.chan c with drive := d } :=
  State.chan_setChan s c _

theorem setDrive_chan_ne {b : Chan} (h : b ≠ c) (s : State) (d : Drive) : (s.setDrive c d).chan b = s.chan b :=
  State.chan_setChan_ne s c b _ h

theorem setEngine_chan (s : State) (c : Chan) (e : Engine) : (s.setEngine c e).chan c = { s.chan c with engine := e } :=
  State.chan_setChan s c _

theorem setEngine_chan_ne {b : Chan} (h : b ≠ c) (s : State) (e : Engine) : (s.setEngine c e).chan b = s.chan b :=
  State.chan_setChan_ne s c b _ h

/-! ## The engines -/

/-- What a discard leaves of an engine (R51, R58): `k` counts the free values drawn, `goal` is S·N. -/
def Engine.discarded (code : ScanCode) (k goal : Nat) (e : Engine) : Engine :=
  match e.positioning with
  | some _ => { e with positioning := none, scan := e.scan.discarded code k goal }
  | none => e

theorem Engine.discarded_positioning (code : ScanCode) (k goal : Nat) (e : Engine) :
    (e.discarded code k goal).positioning = none := by
  unfold Engine.discarded
  split
  · rfl
  · assumption

theorem Engine.discarded_none {e : Engine} (h : e.positioning = none) (code : ScanCode) (k goal : Nat) :
    e.discarded code k goal = e := by
  rw [Engine.discarded, h]

/-- Ring, pointers and committed path are not the positioning's. -/
theorem Engine.discarded_keeps (code : ScanCode) (k goal : Nat) (e : Engine) :
    (e.discarded code k goal).ring = e.ring ∧ (e.discarded code k goal).release = e.release ∧
      (e.discarded code k goal).tail = e.tail ∧ (e.discarded code k goal).path = e.path := by
  unfold Engine.discarded
  split <;> exact ⟨rfl, rfl, rfl, rfl⟩

/-- A scan in flight, or one that had completed, shows `code` (R58). -/
theorem Engine.discarded_code {e : Engine} {p : Positioning} (hp : e.positioning = some p)
    (h : e.scan.code = .inFlight ∨ e.scan.code = .positioned) (code : ScanCode) (k goal : Nat) :
    (e.discarded code k goal).scan.code = code := by
  rw [Engine.discarded, hp]
  rcases h with h | h <;> simp only [ScanResult.discarded, h]

theorem discardChannel_chan (code : ScanCode) (goal : Nat) (c : Chan) (s : State) :
    (discardChannel code goal c s).chan c =
      { s.chan c with engine := (s.engine c).discarded code s.freeCount goal } := by
  unfold discardChannel Engine.discarded
  cases (s.engine c).positioning with
  | none => rfl
  | some p => exact setEngine_chan s c _

theorem discardChannel_chan_ne {b : Chan} (h : b ≠ c) (code : ScanCode) (goal : Nat) (s : State) :
    (discardChannel code goal c s).chan b = s.chan b := by
  unfold discardChannel
  split
  · exact setEngine_chan_ne h s _
  · rfl

/-- The four discards: each drive as it was, each engine discarded. -/
theorem discardChannels_chan (code : ScanCode) (goal : Nat) (s : State) (c : Chan) :
    ((eachChannel (discardChannel code goal) s).drive c = s.drive c) ∧
      ∃ k, (eachChannel (discardChannel code goal) s).engine c = (s.engine c).discarded code k goal :=
  eachChannel_chan (fun x y => y.drive = x.drive ∧ ∃ k, y.engine = x.engine.discarded code k goal) _
    (fun s => by rw [discardChannel_chan]; exact ⟨rfl, s.freeCount, rfl⟩)
    (fun _ s h => discardChannel_chan_ne h.symm code goal s) s

/-! ## The whole discard -/

/-- A drive with the state it had before the ARM (R115, R166): a take channel's, unless it has become FAULTED. -/
def Drive.restored (prior : Quad ChanState) (c : Chan) (d : Drive) : Drive :=
  if d.source.isSome ∧ d.state ≠ .faulted then { d with state := prior.get c, seek := none, follow := .none } else d

theorem Drive.restored_state {prior : Quad ChanState} {d : Drive} (ht : d.source.isSome = true) (hf : d.state ≠ .faulted) :
    (d.restored prior c).state = prior.get c := by
  rw [Drive.restored, if_pos ⟨ht, hf⟩]

theorem Drive.restored_eq {prior : Quad ChanState} {d : Drive} (h : d.source = none ∨ d.state = .faulted) :
    d.restored prior c = d := by
  refine if_neg fun ⟨ht, hf⟩ => ?_
  rcases h with h | h
  · rw [h] at ht
    cases ht
  · exact hf h

/-- A drive after the discard of the ARM `a`: restored, and without a source when there was no take. -/
def Drive.discarded (a : ArmFlight) (c : Chan) (d : Drive) : Drive :=
  if a.prior.id = 0 then { d.restored a.priorStates c with source := none } else d.restored a.priorStates c

theorem Drive.discarded_state (a : ArmFlight) (c : Chan) (d : Drive) :
    (d.discarded a c).state = (d.restored a.priorStates c).state := by
  unfold Drive.discarded
  split <;> rfl

/-- A discard issues no set-point and clears no fault kind. -/
theorem Drive.discarded_keeps (a : ArmFlight) (c : Chan) (d : Drive) :
    (d.discarded a c).setPoint = d.setPoint ∧ (d.discarded a c).kind = d.kind := by
  unfold Drive.discarded Drive.restored
  split <;> split <;> exact ⟨rfl, rfl⟩

theorem restoreChannels_drive (prior : Quad ChanState) (s : State) (c : Chan) :
    (eachChannel (restoreChannel prior) s).drive c = (s.drive c).restored prior c := by
  refine eachChannel_drive (restoreChannel prior) (fun c d => d.restored prior c) (fun c s => ?_) (fun c b s h => ?_) s c
  · unfold restoreChannel Drive.restored State.isTakeChannel
    split
    · exact State.drive_setDrive s c _
    · rfl
  · unfold restoreChannel
    split
    · exact State.drive_setDrive_ne s c b _ h
    · rfl

variable (a : ArmFlight) (r : Result) (code : ScanCode)

theorem addOutcome_drive (station seq : Nat) (r : Result) (s : State) : (addOutcome station seq r s).drive = s.drive := by
  unfold State.drive State.chan
  rw [addOutcome_channels]

theorem discardArm_drive (s : State) (c : Chan) : (discardArm a r code s).drive c = (s.drive c).discarded a c := by
  obtain ⟨hdrive, -⟩ := discardChannels_chan code (s.take.s * s.subBeats) s c
  have hrestored := restoreChannels_drive a.priorStates (eachChannel (discardChannel code (s.take.s * s.subBeats)) s) c
  rw [hdrive] at hrestored
  unfold discardArm Drive.discarded
  dsimp only
  rw [addOutcome_drive, ← hrestored]
  split
  · exact clearSources_drive _ c
  · rfl

theorem discardArm_engineAt (s : State) (c : Chan) :
    ∃ k, (discardArm a r code s).engine c = (s.engine c).discarded code k (s.take.s * s.subBeats) := by
  rw [discardArm_engine]
  exact (discardChannels_chan code (s.take.s * s.subBeats) s c).2

theorem discardArm_take (s : State) : (discardArm a r code s).take = { s.take with
    state := a.prior.state, id := a.prior.id, kind := a.prior.kind, mask := a.prior.mask, s := a.prior.s, tf := a.prior.tf,
    committed := a.prior.committed, arm := none } := by
  unfold discardArm
  dsimp only
  split <;> simp

/-- An outcome is added to what the port holds, whatever the rest of the state. -/
theorem addOutcome_port {t : State} (h : t.port = s.port) (station seq : Nat) (r : Result) :
    (addOutcome station seq r t).port = (addOutcome station seq r s).port := by
  unfold addOutcome
  rw [h]
  split <;> rfl

theorem addOutcome_outcomes (station seq : Nat) (r : Result) (h : s.port.outcomes.length < 4) :
    (addOutcome station seq r s).port.outcomes =
      s.port.outcomes ++ [{ station := station, seq := seq, result := r }] := by
  rw [addOutcome_room station seq r h]

theorem discardArm_port (s : State) : (discardArm a r code s).port = (addOutcome a.station a.seq r s).port := by
  unfold discardArm
  dsimp only
  apply addOutcome_port
  split <;> simp

/-- Settles O47, field by field. -/
theorem discardRestoresThePriorRecord : Obligations.DiscardRestoresThePriorRecord := by
  intro s f r code
  obtain ⟨-, -, -, hholds, hboard, -, hlog, -, -⟩ := discardArm_frame f r code s
  refine ⟨discardArm_take f r code s, fun hroom => ?_, hholds, hboard, hlog, fun c => ?_⟩
  · rw [discardArm_port, addOutcome_outcomes _ _ _ hroom]
  · obtain ⟨k, he⟩ := discardArm_engineAt f r code s c
    obtain ⟨hring, hrelease, htail, hpath⟩ := Engine.discarded_keeps code k (s.take.s * s.subBeats) (s.engine c)
    obtain ⟨hset, -⟩ := Drive.discarded_keeps f c (s.drive c)
    rw [he, discardArm_drive, Drive.discarded_state]
    refine ⟨Engine.discarded_positioning .., hring, hrelease, htail, hpath, hset, fun htake hstate => ?_,
      fun hstate => ?_, fun p hp hcode => Engine.discarded_code hp hcode code k _⟩
    · exact Drive.restored_state htake hstate
    · rw [Drive.restored_eq (.inr hstate), hstate]

end Sys2Proof.Machine
end

