-- ==== Sys2Proof/Proofs/ScanEnded.lean ====
section
/-! The commit of an ARM (R51, R116, R117), channel by channel, and the two ends of a scan (R54 to R56). -/

set_option Elab.async false

namespace Sys2Proof.Machine

variable {s : State} {c : Chan}

/-! ## The commit of one channel (R51, R116) -/

/-- An engine after the commit: its pending state in force when it was positioned. -/
def Engine.committed (goal : Nat) (e : Engine) : Engine :=
  match e.positioning with
  | some p => e.commit goal p
  | none => e

theorem Engine.committed_some {e : Engine} {p : Positioning} (h : e.positioning = some p) (goal : Nat) :
    e.committed goal = e.commit goal p := by
  rw [Engine.committed, h]

theorem Engine.committed_none {e : Engine} (h : e.positioning = none) (goal : Nat) : e.committed goal = e := by
  rw [Engine.committed, h]

/-- A drive after the commit, its engine positioned to `target`. -/
def Drive.committed (target : Option Int) (d : Drive) : Drive :=
  if d.state = .faulted then d
  else match d.source with
    | some .path => d.beginSeek (target.getD d.setPoint)
    | some .follow => { d with follow := .waiting }
    | some .wheel => { d with state := .ready }
    | none => d

theorem Drive.beginSeek_here {x : Int} {d : Drive} (h : x = d.setPoint) :
    d.beginSeek x = { d with state := .ready, seek := none, follow := .none } := if_pos h

theorem Drive.beginSeek_away {x : Int} {d : Drive} (h : x ≠ d.setPoint) : d.beginSeek x =
    { d with seek := some { target := x, up := decide (d.setPoint < x), speed := 0 }, follow := .none } := if_neg h

theorem Drive.beginSeek_keeps (x : Int) (d : Drive) :
    (d.beginSeek x).source = d.source ∧ (d.beginSeek x).setPoint = d.setPoint := by
  unfold Drive.beginSeek
  split <;> exact ⟨rfl, rfl⟩

theorem Drive.committed_keeps (target : Option Int) (d : Drive) :
    (d.committed target).source = d.source ∧ (d.committed target).setPoint = d.setPoint := by
  unfold Drive.committed
  split
  · exact ⟨rfl, rfl⟩
  · split
    · exact Drive.beginSeek_keeps _ d
    · exact ⟨rfl, rfl⟩
    · exact ⟨rfl, rfl⟩
    · exact ⟨rfl, rfl⟩

theorem Drive.committed_path {d : Drive} (hf : d.state ≠ .faulted) (hs : d.source = some .path) (x : Int) :
    d.committed (some x) = d.beginSeek x := by
  rw [Drive.committed, if_neg hf, hs]
  rfl

theorem Drive.committed_follow {d : Drive} (hf : d.state ≠ .faulted) (hs : d.source = some .follow) (x : Option Int) :
    d.committed x = { d with follow := .waiting } := by
  rw [Drive.committed, if_neg hf, hs]

theorem Drive.committed_wheel {d : Drive} (hf : d.state ≠ .faulted) (hs : d.source = some .wheel) (x : Option Int) :
    d.committed x = { d with state := .ready } := by
  rw [Drive.committed, if_neg hf, hs]

/-- Channel `c`'s drive as a commit leaves it. -/
def State.commitDrive (s : State) (c : Chan) : Drive :=
  (s.drive c).committed ((s.engine c).positioning.bind Positioning.target)

/-- A commit at channel `c` replaces its engine and its drive. -/
theorem commitChannel_eq (goal : Nat) (c : Chan) (s : State) :
    commitChannel goal c s = (s.setEngine c ((s.engine c).committed goal)).setDrive c (s.commitDrive c) := by
  have hsame : s.setEngine c ((s.engine c).committed goal) =
      (s.setEngine c ((s.engine c).committed goal)).setDrive c (s.drive c) := by
    rw [← State.drive_setEngine s c c ((s.engine c).committed goal), State.setDrive_drive]
  unfold commitChannel State.commitDrive Drive.committed
  cases hp : (s.engine c).positioning with
  | none =>
    rw [Engine.committed_none hp, State.setEngine_engine] at hsame ⊢
    dsimp only
    split
    · exact hsame
    · cases (s.drive c).source with
      | none => exact hsame
      | some x => cases x <;> rfl
  | some p =>
    rw [Engine.committed_some hp] at hsame ⊢
    dsimp only
    split
    · exact hsame
    · cases (s.drive c).source with
      | none => exact hsame
      | some x => cases x <;> rfl

theorem commitChannel_chan (goal : Nat) (c : Chan) (s : State) : (commitChannel goal c s).chan c =
    { s.chan c with engine := (s.engine c).committed goal, drive := s.commitDrive c } := by
  rw [commitChannel_eq, setDrive_chan, setEngine_chan]

theorem commitChannel_chan_ne {b : Chan} (h : b ≠ c) (goal : Nat) (s : State) :
    (commitChannel goal c s).chan b = s.chan b := by
  rw [commitChannel_eq, setDrive_chan_ne h, setEngine_chan_ne h]

/-- The four commits. -/
theorem commitChannels_chan (goal : Nat) (s : State) (c : Chan) : (eachChannel (commitChannel goal) s).chan c =
    { s.chan c with engine := (s.engine c).committed goal, drive := s.commitDrive c } :=
  eachChannel_chan (fun x y => y = { x with
      engine := x.engine.committed goal, drive := x.drive.committed (x.engine.positioning.bind Positioning.target) })
    _ (fun s => commitChannel_chan goal c s) (fun _ s h => commitChannel_chan_ne h.symm goal s) s

/-! ## The end of the ARM at its commit (R117) -/

theorem allTake_iff (p : Drive → Bool) :
    s.allTake p = true ↔ ∀ c, s.isTakeChannel c = true → p (s.drive c) = true := by
  unfold State.allTake
  rw [List.all_eq_true]
  refine forall_congr' fun c => ?_
  rw [Bool.or_eq_true, Bool.not_eq_true', ← Bool.not_eq_true, ← imp_iff_not_or]
  exact ⟨fun h => h (mem_allChannels c), fun h _ => h⟩

/-- The take record and the Capture Log replaced. -/
def State.withTakeLog (s : State) (k : Take) (l : CaptureLog) : State := { s with take := k, log := l }

theorem withTakeLog_take (s : State) (k : Take) (l : CaptureLog) : (s.withTakeLog k l).take = k := rfl

theorem withTakeLog_chan (s : State) (k : Take) (l : CaptureLog) : (s.withTakeLog k l).chan = s.chan := rfl

theorem withTakeLog_board (s : State) (k : Take) (l : CaptureLog) : (s.withTakeLog k l).board = s.board := rfl

theorem withTakeLog_subBeats (s : State) (k : Take) (l : CaptureLog) : (s.withTakeLog k l).subBeats = s.subBeats := rfl

theorem withTakeLog_port (s : State) (k : Take) (l : CaptureLog) : (s.withTakeLog k l).port = s.port := rfl

/-- The ARM ends ACCEPTED with every take channel READY. -/
theorem checkArmed_ready {a : ArmFlight} (hs : s.take.state = .seeking) (ha : s.take.arm = some a) (hp : a.phase = .moving)
    (h : ∀ c, s.isTakeChannel c = true → (s.drive c).state = .ready) : checkArmed s =
      addOutcome a.station a.seq .accepted (s.withTakeLog { s.take with state := .armed, arm := none } s.log) := by
  unfold checkArmed
  rw [ha]
  exact if_pos ⟨hs, hp, (allTake_iff _).mpr fun c hc => decide_eq_true (h c hc)⟩

/-- With a take channel not READY it goes on. -/
theorem checkArmed_goesOn (h : ∃ c, s.isTakeChannel c = true ∧ (s.drive c).state ≠ .ready) : checkArmed s = s := by
  obtain ⟨c, hc, hready⟩ := h
  unfold checkArmed
  split
  · exact if_neg fun ⟨_, _, hall⟩ => hready (of_decide_eq_true ((allTake_iff _).mp hall c hc))
  · rfl

/-- The state at the commit, before it is seen whether every take channel is READY. -/
def State.committedBy (s : State) (a : ArmFlight) : State :=
  (eachChannel (commitChannel (s.take.s * s.subBeats)) s).withTakeLog
    { s.take with committed := true, tf := s.take.s, arm := some { a with phase := .moving } }
    (if a.prior.state = .idle then CaptureLog.reset else s.log)

variable (a : ArmFlight)

theorem committedBy_chan (s : State) (c : Chan) : (s.committedBy a).chan c =
    { s.chan c with engine := (s.engine c).committed (s.take.s * s.subBeats), drive := s.commitDrive c } := by
  rw [State.committedBy, withTakeLog_chan, commitChannels_chan]

theorem committedBy_drive (s : State) (c : Chan) : (s.committedBy a).drive c = s.commitDrive c := by
  rw [State.drive, committedBy_chan]

theorem committedBy_isTakeChannel (s : State) (c : Chan) : (s.committedBy a).isTakeChannel c = s.isTakeChannel c := by
  rw [State.isTakeChannel, committedBy_drive, State.commitDrive, (Drive.committed_keeps _ _).1, State.isTakeChannel]

theorem committedBy_port (s : State) : (s.committedBy a).port = s.port := by
  rw [State.committedBy, withTakeLog_port]
  simp

theorem commitArm_eq (s : State) : commitArm a s = checkArmed (s.committedBy a) := by
  have htake : (eachChannel (commitChannel (s.take.s * s.subBeats)) s).take = s.take := by simp
  have hlog : (eachChannel (commitChannel (s.take.s * s.subBeats)) s).log = s.log := by simp
  unfold commitArm State.committedBy
  dsimp only
  generalize eachChannel (commitChannel (s.take.s * s.subBeats)) s = u at htake hlog
  rw [htake, ← hlog]
  split <;> rfl

theorem commitArm_chan (s : State) (c : Chan) : (commitArm a s).chan c =
    { s.chan c with engine := (s.engine c).committed (s.take.s * s.subBeats), drive := s.commitDrive c } := by
  rw [commitArm_eq, State.chan, checkArmed_channels]
  exact committedBy_chan a s c

theorem commitArm_drive (s : State) (c : Chan) : (commitArm a s).drive c = s.commitDrive c := by
  rw [State.drive, commitArm_chan]

theorem commitArm_engineAt (s : State) (c : Chan) :
    (commitArm a s).engine c = (s.engine c).committed (s.take.s * s.subBeats) := by
  rw [State.engine, commitArm_chan]

/-- A new take's commit empties the Capture Log (R187). -/
theorem commitArm_log (s : State) : (commitArm a s).log = if a.prior.state = .idle then CaptureLog.reset else s.log := by
  obtain ⟨-, -, -, -, -, -, hlog, -, -⟩ := checkArmed_frame (s.committedBy a)
  rw [commitArm_eq, hlog]
  rfl

variable {a}

/-- The commit ends the ARM at once when it leaves every take channel READY (R117). -/
theorem commitArm_armed (hs : s.take.state = .seeking)
    (h : ∀ c, s.isTakeChannel c = true → (s.commitDrive c).state = .ready) :
    (commitArm a s).take = { s.take with state := .armed, committed := true, tf := s.take.s, arm := none } ∧
      (commitArm a s).port = (addOutcome a.station a.seq .accepted s).port := by
  have hready (c : Chan) (hc : (s.committedBy a).isTakeChannel c = true) : ((s.committedBy a).drive c).state = .ready := by
    rw [committedBy_drive]
    exact h c (committedBy_isTakeChannel a s c ▸ hc)
  rw [commitArm_eq, checkArmed_ready (s := s.committedBy a) hs rfl rfl hready]
  obtain ⟨-, -, -, htake, -⟩ := addOutcome_frame a.station a.seq .accepted
    ((s.committedBy a).withTakeLog { (s.committedBy a).take with state := .armed, arm := none } (s.committedBy a).log)
  refine ⟨?_, addOutcome_port ?_ _ _ _⟩
  · rw [htake, withTakeLog_take, State.committedBy, withTakeLog_take]
  · rw [withTakeLog_port, committedBy_port]

/-- Else the take channels not READY move on (R116). -/
theorem commitArm_moving (h : ∃ c, s.isTakeChannel c = true ∧ (s.commitDrive c).state ≠ .ready) :
    (commitArm a s).take =
        { s.take with committed := true, tf := s.take.s, arm := some { a with phase := .moving } } ∧
      (commitArm a s).port = s.port := by
  obtain ⟨c, hc, hready⟩ := h
  rw [commitArm_eq, checkArmed_goesOn ⟨c, ?_, ?_⟩]
  · exact ⟨rfl, committedBy_port a s⟩
  · rw [committedBy_isTakeChannel, hc]
  · rwa [committedBy_drive]

/-- Either way the take is committed at TF = S. -/
theorem commitArm_commits (hs : s.take.state = .seeking) : (commitArm a s).take.committed = true ∧
    (commitArm a s).take.tf = s.take.s ∧ (commitArm a s).take.id = s.take.id ∧
    ((commitArm a s).take.state = .seeking ∨ (commitArm a s).take.state = .armed) := by
  by_cases h : ∀ c, s.isTakeChannel c = true → (s.commitDrive c).state = .ready
  · rw [(commitArm_armed hs h).1]
    exact ⟨rfl, rfl, rfl, .inr rfl⟩
  · push Not at h
    rw [(commitArm_moving h).1]
    exact ⟨rfl, rfl, rfl, .inl hs⟩

/-! ## The scan commands (R54 to R56) -/

theorem scanStanding_seeking {f : ArmFlight} {p : Positioning} (h : s.scanStanding c = some (f, p)) :
    s.take.state = .seeking := by
  obtain ⟨hs, -⟩ := scanStanding_positions h
  exact hs

theorem execScanComplete_reached {f : ArmFlight} {p : Positioning} {x : ScanState} (h : s.scanStanding c = some (f, p))
    (hx : s.scanOf c p = (x, .reached)) : exec (.scanComplete c) s =
      .next (if (s.setup c).outside x.path.setPoint then discardArm f .travel .discarded (positioned c p x s)
        else if (positioned c p x s).allTargets then commitArm f (positioned c p x s) else positioned c p x s) := by
  have hexec : exec (.scanComplete c) s = execScanComplete c s := rfl
  rw [hexec, execScanComplete, h]
  dsimp only
  rw [hx]

theorem Setup.outside_iff {u : Setup} {x : Int} : u.outside x = true ↔ ¬(u.travelMin ≤ x ∧ x ≤ u.travelMax) := by
  rw [Setup.outside, Bool.or_eq_true, decide_eq_true_eq, decide_eq_true_eq, not_and_or, not_le, not_le]

theorem allTargets_iff : s.allTargets = true ↔ ∀ d p, (s.engine d).positioning = some p → p.target.isSome = true := by
  unfold State.allTargets
  rw [List.all_eq_true]
  refine forall_congr' fun d => ⟨fun h p hp => ?_, fun h _ => ?_⟩
  · have hd := h (mem_allChannels d)
    rw [hp] at hd
    exact hd
  · cases hp : (s.engine d).positioning with
    | none => rfl
    | some p => exact h p hp

/-- The engine of a channel whose scan has completed (R58). -/
theorem positioned_engine (c : Chan) (p : Positioning) (x : ScanState) (s : State) :
    (positioned c p x s).engine c = { s.engine c with
      scan := { (s.engine c).scan with code := .positioned, stopPos := some x.path.head, stopSub := some x.u,
                                       target := some x.path.setPoint },
      positioning := some { p with path := x.path, stamps := x.stamps, reached := x.u, target := some x.path.setPoint } } :=
  State.engine_setEngine s c _

theorem positioned_engine_ne {d : Chan} (h : d ≠ c) (p : Positioning) (x : ScanState) (s : State) :
    (positioned c p x s).engine d = s.engine d := State.engine_setEngine_ne s c d _ h

theorem positioned_drive (d : Chan) (p : Positioning) (x : ScanState) (s : State) :
    (positioned c p x s).drive d = s.drive d := State.drive_setEngine s c d _

/-- With a scan completed, all targets are known when those of the other channels are. -/
theorem positioned_allTargets (p : Positioning) {x : ScanState} : (positioned c p x s).allTargets = true ↔
    ∀ d p', d ≠ c → (s.engine d).positioning = some p' → p'.target.isSome = true := by
  rw [allTargets_iff]
  refine ⟨fun h d p' hd hp => h d p' (by rwa [positioned_engine_ne hd]), fun h d p' hp => ?_⟩
  by_cases hd : d = c
  · subst hd
    rw [positioned_engine] at hp
    cases hp
    rfl
  · rw [positioned_engine_ne hd] at hp
    exact h d p' hd hp

/-- The drive of a positioned channel at the commit (R159). -/
theorem positioned_commitDrive (p : Positioning) {x : ScanState} (hstate : (s.drive c).state = .seeking)
    (hsource : (s.drive c).source = some .path) :
    (positioned c p x s).commitDrive c = (s.drive c).beginSeek x.path.setPoint := by
  rw [State.commitDrive, positioned_drive, positioned_engine]
  exact Drive.committed_path (by rw [hstate]; decide) hsource x.path.setPoint

/-- What SCAN_REFUSAL leaves of `s` where the scan of channel `c` ends with `x` (R55, R56): no refusal where it reaches S·N,
the event not standing (log 2). -/
def refusedScan (f : ArmFlight) (c : Chan) (x : ScanState) (s : State) : ScanEnd → State
  | .reached => s
  | .short k => discardArm f .ringShort .discarded (scanRefused c .ringShort (some k) x s)
  | .unresolved => discardArm f .cueUnresolved .discarded (scanRefused c .cueUnresolved none x s)

theorem execScanRefusal_standing {f : ArmFlight} {p : Positioning} {x : ScanState} {e : ScanEnd}
    (h : s.scanStanding c = some (f, p)) (hx : s.scanOf c p = (x, e)) :
    exec (.scanRefusal c) s = .next (refusedScan f c x s e) := by
  have hexec : exec (.scanRefusal c) s = execScanRefusal c s := rfl
  rw [hexec, execScanRefusal, h]
  dsimp only
  rw [hx]
  cases e <;> rfl

/-- Settles O48: the completion by the target's place and the other targets, the refusal by the scan's end. -/
theorem scanEnds : Obligations.ScanEnds := by
  refine ⟨fun s c f p x h hx hstate hsource => ?_, fun s c f p x h => ⟨?_, ?_, ?_⟩⟩
  · intro u inside
    have hu : u = positioned c p x s := rfl
    have hexec := execScanComplete_reached h hx
    rw [← hu] at hexec
    have htargets : u.allTargets = true ↔
        ∀ d p', d ≠ c → (s.engine d).positioning = some p' → p'.target.isSome = true := positioned_allTargets p
    have hgoes (hin : inside) : ¬(s.setup c).outside x.path.setPoint = true := fun ho => Setup.outside_iff.mp ho hin
    refine ⟨fun hout => ?_, fun hin ⟨d, p', hd, hp, hnone⟩ => ?_, fun hin hall => ⟨commitArm f u, ?_, ?_⟩⟩
    · rw [hexec, if_pos (Setup.outside_iff.mpr hout)]
    · rw [hexec, if_neg (hgoes hin), if_neg]
      intro hall
      have := htargets.mp hall d p' hd hp
      rw [hnone] at this
      cases this
    · rw [hexec, if_neg (hgoes hin), if_pos (htargets.mpr hall)]
    · have hseeking : s.take.state = .seeking := scanStanding_seeking h
      have hdrive : (commitArm f u).drive c = (s.drive c).beginSeek x.path.setPoint :=
        (commitArm_drive f u c).trans (positioned_commitDrive p hstate hsource)
      have hengine : (commitArm f u).engine c = (u.engine c).commit (s.take.s * s.subBeats) _ :=
        (commitArm_engineAt f u c).trans (Engine.committed_some (by rw [hu, positioned_engine]) _)
      obtain ⟨hcommitted, htf, hid, hst⟩ := commitArm_commits (a := f) (s := u) hseeking
      obtain ⟨-, hset⟩ := Drive.beginSeek_keeps x.path.setPoint (s.drive c)
      refine ⟨hcommitted, htf, hid, hst, ?_, ?_, ?_, fun d p' hd hp => ?_, ?_, fun heq => ?_, fun hne => ?_, fun hp => ?_,
        fun hp => ?_⟩
      · rw [hengine]
        rfl
      · rw [hengine]
        rfl
      · rw [hengine, hu, positioned_engine]
        rfl
      · have hd' : (commitArm f u).engine d = (s.engine d).commit (s.take.s * s.subBeats) p' := by
          rw [commitArm_engineAt, hu, positioned_engine_ne hd]
          exact Engine.committed_some hp _
        rw [hd']
        exact ⟨rfl, rfl, rfl⟩
      · rw [hdrive, hset]
      · rw [hdrive, Drive.beginSeek_here heq]
        exact ⟨rfl, rfl⟩
      · have hseek := Drive.beginSeek_away hne
        have hmoves := (commitArm_moving (a := f) (s := u) ⟨c, ?_, ?_⟩).1
        · rw [hdrive, hseek, hmoves]
          exact ⟨hseeking, hstate, rfl⟩
        · rw [State.isTakeChannel, hu, positioned_drive, hsource]
          rfl
        · rw [hu, positioned_commitDrive p hstate hsource, hseek, hstate]
          decide
      · rw [commitArm_log, if_pos hp]
      · rw [commitArm_log, if_neg hp]
        rfl
  · exact fun k hx => execScanRefusal_standing h hx
  · exact fun hx => execScanRefusal_standing h hx
  · exact fun hx => execScanRefusal_standing h hx

end Sys2Proof.Machine
end

