-- ==== Sys2Proof/Proofs/ArmEntered.lean ====
section
/-! What an accepted ARM makes of the station (R111, R114): the take channels SEEKING, the entry check of each channel on its
own, and the checks together. -/

set_option Elab.async false

namespace Sys2Proof.Machine

variable {s : State} {c : Chan}

/-! ## The engines alone replaced

The entry checks begin positionings and leave everything else. -/

/-- The state with the engines `es`. -/
def State.withEngines (s : State) (es : Chan → Engine) : State :=
  { s with channels := Quad.ofFn fun c => { s.chan c with engine := es c } }

theorem withEngines_chan (s : State) (es : Chan → Engine) (c : Chan) :
    (s.withEngines es).chan c = { s.chan c with engine := es c } := Quad.get_ofFn _ c

theorem withEngines_engine (s : State) (es : Chan → Engine) (c : Chan) : (s.withEngines es).engine c = es c := by
  rw [State.engine, withEngines_chan]

theorem withEngines_drive (s : State) (es : Chan → Engine) (c : Chan) : (s.withEngines es).drive c = s.drive c := by
  rw [State.drive, withEngines_chan, State.drive]

theorem withEngines_setup (s : State) (es : Chan → Engine) (c : Chan) : (s.withEngines es).setup c = s.setup c := by
  rw [State.setup, withEngines_chan, State.setup]

theorem withEngines_frame (s : State) (es : Chan → Engine) : (s.withEngines es).take = s.take ∧
    (s.withEngines es).port = s.port ∧ (s.withEngines es).board = s.board ∧ (s.withEngines es).holds = s.holds ∧
    (s.withEngines es).log = s.log ∧ (s.withEngines es).subBeats = s.subBeats := ⟨rfl, rfl, rfl, rfl, rfl, rfl⟩

theorem withEngines_same (s : State) : s.withEngines s.engine = s := by
  have hchannels : (Quad.ofFn fun c => { s.chan c with engine := s.engine c }) = s.channels :=
    Quad.ext_get _ _ fun c => Quad.get_ofFn _ c
  rw [State.withEngines, hchannels]

theorem withEngines_setEngine (s : State) (es : Chan → Engine) (c : Chan) (e : Engine) :
    (s.withEngines es).setEngine c e = s.withEngines (Function.update es c e) := by
  have hchannels : (s.withEngines es).channels.set c { (s.withEngines es).chan c with engine := e } =
      Quad.ofFn fun d => { s.chan d with engine := Function.update es c e d } := by
    refine Quad.ext_get _ _ fun d => ?_
    by_cases hd : d = c
    · subst hd
      rw [Quad.get_set_same, Quad.get_ofFn, Function.update_self, withEngines_chan]
    · rw [Quad.get_set_ne _ _ _ _ hd, Quad.get_ofFn, Function.update_of_ne hd]
      exact withEngines_chan s es d
  unfold State.setEngine State.setChan
  rw [hchannels]
  rfl

/-! ## The entry check of one channel (R52, R53, R114) -/

/-- Ring, pointers and committed path of `e` are those of `x`: a positioning may have begun or been refused. -/
def Engine.positionedFrom (e x : Engine) : Prop :=
  e.ring = x.ring ∧ e.path = x.path ∧ e.release = x.release ∧ e.tail = x.tail

/-- What the entry check of channel `c` makes of its engine `e`, and its refusal. -/
def State.entryOf (s : State) (a : ArmFlight) (c : Chan) (e : Engine) : Engine × Option Result :=
  match (s.drive c).source with
  | none => (e, none)
  | some src =>
    if entryFaulted (a.priorStates.get c) (s.drive c).kind then (e, some .channelFaulted)
    else match src with
      | .path => if a.prior.state = .idle then positionNew s.take.id s.subBeats s.take.s e
        else positionRestore s.take.id s.subBeats s.take.s e
      | .follow => (e, if s.leaderThere c then none else some .leaderAbsent)
      | .wheel => (e, none)

section
variable {a : ArmFlight} {e : Engine}

theorem entryOf_none (h : (s.drive c).source = none) : s.entryOf a c e = (e, none) := by
  rw [State.entryOf, h]

theorem entryOf_faulted {src : Source} (h : (s.drive c).source = some src)
    (hf : entryFaulted (a.priorStates.get c) (s.drive c).kind = true) : s.entryOf a c e = (e, some .channelFaulted) := by
  rw [State.entryOf, h]
  exact if_pos hf

theorem entryOf_path (h : (s.drive c).source = some .path)
    (hf : ¬entryFaulted (a.priorStates.get c) (s.drive c).kind = true) : s.entryOf a c e =
      if a.prior.state = .idle then positionNew s.take.id s.subBeats s.take.s e
      else positionRestore s.take.id s.subBeats s.take.s e := by
  rw [State.entryOf, h]
  exact if_neg hf

theorem entryOf_follow (h : (s.drive c).source = some .follow)
    (hf : ¬entryFaulted (a.priorStates.get c) (s.drive c).kind = true) :
    s.entryOf a c e = (e, if s.leaderThere c then none else some .leaderAbsent) := by
  rw [State.entryOf, h]
  exact if_neg hf

theorem entryOf_wheel (h : (s.drive c).source = some .wheel)
    (hf : ¬entryFaulted (a.priorStates.get c) (s.drive c).kind = true) : s.entryOf a c e = (e, none) := by
  rw [State.entryOf, h]
  exact if_neg hf

end

theorem Engine.positionedFrom_refl (e : Engine) : e.positionedFrom e := ⟨rfl, rfl, rfl, rfl⟩

theorem positionNew_keeps (id n start : Nat) (e : Engine) : (positionNew id n start e).1.positionedFrom e := by
  unfold positionNew
  split
  · split <;> exact ⟨rfl, rfl, rfl, rfl⟩
  · exact ⟨rfl, rfl, rfl, rfl⟩

theorem positionRestore_keeps (id n start : Nat) (e : Engine) : (positionRestore id n start e).1.positionedFrom e := by
  unfold positionRestore
  split <;> exact ⟨rfl, rfl, rfl, rfl⟩

theorem entryOf_keeps (s : State) (a : ArmFlight) (c : Chan) (e : Engine) : (s.entryOf a c e).1.positionedFrom e := by
  unfold State.entryOf
  split
  · exact e.positionedFrom_refl
  · split
    · exact e.positionedFrom_refl
    · split
      · split
        · exact positionNew_keeps _ _ _ e
        · exact positionRestore_keeps _ _ _ e
      · exact e.positionedFrom_refl
      · exact e.positionedFrom_refl

variable (a : ArmFlight)

/-- A channel's entry check is its own engine's. -/
theorem entryCheck_withEngines (s : State) (es : Chan → Engine) (c : Chan) : entryCheck a c (s.withEngines es) =
    (s.withEngines (Function.update es c (s.entryOf a c (es c)).1), (s.entryOf a c (es c)).2) := by
  have hsame : s.withEngines (Function.update es c (es c)) = s.withEngines es := by rw [Function.update_eq_self]
  have hleader : (s.withEngines es).leaderThere c = s.leaderThere c := by
    unfold State.leaderThere
    rw [withEngines_setup]
    rfl
  unfold entryCheck
  rw [withEngines_drive]
  cases hs : (s.drive c).source with
  | none => rw [entryOf_none hs, hsame]
  | some src =>
    by_cases hf : entryFaulted (a.priorStates.get c) (s.drive c).kind = true
    · rw [entryOf_faulted hs hf, hsame]
      exact if_pos hf
    · dsimp only
      rw [if_neg hf]
      cases src with
      | path =>
        rw [entryOf_path hs hf, ← withEngines_engine s es c, ← withEngines_setEngine]
        rfl
      | follow =>
        rw [entryOf_follow hs hf, hsame, hleader]
        dsimp only
        split <;> rfl
      | wheel => rw [entryOf_wheel hs hf, hsame]

/-! ## The checks in channel order -/

/-- Every check passed: each engine as its own check leaves it. -/
theorem entryChecks_pass (s : State) : ∀ (cs : List Chan) (es : Chan → Engine), cs.Nodup →
    (∀ c ∈ cs, (s.entryOf a c (es c)).2 = none) → entryChecks a cs (s.withEngines es) =
      (s.withEngines fun b => if b ∈ cs then (s.entryOf a b (es b)).1 else es b, none)
  | [], es, _, _ => by
    rw [entryChecks]
    simp
  | c :: cs, es, hnd, h => by
    obtain ⟨hc, hcs⟩ := List.nodup_cons.mp hnd
    have hne {b : Chan} (hb : b ∈ cs) : b ≠ c := fun hbc => hc (hbc ▸ hb)
    have hrest := entryChecks_pass s cs (Function.update es c (s.entryOf a c (es c)).1) hcs fun b hb => by
      rw [Function.update_of_ne (hne hb)]
      exact h b (List.mem_cons_of_mem c hb)
    rw [entryChecks, entryCheck_withEngines, h c List.mem_cons_self]
    dsimp only
    rw [hrest]
    congr 2
    funext b
    by_cases hbc : b = c
    · subst hbc
      rw [if_neg hc, if_pos List.mem_cons_self, Function.update_self]
    · rw [Function.update_of_ne hbc]
      simp [hbc]

/-- The first check that does not pass ends them. -/
theorem entryChecks_refuse (s : State) {r : Result} : ∀ (cs : List Chan) (es : Chan → Engine), cs.Pairwise (· < ·) →
    c ∈ cs → (∀ b ∈ cs, b < c → (s.entryOf a b (es b)).2 = none) → (s.entryOf a c (es c)).2 = some r →
    ∃ es', entryChecks a cs (s.withEngines es) = (s.withEngines es', some r) ∧ es' c = (s.entryOf a c (es c)).1 ∧
      ∀ b, (es' b).positionedFrom (es b)
  | d :: cs, es, hlt, hc, hbefore, href => by
    obtain ⟨hd, hcs⟩ := List.pairwise_cons.mp hlt
    have hturn (b : Chan) : (Function.update es d (s.entryOf a d (es d)).1 b).positionedFrom (es b) := by
      by_cases hb : b = d
      · subst hb
        rw [Function.update_self]
        exact entryOf_keeps s a b (es b)
      · rw [Function.update_of_ne hb]
        exact (es b).positionedFrom_refl
    rw [entryChecks, entryCheck_withEngines]
    rcases List.mem_cons.mp hc with heq | hmem
    · subst heq
      rw [href]
      exact ⟨_, rfl, Function.update_self .., hturn⟩
    · have hne {b : Chan} (hb : b ∈ cs) : b ≠ d := (hd b hb).ne'
      rw [hbefore d List.mem_cons_self (hd c hmem)]
      obtain ⟨es', hes, hat, hkeeps⟩ := entryChecks_refuse s cs (Function.update es d (s.entryOf a d (es d)).1) hcs hmem
        (fun b hb hbc => by
          rw [Function.update_of_ne (hne hb)]
          exact hbefore b (List.mem_cons_of_mem d hb) hbc)
        (by rwa [Function.update_of_ne (hne hmem)])
      refine ⟨es', hes, ?_, fun b => ?_⟩
      · rw [hat, Function.update_of_ne (hne hmem)]
      · obtain ⟨hring, hpath, hrelease, htail⟩ := hkeeps b
        obtain ⟨hring', hpath', hrelease', htail'⟩ := hturn b
        exact ⟨hring.trans hring', hpath.trans hpath', hrelease.trans hrelease', htail.trans htail'⟩

/-- Whatever they find, the checks change engines alone. -/
theorem entryChecks_engines (cs : List Chan) : ∀ s : State, ∃ es r, entryChecks a cs s = (s.withEngines es, r) := by
  induction cs with
  | nil => exact fun s => ⟨s.engine, none, by rw [withEngines_same]; rfl⟩
  | cons c cs ih =>
    intro s
    have hcheck := entryCheck_withEngines a s s.engine c
    rw [withEngines_same] at hcheck
    rw [entryChecks, hcheck]
    cases (s.entryOf a c (s.engine c)).2 with
    | some r => exact ⟨_, _, rfl⟩
    | none =>
      obtain ⟨es, r, hrest⟩ := ih (s.withEngines (Function.update s.engine c (s.entryOf a c (s.engine c)).1))
      refine ⟨es, r, hrest.trans ?_⟩
      simp only [State.withEngines, State.chan, Quad.get_ofFn]

end Sys2Proof.Machine
end

