-- ==== Sys2Proof/Proofs/ArmChecked.lean ====
section
/-! An ARM's checks (R112, R113), the station it is taken in (R114), and its refusals. -/

set_option Elab.async false

namespace Sys2Proof.Machine

variable {s : State} {c : Chan} {m : Arrival} {q : ArmRequest} {k : TakeKind}

/-! ## The checks in order (R112, R113) -/

theorem execArm_settles {a : Activity} (h : s.reachesAll 0x10 a) :
    exec (.arm a) s = .next (settleArm (arrivalOf a) (s.heard a)) := congrArg _ (receiveKind_reachesAll settleArm h)

theorem settleArm_elsewhere (hq : readArm m.payload = some q) (h : q.mask.contains s.station = false) :
    settleArm m s = s := by
  rw [settleArm, hq]
  dsimp only
  rw [h]
  rfl

theorem settleArm_member (hq : readArm m.payload = some q) (h : q.mask.contains s.station = true) :
    settleArm m s = armMember m q s := by
  rw [settleArm, hq]
  exact if_pos h

theorem takeKind?_of_le {n : Nat} (h : n ≤ 1) : ∃ k, takeKind? n = some k := by
  obtain rfl | rfl : n = 0 ∨ n = 1 := by omega
  · exact ⟨.play, rfl⟩
  · exact ⟨.recordTake, rfl⟩

theorem takeKind?_of_lt {n : Nat} (h : 1 < n) : takeKind? n = none := by
  unfold takeKind?
  split
  · omega
  · omega
  · rfl

theorem armMember_range (h : q.id = 0 ∨ 1 < q.kind) : armMember m q s = addOutcome m.sender m.seq .refusedRange s := by
  unfold armMember
  split
  · rfl
  · rename_i k hk
    refine if_pos (h.resolve_right fun hlt => ?_)
    rw [takeKind?_of_lt hlt] at hk
    cases hk

theorem armMember_hold (hk : takeKind? q.kind = some k) (hid : q.id ≠ 0) (h : s.holdFree = false) :
    armMember m q s = addOutcome m.sender m.seq .refusedHold s := by
  rw [armMember, hk]
  dsimp only
  rw [if_neg hid, h]
  rfl

theorem armMember_refused {r : Result} (hk : takeKind? q.kind = some k) (hid : q.id ≠ 0) (h : s.holdFree = true)
    (hr : s.armStateCheck q.id k q.mask = some r) : armMember m q s = addOutcome m.sender m.seq r s := by
  rw [armMember, hk]
  dsimp only
  rw [if_neg hid, h, hr]
  rfl

theorem armMember_taken (hk : takeKind? q.kind = some k) (hid : q.id ≠ 0) (h : s.holdFree = true)
    (hr : s.armStateCheck q.id k q.mask = none) :
    armMember m q s = acceptArm m q.id k q.mask q.s (replaceArm s) := by
  rw [armMember, hk]
  dsimp only
  rw [if_neg hid, h, hr, if_neg (by decide)]

theorem holdFree_iff : s.holdFree = true ↔ s.holdInput = true ∧ s.holds.flags.any = false := by
  rw [State.holdFree, State.pullsHold, Bool.and_eq_true, Bool.not_eq_true']

theorem holdFree_false (h : s.holdInput = false ∨ s.holds.flags.any = true) : s.holdFree = false := by
  rw [← Bool.not_eq_true, holdFree_iff]
  rcases h with h | h <;> simp [h]

/-- The take-state check, in the words of R113. -/
theorem armStateCheck_state (h : s.take.state = .safe ∨ s.take.state = .countdown ∨ s.take.state = .rolling ∨
    s.take.state = .finished ∨ s.take.state = .stopping) : s.armStateCheck q.id k q.mask = some .refusedState := by
  rcases h with h | h | h | h | h <;> rw [State.armStateCheck, h]

theorem armStateCheck_idle (h : s.take.state = .idle) : s.armStateCheck q.id k q.mask =
    if q.id = s.take.lastId then some .takeReused else none := by
  rw [State.armStateCheck, h]

/-- Of the states in which a take may be armed again, none is IDLE or SEEKING. -/
theorem again_state (h : s.take.state = .held ∨ s.take.state = .armed) :
    s.take.state ≠ .idle ∧ s.take.state ≠ .seeking := by
  rcases h with h | h <;> rw [h] <;> exact ⟨nofun, nofun⟩

theorem armStateCheck_again (h : s.take.state = .held ∨ s.take.state = .armed) : s.armStateCheck q.id k q.mask =
    if q.id = s.take.id then s.sameTake k q.mask else some .refusedState := by
  rcases h with h | h <;> rw [State.armStateCheck, h]

theorem armStateCheck_seeking {f : ArmFlight} (h : s.take.state = .seeking) (hf : s.take.arm = some f) :
    s.armStateCheck q.id k q.mask =
      if f.phase = .positioning ∧ q.id = s.take.id then s.sameTake k q.mask else some .refusedState := by
  rw [State.armStateCheck, h]
  dsimp only
  rw [hf]

theorem sameTake_other (hk : takeKind? q.kind = some k) (h : q.mask ≠ s.take.mask ∨ takeKind? q.kind ≠ some s.take.kind) :
    s.sameTake k q.mask = some .refusedRange := by
  refine if_neg fun ⟨hkind, hmask⟩ => ?_
  rcases h with h | h
  · exact h hmask.symm
  · exact h (by rw [hk, hkind])

theorem sameTake_same (hmask : q.mask = s.take.mask) (hk : k = s.take.kind) : s.sameTake k q.mask = none :=
  if_pos ⟨hk.symm, hmask.symm⟩

theorem replaceArm_none (h : s.take.state ≠ .seeking) : replaceArm s = s := by
  unfold replaceArm
  split
  · exact absurd ‹_› h
  · rfl

/-! ## The station in which an ARM is taken (R111, R114) -/

/-- The ARM in flight once `m` is accepted. -/
def State.flightOf (s : State) (m : Arrival) : ArmFlight :=
  { station := m.sender, seq := m.seq, phase := .positioning, prior := s.priorRecord,
    priorStates := Quad.ofFn (fun c => (s.drive c).state), disbanded := false }

/-- The station after steps 1 to 4 of R114. -/
def State.sought (s : State) (m : Arrival) (q : ArmRequest) (k : TakeKind) : State :=
  enterSeeking (s.flightOf m) q.id k q.mask q.s s

/-- A drive as a take channel of source `src`, unless UNSET. -/
def Drive.taken (src : Source) (d : Drive) : Drive :=
  if d.state = .unset then { d with source := none }
  else { d with source := some src, state := .seeking, seek := none, follow := .none }

theorem Drive.taken_unset {d : Drive} (h : d.state = .unset) (src : Source) : d.taken src = { d with source := none } :=
  if_pos h

theorem Drive.taken_set {d : Drive} (h : d.state ≠ .unset) (src : Source) :
    d.taken src = { d with source := some src, state := .seeking, seek := none, follow := .none } := if_neg h

theorem Drive.taken_keeps (src : Source) (d : Drive) :
    (d.taken src).setPoint = d.setPoint ∧ (d.taken src).kind = d.kind := by
  unfold Drive.taken
  split <;> exact ⟨rfl, rfl⟩

theorem takeChannel_chan (k : TakeKind) (c : Chan) (s : State) : (takeChannel k c s).chan c =
    { s.chan c with drive := (s.drive c).taken ((s.setup c).takeSource k) } := by
  unfold takeChannel Drive.taken
  dsimp only
  split <;> exact setDrive_chan s c _

theorem takeChannel_chan_ne {b : Chan} (h : b ≠ c) (k : TakeKind) (s : State) : (takeChannel k c s).chan b = s.chan b := by
  unfold takeChannel
  dsimp only
  split <;> exact setDrive_chan_ne h s _

/-- The take record after steps 1 to 4 of R114. -/
def State.soughtTake (s : State) (m : Arrival) (q : ArmRequest) (k : TakeKind) : Take :=
  { s.take with
    state := .seeking, id := q.id, kind := k, mask := q.mask, s := q.s, arm := some (s.flightOf m), latest := none,
    inTakeFrame := false, committed := if s.take.state = .idle then false else s.take.committed }

theorem sought_eq (s : State) (m : Arrival) (q : ArmRequest) (k : TakeKind) : s.sought m q k =
    (eachChannel (takeChannel k) (clearBoard s)).withTakeLog (s.soughtTake m q k) s.log := by
  have htake : (eachChannel (takeChannel k) (clearBoard s)).take = s.take := by simp
  have hlog : (eachChannel (takeChannel k) (clearBoard s)).log = s.log := by simp
  unfold State.sought State.soughtTake enterSeeking
  dsimp only
  generalize eachChannel (takeChannel k) (clearBoard s) = u at htake hlog
  rw [htake, ← hlog]
  rfl

theorem sought_take (s : State) (m : Arrival) (q : ArmRequest) (k : TakeKind) :
    (s.sought m q k).take = s.soughtTake m q k := by
  rw [sought_eq, withTakeLog_take]

theorem sought_drive (s : State) (m : Arrival) (q : ArmRequest) (k : TakeKind) (c : Chan) :
    (s.sought m q k).drive c = (s.drive c).taken ((s.setup c).takeSource k) := by
  have hchan := eachChannel_chan (fun x y => y = { x with drive := x.drive.taken (x.setup.takeSource k) })
    (takeChannel k) (fun s => takeChannel_chan k c s) (fun _ s h => takeChannel_chan_ne h.symm k s) (clearBoard s)
  have hclear : (clearBoard s).chan c = s.chan c := rfl
  rw [sought_eq, State.drive, withTakeLog_chan, hchan, hclear]
  rfl

theorem sought_engine (s : State) (m : Arrival) (q : ArmRequest) (k : TakeKind) : (s.sought m q k).engine = s.engine :=
  enterSeeking_engine _ _ _ _ _ s

/-- Steps 1 to 4 of R114 clear the cue board, and leave the port, the Roster, the hold causes, the log and the setups. -/
theorem sought_frame (s : State) (m : Arrival) (q : ArmRequest) (k : TakeKind) :
    (s.sought m q k).board = CueBoard.reset ∧ (s.sought m q k).port = s.port ∧ (s.sought m q k).roster = s.roster ∧
      (s.sought m q k).holds = s.holds ∧ (s.sought m q k).log = s.log ∧ (s.sought m q k).setup = s.setup := by
  refine ⟨?_, ?_, ?_, ?_, ?_, ?_⟩
  · have heach : (eachChannel (takeChannel k) (clearBoard s)).board = (clearBoard s).board := by simp
    rw [sought_eq, withTakeLog_board, heach, clearBoard]
  all_goals
    unfold State.sought
    simp

theorem sought_subBeats (s : State) (m : Arrival) (q : ArmRequest) (k : TakeKind) :
    (s.sought m q k).subBeats = s.subBeats := by
  have heach : (eachChannel (takeChannel k) (clearBoard s)).subBeats = (clearBoard s).subBeats :=
    eachChannel_same State.subBeats (takeChannel k) (fun c s => by unfold takeChannel; dsimp only; split <;> rfl) _
  rw [sought_eq, withTakeLog_subBeats, heach, clearBoard]

/-! ## The entry check of each channel (R52, R53, R114, R169) -/

/-- The entry check of channel `c` in the ARM `q`: its engine, and its refusal. -/
def State.entryAt (s : State) (m : Arrival) (q : ArmRequest) (k : TakeKind) (c : Chan) : Engine × Option Result :=
  (s.sought m q k).entryOf (s.flightOf m) c (s.engine c)

/-- Channel `c` has a fault that R114 turns away. -/
def State.faulty (s : State) (c : Chan) : Prop :=
  (s.drive c).state = .faulted ∨ ((s.drive c).state = .stopped ∧ (s.drive c).kind ≠ none)

theorem sought_source (hset : (s.drive c).state ≠ .unset) (m : Arrival) (q : ArmRequest) (k : TakeKind) :
    ((s.sought m q k).drive c).source = some ((s.setup c).takeSource k) := by
  rw [sought_drive, Drive.taken_set hset]

/-- The check for a fault reads the channel as it was before the ARM (log 17). -/
theorem entryFaulted_iff (s : State) (m : Arrival) (q : ArmRequest) (k : TakeKind) (c : Chan) :
    entryFaulted ((s.flightOf m).priorStates.get c) ((s.sought m q k).drive c).kind = true ↔ s.faulty c := by
  obtain ⟨-, hkind⟩ := Drive.taken_keeps ((s.setup c).takeSource k) (s.drive c)
  have hprior : (s.flightOf m).priorStates.get c = (s.drive c).state := Quad.get_ofFn _ c
  rw [sought_drive, hkind, hprior, entryFaulted, State.faulty, Bool.or_eq_true, Bool.and_eq_true, decide_eq_true_eq,
    decide_eq_true_eq, Option.isSome_iff_ne_none]

theorem leaderThere_iff (s : State) (m : Arrival) (q : ArmRequest) (k : TakeKind) (c : Chan) :
    (s.sought m q k).leaderThere c = true ↔ ∀ st ch, (s.setup c).leader = some (st, ch) →
      q.mask.contains st = true ∧ (s.entry st).present = true := by
  obtain ⟨-, -, hroster, -, -, hsetup⟩ := sought_frame s m q k
  unfold State.leaderThere State.entry
  rw [hsetup, hroster, sought_take]
  cases hl : (s.setup c).leader with
  | none => simp
  | some x =>
    simp only [Bool.and_eq_true, Option.some.injEq]
    exact ⟨fun h st ch hx => by subst hx; exact h, fun h => h x.1 x.2 rfl⟩

theorem entryAt_unset (h : (s.drive c).state = .unset) : s.entryAt m q k c = (s.engine c, none) := by
  refine entryOf_none ?_
  rw [sought_drive, Drive.taken_unset h]

theorem entryAt_faulty (hset : (s.drive c).state ≠ .unset) (h : s.faulty c) :
    s.entryAt m q k c = (s.engine c, some .channelFaulted) :=
  entryOf_faulted (sought_source hset m q k) ((entryFaulted_iff s m q k c).mpr h)

theorem entryAt_wheel (hset : (s.drive c).state ≠ .unset) (h : ¬s.faulty c) (hs : (s.setup c).takeSource k = .wheel) :
    s.entryAt m q k c = (s.engine c, none) :=
  entryOf_wheel (by rw [sought_source hset, hs]) ((entryFaulted_iff s m q k c).not.mpr h)

theorem entryAt_follow (hset : (s.drive c).state ≠ .unset) (h : ¬s.faulty c) (hs : (s.setup c).takeSource k = .follow) :
    s.entryAt m q k c = (s.engine c, if (s.sought m q k).leaderThere c then none else some .leaderAbsent) :=
  entryOf_follow (by rw [sought_source hset, hs]) ((entryFaulted_iff s m q k c).not.mpr h)

theorem entryAt_path (hset : (s.drive c).state ≠ .unset) (h : ¬s.faulty c) (hs : (s.setup c).takeSource k = .path) :
    s.entryAt m q k c = if s.take.state = .idle then positionNew q.id s.subBeats q.s (s.engine c)
      else positionRestore q.id s.subBeats q.s (s.engine c) := by
  have hpath := entryOf_path (s := s.sought m q k) (a := s.flightOf m) (e := s.engine c) (by rw [sought_source hset, hs])
    ((entryFaulted_iff s m q k c).not.mpr h)
  rw [sought_take, sought_subBeats] at hpath
  exact hpath

/-! ## The start of a positioning (R52, R53) -/

theorem positionNew_origin {e : Engine} {x : Int} (hx : (ringGet e.ring e.release).record = .origin x)
    (ht : e.release ≠ e.tail) (id n start : Nat) : positionNew id n start e =
      ({ e with scan := inFlightFrom id start 0,
                positioning := some { path := originPath e.release x, stamps := [(e.release, stampAt id n (start * n))],
                                      reached := 0, target := none } }, none) := by
  rw [positionNew, hx]
  exact if_neg ht

theorem positionNew_refused {e : Engine} (h : ¬e.onOrigin) (id n start : Nat) : positionNew id n start e =
    ({ e with scan := refusedAtStart .noOrigin id start e.release, positioning := none }, some .noOrigin) := by
  unfold positionNew
  split
  · rename_i x hx
    exact if_pos (by_contra fun ht => h ⟨ht, x, hx⟩)
  · rfl

theorem positionRestore_retained {e : Engine} {n start : Nat} {x : Checkpoint}
    (h : newestAtOrBefore e.path.table (start * n) = some x) (id : Nat) : positionRestore id n start e =
      ({ e with scan := inFlightFrom id start x.t0,
                positioning := some { path := restoredPath e.path x, stamps := [], reached := x.t0, target := none } }, none) := by
  rw [positionRestore, h]

theorem positionRestore_refused {e : Engine} {n start : Nat} (h : newestAtOrBefore e.path.table (start * n) = none)
    (id : Nat) : positionRestore id n start e =
      ({ e with scan := refusedAtStart .notRetained id start e.path.head, positioning := none }, some .notRetained) := by
  rw [positionRestore, h]

theorem newestAtOrBefore_eq_none {table : List Checkpoint} {goal : Nat} :
    newestAtOrBefore table goal = none ↔ ∀ x ∈ table, goal < x.t0 := by
  simp [newestAtOrBefore]

/-! ## The channels that pass (R114) -/

theorem mayEnter_not_faulty {mask : List Nat} (h : s.mayEnter k mask c) : ¬s.faulty c := by
  obtain ⟨hf, hstop, -⟩ := h
  exact fun hy => hy.elim hf fun ⟨hs, hk⟩ => hk (hstop hs)

/-- A channel without PATH source that may enter passes, its engine as it was. -/
theorem entryAt_unpositioned (hset : (s.drive c).state ≠ .unset) (h : s.mayEnter k q.mask c)
    (hs : (s.setup c).takeSource k ≠ .path) : s.entryAt m q k c = (s.engine c, none) := by
  obtain ⟨-, -, hleader⟩ := id h
  cases hsource : (s.setup c).takeSource k with
  | path => exact absurd hsource hs
  | follow =>
    rw [entryAt_follow hset (mayEnter_not_faulty h) hsource, if_pos]
    exact (leaderThere_iff s m q k c).mpr (hleader hsource)
  | wheel => exact entryAt_wheel hset (mayEnter_not_faulty h) hsource

/-- A channel that enters a new take passes. -/
theorem entersNew_passes (hi : s.take.state = .idle) (h : s.entersNew k q.mask c) : (s.entryAt m q k c).2 = none := by
  by_cases hset : (s.drive c).state = .unset
  · rw [entryAt_unset hset]
  · obtain ⟨hmay, horigin⟩ := h hset
    by_cases hs : (s.setup c).takeSource k = .path
    · obtain ⟨ht, x, hx⟩ := horigin hs
      rw [entryAt_path hset (mayEnter_not_faulty hmay) hs, if_pos hi, positionNew_origin hx ht]
    · rw [entryAt_unpositioned hset hmay hs]

/-- A channel that enters the take again passes. -/
theorem entersAgain_passes (hi : s.take.state ≠ .idle) (h : s.entersAgain k q.mask (q.s * s.subBeats) c) :
    (s.entryAt m q k c).2 = none := by
  by_cases hset : (s.drive c).state = .unset
  · rw [entryAt_unset hset]
  · obtain ⟨hmay, hretained⟩ := h hset
    by_cases hs : (s.setup c).takeSource k = .path
    · obtain ⟨y, hy, hle⟩ := hretained hs
      have hsome : newestAtOrBefore (s.engine c).path.table (q.s * s.subBeats) ≠ none := fun hnone =>
        absurd hle (Nat.not_le.mpr (newestAtOrBefore_eq_none.mp hnone y hy))
      obtain ⟨x, hx⟩ := Option.ne_none_iff_exists'.mp hsome
      rw [entryAt_path hset (mayEnter_not_faulty hmay) hs, if_neg hi, positionRestore_retained hx]
    · rw [entryAt_unpositioned hset hmay hs]

/-! ## An ARM taken and refused at a channel (R114, R115) -/

theorem sought_withEngines (s : State) (m : Arrival) (q : ArmRequest) (k : TakeKind) :
    s.sought m q k = (s.sought m q k).withEngines s.engine := by
  rw [← sought_engine s m q k, withEngines_same]

theorem acceptArm_refused {u : State} {r : Result}
    (h : entryChecks (s.flightOf m) allChannels (s.sought m q k) = (u, some r)) :
    acceptArm m q.id k q.mask q.s s = discardArm (s.flightOf m) r .discarded u := by
  unfold State.sought State.flightOf at h
  unfold acceptArm
  dsimp only
  rw [h]
  rfl

theorem acceptArm_passed {u : State} (h : entryChecks (s.flightOf m) allChannels (s.sought m q k) = (u, none)) :
    acceptArm m q.id k q.mask q.s s = if u.hasPathChannel then u else commitArm (s.flightOf m) u := by
  unfold State.sought State.flightOf at h
  unfold acceptArm
  dsimp only
  rw [h]
  rfl

/-- The first channel that does not pass: the ARM ends by discard, with that channel's engine as its check left it. -/
theorem acceptArm_turnedAway {r : Result} (hbefore : ∀ b < c, (s.entryAt m q k b).2 = none)
    (h : (s.entryAt m q k c).2 = some r) : ∃ es,
      acceptArm m q.id k q.mask q.s s = discardArm (s.flightOf m) r .discarded ((s.sought m q k).withEngines es) ∧
      es c = (s.entryAt m q k c).1 ∧ ∀ b, (es b).positionedFrom (s.engine b) := by
  obtain ⟨es, hchecks, hat, hkeeps⟩ := entryChecks_refuse (s.flightOf m) (s.sought m q k) allChannels s.engine (by decide)
    (mem_allChannels c) (fun b _ => hbefore b) h
  rw [← sought_withEngines] at hchecks
  exact ⟨es, acceptArm_refused hchecks, hat, hkeeps⟩

/-- What such an ARM leaves (R115): all as before it, the cue board cleared, the outcome added. -/
theorem discardEntry_restores (s : State) (m : Arrival) (q : ArmRequest) (k : TakeKind) {es : Chan → Engine}
    (hes : ∀ b, (es b).positionedFrom (s.engine b)) (r : Result) :
    let t := discardArm (s.flightOf m) r .discarded ((s.sought m q k).withEngines es)
    t.take = { s.take with arm := none, latest := t.take.latest, inTakeFrame := t.take.inTakeFrame } ∧
    (s.port.outcomes.length < 4 →
      t.port.outcomes = s.port.outcomes ++ [{ station := m.sender, seq := m.seq, result := r }]) ∧
    t.board = CueBoard.reset ∧ t.holds = s.holds ∧ t.log = s.log ∧
    (∀ b, (es b).positioning = none → t.engine b = es b) ∧
    ∀ b, (t.engine b).positioning = none ∧ (t.engine b).ring = (s.engine b).ring ∧
      (t.engine b).path = (s.engine b).path ∧ (t.engine b).release = (s.engine b).release ∧
      (t.engine b).tail = (s.engine b).tail ∧ (t.drive b).state = (s.drive b).state ∧
      (t.drive b).setPoint = (s.drive b).setPoint ∧ (t.drive b).kind = (s.drive b).kind := by
  intro t
  obtain ⟨hboard, hport, -, hholds, hlog, -⟩ := sought_frame s m q k
  obtain ⟨htakeE, hportE, hboardE, hholdsE, hlogE, -⟩ := withEngines_frame (s.sought m q k) es
  rw [← hboardE] at hboard
  rw [← hportE] at hport
  rw [← hholdsE] at hholds
  rw [← hlogE] at hlog
  obtain ⟨-, -, -, hholds', hboard', -, hlog', -, -⟩ :=
    discardArm_frame (s.flightOf m) r .discarded ((s.sought m q k).withEngines es)
  have hengine (b : Chan) := discardArm_engineAt (s.flightOf m) r .discarded ((s.sought m q k).withEngines es) b
  refine ⟨?_, fun hroom => ?_, hboard'.trans hboard, hholds'.trans hholds, hlog'.trans hlog, fun b hb => ?_, fun b => ?_⟩
  · have htake : t.take = _ := discardArm_take (s.flightOf m) r .discarded ((s.sought m q k).withEngines es)
    rw [htake, htakeE, sought_take]
    rfl
  · have hout : t.port = _ := discardArm_port (s.flightOf m) r .discarded ((s.sought m q k).withEngines es)
    rw [hout, addOutcome_port (s := s) hport, addOutcome_outcomes _ _ _ hroom]
    rfl
  · obtain ⟨n, hn⟩ := hengine b
    rw [withEngines_engine, Engine.discarded_none hb] at hn
    exact hn
  · obtain ⟨n, hn⟩ := hengine b
    rw [withEngines_engine] at hn
    have hn' : t.engine b = _ := hn
    have hd : t.drive b = _ := discardArm_drive (s.flightOf m) r .discarded ((s.sought m q k).withEngines es) b
    rw [withEngines_drive, sought_drive] at hd
    obtain ⟨hring, hpath, hrelease, htail⟩ := hes b
    obtain ⟨hring', hrelease', htail', hpath'⟩ := Engine.discarded_keeps .discarded n
      (((s.sought m q k).withEngines es).take.s * ((s.sought m q k).withEngines es).subBeats) (es b)
    obtain ⟨hset, hkind⟩ := Drive.discarded_keeps (s.flightOf m) b ((s.drive b).taken ((s.setup b).takeSource k))
    obtain ⟨hset', hkind'⟩ := Drive.taken_keeps ((s.setup b).takeSource k) (s.drive b)
    rw [hn', hd]
    refine ⟨Engine.discarded_positioning .., hring'.trans hring, hpath'.trans hpath, hrelease'.trans hrelease,
      htail'.trans htail, ?_, hset.trans hset', hkind.trans hkind'⟩
    rw [Drive.discarded_state]
    by_cases hu : (s.drive b).state = .unset
    · rw [Drive.taken_unset hu, Drive.restored_eq (.inl rfl)]
    · rw [Drive.taken_set hu, Drive.restored_state rfl ChanState.noConfusion]
      exact Quad.get_ofFn _ b

/-! ## O45 -/

/-- The first failing entry check of a channel, and the outcome it gives (R52, R53, R114, R169). -/
theorem entryAt_refused {r : Result} (hset : (s.drive c).state ≠ .unset)
    (h : (s.faulty c ∧ r = .channelFaulted) ∨
      (¬s.faulty c ∧ (s.setup c).takeSource k = .follow ∧ r = .leaderAbsent ∧ ∃ st ch, (s.setup c).leader = some (st, ch) ∧
        (q.mask.contains st = false ∨ (s.entry st).present = false)) ∨
      (¬s.faulty c ∧ (s.setup c).takeSource k = .path ∧ s.take.state = .idle ∧ r = .noOrigin ∧ ¬(s.engine c).onOrigin) ∨
      (¬s.faulty c ∧ (s.setup c).takeSource k = .path ∧ s.take.state ≠ .idle ∧ r = .notRetained ∧
        ∀ x ∈ (s.engine c).path.table, q.s * s.subBeats < x.t0)) :
    (s.entryAt m q k c).2 = some r ∧
      (r = .noOrigin → (s.entryAt m q k c).1.scan.code = .noOrigin ∧ (s.entryAt m q k c).1.positioning = none) ∧
      (r = .notRetained → (s.entryAt m q k c).1.scan.code = .notRetained ∧ (s.entryAt m q k c).1.positioning = none) := by
  rcases h with ⟨hf, rfl⟩ | ⟨hf, hs, rfl, st, ch, hl, habsent⟩ | ⟨hf, hs, hi, rfl, horigin⟩ | ⟨hf, hs, hi, rfl, hretained⟩
  · rw [entryAt_faulty hset hf]
    exact ⟨rfl, nofun, nofun⟩
  · have hleader : ¬(s.sought m q k).leaderThere c = true := fun hthere => by
      obtain ⟨hmask, hpresent⟩ := (leaderThere_iff s m q k c).mp hthere st ch hl
      rcases habsent with habsent | habsent
      · exact absurd (hmask.symm.trans habsent) nofun
      · exact absurd (hpresent.symm.trans habsent) nofun
    rw [entryAt_follow hset hf hs, if_neg hleader]
    exact ⟨rfl, nofun, nofun⟩
  · rw [entryAt_path hset hf hs, if_pos hi, positionNew_refused horigin]
    exact ⟨rfl, fun _ => ⟨rfl, rfl⟩, nofun⟩
  · rw [entryAt_path hset hf hs, if_neg hi, positionRestore_refused (newestAtOrBefore_eq_none.mpr hretained)]
    exact ⟨rfl, nofun, fun _ => ⟨rfl, rfl⟩⟩

/-- An ARM that the checks let pass is accepted: a new take, or the current one again (R113, R114). -/
theorem execArm_accepts {a : Activity} (h : s.reachesAll 0x10 a) (hq : readArm (arrivalOf a).payload = some q)
    (hm : q.mask.contains s.station = true) (hid : q.id ≠ 0) (hk : takeKind? q.kind = some k) (hin : s.holdInput = true)
    (hh : s.holds.flags.any = false)
    (htake : (s.take.state = .idle ∧ q.id ≠ s.take.lastId) ∨
      ((s.take.state = .held ∨ s.take.state = .armed) ∧ q.id = s.take.id ∧ q.mask = s.take.mask ∧ k = s.take.kind)) :
    exec (.arm a) s = .next (acceptArm (arrivalOf a) q.id k q.mask q.s (s.heard a)) := by
  have hfree : (s.heard a).holdFree = true := holdFree_iff.mpr ⟨hin, hh⟩
  have htaken : armMember (arrivalOf a) q (s.heard a) =
      acceptArm (arrivalOf a) q.id k q.mask q.s (replaceArm (s.heard a)) := by
    refine armMember_taken hk hid hfree ?_
    rcases htake with ⟨hi, hlast⟩ | ⟨hst, hsame, hmask, hkind⟩
    · exact (armStateCheck_idle (s := s.heard a) hi).trans (if_neg hlast)
    · exact (armStateCheck_again (s := s.heard a) hst).trans
        ((if_pos hsame).trans (sameTake_same (s := s.heard a) hmask hkind))
  have hnot : (s.heard a).take.state ≠ .seeking := by
    rcases htake with ⟨hi, -⟩ | ⟨hst, -⟩
    · exact fun hs => absurd (hi.symm.trans hs) nofun
    · exact (again_state (s := s.heard a) hst).2
  rw [execArm_settles h, settleArm_member (s := s.heard a) hq hm, htaken, replaceArm_none hnot]

/-- Settles O45: the checks in order, and the first channel's entry check that does not pass. -/
theorem armRefusals : Obligations.ArmRefusals := by
  refine ⟨fun s a q h hq => ?_, fun s a q k c r h hq hm hid hk hin hh hset => ?_⟩
  · intro gives
    have hsettle := execArm_settles h
    refine ⟨fun hm => ?_, fun hm => ?_⟩
    · rw [hsettle, settleArm_elsewhere (s := s.heard a) hq hm]
    have hmember : exec (.arm a) s = .next (armMember (arrivalOf a) q (s.heard a)) :=
      hsettle.trans (congrArg _ (settleArm_member (s := s.heard a) hq hm))
    refine ⟨fun hr => hmember.trans (congrArg _ (armMember_range hr)), fun hid hle => ?_⟩
    obtain ⟨k, hk⟩ := takeKind?_of_le hle
    refine ⟨fun hr => hmember.trans (congrArg _ (armMember_hold hk hid (holdFree_false (s := s.heard a) hr))),
      fun hin hh => ?_⟩
    have hstate {r : Result} (hr : s.armStateCheck q.id k q.mask = some r) : gives r :=
      hmember.trans (congrArg _ (armMember_refused (s := s.heard a) hk hid (holdFree_iff.mpr ⟨hin, hh⟩) hr))
    refine ⟨fun hst => hstate (armStateCheck_state hst), fun hi hlast => ?_, fun hst => ⟨fun hne => ?_, fun heq hdiff => ?_⟩,
      fun f hst hf hdiff => ?_, fun f hst hf hp heq hdiff => ?_⟩
    · exact hstate ((armStateCheck_idle hi).trans (if_pos hlast))
    · exact hstate ((armStateCheck_again hst).trans (if_neg hne))
    · exact hstate ((armStateCheck_again hst).trans ((if_pos heq).trans (sameTake_other hk hdiff)))
    · exact hstate ((armStateCheck_seeking hst hf).trans (if_neg fun ⟨hp, heq⟩ => hdiff.elim (· hp) (· heq)))
    · exact hstate ((armStateCheck_seeking hst hf).trans ((if_pos ⟨hp, heq⟩).trans (sameTake_other hk hdiff)))
  · intro again fresh faulty source hbefore hcheck
    have hagain (hst : again) : s.take.state ≠ .idle := (again_state hst.1).1
    have hpass : ∀ b < c, ((s.heard a).entryAt (arrivalOf a) q k b).2 = none := by
      rcases hbefore with ⟨⟨hi, -⟩, hb⟩ | ⟨hst, hb⟩
      · exact fun b hbc => entersNew_passes (s := s.heard a) hi (hb b hbc)
      · exact fun b hbc => entersAgain_passes (s := s.heard a) (hagain hst) (hb b hbc)
    obtain ⟨href, hnew, hold⟩ := entryAt_refused (s := s.heard a) (m := arrivalOf a) (q := q) (k := k) (r := r) hset <| by
      rcases hcheck with hc | hc | ⟨hf, hs, ⟨hi, -⟩, hr⟩ | ⟨hf, hs, hst, hr⟩
      · exact .inl hc
      · exact .inr (.inl hc)
      · exact .inr (.inr (.inl ⟨hf, hs, hi, hr⟩))
      · exact .inr (.inr (.inr ⟨hf, hs, hagain hst, hr⟩))
    obtain ⟨es, haccept, hat, hkeeps⟩ := acceptArm_turnedAway hpass href
    obtain ⟨htake, hout, hboard, hholds, hlog, hengine, hrest⟩ :=
      discardEntry_restores (s.heard a) (arrivalOf a) q k hkeeps r
    have hexec := execArm_accepts h hq hm hid hk hin hh (hbefore.imp And.left And.left)
    rw [haccept] at hexec
    refine ⟨_, hexec, htake, hout, hboard, hholds, hlog, fun hr => ?_, fun hr => ?_, hrest⟩
    · obtain ⟨hcode, hnone⟩ := hnew hr
      rw [hengine c (by rw [hat, hnone]), hat, hcode]
    · obtain ⟨hcode, hnone⟩ := hold hr
      rw [hengine c (by rw [hat, hnone]), hat, hcode]

end Sys2Proof.Machine
end

