-- ==== Sys2Proof/Proofs/ArmAccepted.lean ====
section
/-! An ARM whose entry checks all pass (R114, R116, R117, R119): SEEKING with its positionings in flight, or committed at once
where no channel plays a path. -/

set_option Elab.async false

namespace Sys2Proof.Machine

variable {s : State} {c : Chan} {m : Arrival} {q : ArmRequest} {k : TakeKind}

/-! ## The station with every entry check passed -/

/-- The station after step 5 of R114, no check refusing. -/
def State.entered (s : State) (m : Arrival) (q : ArmRequest) (k : TakeKind) : State :=
  (s.sought m q k).withEngines fun c => (s.entryAt m q k c).1

theorem entered_engine (s : State) (m : Arrival) (q : ArmRequest) (k : TakeKind) (c : Chan) :
    (s.entered m q k).engine c = (s.entryAt m q k c).1 := withEngines_engine _ _ c

theorem entered_drive (s : State) (m : Arrival) (q : ArmRequest) (k : TakeKind) (c : Chan) :
    (s.entered m q k).drive c = (s.drive c).taken ((s.setup c).takeSource k) := by
  rw [State.entered, withEngines_drive, sought_drive]

theorem entered_take (s : State) (m : Arrival) (q : ArmRequest) (k : TakeKind) :
    (s.entered m q k).take = s.soughtTake m q k := by
  obtain ⟨htake, -⟩ := withEngines_frame (s.sought m q k) fun c => (s.entryAt m q k c).1
  rw [State.entered, htake, sought_take]

theorem entered_frame (s : State) (m : Arrival) (q : ArmRequest) (k : TakeKind) :
    (s.entered m q k).port = s.port ∧ (s.entered m q k).board = CueBoard.reset ∧ (s.entered m q k).holds = s.holds ∧
      (s.entered m q k).log = s.log := by
  obtain ⟨hboard, hport, -, hholds, hlog, -⟩ := sought_frame s m q k
  obtain ⟨-, hport', hboard', hholds', hlog', -⟩ := withEngines_frame (s.sought m q k) fun c => (s.entryAt m q k c).1
  unfold State.entered
  rw [hport', hboard', hholds', hlog']
  exact ⟨hport, hboard, hholds, hlog⟩

/-- A take channel is SEEKING with its source. -/
theorem entered_takeChannel (s : State) (m : Arrival) (q : ArmRequest) (k : TakeKind)
    (hset : (s.drive c).state ≠ .unset) : ((s.entered m q k).drive c).state = .seeking ∧
    ((s.entered m q k).drive c).source = some ((s.setup c).takeSource k) ∧
    ((s.entered m q k).drive c).setPoint = (s.drive c).setPoint := by
  rw [entered_drive, Drive.taken_set hset]
  exact ⟨rfl, rfl, rfl⟩

theorem entered_unset (s : State) (m : Arrival) (q : ArmRequest) (k : TakeKind) (hset : (s.drive c).state = .unset) :
    (s.entered m q k).drive c = { s.drive c with source := none } := by
  rw [entered_drive, Drive.taken_unset hset]

theorem entered_isTakeChannel : (s.entered m q k).isTakeChannel c = true ↔ (s.drive c).state ≠ .unset := by
  unfold State.isTakeChannel
  by_cases hset : (s.drive c).state = .unset
  · rw [entered_unset s m q k hset]
    simp [hset]
  · obtain ⟨-, hsource, -⟩ := entered_takeChannel s m q k hset
    rw [hsource]
    simp [hset]

theorem entered_hasPathChannel : (s.entered m q k).hasPathChannel = true ↔
    ∃ c, (s.drive c).state ≠ .unset ∧ (s.setup c).takeSource k = .path := by
  unfold State.hasPathChannel
  rw [List.any_eq_true]
  refine exists_congr fun c => ?_
  rw [decide_eq_true_eq, and_iff_right (mem_allChannels c)]
  by_cases hset : (s.drive c).state = .unset
  · rw [entered_unset s m q k hset]
    simp [hset]
  · obtain ⟨-, hsource, -⟩ := entered_takeChannel s m q k hset
    rw [hsource]
    simp [hset]

theorem entryChecks_entered (h : ∀ c, (s.entryAt m q k c).2 = none) :
    entryChecks (s.flightOf m) allChannels (s.sought m q k) = (s.entered m q k, none) := by
  have hpass := entryChecks_pass (s.flightOf m) (s.sought m q k) allChannels s.engine (by decide) fun c _ => h c
  rw [← sought_withEngines] at hpass
  simp only [mem_allChannels, if_true] at hpass
  exact hpass

/-- With a PATH take channel the ARM stays in its phase POSITIONING (R114). -/
theorem acceptArm_seeks (h : ∀ c, (s.entryAt m q k c).2 = none)
    (hpath : ∃ c, (s.drive c).state ≠ .unset ∧ (s.setup c).takeSource k = .path) :
    acceptArm m q.id k q.mask q.s s = s.entered m q k := by
  rw [acceptArm_passed (entryChecks_entered h), if_pos (entered_hasPathChannel.mpr hpath)]

/-- Every take channel may enter, and none plays a path. -/
def State.entersUnpositioned (s : State) (k : TakeKind) (mask : List Nat) : Prop :=
  ∀ c, (s.drive c).state ≠ .unset → s.mayEnter k mask c ∧ (s.setup c).takeSource k ≠ .path

/-- Without one it commits at once (R116). -/
theorem acceptArm_commits (h : s.entersUnpositioned k q.mask) :
    acceptArm m q.id k q.mask q.s s = commitArm (s.flightOf m) (s.entered m q k) := by
  have hpass (c : Chan) : (s.entryAt m q k c).2 = none := by
    by_cases hset : (s.drive c).state = .unset
    · rw [entryAt_unset hset]
    · obtain ⟨hmay, hs⟩ := h c hset
      rw [entryAt_unpositioned hset hmay hs]
  rw [acceptArm_passed (entryChecks_entered hpass), if_neg]
  rw [entered_hasPathChannel]
  exact fun ⟨c, hset, hs⟩ => (h c hset).2 hs

/-! ## The engines positioned (R52, R53) -/

/-- A take channel on its ORIGIN is positioned to it (R52, log 45). -/
theorem entered_origin (hi : s.take.state = .idle) (hset : (s.drive c).state ≠ .unset) (hf : ¬s.faulty c)
    (hs : (s.setup c).takeSource k = .path) {x : Int} (ht : (s.engine c).release ≠ (s.engine c).tail)
    (hx : (ringGet (s.engine c).ring (s.engine c).release).record = .origin x) : (s.entered m q k).engine c =
      { s.engine c with
        scan := inFlightFrom q.id q.s 0,
        positioning := some { path := originPath (s.engine c).release x,
                              stamps := [((s.engine c).release, stampAt q.id s.subBeats (q.s * s.subBeats))],
                              reached := 0, target := none } } := by
  rw [entered_engine, entryAt_path hset hf hs, if_pos hi, positionNew_origin hx ht]

/-- A take channel picked up is restored from its newest checkpoint at or before S·N (R53). -/
theorem entered_restored (hi : s.take.state ≠ .idle) (hset : (s.drive c).state ≠ .unset) (hf : ¬s.faulty c)
    (hs : (s.setup c).takeSource k = .path) {x : Checkpoint}
    (hx : newestAtOrBefore (s.engine c).path.table (q.s * s.subBeats) = some x) : (s.entered m q k).engine c =
      { s.engine c with
        scan := inFlightFrom q.id q.s x.t0,
        positioning := some { path := restoredPath (s.engine c).path x, stamps := [], reached := x.t0, target := none } } := by
  rw [entered_engine, entryAt_path hset hf hs, if_neg hi, positionRestore_retained hx]

/-- Every other channel that may enter keeps its engine. -/
theorem entered_unpositioned
    (h : (s.drive c).state ≠ .unset → s.mayEnter k q.mask c ∧ (s.setup c).takeSource k ≠ .path) :
    (s.entered m q k).engine c = s.engine c := by
  rw [entered_engine]
  by_cases hset : (s.drive c).state = .unset
  · rw [entryAt_unset hset]
  · obtain ⟨hmay, hs⟩ := h hset
    rw [entryAt_unpositioned hset hmay hs]

/-! ## The ARM that commits at once (R116, R117) -/

/-- A follower waits for its leader; a WHEEL channel is READY. -/
theorem entered_commitDrive (s : State) (m : Arrival) (q : ArmRequest) (k : TakeKind) (hset : (s.drive c).state ≠ .unset) :
    ((s.setup c).takeSource k = .wheel → ((s.entered m q k).commitDrive c).state = .ready) ∧
      ((s.setup c).takeSource k = .follow → ((s.entered m q k).commitDrive c).state = .seeking ∧
        ((s.entered m q k).commitDrive c).follow = .waiting) := by
  obtain ⟨hstate, hsource, -⟩ := entered_takeChannel s m q k hset
  have hf : ((s.entered m q k).drive c).state ≠ .faulted := fun hf => absurd (hstate.symm.trans hf) nofun
  unfold State.commitDrive
  refine ⟨fun hs => ?_, fun hs => ?_⟩
  · rw [Drive.committed_wheel hf (by rw [hsource, hs])]
  · rw [Drive.committed_follow hf (by rw [hsource, hs])]
    exact ⟨hstate, rfl⟩

theorem entered_seeking : (s.entered m q k).take.state = .seeking := by
  rw [entered_take]
  rfl

/-- With READY channels alone the ARM ends ACCEPTED at its arrival. -/
theorem commitEntered_armed (s : State) (m : Arrival) (q : ArmRequest) (k : TakeKind)
    (h : ∀ c, (s.drive c).state ≠ .unset → (s.setup c).takeSource k = .wheel) :
    (commitArm (s.flightOf m) (s.entered m q k)).take =
        { s.soughtTake m q k with state := .armed, committed := true, tf := q.s, arm := none } ∧
      (commitArm (s.flightOf m) (s.entered m q k)).port = (addOutcome m.sender m.seq .accepted s).port := by
  obtain ⟨hport, -⟩ := entered_frame s m q k
  obtain ⟨htake, hout⟩ := commitArm_armed (a := s.flightOf m) (s := s.entered m q k) entered_seeking fun c hc => by
    have hset := entered_isTakeChannel.mp hc
    exact (entered_commitDrive s m q k hset).1 (h c hset)
  rw [entered_take] at htake
  rw [addOutcome_port hport] at hout
  exact ⟨htake, hout⟩

/-- With a follower the station stays SEEKING, the ARM in its phase MOVING. -/
theorem commitEntered_moving (s : State) (m : Arrival) (q : ArmRequest) (k : TakeKind)
    (h : ∃ c, (s.drive c).state ≠ .unset ∧ (s.setup c).takeSource k = .follow) :
    (commitArm (s.flightOf m) (s.entered m q k)).take =
        { s.soughtTake m q k with committed := true, tf := q.s, arm := some { s.flightOf m with phase := .moving } } ∧
      (commitArm (s.flightOf m) (s.entered m q k)).port = s.port := by
  obtain ⟨c, hset, hs⟩ := h
  obtain ⟨hport, -⟩ := entered_frame s m q k
  obtain ⟨htake, hout⟩ := commitArm_moving (a := s.flightOf m) (s := s.entered m q k)
    ⟨c, entered_isTakeChannel.mpr hset, by rw [((entered_commitDrive s m q k hset).2 hs).1]; exact nofun⟩
  rw [entered_take] at htake
  exact ⟨htake, hout.trans hport⟩

/-- What it leaves of the engines, the cue board and the Capture Log. -/
theorem commitEntered_frame (s : State) (m : Arrival) (q : ArmRequest) (k : TakeKind)
    (h : s.entersUnpositioned k q.mask) (hnone : ∀ c, (s.engine c).positioning = none) :
    (∀ c, (commitArm (s.flightOf m) (s.entered m q k)).engine c = s.engine c) ∧
      (commitArm (s.flightOf m) (s.entered m q k)).board = CueBoard.reset ∧
      (commitArm (s.flightOf m) (s.entered m q k)).log = if s.take.state = .idle then CaptureLog.reset else s.log := by
  obtain ⟨-, hboard, -, hlog⟩ := entered_frame s m q k
  obtain ⟨-, -, -, -, hboard', -⟩ := commitArm_frame (s.flightOf m) (s.entered m q k)
  refine ⟨fun c => ?_, hboard'.trans hboard, ?_⟩
  · have hengine : (s.entered m q k).engine c = s.engine c := entered_unpositioned (h c)
    rw [commitArm_engineAt, hengine, Engine.committed_none (hnone c)]
  · rw [commitArm_log, hlog]
    rfl

/-! ## Outcomes are added at the end of the list (R86) -/

theorem addOutcome_extends (station seq : Nat) (r : Result) (s : State) :
    s.port.outcomes <+: (addOutcome station seq r s).port.outcomes := by
  unfold addOutcome
  split
  · exact ⟨_, rfl⟩
  · exact ⟨[], List.append_nil _⟩

theorem commitArm_extends {a : ArmFlight} (hs : s.take.state = .seeking) :
    s.port.outcomes <+: (commitArm a s).port.outcomes := by
  by_cases h : ∀ c, s.isTakeChannel c = true → (s.commitDrive c).state = .ready
  · rw [(commitArm_armed hs h).2]
    exact addOutcome_extends _ _ _ s
  · push Not at h
    rw [(commitArm_moving h).2]

/-- An ARM accepted takes no outcome from the list, however its entry checks end. -/
theorem acceptArm_extends (s : State) (m : Arrival) (q : ArmRequest) (k : TakeKind) :
    s.port.outcomes <+: (acceptArm m q.id k q.mask q.s s).port.outcomes := by
  obtain ⟨es, r, hchecks⟩ := entryChecks_engines (s.flightOf m) allChannels (s.sought m q k)
  obtain ⟨-, hport, -⟩ := sought_frame s m q k
  obtain ⟨htakeE, hportE, -⟩ := withEngines_frame (s.sought m q k) es
  have hout : ((s.sought m q k).withEngines es).port.outcomes = s.port.outcomes := by rw [hportE, hport]
  rw [← hout]
  cases r with
  | some r =>
    rw [acceptArm_refused hchecks, discardArm_port]
    exact addOutcome_extends _ _ _ _
  | none =>
    rw [acceptArm_passed hchecks]
    split
    · exact ⟨[], List.append_nil _⟩
    · refine commitArm_extends ?_
      rw [htakeE, sought_take]
      rfl

/-! ## O46 -/

/-- The take record of an accepted ARM, in its phase POSITIONING (R109, R114). -/
theorem soughtTake_committed (s : State) (m : Arrival) (q : ArmRequest) (k : TakeKind) :
    (s.take.state = .idle → (s.soughtTake m q k).committed = false) ∧
      (s.take.state ≠ .idle → (s.soughtTake m q k).committed = s.take.committed) :=
  ⟨fun h => if_pos h, fun h => if_neg h⟩

/-- An ARM of the take that one in flight positions ends that one first (R119). -/
theorem execArm_replaces {a : Activity} {f : ArmFlight} (h : s.reachesAll 0x10 a)
    (hq : readArm (arrivalOf a).payload = some q) (hm : q.mask.contains s.station = true) (hid : q.id ≠ 0)
    (hk : takeKind? q.kind = some k) (hin : s.holdInput = true) (hh : s.holds.flags.any = false)
    (hs : s.take.state = .seeking) (hf : s.take.arm = some f) (hp : f.phase = .positioning) (hsame : q.id = s.take.id)
    (hmask : q.mask = s.take.mask) (hkind : k = s.take.kind) : exec (.arm a) s =
      .next (acceptArm (arrivalOf a) q.id k q.mask q.s (discardArm f .aborted .abandoned (s.heard a))) := by
  have hcheck : (s.heard a).armStateCheck q.id k q.mask = none :=
    (armStateCheck_seeking (s := s.heard a) hs hf).trans
      ((if_pos ⟨hp, hsame⟩).trans (sameTake_same (s := s.heard a) hmask hkind))
  have hreplace : replaceArm (s.heard a) = discardArm f .aborted .abandoned (s.heard a) := by
    rw [replaceArm, State.heard_take, hs, hf]
  rw [execArm_settles h, settleArm_member (s := s.heard a) hq hm,
    armMember_taken (s := s.heard a) hk hid (holdFree_iff.mpr ⟨hin, hh⟩) hcheck, hreplace]

/-- Settles O46: a new take, then the clauses on a new take and a take again, and the ARM that replaces one in flight. -/
theorem armAcceptedInIdle : Obligations.ArmAcceptedInIdle := by
  refine ⟨fun s a q k h hq hm hid hk hin hh hi hlast => ⟨fun hall hsome => ?_, fun hunset hroom hnone => ?_⟩,
    fun s a q k h hq hm hid hk hin hh => ?_⟩
  · have hfaulty (c : Chan) (hset : (s.drive c).state ≠ .unset) : ¬(s.heard a).faulty c := by
      obtain ⟨-, hf, hstop, -⟩ := hall c hset
      exact fun hy => hy.elim hf fun ⟨hst, hkind⟩ => hkind (hstop hst)
    have henters (c : Chan) : (s.heard a).entersNew k q.mask c := fun hset => by
      obtain ⟨hs, hf, hstop, ht, hx⟩ := hall c hset
      exact ⟨⟨hf, hstop, fun hfollow => absurd (hs.symm.trans hfollow) nofun⟩, fun _ => ⟨ht, hx⟩⟩
    have hexec := execArm_accepts h hq hm hid hk hin hh (.inl ⟨hi, hlast⟩)
    rw [acceptArm_seeks (fun c => entersNew_passes (s := s.heard a) hi (henters c))
      (hsome.imp fun c hset => ⟨hset, (hall c hset).1⟩)] at hexec
    obtain ⟨hport, hboard, hholds, hlog⟩ := entered_frame (s.heard a) (arrivalOf a) q k
    refine ⟨_, hexec, ?_⟩
    rw [entered_take, hport]
    refine ⟨rfl, rfl, rfl, rfl, rfl, (soughtTake_committed (s.heard a) _ q k).1 hi, rfl,
      ⟨_, rfl, rfl, rfl, rfl, hi, rfl⟩, rfl, hboard, hlog, hholds, fun c => ?_⟩
    by_cases hset : (s.drive c).state = .unset
    · have hdrive := entered_unset (s.heard a) (arrivalOf a) q k hset
      have hengine : ((s.heard a).entered (arrivalOf a) q k).engine c = s.engine c :=
        entered_unpositioned fun hns => absurd hset hns
      rw [hdrive, hengine]
      exact ⟨rfl, rfl, rfl, rfl, rfl, fun _ => ⟨hset, rfl⟩, fun hns => absurd hset hns⟩
    · obtain ⟨hs, -, -, ht, x, hx⟩ := hall c hset
      obtain ⟨hstate, hsource, hpoint⟩ := entered_takeChannel (s.heard a) (arrivalOf a) q k hset
      rw [entered_origin (s := s.heard a) hi hset (hfaulty c hset) hs ht hx]
      refine ⟨rfl, rfl, rfl, rfl, hpoint, fun hu => absurd hu hset, fun _ =>
        ⟨hstate, hsource.trans (congrArg some hs), rfl, _, x, rfl, hx, rfl, rfl, rfl, rfl, rfl, rfl, rfl, rfl⟩⟩
  · have hno (c : Chan) (hset : (s.drive c).state ≠ .unset) : False := hset (hunset c)
    have hexec := execArm_accepts h hq hm hid hk hin hh (.inl ⟨hi, hlast⟩)
    rw [acceptArm_commits (s := s.heard a) fun c hset => (hno c hset).elim] at hexec
    obtain ⟨htake, hport⟩ := commitEntered_armed (s.heard a) (arrivalOf a) q k
      fun c hset => (hno c hset).elim
    obtain ⟨-, hboard, hlog⟩ := commitEntered_frame (s.heard a) (arrivalOf a) q k
      (fun c hset => (hno c hset).elim) hnone
    refine ⟨_, hexec, ?_⟩
    rw [htake, hport, hboard, hlog]
    exact ⟨rfl, rfl, rfl, rfl, rfl, rfl, if_pos hi, rfl, addOutcome_outcomes (s := s.heard a) _ _ _ hroom⟩
  · intro takes source again fresh
    have hagain (hst : again) : s.take.state ≠ .idle := (again_state hst.1).1
    have hexec (htake : fresh ∨ again) := execArm_accepts h hq hm hid hk hin hh htake
    refine ⟨hexec, fun hfresh henters hpath => ?_, fun htake hall hnone => ?_, fun hst henters hpath => ?_,
      fun f hs hf hp hsame hmask hkind hroom => ?_⟩
    · have hexec := hexec (.inl hfresh)
      rw [acceptArm_seeks (fun c => entersNew_passes (s := s.heard a) hfresh.1 (henters c)) hpath] at hexec
      obtain ⟨hport, -⟩ := entered_frame (s.heard a) (arrivalOf a) q k
      refine ⟨_, hexec, ?_⟩
      rw [entered_take, hport]
      refine ⟨rfl, rfl, (soughtTake_committed (s.heard a) _ q k).1 hfresh.1, rfl, fun c hset => ?_⟩
      obtain ⟨hstate, hsource, -⟩ := entered_takeChannel (s.heard a) (arrivalOf a) q k hset
      obtain ⟨hmay, horigin⟩ := henters c hset
      refine ⟨hstate, hsource, fun hs => ?_, fun hs => entered_unpositioned (s := s.heard a) fun _ => ⟨hmay, hs⟩⟩
      obtain ⟨ht, x, hx⟩ := horigin hs
      rw [entered_origin (s := s.heard a) hfresh.1 hset (mayEnter_not_faulty (s := s.heard a) hmay) hs ht hx]
      exact ⟨rfl, rfl⟩
    · have hexec := hexec htake
      rw [acceptArm_commits (s := s.heard a) hall] at hexec
      obtain ⟨hengine, hboard, hlog⟩ := commitEntered_frame (s.heard a) (arrivalOf a) q k hall hnone
      obtain ⟨hcommitted, htf, hidc, -⟩ := commitArm_commits (a := (s.heard a).flightOf (arrivalOf a))
        (s := (s.heard a).entered (arrivalOf a) q k) entered_seeking
      rw [entered_take] at htf hidc
      refine ⟨_, hexec, hidc, hcommitted, htf, hboard, fun hfresh => hlog.trans (if_pos hfresh.1),
        fun hst => hlog.trans (if_neg (hagain hst)), fun c hset => ?_, fun hwheel => ?_, fun hfollow => ?_⟩
      · have hcommit := entered_commitDrive (s.heard a) (arrivalOf a) q k hset
        rw [commitArm_drive]
        exact ⟨hengine c, hcommit⟩
      · obtain ⟨htake, hport⟩ := commitEntered_armed (s.heard a) (arrivalOf a) q k hwheel
        rw [htake, hport]
        exact ⟨rfl, rfl, addOutcome_outcomes (s := s.heard a) _ _ _⟩
      · obtain ⟨htake, hport⟩ := commitEntered_moving (s.heard a) (arrivalOf a) q k hfollow
        rw [htake, hport]
        exact ⟨rfl, rfl, _, rfl, rfl⟩
    · have hexec := hexec (.inr hst)
      rw [acceptArm_seeks (fun c => entersAgain_passes (s := s.heard a) (hagain hst) (henters c)) hpath] at hexec
      obtain ⟨hport, hboard, hholds, hlog⟩ := entered_frame (s.heard a) (arrivalOf a) q k
      obtain ⟨-, hsame, -⟩ := id hst
      refine ⟨_, hexec, ?_⟩
      rw [entered_take, hport]
      refine ⟨rfl, hsame, rfl, (soughtTake_committed (s.heard a) _ q k).2 (hagain hst), hboard, hlog, hholds, rfl,
        ⟨_, rfl, rfl, rfl, rfl, rfl⟩, fun c hset => ?_⟩
      obtain ⟨hstate, hsource, hpoint⟩ := entered_takeChannel (s.heard a) (arrivalOf a) q k hset
      obtain ⟨hmay, -⟩ := henters c hset
      refine ⟨hstate, hsource, hpoint, fun x hs hx => ?_⟩
      rw [entered_restored (s := s.heard a) (hagain hst) hset (mayEnter_not_faulty (s := s.heard a) hmay) hs hx]
      exact ⟨rfl, rfl, rfl, rfl, _, rfl, rfl, rfl, rfl, rfl⟩
    · refine ⟨execArm_replaces h hq hm hid hk hin hh hs hf hp hsame hmask hkind, ?_⟩
      have hout : (discardArm f .aborted .abandoned (s.heard a)).port.outcomes = _ :=
        congrArg Port.outcomes (discardArm_port f .aborted .abandoned (s.heard a))
      rw [addOutcome_outcomes (s := s.heard a) _ _ _ hroom] at hout
      have hextends := acceptArm_extends (discardArm f .aborted .abandoned (s.heard a)) (arrivalOf a) q k
      rw [hout] at hextends
      exact hextends

end Sys2Proof.Machine
end

