-- ==== Sys2Proof/Proofs/UnlockedEdges.lean ====
section
/-! FRAME_EDGE in ABSENT and LOST (R61, R63): the reference edge, and what the pulse that locks leaves of timer, port, Roster and
engines (R67, R70, R74, R78, R81, R97). -/

set_option Elab.async false

namespace Sys2Proof.Machine

variable {s : State} {e d : Nat}

/-! ## The locking pulse -/

/-- With the schedule complete there is no sub-beat to catch up with (R69). -/
theorem catchUp_complete (h : s.timer.schedule = none) (e : Nat) : catchUp e s = s := by
  unfold catchUp
  rw [h]

/-- The work of a pulse that locks the timer, before the window is laid out. -/
def State.locking (s : State) (e d : Nat) : State :=
  keepUnbegun (beginFrame e d (afterBeats true (s.latchedAt e d).rolls (s.latchedAt e d).timer.tag
    (beatN true (s.latchedAt e d).rolls e (s.latchedAt e d))))

/-- A locking pulse is its work, and then the window laid out. -/
theorem framePulse_locking (s : State) (e d : Nat) :
    framePulse true e d s = (layOutWindow (s.locking e d)).withEnded (s.endedWindow e) := rfl

/-- A pulse that locks the timer issues no sub-beat N (R70, log 14). -/
theorem beatN_locking (rolled : Bool) (e : Nat) (s : State) : beatN true rolled e s = countDown s := by
  unfold beatN
  exact if_pos rfl

/-- The latch alone comes before the countdown where no sub-beat is left to catch up with. -/
theorem latchedAt_complete (h : s.timer.schedule = none) (e d : Nat) :
    s.latchedAt e d = latchPending (nextTag s.timer.tag) { s with timer := { s.timer with period := some d } } := by
  unfold State.latchedAt beforeBeatN
  rw [catchUp_complete (s := { s with timer := { s.timer with period := some d } }) h]

theorem locking_timer (h : s.timer.schedule = none) (e d : Nat) : (s.locking e d).timer = { s.timer with
    state := .locked, reference := none, lastPulse := some e, period := some d, tag := (s.timer.tag + 1) % 256,
    schedule := some (1, e + d / s.subBeats) } := by
  have hfixed (rolled : Bool) (tag : Nat) : (afterBeats true rolled tag (countDown (s.latchedAt e d))).fixed = s.fixed := by
    rw [latchedAt_complete h]
    simp
  have hsub (rolled : Bool) (tag : Nat) :
      (afterBeats true rolled tag (countDown (s.latchedAt e d))).subBeats = s.subBeats :=
    congrArg (fun x => x.2.1) (hfixed rolled tag)
  have htimer : (s.latchedAt e d).timer = { s.timer with period := some d } := by rw [latchedAt_complete h]; rfl
  unfold State.locking
  rw [keepUnbegun_timer, beatN_locking, beginFrame]
  simp only [hsub, afterBeats_frame, countDown_frame, htimer, nextTag]

theorem locking_engine (h : s.timer.schedule = none) (e d : Nat) : (s.locking e d).engine = s.engine := by
  unfold State.locking
  rw [keepUnbegun_engine, beginFrame_engine, afterBeats_engine, beatN_locking, countDown_engine, latchedAt_complete h,
    latchPending_engine]
  rfl

theorem locking_port (h : s.timer.schedule = none) (e d : Nat) : (s.locking e d).port.outcomes = s.port.outcomes ∧
    (s.locking e d).port.join = s.port.join ∧ (s.locking e d).port.window = s.port.window := by
  have hl : (s.latchedAt e d).port = s.port := by rw [latchedAt_complete h]; rfl
  have hc : (beatN true (s.latchedAt e d).rolls e (s.latchedAt e d)).port = s.port := by
    rw [beatN_locking, ← hl]
    simp only [countDown_frame]
  obtain ⟨hout, -, hjoin, hwin⟩ := afterBeats_ports true (s.latchedAt e d).rolls (s.latchedAt e d).timer.tag
    (beatN true (s.latchedAt e d).rolls e (s.latchedAt e d))
  rw [hc] at hout hjoin hwin
  unfold State.locking
  rw [keepUnbegun_outcomes, keepUnbegun_join, keepUnbegun_window]
  simp only [beginFrame_frame]
  exact ⟨hout, hjoin, hwin⟩

/-! ## The window at the locking pulse -/

/-- An UNJOINED station's window: it becomes LISTENING with count 0 (R78). -/
theorem layOutWindow_unjoined (h : s.port.join = .unjoined) : layOutWindow s = { startRound s with
    port := { s.port with join := .listening 0 false, window := .slots, snapshot := none } } := by
  unfold layOutWindow
  rw [h]
  rfl

/-- A DUPLICATE station lays out no window (R78). -/
theorem layOutWindow_duplicate (h : s.port.join = .duplicate) : layOutWindow s = s := by
  unfold layOutWindow
  rw [h]
  dsimp only
  rw [← h]

/-- The join state a pulse leaves (R78). -/
theorem layOutWindow_join : (s.port.join = .unjoined → (layOutWindow s).port.join = .listening 0 false) ∧
    (s.port.join ≠ .unjoined → (layOutWindow s).port.join = s.port.join) := by
  refine ⟨fun h => by rw [layOutWindow_unjoined h], fun h => ?_⟩
  cases hj : s.port.join with
  | unjoined => exact absurd hj h
  | listening n b => rw [layOutWindow_listening hj]
  | joined => rw [layOutWindow_joined hj]
  | duplicate => rw [layOutWindow_duplicate hj, hj]

/-- Any station but a DUPLICATE one begins a round in its report slots (R74, R97). -/
theorem layOutWindow_slots (h : s.port.join ≠ .duplicate) : (layOutWindow s).port.window = .slots ∧
    (layOutWindow s).roster = (startRound s).roster := by
  cases hj : s.port.join with
  | unjoined => rw [layOutWindow_unjoined hj]; exact ⟨rfl, rfl⟩
  | listening n b => rw [layOutWindow_listening hj]; exact ⟨rfl, rfl⟩
  | joined => rw [layOutWindow_joined hj]; exact ⟨rfl, rfl⟩
  | duplicate => exact absurd hj h

/-! ## The edge -/

/-- A rising edge in ABSENT and LOST (R63). -/
theorem risingEdge_unlocked (h : s.timer.state = .absent ∨ s.timer.state = .lost) (time : Nat) :
    risingEdge time s = edgeUnlocked (micros (max s.clock time)) (s.atTime time) := by
  unfold risingEdge
  rcases h with h | h <;> simp [h, State.clock_atTime]

/-- With no reference edge the edge is kept. -/
theorem edgeUnlocked_kept (h : s.timer.reference = none) (e : Nat) :
    edgeUnlocked e s = { s with timer := { s.timer with reference := some e } } := by
  unfold edgeUnlocked
  rw [h]

/-- An edge at a spacing that is not valid replaces the reference edge. -/
theorem edgeUnlocked_replaced {r : Nat} (h : s.timer.reference = some r) (hr : e - r < 4000 ∨ 1000000 < e - r) :
    edgeUnlocked e s = { s with timer := { s.timer with reference := some e } } := by
  unfold edgeUnlocked
  rw [h]
  dsimp only
  rw [if_neg (by rw [validPeriod_iff]; omega)]

/-- An edge at a valid spacing locks. -/
theorem edgeUnlocked_locks {r : Nat} (h : s.timer.reference = some r) (hmin : 4000 ≤ e - r) (hmax : e - r ≤ 1000000) :
    edgeUnlocked e s = framePulse true e (e - r) s := by
  unfold edgeUnlocked
  rw [h]
  dsimp only
  rw [if_pos ((validPeriod_iff _).mpr ⟨hmin, hmax⟩)]

/-- A level that does not rise is no edge (R61). -/
theorem isEdge_iff {before after : Bool} : isEdge before after = true ↔ before = false ∧ after = true := by
  cases before <;> cases after <;> decide

/-- Settles O7: the three meetings of an edge with the reference edge, and the locking pulse field by field. -/
theorem edgesWhileUnlocked : Obligations.EdgesWhileUnlocked := by
  refine ⟨fun s time e h he => ?_, fun s time before after h => ?_⟩
  · have hexec : exec (.frameEdge time false true) s = .next (edgeUnlocked e (s.atTime time)) := by
      rw [he]
      exact congrArg Host.Outcome.next (risingEdge_unlocked h time)
    refine ⟨fun hr => ?_, fun r hr hd => ?_, fun r hr hschedule hmin hmax => ?_⟩
    · rw [hexec, edgeUnlocked_kept (s := s.atTime time) hr]
      rfl
    · rw [hexec, edgeUnlocked_replaced (s := s.atTime time) hr hd]
      rfl
    · rw [edgeUnlocked_locks (s := s.atTime time) hr hmin hmax, framePulse_locking] at hexec
      have htimer := locking_timer (s := s.atTime time) hschedule e (e - r)
      have hengine := locking_engine (s := s.atTime time) hschedule e (e - r)
      obtain ⟨hout, hjoin, hwindow⟩ := locking_port (s := s.atTime time) hschedule e (e - r)
      rw [State.atTime_port] at hout hjoin hwindow
      generalize (s.atTime time).locking e (e - r) = u at hexec htimer hengine hout hjoin hwindow
      obtain ⟨hunjoined, hkept⟩ := layOutWindow_join (s := u)
      have hslots := layOutWindow_slots (s := u)
      have hduplicate := layOutWindow_duplicate (s := u)
      have hjoined := layOutWindow_joined (s := u)
      rw [hjoin] at hunjoined hkept hslots hduplicate hjoined
      refine ⟨_, hexec, ?_, fun c => ?_, ?_, hunjoined, hkept, fun hj => ?_, fun hj => ?_, fun hj => ?_⟩
      · simp only [State.withEnded_timer, layOutWindow_frame, htimer]
        rfl
      · rw [State.withEnded_engine, layOutWindow_engine, hengine]
        rfl
      · rw [State.withEnded_port_outcomes, (layOutWindow_ports u).1, hout]
      · obtain ⟨hw, hroster⟩ := hslots hj
        refine ⟨hw, fun n => ?_, ?_⟩
        · rw [State.withEnded_entry, State.entry, hroster]
          exact startRound_mark u n
        · rw [State.withEnded_roster, hroster]
          rfl
      · rw [State.withEnded_port_window, hduplicate hj, hwindow]
      · rw [hjoined hj]
        rfl
  · exact congrArg Host.Outcome.next (if_neg (mt isEdge_iff.mp h))

end Sys2Proof.Machine
end

