-- ==== Sys2Proof/Proofs/LockLost.lean ====
section
/-! FRAME_EDGE refused in LOCKED, and LOST_FRAME_EXPIRY (R64, R65, R66, R70): what the loss of lock leaves of the port (R77, R78,
R89), and which take states latch FRAME_FAULT (R137). -/

set_option Elab.async false

namespace Sys2Proof.Machine

variable {s t : State}

/-! ## The open cue set closed (R89) -/

/-- Cue numbers join at the end. -/
theorem foldl_addCue_extends (l : List Nat) : ∀ p : List Nat, p <+: l.foldl addCue p := by
  induction l with
  | nil => exact fun p => ⟨[], List.append_nil p⟩
  | cons q qs ih =>
    intro p
    refine List.IsPrefix.trans ?_ (ih (addCue p q))
    unfold addCue
    split
    · exact ⟨[], List.append_nil p⟩
    · exact ⟨[q], rfl⟩

/-- Numbers that are new, and no two the same, join as they come. -/
theorem foldl_addCue_new (l : List Nat) : ∀ p : List Nat, (p ++ l).Nodup → l.foldl addCue p = p ++ l := by
  induction l with
  | nil => exact fun p _ => (List.append_nil p).symm
  | cons q qs ih =>
    intro p h
    have hq : p.contains q = false := by
      rw [List.nodup_append] at h
      obtain ⟨-, -, hne⟩ := h
      exact Bool.eq_false_iff.mpr fun hm => hne q (List.contains_iff_mem.mp hm) q (List.mem_cons_self) rfl
    have happ : p ++ q :: qs = (p ++ [q]) ++ qs := by simp
    rw [List.foldl_cons, addCue, if_neg (by rw [hq]; exact Bool.false_ne_true), happ]
    exact ih _ (happ ▸ h)

/-! ## The loss of lock -/

/-- What the loss of lock leaves of the port `p` at `now` (R70, R77, R78, R89). -/
structure Port.LeavesLock (p t : Port) (now : Nat) : Prop where
  unbegun : p.KeepsUnbegun t now
  window : t.window = .none
  openCues : t.openCues = []
  closedCues : t.closedCues = (p.openCues.foldl addCue p.closedCues).take 4
  join : t.join = p.join.lostLock
  outcomes : t.outcomes = p.outcomes

/-- A message not begun stays held, one begun goes on (R77). -/
theorem keepUnbegun_keeps (s : State) : s.port.KeepsUnbegun (keepUnbegun s).port s.clock := by
  unfold keepUnbegun
  refine ⟨fun x hx hnow => ?_, fun h => ?_⟩
  · rw [hx]
    dsimp only
    rw [if_pos hnow]
    exact ⟨rfl, rfl⟩
  · split
    · rename_i x hx
      rw [if_neg (Nat.not_lt.mpr (h x hx))]
      exact ⟨rfl, rfl⟩
    · exact ⟨rfl, rfl⟩

theorem leaveLocked_port (s : State) : s.port.LeavesLock (leaveLocked s).port s.clock where
  unbegun := keepUnbegun_keeps s
  window := rfl
  openCues := rfl
  closedCues := by
    simp [leaveLocked, staleSummary, closeCues]
  join := by
    simp [leaveLocked, staleSummary, closeCues]
  outcomes := (leaveLocked_ports s).1

theorem leaveLocked_timer (s : State) : (leaveLocked s).timer = { s.timer with state := .lost, schedule := none } := by
  simp [leaveLocked, staleSummary, closeCues]

theorem leaveLocked_channels (s : State) : (leaveLocked s).channels = s.channels := by
  simp [leaveLocked, staleSummary, closeCues]

theorem leaveLocked_roster (s : State) : (leaveLocked s).roster =
    { s.roster with summary := { s.roster.summary with current := false } } := by
  simp [leaveLocked, staleSummary, closeCues]

/-- A listening count returns to 0 (R78). -/
theorem Port.LeavesLock.listening {p t : Port} {now n : Nat} {heard : Bool} (h : p.LeavesLock t now)
    (hj : p.join = .listening n heard) : t.join = .listening 0 false := by
  rw [h.join, hj]
  rfl

/-- Every other join state stands. -/
theorem Port.LeavesLock.notListening {p t : Port} {now : Nat} (h : p.LeavesLock t now)
    (hj : ∀ n heard, p.join ≠ .listening n heard) : t.join = p.join := by
  rw [h.join]
  cases hp : p.join with
  | listening n heard => exact absurd hp (hj n heard)
  | unjoined => rfl
  | joined => rfl
  | duplicate => rfl

/-- An unsent closed set stays at the front of the one it becomes (R89). -/
theorem Port.LeavesLock.closed {p t : Port} {now : Nat} (h : p.LeavesLock t now) (hl : p.closedCues.length ≤ 4) :
    p.closedCues <+: t.closedCues := by
  obtain ⟨l, hl'⟩ := foldl_addCue_extends p.openCues p.closedCues
  rw [h.closedCues, ← hl', List.take_append, List.take_of_length_le hl]
  exact ⟨_, rfl⟩

/-- With no closed set unsent the open one closes as it is (R89). -/
theorem Port.LeavesLock.opened {p t : Port} {now : Nat} (h : p.LeavesLock t now) (hc : p.closedCues = [])
    (hn : p.openCues.Nodup) (hl : p.openCues.length ≤ 4) : t.closedCues = p.openCues := by
  rw [h.closedCues, hc, foldl_addCue_new p.openCues [] hn]
  exact List.take_of_length_le hl

/-! ## The edges and the expiry -/

/-- A runt is ignored but for the fault it raises (R64, R66). -/
theorem edgeLocked_runt {d p : Nat} (h : 4 * d < 3 * p) (e : Nat) (s : State) : edgeLocked e d p s = raiseFrameFault s :=
  if_pos h

/-- The state once lock is lost and the edge kept as reference, or none kept. -/
def State.unlockedWith (s : State) (r : Option Nat) : State :=
  { leaveLocked s with timer := { (leaveLocked s).timer with reference := r } }

/-- An interval out of range loses lock and keeps the edge (R64). -/
theorem edgeLocked_outOfRange {d p : Nat} (h : 3 * p ≤ 4 * d) (hd : d < 4000 ∨ 1000000 < d) (e : Nat) (s : State) :
    edgeLocked e d p s = raiseFrameFault (s.unlockedWith (some e)) := by
  unfold edgeLocked
  rw [if_neg (Nat.not_lt.mpr h), if_neg (by rw [validPeriod_iff]; omega)]
  rfl

theorem execLostFrameExpiry_locked {q p : Nat} (hs : s.timer.state = .locked) (hn : s.timer.schedule = none)
    (hq : s.timer.lastPulse = some q) (hp : s.timer.period = some p) : exec .lostFrameExpiry s =
      .next (raiseFrameFault ((s.atTime ((q + 2 * p) * 16)).unlockedWith none)) := by
  change execLostFrameExpiry s = _
  unfold execLostFrameExpiry
  rw [hs, hn, hq, hp]
  rfl

/-- The loss of lock, with the fault it raises, read back. -/
theorem unlocked_reads (s : State) (r : Option Nat) :
    let t := raiseFrameFault (s.unlockedWith r)
    t.timer = { s.timer with state := .lost, reference := r, schedule := none } ∧ t.clock = s.clock ∧
      t.channels = s.channels ∧ t.take = s.take ∧ t.log = s.log ∧ t.board = s.board ∧ s.port.LeavesLock t.port t.clock ∧
      t.roster = { s.roster with summary := { s.roster.summary with current := false } } ∧
      t.holds.flags = { s.holds.flags with frameFault := s.holds.flags.frameFault || s.take.state.isRunning } := by
  have hport : (s.unlockedWith r).port = (leaveLocked s).port := rfl
  obtain ⟨-, ht, hh, -⟩ := leaveLocked_frame s
  have htake : (s.unlockedWith r).take = s.take := ht
  have hholds : (s.unlockedWith r).holds = s.holds := hh
  dsimp only
  rw [raiseFrameFault_flags, raiseFrameFault, raiseCause_channels]
  simp only [raiseCause_frame]
  rw [hport, htake, hholds]
  simp only [State.unlockedWith, leaveLocked_timer, leaveLocked_channels, leaveLocked_roster, leaveLocked_frame,
    true_and, and_true]
  exact leaveLocked_port s

/-- Settles O8: a runt, an interval out of range and the expiry, the last two by the one loss of lock. -/
theorem runtsAndLossOfLock : Obligations.RuntsAndLossOfLock := by
  unfold Obligations.RuntsAndLossOfLock
  intro keeps
  have hkeeps (s t : State) (h : s.port.LeavesLock t.port t.clock) : keeps s t :=
    ⟨h.unbegun, h.window, h.openCues, fun n heard => h.listening, h.notListening, h.closed, h.opened⟩
  refine ⟨fun s time e q p hs hq hp he => ?_, fun s q p hs hn hq hp => ?_⟩
  · have hexec : exec (.frameEdge time false true) s = .next (edgeLocked e (e - q) p (s.atTime time)) := by
      rw [he]
      exact congrArg Host.Outcome.next (risingEdge_locked s time q p hs hq hp)
    refine ⟨fun h => ?_, fun h hd => ?_⟩
    · rw [edgeLocked_runt h] at hexec
      refine ⟨_, hexec, ?_⟩
      rw [raiseFrameFault_flags, raiseFrameFault, raiseCause_channels]
      simp only [raiseCause_frame]
      exact ⟨rfl, rfl, rfl, rfl, rfl, rfl⟩
    · rw [edgeLocked_outOfRange h hd] at hexec
      obtain ⟨htimer, hclock, hchannels, htake, -, -, hport, hroster, hflags⟩ := unlocked_reads (s.atTime time) (some e)
      exact ⟨_, hexec, htimer, hclock, hchannels, htake, hkeeps s _ hport, hport.outcomes, hroster, hflags⟩
  · obtain ⟨htimer, hclock, hchannels, htake, hlog, hboard, hport, hroster, hflags⟩ :=
      unlocked_reads (s.atTime ((q + 2 * p) * 16)) none
    refine ⟨_, execLostFrameExpiry_locked hs hn hq hp, ?_, hclock, hchannels, htake, hlog, hboard, hkeeps s _ hport,
      hport.outcomes, ?_, ?_, hflags⟩
    · rw [htimer, ← hn]
      rfl
    · rw [hroster]
      rfl
    · rw [hroster]

end Sys2Proof.Machine
end

