-- ==== Sys2Proof/Proofs/LastTakeFrame.lean ====
section
/-! LAST_TAKE_FRAME (R66, R72): the pulse at which TF comes to its greatest value latches FRAME_FAULT. -/

set_option Elab.async false

namespace Sys2Proof.Machine

variable {s : State}

/-- The last take frame is met in ROLLING and FINISHED, with TF at its greatest value (R72). -/
theorem atLastFrame_iff : s.atLastFrame = true ↔
    (s.take.state = .rolling ∨ s.take.state = .finished) ∧ s.take.tf = Config.lastTakeFrame := by
  simp only [State.atLastFrame, Bool.and_eq_true, Bool.or_eq_true, decide_eq_true_eq]

theorem atLastFrame_of_take {t : State} (h : t.take = s.take) : t.atLastFrame = s.atLastFrame := by
  rw [State.atLastFrame, h]
  rfl

/-- At the last take frame FRAME_FAULT is latched (R72, R66, R137). -/
theorem lastFrameFault_latches (h : s.atLastFrame = true) : (lastFrameFault s).holds.flags.frameFault = true := by
  obtain ⟨hstate, htf⟩ := atLastFrame_iff.mp h
  have hrun : s.take.state.isRunning = true := by rcases hstate with h | h <;> rw [h] <;> rfl
  unfold lastFrameFault
  rw [if_pos ⟨hstate, htf⟩, raiseFrameFault_flags, hrun]
  exact Bool.or_true _

/-- What follows sub-beat N judges the last take frame by the take record it leaves. -/
theorem afterBeats_lastFrame {locking rolled : Bool} {tag : Nat} (h : (afterBeats locking rolled tag s).atLastFrame = true) :
    (afterBeats locking rolled tag s).holds.flags.frameFault = true := by
  unfold afterBeats at h ⊢
  dsimp only at h ⊢
  generalize markTakeFrame _ = u at h ⊢
  obtain ⟨-, -, -, -, hcapture, hholds, -⟩ := capturePulse_frame (lastFrameFault u)
  obtain ⟨-, -, -, -, htake, -⟩ := lastFrameFault_frame u
  rw [hholds]
  exact lastFrameFault_latches ((atLastFrame_of_take (hcapture.trans htake)).symm.trans h)

/-- A pulse after which the station stands at the last take frame has latched FRAME_FAULT (R72). -/
theorem framePulse_lastFrame {locking : Bool} {e d : Nat} (h : (framePulse locking e d s).atLastFrame = true) :
    (framePulse locking e d s).holds.flags.frameFault = true := by
  rw [framePulse_eq] at h ⊢
  generalize hu : afterBeats locking _ _ _ = u at h ⊢
  have hlatch (hu' : u.atLastFrame = true) : u.holds.flags.frameFault = true := by
    subst hu
    exact afterBeats_lastFrame hu'
  have htake : ((layOutWindow (keepUnbegun (beginFrame e d u))).withEnded (s.endedWindow e)).take = u.take := by
    simp only [State.withEnded_take, layOutWindow_frame, keepUnbegun_take, beginFrame_frame]
  simp only [State.withEnded_holds, layOutWindow_frame, keepUnbegun_holds, beginFrame_frame]
  exact hlatch ((atLastFrame_of_take htake).symm.trans h)

/-- An accepted pulse moves the last pulse on: its interval is no shorter than the shortest period (R64). -/
theorem acceptsPulse_moves {time : Nat} (h : s.acceptsPulse time) :
    ∃ q, s.timer.lastPulse = some q ∧ micros (max s.clock time) ≠ q := by
  obtain ⟨q, -, -, hq, -, -, hmin, -⟩ := h
  exact ⟨q, hq, by omega⟩

/-- Settles O11: the pulse leaves TF at its greatest value, so LAST_TAKE_FRAME is the edge, and the fault is latched. -/
theorem lastTakeFrameFaults : Obligations.LastTakeFrameFaults := by
  intro s time ha hs htf
  obtain ⟨q, hq, hmoved⟩ := acceptsPulse_moves ha
  have hedge := risingEdge_accepted ha hq
  have htimer := framePulse_timer (micros (max s.clock time)) (micros (max s.clock time) - q) (s.atTime time)
  obtain ⟨hstate, hrise⟩ := framePulse_playing (s := s.atTime time) (e := micros (max s.clock time))
    (d := micros (max s.clock time) - q) hs
  rw [← hedge] at htimer hstate hrise
  have hmax : (risingEdge time s).take.tf = Config.lastTakeFrame := hrise.trans (Nat.min_eq_right htf)
  have hlast : (risingEdge time s).atLastFrame = true := atLastFrame_iff.mpr ⟨hstate, hmax⟩
  have hpulse : (risingEdge time s).timer.lastPulse ≠ s.timer.lastPulse := by
    rw [htimer, hq]
    exact fun h => hmoved (Option.some.inj h)
  have hfault : (risingEdge time s).holds.flags.frameFault = true := by
    rw [hedge] at hlast ⊢
    exact framePulse_lastFrame hlast
  refine ⟨risingEdge time s, congrArg Host.Outcome.next (if_pos ⟨rfl, hpulse, hlast⟩), rfl, hmax, hfault, ?_⟩
  rw [State.pullsHold, CauseFlags.any, hfault]
  exact Bool.or_true _

end Sys2Proof.Machine
end

