-- ==== Sys2Proof/Proofs/BeatsKept.lean ====
section
/-! What the work of a sub-beat at one channel may do to the rest of the station (R71, R174): it energizes no channel, puts the
converter to sleep at most, and outside SEEKING touches neither the other channels nor more of the take record than its state. -/

set_option Elab.async false

namespace Sys2Proof.Machine

variable {s t u : State} {b c : Chan}

/-! ## The relation -/

/-- The converter has nothing left to do (R174). -/
def State.converterIdle (s : State) : Prop :=
  s.sampler.conversion = none ∧ s.sampler.waking = none ∧ s.sampler.pass = none ∧ s.sampler.single = none

/-- The sampler stands from `s` to `t`, or sleeps: nothing is left for it and the sweep set is empty (R174). -/
def SleepsAtMost (s t : State) : Prop :=
  t.sampler = s.sampler ∨
    s.converterIdle ∧ sweepSet t = [] ∧ t.sampler = { s.sampler with mode := .standby }

/-- What operations of a sub-beat leave of the station: no channel becomes energized, the sampler sleeps at most, and outside
SEEKING the take record stands but for its state, which does not become SEEKING. -/
structure Beats (s t : State) : Prop where
  setup : t.setup = s.setup
  energized : ∀ b, t.energized b = true → s.energized b = true
  sampler : SleepsAtMost s t
  take : s.take.state ≠ .seeking → t.take.state ≠ .seeking ∧ t.take = { s.take with state := t.take.state }

/-- The same for the work at channel `c`: outside SEEKING it leaves the other channels. -/
structure BeatAt (c : Chan) (s t : State) : Prop extends Beats s t where
  others : s.take.state ≠ .seeking → ∀ b, b ≠ c → t.chan b = s.chan b

/-- The sweep set holds the inputs of the energized channels with ANALOG feedback (R174). -/
theorem mem_sweepSet {n : Nat} : n ∈ sweepSet s ↔
    n < 8 ∧ ∃ c, s.energized c = true ∧ (s.setup c).feedback = .analog n := by
  simp only [sweepSet, List.mem_filter, List.mem_range, List.any_eq_true, Bool.and_eq_true, decide_eq_true_eq,
    mem_allChannels, true_and]

/-- The sweep set is in input order. -/
theorem sweepSet_sorted (s : State) : (sweepSet s).Pairwise (· < ·) :=
  List.Pairwise.filter _ List.pairwise_lt_range

theorem energized_of_same (hc : t.channels = s.channels) (ht : t.take.state = s.take.state) : t.energized = s.energized := by
  funext b
  rw [State.energized, State.energized, State.drive_def, State.drive_def, hc, ht]

theorem setup_of_channels (hc : t.channels = s.channels) : t.setup = s.setup := by
  funext b
  rw [State.setup_def, State.setup_def, hc]

theorem sweepSet_of_same (hc : t.channels = s.channels) (ht : t.take.state = s.take.state) : sweepSet t = sweepSet s := by
  rw [sweepSet, sweepSet, energized_of_same hc ht, setup_of_channels hc]

/-- With no channel energized anew, an empty sweep set stays empty. -/
theorem sweepSet_empty (hu : t.setup = s.setup) (he : ∀ b, t.energized b = true → s.energized b = true)
    (h : sweepSet s = []) : sweepSet t = [] := by
  refine List.eq_nil_iff_forall_not_mem.mpr fun n hn => ?_
  obtain ⟨h8, b, hb, hf⟩ := mem_sweepSet.mp hn
  have : n ∈ sweepSet s := mem_sweepSet.mpr ⟨h8, b, he b hb, by rw [← hu]; exact hf⟩
  rw [h] at this
  cases this

theorem Beats.trans (h : Beats s t) (k : Beats t u) : Beats s u where
  setup := k.setup.trans h.setup
  energized b hb := h.energized b (k.energized b hb)
  sampler := by
    rcases h.sampler with hs | ⟨hidle, hempty, hs⟩ <;> rcases k.sampler with ks | ⟨kidle, kempty, ks⟩
    · exact .inl (ks.trans hs)
    · rw [State.converterIdle, hs] at kidle
      exact .inr ⟨kidle, kempty, by rw [ks, hs]⟩
    · exact .inr ⟨hidle, sweepSet_empty k.setup k.energized hempty, ks.trans hs⟩
    · exact .inr ⟨hidle, kempty, by rw [ks, hs]⟩
  take hs := by
    obtain ⟨ht, htake⟩ := h.take hs
    obtain ⟨hu, hutake⟩ := k.take ht
    exact ⟨hu, by rw [hutake, htake]⟩

theorem BeatAt.trans (h : BeatAt c s t) (k : BeatAt c t u) : BeatAt c s u where
  toBeats := h.toBeats.trans k.toBeats
  others hs b hb := (k.others (h.take hs).1 b hb).trans (h.others hs b hb)

/-- An operation that touches neither channels, take record nor sampler. -/
theorem BeatAt.of_same (c : Chan) (hc : t.channels = s.channels) (ht : t.take = s.take) (hs : t.sampler = s.sampler) :
    BeatAt c s t where
  setup := setup_of_channels hc
  energized b hb := by
    rw [energized_of_same hc (congrArg Take.state ht)] at hb
    exact hb
  sampler := .inl hs
  take h := by
    rw [ht]
    exact ⟨h, rfl⟩
  others _ b _ := by rw [State.chan_def, State.chan_def, hc]

theorem BeatAt.refl (c : Chan) (s : State) : BeatAt c s s := .of_same c rfl rfl rfl

/-- The drive of channel `c` replaced: one that is UNSET or FAULTED stays in its state. -/
theorem BeatAt.setDrive {d : Drive} (h : s.down c → d.state = (s.drive c).state) : BeatAt c s (s.setDrive c d) where
  setup := s.setDrive_setup c d
  energized b hb := by
    rw [State.energized_iff] at hb ⊢
    refine ⟨fun hdown => hb.1 ?_, hb.2⟩
    by_cases hbc : b = c
    · subst hbc
      unfold State.down
      rw [State.drive_setDrive, h hdown]
      exact hdown
    · unfold State.down
      rw [State.drive_setDrive_ne _ _ _ _ hbc]
      exact hdown
  sampler := .inl rfl
  take hs := ⟨hs, rfl⟩
  others _ b hb := setDrive_chan_ne hb s d

/-- What follows after the drive of channel `c` is replaced. -/
theorem BeatAt.after_setDrive {d : Drive} (k : BeatAt c (s.setDrive c d) u) (h : s.down c → d.state = (s.drive c).state) :
    BeatAt c s u := (BeatAt.setDrive h).trans k

/-- The take record's state replaced, outside SEEKING and SAFE. -/
theorem BeatAt.withState (c : Chan) {x : TakeState} (hs : s.take.state ≠ .safe) (hx : x ≠ .seeking) :
    BeatAt c s { s with take := { s.take with state := x } } where
  setup := rfl
  energized b hb := by
    rw [State.energized_iff] at hb ⊢
    exact ⟨hb.1, hs⟩
  sampler := .inl rfl
  take _ := ⟨hx, rfl⟩
  others _ _ _ := rfl

/-! ## The ends of motion, and the faults -/

theorem raiseCause_beats (c : Chan) (cause : Cause) (o : Option Nat) (k : Option FaultKind) (s : State) :
    BeatAt c s (raiseCause cause o k s) := by
  obtain ⟨-, -, -, -, htake, -, hsampler, -⟩ := raiseCause_frame cause o k s
  exact .of_same c (raiseCause_channels s cause o k) htake hsampler

/-- What the end of motion does (R118, R132): nothing, STOPPING becomes HELD, or an unwinding ends. -/
theorem checkRest_cases (s : State) : checkRest s = s ∨
    s.take.state = .stopping ∧ checkRest s = { s with take := { s.take with state := .held } } ∨
    s.take.state = .seeking ∧ ∃ a, s.take.arm = some a ∧ a.phase = .unwinding ∧ checkRest s = endUnwinding a s := by
  unfold checkRest
  split
  · split
    · rename_i hs
      exact .inr (.inl ⟨hs, rfl⟩)
    · rename_i a hs ha
      split
      · rename_i hp
        exact .inr (.inr ⟨hs, a, ha, hp, rfl⟩)
      · exact .inl rfl
    · exact .inl rfl
  · exact .inl rfl

theorem checkRest_beats (c : Chan) (s : State) : BeatAt c s (checkRest s) := by
  rcases checkRest_cases s with h | ⟨hs, h⟩ | ⟨hs, -⟩
  · rw [h]
    exact .refl c s
  · rw [h]
    exact .withState c (by rw [hs]; decide) (by decide)
  · obtain ⟨-, -, -, -, -, -, hsampler, -, -, hsetup⟩ := checkRest_frame s
    refine ⟨⟨hsetup, fun b hb => ?_, .inl hsampler, fun h => absurd hs h⟩, fun h => absurd hs h⟩
    rw [State.energized_iff] at hb ⊢
    exact ⟨fun hdown => hb.1 (checkRest_keepsDown b s hdown), by rw [hs]; decide⟩

theorem checkFinished_beats (c : Chan) (s : State) : BeatAt c s (checkFinished s) := by
  unfold checkFinished
  split
  · rename_i h
    exact .withState c (by rw [h.1]; decide) (by decide)
  · exact .refl c s

theorem checkArmed_beats (c : Chan) (s : State) : BeatAt c s (checkArmed s) := by
  by_cases hs : s.take.state = .seeking
  · obtain ⟨-, -, -, -, -, hsampler, -, -, hsetup⟩ := checkArmed_frame s
    refine ⟨⟨hsetup, fun b hb => ?_, .inl hsampler, fun h => absurd hs h⟩, fun h => absurd hs h⟩
    rw [State.energized_iff] at hb ⊢
    exact ⟨fun hdown => hb.1 (KeepsDown.of_channels (checkArmed_channels s) hdown), by rw [hs]; decide⟩
  · have h : checkArmed s = s := by
      unfold checkArmed
      split
      · exact if_neg fun h => hs h.1
      · rfl
    rw [h]
    exact .refl c s

/-- The converter left with nothing to do and no input to sweep sleeps (R174). -/
theorem samplerSettle_beats (c : Chan) (s : State) : BeatAt c s (samplerSettle s) := by
  unfold samplerSettle
  split
  · rename_i h
    obtain ⟨hconversion, hwaking, hpass, hsingle, hsweep⟩ := h
    have hsame := BeatAt.of_same (s := s) (t := { s with take := s.take }) c rfl rfl rfl
    exact ⟨⟨rfl, hsame.energized, .inr ⟨⟨hconversion, hwaking, hpass, hsingle⟩, hsweep, rfl⟩, hsame.take⟩, hsame.others⟩
  · exact .refl c s

theorem hardFault_beats (c : Chan) (k : FaultKind) (s : State) : BeatAt c s (hardFault c k s) := by
  unfold hardFault
  split
  · rename_i he
    have hup : ¬s.down c := ((s.energized_iff c).mp he).1
    have hheld (u : State) : BeatAt c u (if u.take.state = .armed ∧ u.isTakeChannel c = true then
        { u with take := { u.take with state := .held } } else u) := by
      split
      · rename_i h
        exact .withState c (by rw [h.1]; decide) (by decide)
      · exact .refl c u
    refine BeatAt.trans ?_ ((checkRest_beats c _).trans (samplerSettle_beats c _))
    exact ((raiseCause_beats c _ _ _ _).trans (hheld _)).after_setDrive fun h => absurd h hup
  · exact .refl c s

/-- A soft fault of a channel neither UNSET nor FAULTED. -/
theorem softFault_beats (h : ¬s.down c) (k : FaultKind) : BeatAt c s (softFault c k s) :=
  ((raiseCause_beats c _ _ _ _).trans (checkRest_beats c _)).after_setDrive fun hd => absurd hd h

theorem faults_beats (h : ¬s.down c) (f : FaultKind) : BeatAt c s (if f.isHard then hardFault c f s else softFault c f s) := by
  split
  · exact hardFault_beats c f s
  · exact softFault_beats h f

/-! ## What each channel state supplies (R155) -/

/-- A channel in a state other than UNSET and FAULTED. -/
theorem State.not_down {x : ChanState} (h : (s.drive c).state = x) (hx : x ≠ .unset ∧ x ≠ .faulted) : ¬s.down c := by
  rw [State.down, h]
  exact not_or.mpr hx

theorem State.down_setDrive (s : State) (d : Drive) (h : d.state = (s.drive c).state) : (s.setDrive c d).down c ↔ s.down c := by
  rw [State.down, State.down, State.drive_setDrive, h]

theorem becomeDone_beats (h : ¬s.down c) : BeatAt c s (becomeDone c s) :=
  (checkFinished_beats c _).after_setDrive fun hd => absurd hd h

theorem issueSetPoint_beats (c : Chan) (t : Nat) (x : Int) (s : State) : BeatAt c s (issueSetPoint c t x s) := by
  have hissue : BeatAt c s (s.setDrive c ((s.drive c).issue t s.interval x)) := by
    obtain ⟨-, -, hstate, -⟩ := Drive.issue_same t s.interval x (s.drive c)
    exact .setDrive fun _ => hstate
  unfold issueSetPoint
  dsimp only
  split
  · exact hissue.trans (hardFault_beats c _ _)
  · exact hissue

theorem monitor_beats (c : Chan) (s : State) : BeatAt c s (monitor c s) := by
  unfold monitor faultOnFollow
  split
  · split
    · exact (hardFault_beats c _ _).after_setDrive fun _ => rfl
    · exact .setDrive fun _ => rfl
  · exact .setDrive fun _ => rfl
  · exact .refl c s

theorem seekStep_beats (h : ¬s.down c) (t : Nat) (k : Seek) : BeatAt c s (seekStep c t k s) := by
  unfold seekStep
  dsimp only
  split
  · exact faults_beats h _
  · have hissue (x : Int) (v : Nat) :
        BeatAt c s (issueSetPoint c t x (s.setDrive c { s.drive c with seek := some { k with speed := v } })) :=
      (issueSetPoint_beats c t x _).after_setDrive fun _ => rfl
    split
    · rename_i hready
      refine (hissue _ _).trans ((checkArmed_beats c _).after_setDrive fun hd => ?_)
      exact absurd hd (State.not_down hready.1 (by decide))
    · exact hissue _ _

theorem stopStep_beats (h : ¬s.down c) (t : Nat) (k : Stop) : BeatAt c s (stopStep c t k s) := by
  unfold stopStep
  dsimp only
  split
  · exact (checkRest_beats c _).after_setDrive fun hd => absurd hd h
  · have hup (y : Stop) : ¬(s.setDrive c { s.drive c with stop := some y }).down c :=
      (s.down_setDrive { s.drive c with stop := some y } rfl).not.mpr h
    split
    · exact (faults_beats (hup _) _).after_setDrive fun _ => rfl
    · exact (issueSetPoint_beats c t _ _).after_setDrive fun _ => rfl

theorem playSetPoint_beats (h : ¬s.down c) (now t : Nat) (x : Int) : BeatAt c s (playSetPoint c now t x s) := by
  unfold playSetPoint
  split
  · exact faults_beats h _
  · exact (issueSetPoint_beats c now x _).after_setDrive fun _ => rfl

theorem playFault_beats (h : ¬s.down c) (now t : Nat) (k : FaultKind) (x : Int) : BeatAt c s (playFault c now t k x s) := by
  unfold playFault
  dsimp only
  have hup : ¬(raiseCause .channelFault (some c.val) (some k) (s.setDrive c ((s.drive c).recordKind k))).down c := by
    rw [State.down, State.drive_def, raiseCause_channels]
    exact (s.down_setDrive ((s.drive c).recordKind k) rfl).not.mpr h
  have hissue := ((raiseCause_beats c .channelFault (some c.val) (some k) _).trans
    (playSetPoint_beats hup now t x)).after_setDrive fun hd => absurd hd h
  split
  · rename_i hplaying
    refine hissue.trans ((checkRest_beats c _).after_setDrive fun hd => ?_)
    exact absurd hd (State.not_down hplaying (by decide))
  · exact hissue

theorem putPlay_beats (c : Chan) (x : PlayState) (s : State) : BeatAt c s (s.putPlay c x) := by
  obtain ⟨-, -, -, htake, -, hsampler, -, -, hsetup⟩ := State.putPlay_frame s c x
  have hdrive : (s.putPlay c x).drive = s.drive := funext fun b => State.putPlay_drive s c b x
  refine ⟨⟨hsetup, fun b hb => ?_, .inl hsampler, fun h => ?_⟩, fun _ b hb => setEngine_chan_ne hb s _⟩
  · rw [State.energized, hdrive, htake] at hb
    exact hb
  · rw [htake]
    exact ⟨h, rfl⟩

theorem playPath_beats (h : ¬s.down c) (now t : Nat) (first : Bool) : BeatAt c s (playPath c now t first s) := by
  unfold playPath
  dsimp only
  have hup (x : PlayState) : ¬(s.putPlay c x).down c := by
    rw [State.down, State.putPlay_drive]
    exact h
  have hissue (x : PlayState) : BeatAt c s (playSetPoint c now t x.path.setPoint (s.putPlay c x)) :=
    (putPlay_beats c x s).trans (playSetPoint_beats (hup x) now t _)
  split
  · exact hissue _
  · split
    · rename_i hplaying
      exact (hissue _).trans (becomeDone_beats (State.not_down hplaying (by decide)))
    · exact hissue _
  · exact (putPlay_beats c _ s).trans (playFault_beats (hup _) now t _ _)

theorem playBeat_beats (h : ¬s.down c) (now t k : Nat) (first : Bool) : BeatAt c s (playBeat c now t k first s) := by
  unfold playBeat
  split
  · exact playPath_beats h now t first
  · exact playSetPoint_beats h now t _
  · exact playSetPoint_beats h now t _
  · exact issueSetPoint_beats c now _ s

theorem stateBeat_beats (c : Chan) (now : Nat) (t : Option Nat) (k : Nat) (first : Bool) (s : State) :
    BeatAt c s (stateBeat c now t k first s) := by
  have hholds := issueSetPoint_beats c now (s.drive c).setPoint s
  unfold stateBeat
  cases hs : (s.drive c).state with
  | unset => exact .refl c s
  | faulted => exact .refl c s
  | parked => exact hholds
  | ready => exact hholds
  | done => exact hholds
  | stopped => exact hholds
  | seeking =>
    dsimp only
    split
    · exact seekStep_beats (State.not_down hs (by decide)) now _
    · exact hholds
  | stopping =>
    dsimp only
    split
    · exact stopStep_beats (State.not_down hs (by decide)) now _
    · exact .refl c s
  | playing =>
    dsimp only
    split
    · exact playBeat_beats (State.not_down hs (by decide)) now _ k first
    · exact hholds

/-! ## A sub-beat at one channel, and at all four -/

theorem driveBeat_beats (now : Nat) (t : Option Nat) (k : Nat) (first : Bool) (c : Chan) (s : State) :
    BeatAt c s (driveBeat now t k first c s) := by
  unfold driveBeat
  split
  · exact (monitor_beats c s).trans (stateBeat_beats c now t k first _)
  · exact .refl c s

theorem driveFreeBeat_beats (now : Nat) (c : Chan) (s : State) : BeatAt c s (driveFreeBeat now c s) := by
  unfold driveFreeBeat
  split
  · exact (monitor_beats c s).trans (stateBeat_beats c now none 0 false _)
  · exact .refl c s

theorem Beats.each {f : Chan → State → State} (h : ∀ c s, BeatAt c s (f c s)) (s : State) : Beats s (eachChannel f s) :=
  (((h 0 _).toBeats.trans (h 1 _).toBeats).trans (h 2 _).toBeats).trans (h 3 _).toBeats

/-- Outside SEEKING a channel whose own turn does nothing is left by all four turns. -/
theorem eachChannel_leaves {f : Chan → State → State} (h : ∀ c s, BeatAt c s (f c s)) (hs : s.take.state ≠ .seeking)
    (hown : ∀ u, Beats s u → u.chan c = s.chan c → f c u = u) : (eachChannel f s).chan c = s.chan c := by
  have htrans (s t u : State) (hst : Beats s t ∧ (s.take.state ≠ .seeking → t.chan c = s.chan c))
      (htu : Beats t u ∧ (t.take.state ≠ .seeking → u.chan c = t.chan c)) :
      Beats s u ∧ (s.take.state ≠ .seeking → u.chan c = s.chan c) :=
    ⟨hst.1.trans htu.1, fun hs => (htu.2 (hst.1.take hs).1).trans (hst.2 hs)⟩
  obtain ⟨u, ⟨hsu, hchan⟩, hut, hend⟩ := eachChannel_split
    (fun s t => Beats s t ∧ (s.take.state ≠ .seeking → t.chan c = s.chan c)) (fun s => ⟨(BeatAt.refl c s).toBeats, fun _ => rfl⟩)
    htrans f c (fun d s hd => ⟨(h d s).toBeats, fun hs => (h d s).others hs c hd.symm⟩) s
  rw [hown u hsu (hchan hs)] at hend
  exact (hend (hsu.take hs).1).trans (hchan hs)

end Sys2Proof.Machine
end

