-- ==== Sys2Proof/Proofs/SubBeatsIssued.lean ====
section
/-! SUB_BEAT and FREE_SUB_BEAT (R69, R71, R73, R138, R155, R156): what either leaves of timer, take, log and channels, a drive
that holds, and the sweep trigger (R174, R175, R176). -/

set_option Elab.async false

namespace Sys2Proof.Machine

variable {s t u v : State} {b c : Chan} {k e : Nat}

/-! ## A sub-beat issued -/

/-- The station after the drives' turns at sub-beat `k` issued at microsecond `e`, before the sweep trigger (R156). -/
def State.beaten (s : State) (k e : Nat) : State :=
  checkFinished (consumeCues
    (eachChannel (driveBeat (e * Config.tick) (s.takeSubBeat k) k false) (s.atBeat k e)))

/-- The timer's schedule replaced. -/
def State.withSchedule (s : State) (x : Option (Nat × Nat)) : State := { s with timer := { s.timer with schedule := x } }

/-- The drives' turns, the sweep trigger, the schedule (R69, R156). -/
theorem scheduledBeat_eq (k due q p : Nat) (s : State) : scheduledBeat k due q p s =
    (samplerTrigger (max (micros s.clock) due * Config.tick) (s.beaten k (max (micros s.clock) due))).withSchedule
      (nextDue s.subBeats q p k) := by
  unfold scheduledBeat issueBeat
  dsimp only
  generalize max (micros s.clock) due = e
  have hmet : consumeCues (noteTakeSubBeat ((s.atTime (e * Config.tick)).takeSubBeat k)
      { s.atTime (e * Config.tick) with
        timer := { (s.atTime (e * Config.tick)).timer with latest := some e } }) = s.atBeat k e := rfl
  have hcarries : (s.atTime (e * Config.tick)).takeSubBeat k = s.takeSubBeat k := rfl
  rw [hmet, hcarries, ← State.beaten, ← State.withSchedule]

/-- SUB_BEAT on a schedule: sub-beat `k` issued, the schedule moved on (R69). -/
theorem execSubBeat_issues {due q p : Nat} (hs : s.timer.schedule = some (k, due)) (hq : s.timer.lastPulse = some q)
    (hp : s.timer.period = some p) (he : e = max (micros s.clock) due) : exec .subBeat s =
      .next ((samplerTrigger (e * Config.tick) (s.beaten k e)).withSchedule (nextDue s.subBeats q p k)) := by
  change execSubBeat s = _
  unfold execSubBeat
  rw [hs, hq, hp]
  dsimp only
  rw [scheduledBeat_eq, ← he]

theorem withSchedule_sweepSet (s : State) (x : Option (Nat × Nat)) : sweepSet (s.withSchedule x) = sweepSet s := rfl

theorem withSchedule_sampler (s : State) (x : Option (Nat × Nat)) : (s.withSchedule x).sampler = s.sampler := rfl

/-- SUB_BEAT of a sub-beat that stands to be issued. -/
theorem execSubBeat_due (h : s.dueAt k e) : ∃ x, exec .subBeat s =
    .next ((samplerTrigger (e * Config.tick) (s.beaten k e)).withSchedule x) := by
  obtain ⟨due, q, p, hs, hq, hp, he⟩ := h
  exact ⟨_, execSubBeat_issues hs hq hp he⟩

/-- The state in which the drives meet a free-running sub-beat issued at microsecond `e` (R71). -/
def State.atFreeBeat (s : State) (e : Nat) : State :=
  { s.atTime (e * Config.tick) with timer := { s.timer with latest := some e } }

/-- The station after the drives' turns at a free-running sub-beat, before the sweep trigger. -/
def State.freeBeaten (s : State) (e : Nat) : State := eachChannel (driveFreeBeat (e * Config.tick)) (s.atFreeBeat e)

/-- FREE_SUB_BEAT while a channel is STOPPING (R71). -/
theorem execFreeSubBeat_issues (h : s.freeAt e) (hs : (s.drive c).state = .stopping) :
    exec .freeSubBeat s = .next (samplerTrigger (e * Config.tick) (s.freeBeaten e)) := by
  obtain ⟨q, p, hschedule, hq, hp, rfl⟩ := h
  change execFreeSubBeat s = _
  unfold execFreeSubBeat
  rw [hschedule, hq, hp]
  dsimp only
  rw [if_pos (show s.anyDrive _ = true from List.any_eq_true.mpr ⟨c, mem_allChannels c, decide_eq_true hs⟩)]
  rfl

theorem consumeCues_beats (c : Chan) (s : State) : BeatAt c s (consumeCues s) := .of_same c rfl rfl rfl

theorem beaten_beats (s : State) (k e : Nat) : Beats (s.atBeat k e) (s.beaten k e) :=
  ((Beats.each (driveBeat_beats (e * Config.tick) (s.takeSubBeat k) k false) (s.atBeat k e)).trans
    (consumeCues_beats 0 _).toBeats).trans (checkFinished_beats 0 _).toBeats

theorem freeBeaten_beats (s : State) (e : Nat) : Beats (s.atFreeBeat e) (s.freeBeaten e) :=
  Beats.each (fun c u => driveFreeBeat_beats _ c u) _

/-! ## The timer and the take record -/

/-- A sub-beat changes of the timer its latest sub-beat, and reaches no log and no Roster. -/
theorem beaten_frame (s : State) (k e : Nat) : (s.beaten k e).timer = { s.timer with latest := some e } ∧
    (s.beaten k e).log = s.log ∧ (s.beaten k e).roster = s.roster := by
  obtain ⟨-, -, -, htimer, -⟩ := s.atBeat_same k e
  have hlog : (s.atBeat k e).log = s.log := by unfold State.atBeat noteTakeSubBeat; split <;> rfl
  have hroster : (s.atBeat k e).roster = s.roster := by unfold State.atBeat noteTakeSubBeat; split <;> rfl
  rw [← htimer, ← hlog, ← hroster]
  unfold State.beaten consumeCues
  simp only [checkFinished_frame]
  refine ⟨eachChannel_timer _ _ fun c u => ?_, eachChannel_log _ _ fun c u => ?_, eachChannel_roster _ _ fun c u => ?_⟩ <;>
    simp only [driveBeat_frame]

/-- The latest take sub-beat at sub-beat `k`: the one it carries, or the one before (R73, R138). -/
theorem State.atBeat_latest (s : State) (k e : Nat) :
    (s.atBeat k e).take.latest = (s.takeSubBeat k).or s.take.latest := by
  unfold State.atBeat noteTakeSubBeat
  cases s.takeSubBeat k <;> rfl

/-- Outside SEEKING a sub-beat moves of the take record its state and the latest take sub-beat alone. -/
theorem beaten_take (hs : s.take.state ≠ .seeking) (k e : Nat) : (s.beaten k e).take =
    { s.take with state := (s.beaten k e).take.state, latest := (s.takeSubBeat k).or s.take.latest } := by
  obtain ⟨-, -, -, -, htake, -⟩ := s.atBeat_same k e
  have hstate : (s.atBeat k e).take.state = s.take.state := by rw [htake]
  obtain ⟨-, hbeaten⟩ := (beaten_beats s k e).take (by rw [hstate]; exact hs)
  rw [hbeaten, ← s.atBeat_latest k e, htake]

theorem takeSubBeat_stopping (h : s.take.state = .stopping) (k : Nat) :
    s.takeSubBeat k = some (s.take.tf * s.subBeats + k) := by
  unfold State.takeSubBeat
  rw [h]

/-- In HELD the sub-beats of a frame of the take carry take sub-beats, and no others do (log 12). -/
theorem takeSubBeat_held (h : s.take.state = .held) (k : Nat) :
    s.takeSubBeat k = if s.take.inTakeFrame then some (s.take.tf * s.subBeats + k) else none := by
  unfold State.takeSubBeat
  rw [h]

/-- In SEEKING a sub-beat carries no take sub-beat (R73). -/
theorem takeSubBeat_seeking (h : s.take.state = .seeking) (k : Nat) : s.takeSubBeat k = none := by
  unfold State.takeSubBeat
  rw [h]

/-! ## The channels left -/

/-- Outside SEEKING a channel not energized is left by a sub-beat (R155). -/
theorem beaten_chan (hs : s.take.state ≠ .seeking) (hc : s.energized c = false) (k e : Nat) :
    (s.beaten k e).chan c = s.chan c := by
  obtain ⟨-, -, -, -, htake, -⟩ := s.atBeat_same k e
  have hstate : (s.atBeat k e).take.state = s.take.state := by rw [htake]
  have hbefore : (s.atBeat k e).chan c = s.chan c := by rw [State.chan_def, s.atBeat_channels]; rfl
  have hown (u : State) (hu : Beats (s.atBeat k e) u) :
      driveBeat (e * Config.tick) (s.takeSubBeat k) k false c u = u := by
    have hdark : ¬u.energized c = true := fun h => by
      have := hu.energized c h
      rw [s.atBeat_energized, hc] at this
      cases this
    unfold driveBeat
    exact if_neg hdark
  have hturns := eachChannel_leaves (c := c) (driveBeat_beats (e * Config.tick) (s.takeSubBeat k) k false)
    (s := s.atBeat k e) (by rw [hstate]; exact hs) fun u hu _ => hown u hu
  have hafter (u : State) : (checkFinished (consumeCues u)).chan c = u.chan c := by
    rw [State.chan_def, checkFinished_channels]
    rfl
  rw [State.beaten, hafter, hturns, hbefore]

/-- In STOPPING a free-running sub-beat leaves every channel that is not STOPPING (R71). -/
theorem freeBeaten_drive (hs : s.take.state ≠ .seeking) (hc : (s.drive c).state ≠ .stopping) (e : Nat) :
    (s.freeBeaten e).drive c = s.drive c := by
  have hown (u : State) (hu : u.chan c = (s.atFreeBeat e).chan c) : driveFreeBeat (e * Config.tick) c u = u := by
    have hdrive : u.drive c = s.drive c := congrArg Channel.drive hu
    unfold driveFreeBeat
    exact if_neg fun h => hc (hdrive ▸ h.2)
  have hchan := eachChannel_leaves (c := c) (s := s.atFreeBeat e) (fun c u => driveFreeBeat_beats (e * Config.tick) c u) hs
    fun u _ hu => hown u hu
  exact congrArg Channel.drive hchan

/-- Without a take sub-beat no path is evaluated: the Cue Board stands. -/
theorem stateBeat_board_none (c : Chan) (now k : Nat) (first : Bool) (s : State) :
    (stateBeat c now none k first s).board = s.board := by
  unfold stateBeat
  cases (s.drive c).state with
  | unset | faulted => rfl
  | parked | ready | done | stopped | playing => simp only [holdStill_frame]
  | seeking =>
    dsimp only
    split
    · simp only [seekStep_frame]
    · simp only [holdStill_frame]
  | stopping =>
    dsimp only
    split
    · simp only [stopStep_frame]
    · rfl

theorem driveFreeBeat_board (now : Nat) (c : Chan) (s : State) : (driveFreeBeat now c s).board = s.board := by
  unfold driveFreeBeat
  split
  · rw [stateBeat_board_none]
    simp only [monitor_frame]
  · rfl

/-- A free-running sub-beat reaches no log, no Cue Board and no Roster, and the timer's latest sub-beat alone (R71). -/
theorem freeBeaten_frame (s : State) (e : Nat) : (s.freeBeaten e).timer = { s.timer with latest := some e } ∧
    (s.freeBeaten e).log = s.log ∧ (s.freeBeaten e).board = s.board ∧ (s.freeBeaten e).roster = s.roster ∧
    (s.freeBeaten e).engine = s.engine := by
  unfold State.freeBeaten
  refine ⟨?_, ?_, ?_, ?_, ?_⟩
  · exact eachChannel_timer _ _ fun c u => by simp only [driveFreeBeat_frame]
  · exact eachChannel_log _ _ fun c u => by simp only [driveFreeBeat_frame]
  · exact eachChannel_board _ _ fun c u => driveFreeBeat_board _ c u
  · exact eachChannel_roster _ _ fun c u => by simp only [driveFreeBeat_frame]
  · exact eachChannel_engine _ _ fun c u => driveFreeBeat_engine _ c u

/-! ## A drive that holds (R155, R164) -/

/-- The channel states that hold their set-point at a sub-beat (R155). -/
def ChanState.holds (x : ChanState) : Prop := x = .parked ∨ x = .ready ∨ x = .done ∨ x = .stopped

theorem stateBeat_holds (h : (s.drive c).state.holds) (now : Nat) (t : Option Nat) (k : Nat) (first : Bool) :
    stateBeat c now t k first s = holdStill c now s := by
  unfold stateBeat
  rcases h with h | h | h | h <;> rw [h]

/-- A channel that faulted at its monitor gets nothing (R155, R156). -/
theorem stateBeat_faulted (h : (s.drive c).state = .faulted) (now : Nat) (t : Option Nat) (k : Nat) (first : Bool) :
    stateBeat c now t k first s = s := by
  unfold stateBeat
  rw [h]

/-- Holding offers the set-point anew: it passes every check, and STEP_BACKLOG may be found after it. -/
theorem holdStill_offered (hu : u.setup = s.setup) (h : u.energized c = true) (now : Nat)
    (ht : t.drive c = (holdStill c now u).drive c) : s.Offered t c (u.drive c).setPoint (u.drive c)
      ((u.drive c).issue now u.interval (u.drive c).setPoint) := by
  obtain ⟨hissues, hbacklog⟩ := holdStill_drive now h
  rw [hu] at hissues hbacklog
  refine ⟨fun _ hl => ?_, fun _ hl => ?_, fun f hf => ?_⟩
  · rw [ht, hissues hl, State.drive_setDrive]
  · rw [ht]
    exact hbacklog hl
  · rw [offerCheck_same] at hf
    cases hf

/-- The following error of a channel at the sub-beat (R164): the fault, with nothing issued. -/
theorem monitor_atBeat_faults {y : Int} (hc : s.energized c = true) (hf : s.feedback c = some y) (h : 2 ≤ s.errorsAfter c) :
    let d := (monitor c (s.atBeat k e)).drive c
    d.state = .faulted ∧ d.kind = some .followError ∧ d.setPoint = (s.drive c).setPoint ∧
      d.previous = (s.drive c).previous ∧ d.stepPos = (s.drive c).stepPos ∧ d.pulses = none := by
  have hcount : (s.atBeat k e).errorsAfter c = s.errorsAfter c := by
    rw [State.errorsAfter, s.atBeat_feedback, s.atBeat_setup, s.atBeat_drive]
    rfl
  rw [monitor_faults (s := s.atBeat k e) ((s.atBeat_feedback k e c).trans hf) (hcount ▸ h), s.atBeat_monitored]
  have hlive : ((s.atBeat k e).setDrive c (s.monitored c)).energized c = true := by
    rw [State.energized_setDrive _ _ (by rw [s.atBeat_drive]; rfl), s.atBeat_energized]
    exact hc
  have hfault := hardFault_drive .followError hlive
  rw [State.drive_setDrive] at hfault
  exact hfault

/-! ## The sweep trigger (R174, R175, R176) -/

/-- Where the sweep set is not empty the sampler has not gone to sleep. -/
theorem SleepsAtMost.awake (h : SleepsAtMost s v) (hv : sweepSet v ≠ []) : v.sampler = s.sampler := by
  rcases h with h | ⟨-, hempty, -⟩
  · exact h
  · exact absurd hempty hv

/-- With a pass in flight the trigger is dropped and overrun set. -/
theorem samplerTrigger_overrun (h : SleepsAtMost s v) (hp : s.sampler.pass ≠ none) (x : Nat) :
    (samplerTrigger x v).sampler = { s.sampler with overrun := true } := by
  have hv : v.sampler = s.sampler := by
    rcases h with h | ⟨⟨-, -, hpass, -⟩, -⟩
    · exact h
    · exact absurd hpass hp
  unfold samplerTrigger
  rw [hv, if_pos hp]

/-- With an empty sweep set the trigger is dropped. -/
theorem samplerTrigger_dropped (h : SleepsAtMost s v) (hp : s.sampler.pass = none) (hv : sweepSet v = []) (x : Nat) :
    (samplerTrigger x v).sampler = { s.sampler with mode := (samplerTrigger x v).sampler.mode } := by
  have hpass : v.sampler.pass = none := by rcases h with h | ⟨-, -, h⟩ <;> rw [h] <;> exact hp
  unfold samplerTrigger
  rw [if_neg (not_not_intro hpass), if_pos hv]
  rcases h with h | ⟨-, -, h⟩ <;> rw [h]

/-- Asleep, the converter wakes for the pass. -/
theorem samplerTrigger_wakes (h : SleepsAtMost s v) (hp : s.sampler.pass = none) (hv : sweepSet v ≠ [])
    (hm : s.sampler.mode = .standby) (x : Nat) : (samplerTrigger x v).sampler =
      { s.sampler with mode := .sweep, waking := some (x + 320), pass := some (sweepSet v) } := by
  unfold samplerTrigger
  rw [h.awake hv, if_neg (not_not_intro hp), if_neg hv, if_pos hm]
  rfl

/-- Converting or waking, the converter leaves the pass to wait. -/
theorem samplerTrigger_waits (h : SleepsAtMost s v) (hp : s.sampler.pass = none) (hv : sweepSet v ≠ [])
    (hm : s.sampler.mode ≠ .standby) (hb : s.sampler.conversion ≠ none ∨ s.sampler.waking ≠ none) (x : Nat) :
    (samplerTrigger x v).sampler = { s.sampler with pass := some (sweepSet v) } := by
  unfold samplerTrigger
  rw [h.awake hv, if_neg (not_not_intro hp), if_neg hv, if_neg hm, if_neg fun hi => hb.elim (· hi.1) (· hi.2)]

/-- Awake and idle, the converter begins the pass with its first input. -/
theorem samplerTrigger_begins (h : SleepsAtMost s v) (hp : s.sampler.pass = none) (hm : s.sampler.mode ≠ .standby)
    (hconversion : s.sampler.conversion = none) (hwaking : s.sampler.waking = none) {n : Nat} {rest : List Nat}
    (hn : sweepSet v = n :: rest) (x : Nat) : (samplerTrigger x v).sampler =
      { s.sampler with mode := .sweep, conversion := some (conversionAt s.sampler n false x), pass := some rest } := by
  have hv : sweepSet v ≠ [] := by rw [hn]; exact List.cons_ne_nil n rest
  unfold samplerTrigger samplerBegin
  rw [h.awake hv, if_neg (not_not_intro hp), if_neg hv, if_neg hm, if_pos ⟨hconversion, hwaking⟩, hn]
  rfl

/-- The trigger leaves the sweep set. -/
theorem samplerTrigger_sweepSet (x : Nat) (v : State) : sweepSet (samplerTrigger x v) = sweepSet v := by
  obtain ⟨-, -, -, -, htake, -⟩ := samplerTrigger_frame x v
  exact sweepSet_of_same (samplerTrigger_channels x v) (congrArg Take.state htake)

/-- Either row is the drives' turns from the sampler as it stood, then the trigger (R156, R175). -/
theorem beatRow_triggers {row : Instr}
    (h : (row = .subBeat ∧ ∃ k, s.dueAt k e) ∨ (row = .freeSubBeat ∧ s.freeAt e ∧ ∃ c, (s.drive c).state = .stopping)) :
    ∃ t v, exec row s = .next t ∧ SleepsAtMost s v ∧ sweepSet t = sweepSet v ∧
      t.sampler = (samplerTrigger (e * 16) v).sampler := by
  rcases h with ⟨rfl, k, hdue⟩ | ⟨rfl, hfree, c, hc⟩
  · obtain ⟨x, hexec⟩ := execSubBeat_due hdue
    obtain ⟨-, hsampler, -⟩ := s.atBeat_same k e
    have hsleeps := (beaten_beats s k e).sampler
    rw [SleepsAtMost, State.converterIdle, hsampler] at hsleeps
    exact ⟨_, s.beaten k e, hexec, hsleeps,
      (withSchedule_sweepSet _ x).trans (samplerTrigger_sweepSet (e * Config.tick) (s.beaten k e)), withSchedule_sampler _ x⟩
  · exact ⟨_, s.freeBeaten e, execFreeSubBeat_issues hfree hc, (freeBeaten_beats s e).sampler,
      samplerTrigger_sweepSet (e * Config.tick) (s.freeBeaten e), rfl⟩

/-- Settles O12: the sub-beat and the free-running one field by field, the drive that holds, and the trigger. -/
theorem subBeats : Obligations.SubBeats := by
  refine ⟨fun s k due q p hs hq hp => ?_, fun s q p hs hq hp ⟨c, hc⟩ => ?_, ?_, fun s e row hrow => ?_⟩
  · refine ⟨_, execSubBeat_issues hs hq hp rfl, ?_⟩
    generalize max (micros s.clock) due = e
    obtain ⟨-, htimer, -, hroster, htake, -, -, hlog, -⟩ := samplerTrigger_frame (e * Config.tick) (s.beaten k e)
    have hchannels := samplerTrigger_channels (e * Config.tick) (s.beaten k e)
    obtain ⟨htimerB, hlogB, hrosterB⟩ := beaten_frame s k e
    rw [htimerB] at htimer
    rw [hlogB] at hlog
    rw [hrosterB] at hroster
    generalize samplerTrigger (e * Config.tick) (s.beaten k e) = v at htimer hroster htake hlog hchannels
    have hlatest (hst : s.take.state ≠ .seeking) : v.take.latest = (s.takeSubBeat k).or s.take.latest ∧ v.take.tf = s.take.tf := by
      rw [htake, beaten_take hst]
      exact ⟨rfl, rfl⟩
    refine ⟨by rw [State.withSchedule, htimer]; rfl, hlog, hroster, fun h => ?_, fun h => ?_, fun h hframe => ?_, fun h c hc => ?_⟩
    · obtain ⟨hl, htf⟩ := hlatest (by rcases h with h | h <;> rw [h] <;> decide)
      rw [takeSubBeat_running h] at hl
      exact ⟨hl, htf⟩
    · rcases h with h | ⟨h, hframe⟩
      · obtain ⟨hl, -⟩ := hlatest (by rw [h]; decide)
        rw [takeSubBeat_stopping h] at hl
        exact hl
      · obtain ⟨hl, -⟩ := hlatest (by rw [h]; decide)
        rw [takeSubBeat_held h, hframe] at hl
        exact hl
    · obtain ⟨hl, -⟩ := hlatest (by rw [h]; decide)
      rw [takeSubBeat_held h, hframe] at hl
      exact hl
    · exact (congrArg (Quad.get · c) hchannels).trans (beaten_chan h hc k e)
  · have hexec := execFreeSubBeat_issues (e := max (micros s.clock) (max (q + p) (s.timer.latest.getD q + p / s.subBeats)))
      ⟨q, p, hs, hq, hp, rfl⟩ hc
    refine ⟨_, hexec, ?_⟩
    generalize max (micros s.clock) _ = e
    obtain ⟨htimer, hlog, hboard, hroster, hengine⟩ := freeBeaten_frame s e
    simp only [samplerTrigger_frame, samplerTrigger_engine, htimer, hlog, hboard, hroster, hengine, implies_true, true_and]
    intro h c hc
    rw [State.drive_def, samplerTrigger_channels]
    exact freeBeaten_drive (by rw [h]; decide) hc e
  · intro s c k e hdue halone d
    refine ⟨fun hholds hfollows => ?_, fun y hfeedback herrors => ?_⟩
    · obtain ⟨t, hexec, hdrive, hengine, -⟩ := subBeat_alone_follows hdue halone hfollows
      obtain ⟨hd, he, hu, -, hi, hlive, -⟩ := s.beating_same k e c
      rw [stateBeat_holds (by rw [hd]; exact hholds)] at hdrive hengine
      have hoffered := holdStill_offered hu (hlive.trans halone.1) (e * Config.tick) hdrive
      rw [hd, hi] at hoffered
      refine ⟨t, hexec, ?_, hoffered⟩
      rw [hengine, holdStill_engine, he]
    · obtain ⟨t, hexec, hchannels, -⟩ := subBeat_alone hdue halone
      have hfault := monitor_atBeat_faults (k := k) (e := e) halone.1 hfeedback herrors
      obtain ⟨hstate, -⟩ := id hfault
      rw [stateBeat_faulted hstate] at hchannels
      refine ⟨t, hexec, ?_, ?_⟩
      · rw [State.engine_def, hchannels, ← State.engine_def, monitor_engine, s.atBeat_engine]
      · rw [State.drive_def, hchannels]
        exact hfault
  · obtain ⟨t, v, hexec, hsleeps, hsweep, hsampler⟩ := beatRow_triggers hrow
    refine ⟨t, hexec, fun n => mem_sweepSet, sweepSet_sorted t, fun hp => ?_, fun hp hempty => ?_, fun hp hsome => ⟨fun hm => ?_,
      fun hm hb => ?_, fun hm hconversion hwaking n rest hn => ?_⟩⟩
    · rw [hsampler, samplerTrigger_overrun hsleeps hp]
    · rw [hsampler, ← samplerTrigger_dropped hsleeps hp (hsweep ▸ hempty)]
    · rw [hsampler, samplerTrigger_wakes hsleeps hp (hsweep ▸ hsome) hm, hsweep]
    · rw [hsampler, samplerTrigger_waits hsleeps hp (hsweep ▸ hsome) hm hb, hsweep]
    · rw [hsampler, samplerTrigger_begins hsleeps hp hm hconversion hwaking (hsweep ▸ hn)]
      rfl

end Sys2Proof.Machine
end

