-- ==== Sys2Proof/Proofs/StopsEnded.lean ====
section
/-! STOPPED and FOLLOW_ERROR (R132, R145, R164), a sub-beat of a STOPPING channel (R71, R145, R146), and the unwinding that its
end brings to an end (R118, R129). -/

set_option Elab.async false

namespace Sys2Proof.Machine

variable {s t u v : State} {c : Chan} {k e : Nat} {f : ArmFlight}

/-! ## The end of an unwinding (R118, R129) -/

/-- A channel parks unless it is UNSET, FAULTED, or STOPPED with a fault kind. -/
theorem Drive.parks_iff {d : Drive} : d.parks = true ↔
    d.state ≠ .unset ∧ d.state ≠ .faulted ∧ (d.state ≠ .stopped ∨ d.kind = none) := by
  unfold Drive.parks
  cases hs : d.state <;> simp

/-- A channel once the take channels that park have parked. -/
def State.parkedDrive (s : State) (c : Chan) : Drive :=
  if s.isTakeChannel c && (s.drive c).parks then (s.drive c).park else s.drive c

theorem parkedDrive_parks (ht : s.isTakeChannel c = true) (hp : (s.drive c).parks = true) :
    s.parkedDrive c = (s.drive c).park :=
  if_pos (by rw [ht, hp]; rfl)

theorem parkedDrive_stays (h : s.isTakeChannel c = false ∨ (s.drive c).parks = false) : s.parkedDrive c = s.drive c :=
  if_neg (by rcases h with h | h <;> simp [h])

theorem parkedDrive_keeps (s : State) (c : Chan) : (s.parkedDrive c).setPoint = (s.drive c).setPoint ∧
    (s.parkedDrive c).kind = (s.drive c).kind ∧ (s.parkedDrive c).holdPoint = (s.drive c).holdPoint ∧
    (s.parkedDrive c).source = (s.drive c).source := by
  unfold State.parkedDrive
  split <;> exact ⟨rfl, rfl, rfl, rfl⟩

/-- The drives at the end of an unwinding: the source goes with the take. -/
theorem endUnwinding_drive (f : ArmFlight) (s : State) (c : Chan) : (endUnwinding f s).drive c =
    if f.disbanded = true ∨ f.prior.state = .idle then { s.parkedDrive c with source := none } else s.parkedDrive c := by
  unfold endUnwinding
  dsimp only
  split
  · rw [leaveTake, clearSources_drive]
    exact congrArg (fun d : Drive => { d with source := none }) (parkTakeChannels_drive s c)
  · exact parkTakeChannels_drive s c

theorem endUnwinding_drive_keeps (f : ArmFlight) (s : State) (c : Chan) :
    ((endUnwinding f s).drive c).state = (s.parkedDrive c).state ∧
    ((endUnwinding f s).drive c).setPoint = (s.parkedDrive c).setPoint ∧
    ((endUnwinding f s).drive c).kind = (s.parkedDrive c).kind ∧
    ((endUnwinding f s).drive c).holdPoint = (s.parkedDrive c).holdPoint := by
  rw [endUnwinding_drive]
  split <;> exact ⟨rfl, rfl, rfl, rfl⟩

theorem endUnwinding_parks (f : ArmFlight) (s : State) : s.Parked (endUnwinding f s) where
  parks c ht hunset hfaulted hstopped := by
    obtain ⟨hstate, -⟩ := endUnwinding_drive_keeps f s c
    rw [hstate, parkedDrive_parks ht (Drive.parks_iff.mpr ⟨hunset, hfaulted, hstopped⟩)]
    rfl
  stays c h := by
    obtain ⟨hstate, -⟩ := endUnwinding_drive_keeps f s c
    have hstays : s.isTakeChannel c = false ∨ (s.drive c).parks = false := by
      refine h.imp_right fun h => Bool.eq_false_iff.mpr fun hp => ?_
      obtain ⟨hunset, hfaulted, hstopped⟩ := Drive.parks_iff.mp hp
      rcases h with h | h | ⟨hs, hk⟩
      · exact hunset h
      · exact hfaulted h
      · exact hstopped.elim (· hs) hk
    rw [hstate, parkedDrive_stays hstays]
  keeps c := by
    obtain ⟨-, hsetPoint, hkind, hholdPoint⟩ := endUnwinding_drive_keeps f s c
    obtain ⟨hsetPoint', hkind', hholdPoint', -⟩ := parkedDrive_keeps s c
    exact ⟨congrFun (endUnwinding_engine f s) c, hsetPoint.trans hsetPoint', hkind.trans hkind', hholdPoint.trans hholdPoint'⟩

theorem parkTakeChannels_take (s : State) : (parkTakeChannels s).take = s.take := by simp only [parkTakeChannels_frame]

/-- An unwinding is over: the channels park, and the take is left for IDLE or is HELD again (R118, R129). -/
theorem endUnwinding_unwound (f : ArmFlight) (s : State) : s.Unwound (endUnwinding f s) f where
  parked := endUnwinding_parks f s
  idle h := by
    refine ⟨?_, fun c => ?_⟩
    · unfold endUnwinding leaveTake
      dsimp only
      rw [if_pos h, parkTakeChannels_take]
      simp only [clearSources_frame]
    · rw [endUnwinding_drive, if_pos h]
  held hd hi := by
    have hnot : ¬(f.disbanded = true ∨ f.prior.state = .idle) := by
      rw [hd]
      exact fun h => h.elim (fun h => Bool.false_ne_true h) hi
    refine ⟨?_, fun c => ?_⟩
    · unfold endUnwinding
      dsimp only
      rw [if_neg hnot, parkTakeChannels_take]
    · obtain ⟨-, -, -, hsource⟩ := parkedDrive_keeps s c
      rw [endUnwinding_drive, if_neg hnot, hsource]
  rest := by
    obtain ⟨-, -, hport, -, hholds, -, -, hlog, -⟩ := endUnwinding_frame f s
    exact ⟨hport, hholds, hlog⟩

/-- An unwinding leaves the station IDLE or HELD. -/
theorem endUnwinding_state (f : ArmFlight) (s : State) :
    (endUnwinding f s).take.state = .idle ∨ (endUnwinding f s).take.state = .held := by
  have h := endUnwinding_unwound f s
  by_cases hi : f.disbanded = true ∨ f.prior.state = .idle
  · obtain ⟨htake, -⟩ := h.idle hi
    rw [htake]
    exact .inl rfl
  · rw [not_or, Bool.not_eq_true] at hi
    obtain ⟨htake, -⟩ := h.held hi.1 hi.2
    rw [htake]
    exact .inr rfl

/-- What the end of an unwinding says of a state it says of every one with the same channels, take, port, hold record and
log. -/
theorem State.Unwound.of_same (h : u.Unwound t f) (hc : v.channels = t.channels) (ht : v.take = t.take)
    (hp : v.port = t.port) (hh : v.holds = t.holds) (hl : v.log = t.log) : u.Unwound v f := by
  have hdrive : v.drive = t.drive := funext fun c => by rw [State.drive_def, hc]; rfl
  have hengine : v.engine = t.engine := funext fun c => by rw [State.engine_def, hc]; rfl
  obtain ⟨⟨hparks, hstays, hkeeps⟩, hidle, hheld, hrest⟩ := h
  refine ⟨⟨?_, ?_, ?_⟩, ?_, ?_, ?_⟩
  · rw [hdrive]; exact hparks
  · rw [hdrive]; exact hstays
  · rw [hdrive, hengine]; exact hkeeps
  · unfold State.leftForIdle at hidle ⊢
    rw [ht, hdrive]; exact hidle
  · rw [ht, hdrive]; exact hheld
  · rw [hp, hh, hl]; exact hrest

/-! ## STOPPED (R145, R132) -/

/-- STOPPED ends a stop profile whose speed has reached 0. -/
theorem execStopped_ends {y : Stop} (hs : (s.drive c).state = .stopping) (hy : (s.drive c).stop = some y) (h0 : y.speed = 0) :
    exec (.stopped c) s = .next (checkRest (s.setDrive c { s.drive c with state := .stopped, stop := none })) := by
  change execStopped c s = _
  unfold execStopped
  rw [hs, hy]
  exact congrArg Host.Outcome.next (if_pos h0)

theorem allTake_of_channels (h : t.channels = s.channels) (p : Drive → Bool) : t.allTake p = s.allTake p := by
  have hdrive : t.drive = s.drive := funext fun c => by rw [State.drive_def, h]; rfl
  unfold State.allTake State.isTakeChannel
  rw [hdrive]

/-- STOPPING becomes HELD when no take channel is STOPPING any more, and goes on else (R132). -/
theorem checkRest_inStopping (h : s.take.state = .stopping) : (checkRest s).channels = s.channels ∧
    (checkRest s).holds = s.holds ∧
    ((checkRest s).allTake (fun d => decide (d.state ≠ .stopping)) = true →
      (checkRest s).take = { s.take with state := .held }) ∧
    ((checkRest s).allTake (fun d => decide (d.state ≠ .stopping)) = false → (checkRest s).take = s.take) := by
  have hchannels := checkRest_channels (s := s) (by rw [h]; decide)
  obtain ⟨-, -, -, -, hholds, -⟩ := checkRest_frame s
  refine ⟨hchannels, hholds, ?_⟩
  rw [allTake_of_channels hchannels]
  unfold checkRest
  rw [h]
  exact ⟨fun hall => by rw [if_pos hall], fun hall => by rw [if_neg (by rw [hall]; exact Bool.false_ne_true)]⟩

/-! ## A sub-beat of a STOPPING channel (R145, R146, R71) -/

/-- The state `u` in which the drive of channel `c`, which its monitor lets go on, meets a sub-beat of `s`. -/
structure State.MetBy (s u : State) (c : Chan) : Prop where
  drive : u.drive c = s.monitored c
  others : ∀ b, b ≠ c → u.chan b = s.chan b
  engine : u.engine = s.engine
  setup : u.setup = s.setup
  interval : u.interval = s.interval
  energized : u.energized c = s.energized c
  state : u.take.state = s.take.state
  seeking : s.take.state = .seeking → u.take = s.take

/-- The state `t` that a sub-beat makes of what the drives left, `u`: of the take record, FINISHED alone. -/
structure State.LeftBy (u t : State) : Prop where
  channels : t.channels = u.channels
  port : t.port = u.port
  holds : t.holds = u.holds
  log : t.log = u.log
  take : u.take.state ≠ .rolling → t.take = u.take

theorem samplerTrigger_leftBy (x : Nat) (u : State) : u.LeftBy (samplerTrigger x u) := by
  obtain ⟨-, -, hport, -, htake, hholds, -, hlog, -⟩ := samplerTrigger_frame x u
  exact ⟨samplerTrigger_channels x u, hport, hholds, hlog, fun _ => htake⟩

theorem checkFinished_leftBy (u : State) : u.LeftBy (checkFinished u) := by
  obtain ⟨-, -, hport, -, hholds, -, -, hlog, -⟩ := checkFinished_frame u
  refine ⟨checkFinished_channels u, hport, hholds, hlog, fun h => ?_⟩
  unfold checkFinished
  rw [if_neg fun hf => h hf.1]

theorem consumeCues_leftBy (u : State) : u.LeftBy (consumeCues u) := ⟨rfl, rfl, rfl, rfl, fun _ => rfl⟩

theorem withSchedule_leftBy (u : State) (x : Option (Nat × Nat)) : u.LeftBy (u.withSchedule x) :=
  ⟨rfl, rfl, rfl, rfl, fun _ => rfl⟩

theorem State.LeftBy.trans (h : s.LeftBy t) (k : t.LeftBy u) : s.LeftBy u where
  channels := k.channels.trans h.channels
  port := k.port.trans h.port
  holds := k.holds.trans h.holds
  log := k.log.trans h.log
  take hs := by
    have ht := h.take hs
    exact (k.take (by rw [ht]; exact hs)).trans ht

/-- Where channel `c` alone is energized its own turn is the sub-beat. -/
theorem beaten_alone (ha : s.alone c) (hf : s.follows c) (k e : Nat) : s.beaten k e = checkFinished (consumeCues
    (stateBeat c (e * Config.tick) (s.takeSubBeat k) k false (s.beating k e c))) := by
  have hlive : (s.atBeat k e).energized c = true := (s.atBeat_energized k e c).trans ha.1
  unfold State.beaten
  rw [eachChannel_only (c := c) _ (fun b s hb => driveBeat_down hb _ _ _ _) (fun b c s hb => driveBeat_keepsDown hb _ _ _ _ s)
    (fun b hb => KeepsDown.of_channels (s.atBeat_channels k e) (ha.down hb)), driveBeat, if_pos hlive, monitor_atBeat k e hf]

theorem freeBeaten_alone (ha : s.alone c) (hf : s.follows c) (hs : (s.drive c).state = .stopping) (e : Nat) :
    s.freeBeaten e = stateBeat c (e * Config.tick) none 0 false ((s.atFreeBeat e).setDrive c (s.monitored c)) := by
  have hmonitor : monitor c (s.atFreeBeat e) = (s.atFreeBeat e).setDrive c (s.monitored c) :=
    monitor_follows (s := s.atFreeBeat e) hf
  unfold State.freeBeaten
  rw [eachChannel_only (c := c) (s := s.atFreeBeat e) _ (fun b s hb => driveFreeBeat_down hb _)
    (fun b c s hb => driveFreeBeat_keepsDown hb _ s) (fun b hb => ha.down hb), driveFreeBeat,
    if_pos (show (s.atFreeBeat e).energized c = true ∧ ((s.atFreeBeat e).drive c).state = .stopping from ⟨ha.1, hs⟩), hmonitor]

theorem beating_metBy (s : State) (k e : Nat) (c : Chan) : s.MetBy (s.beating k e c) c := by
  obtain ⟨hdrive, hengine, hsetup, -, hinterval, hlive, -, htake, -⟩ := s.beating_same k e c
  refine ⟨hdrive, fun b hb => ?_, hengine, hsetup, hinterval, hlive, by rw [htake], fun hs => ?_⟩
  · rw [State.beating, setDrive_chan_ne hb, State.chan_def, s.atBeat_channels]
    rfl
  · have hlatest : (s.beating k e c).take.latest = s.take.latest := by
      rw [show (s.beating k e c).take = (s.atBeat k e).take from rfl, s.atBeat_latest, takeSubBeat_seeking hs]
      rfl
    rw [htake, hlatest]

theorem atFreeBeat_metBy (s : State) (e : Nat) (c : Chan) : s.MetBy ((s.atFreeBeat e).setDrive c (s.monitored c)) c where
  drive := State.drive_setDrive _ _ _
  others _ hb := setDrive_chan_ne hb _ _
  engine := State.setDrive_engine _ _ _
  setup := State.setDrive_setup _ _ _
  interval := rfl
  energized := State.energized_setDrive _ _ rfl
  state := rfl
  seeking _ := rfl

/-- A STOPPING channel's sub-beat, scheduled or free, is the next step of its stop profile. -/
theorem stopRow_steps {row : Instr} {y : Stop}
    (hrow : (row = .subBeat ∧ s.dueAt k e) ∨ (row = .freeSubBeat ∧ s.freeAt e)) (ha : s.alone c) (hf : s.follows c)
    (hs : (s.drive c).state = .stopping) (hy : (s.drive c).stop = some y) :
    ∃ u t, exec row s = .next t ∧ s.MetBy u c ∧ (stopStep c (e * Config.tick) y u).LeftBy t := by
  have hstep (u : State) (hu : s.MetBy u c) (x : Option Nat) (k : Nat) :
      stateBeat c (e * Config.tick) x k false u = stopStep c (e * Config.tick) y u := by
    have hstate : (u.drive c).state = .stopping := by rw [hu.drive]; exact hs
    have hstop : (u.drive c).stop = some y := by rw [hu.drive]; exact hy
    unfold stateBeat
    rw [hstate, hstop]
  rcases hrow with ⟨rfl, hdue⟩ | ⟨rfl, hfree⟩
  · obtain ⟨x, hexec⟩ := execSubBeat_due hdue
    refine ⟨_, _, hexec, beating_metBy s k e c, ?_⟩
    rw [beaten_alone ha hf, hstep _ (beating_metBy s k e c)]
    exact (((consumeCues_leftBy _).trans (checkFinished_leftBy _)).trans (samplerTrigger_leftBy _ _)).trans
      (withSchedule_leftBy _ x)
  · refine ⟨_, _, execFreeSubBeat_issues hfree hs, atFreeBeat_metBy s e c, ?_⟩
    rw [freeBeaten_alone ha hf hs, hstep _ (atFreeBeat_metBy s e c)]
    exact samplerTrigger_leftBy _ _

/-- The drive of a STOPPING channel once its stop profile has moved on to speed `v` (R145). -/
def Drive.slowed (d : Drive) (y : Stop) (v : Nat) : Drive :=
  { d with stop := some { y with speed := v, position := y.position + signedStep y.up v } }

/-- A stop profile whose speed comes to 0 ends (R145). -/
theorem stopStep_ends {y : Stop} (h : y.speed - (u.setup c).stopRate = 0) (now : Nat) : stopStep c now y u =
    checkRest (u.setDrive c { u.drive c with state := .stopped, stop := none }) := by
  unfold stopStep
  exact if_pos h

/-- A stop profile that goes on offers its position (R145, R146). -/
theorem stopStep_goesOn {y : Stop} (h : y.speed - (u.setup c).stopRate ≠ 0) (now : Nat) : stopStep c now y u =
    let x := y.position + signedStep y.up (y.speed - (u.setup c).stopRate)
    let d := (u.drive c).slowed y (y.speed - (u.setup c).stopRate)
    match offerCheck d (u.setup c) x with
    | some f => if f.isHard then hardFault c f (u.setDrive c d) else softFault c f (u.setDrive c d)
    | none => issueSetPoint c now x (u.setDrive c d) := by
  unfold stopStep
  dsimp only
  rw [if_neg h, State.drive_setDrive]
  rfl

/-- What the offer of a stop position comes to (R156 steps 3 to 5, R146). -/
theorem stopStep_offered {y : Stop} (hu : s.MetBy u c) (hlive : s.energized c = true)
    (hs : (s.drive c).state = .stopping) (h : y.speed - (s.setup c).stopRate ≠ 0)
    (ht : t.drive c = (stopStep c (e * Config.tick) y u).drive c) :
    let v := y.speed - (s.setup c).stopRate
    let x := y.position + signedStep y.up v
    let d := (s.monitored c).slowed y v
    s.Offered t c x d (s.issued e x d) ∧
      ∀ f, offerCheck d (s.setup c) x = some f → f.isHard = false → t.drive c = { d with kind := some (d.kind.getD f) } := by
  intro v x d
  have hup : (u.setDrive c d).energized c = true := by
    rw [State.energized_setDrive _ _ (by rw [hu.drive]; rfl), hu.energized]
    exact hlive
  rw [stopStep_goesOn (by rw [hu.setup]; exact h), hu.setup, hu.drive] at ht
  change t.drive c = (match offerCheck d (s.setup c) x with
    | some f => if f.isHard then hardFault c f (u.setDrive c d) else softFault c f (u.setDrive c d)
    | none => issueSetPoint c (e * Config.tick) x (u.setDrive c d) : State).drive c at ht
  have hdrive : (u.setDrive c d).drive c = d := State.drive_setDrive _ _ _
  have hinterval : (u.setDrive c d).interval = s.interval := hu.interval
  obtain ⟨hissues, hbacklog⟩ := issueSetPoint_drive (e * Config.tick) x hup
  rw [hdrive, State.setup_setDrive, hu.setup] at hissues hbacklog
  refine ⟨⟨fun hc hl => ?_, fun hc hl => ?_, fun f hc => ?_⟩, fun f hc hsoft => ?_⟩
  · rw [hc] at ht
    rw [ht]
    dsimp only
    rw [hissues hl, State.drive_setDrive, hinterval]
    rfl
  · rw [hc] at ht
    rw [ht]
    exact hbacklog hl
  · have hfault := faults_drive f hup
    rw [hdrive] at hfault
    rw [hc] at ht
    rw [ht]
    exact hfault
  · rw [hc] at ht
    rw [ht]
    dsimp only
    rw [hsoft, if_neg Bool.false_ne_true, softFault_stopping f (by rw [hdrive]; exact hs), hdrive]

/-- With channel `c` alone energized, and STOPPED, no take channel is STOPPING. -/
theorem not_someStopping_of_alone (ha : s.alone c) (hothers : ∀ b, b ≠ c → u.chan b = s.chan b)
    (hstate : (u.drive c).state = .stopped) : ¬u.someStopping := by
  rintro ⟨b, -, hb⟩
  by_cases hbc : b = c
  · rw [hbc, hstate] at hb
    cases hb
  · have hdrive : u.drive b = s.drive b := congrArg Channel.drive (hothers b hbc)
    rw [hdrive] at hb
    exact State.not_down hb (by decide) (ha.down hbc)

/-- Settles O22: the end of motion for STOPPED, and the next step of the stop profile for a sub-beat. -/
theorem stopEndsAndFollowErrorFaults : Obligations.StopEndsAndFollowErrorFaults := by
  refine ⟨fun s c => ⟨fun k hs hk h0 htake => ?_, fun k f hs hk h0 htake harm hphase => ?_, fun h => ?_⟩, ?_⟩
  · obtain ⟨hchannels, hholds, hheld, hkept⟩ :=
      checkRest_inStopping (s := s.setDrive c { s.drive c with state := .stopped, stop := none }) htake
    refine ⟨_, execStopped_ends hs hk h0, ?_, fun b hb => ?_, ?_, hheld, hkept, hholds⟩
    · rw [State.drive_def, hchannels]
      exact State.drive_setDrive _ _ _
    · rw [State.chan_def, hchannels]
      exact setDrive_chan_ne hb s _
    · rw [checkRest_engine, State.setDrive_engine]
  · intro u
    have hexec : exec (.stopped c) s = .next (checkRest u) := execStopped_ends hs hk h0
    refine ⟨fun hstopping => ?_, fun hnone => ⟨_, hexec, ?_⟩⟩
    · rw [hexec, checkRest_goesOn hstopping]
    · rw [checkRest_unwound hnone htake harm hphase]
      exact endUnwinding_unwound f u
  · exact congrArg Host.Outcome.next (if_pos (by rw [h]))
  · intro s c e k y row hrow ha hf hs hy v x d
    obtain ⟨u, t, hexec, hu, hleft⟩ := stopRow_steps hrow ha hf hs hy
    have hdrive : t.drive c = (stopStep c (e * Config.tick) y u).drive c := by
      rw [State.drive_def, hleft.channels]
      rfl
    have hstopped : (u.setDrive c { u.drive c with state := .stopped, stop := none }).drive c =
        { s.monitored c with state := .stopped, stop := none } := by rw [State.drive_setDrive, hu.drive]
    have hothers (b : Chan) (hb : b ≠ c) :
        (u.setDrive c { u.drive c with state := .stopped, stop := none }).chan b = s.chan b :=
      (setDrive_chan_ne hb u _).trans (hu.others b hb)
    refine ⟨t, hexec, ?_, fun hv hnot => ?_, fun f hv hseeking harm hphase => ?_, fun hv => ?_⟩
    · rw [State.engine_def, hleft.channels, ← State.engine_def, stopStep_engine, hu.engine]
    · rw [hdrive, stopStep_ends (by rw [hu.setup]; exact hv), State.drive_def,
        checkRest_channels (by rw [State.setDrive_take, hu.state]; exact hnot)]
      exact hstopped
    · rw [stopStep_ends (by rw [hu.setup]; exact hv)] at hleft
      have htake : (u.setDrive c { u.drive c with state := .stopped, stop := none }).take = s.take := hu.seeking hseeking
      have hengine : (u.setDrive c { u.drive c with state := .stopped, stop := none }).engine c = s.engine c := by
        rw [State.setDrive_engine, hu.engine]
      generalize u.setDrive c { u.drive c with state := .stopped, stop := none } = w at hleft hstopped hothers htake hengine
      have hnone := not_someStopping_of_alone ha hothers (by rw [hstopped])
      rw [checkRest_unwound hnone (by rw [htake]; exact hseeking) (by rw [htake]; exact harm) hphase] at hleft
      have hstate : (endUnwinding f w).take.state ≠ .rolling := by
        rcases endUnwinding_state f w with h | h <;> rw [h] <;> decide
      exact ⟨w, htake, hothers, hengine, hstopped, (endUnwinding_unwound f w).of_same hleft.channels (hleft.take hstate)
        hleft.port hleft.holds hleft.log⟩
    · exact stopStep_offered hu ha.1 hs hv hdrive

end Sys2Proof.Machine
end

