-- ==== Sys2Proof/Proofs/ListsBounded.lean ====
section
/-! Every step keeps the outcome list, the answer queue and the Capture Log within their bounds (R86, R87, R183): the three
operations that add to one of them, what calls those, and one arm for each row of the table. -/

set_option Elab.async false

namespace Sys2Proof.Machine

variable {s t u : State}

/-! ## The rules an operation is judged by -/

/-- A station whose lists are within their bounds has them so after the operation. -/
def KeepsLists (s t : State) : Prop := s.listsBounded → t.listsBounded

theorem KeepsLists.refl (s : State) : KeepsLists s s := id

theorem KeepsLists.trans (h : KeepsLists s t) (k : KeepsLists t u) : KeepsLists s u := k ∘ h

theorem KeepsLists.each {f : Chan → State → State} (h : ∀ c s, KeepsLists s (f c s)) (s : State) :
    KeepsLists s (eachChannel f s) := (((h 0 _).trans (h 1 _)).trans (h 2 _)).trans (h 3 _)

theorem KeepsLists.foldl {α : Type} {f : State → α → State} (h : ∀ s x, KeepsLists s (f s x)) (l : List α) (s : State) :
    KeepsLists s (l.foldl f s) := by
  induction l generalizing s with
  | nil => exact .refl s
  | cons x xs ih => exact (h s x).trans (ih _)

/-- No list grows. -/
theorem KeepsLists.of_le (ho : t.port.outcomes.length ≤ s.port.outcomes.length)
    (ha : t.port.answers.length ≤ s.port.answers.length) (hl : t.log.entries.length ≤ s.log.entries.length) :
    KeepsLists s t := fun ⟨bo, ba, bl⟩ => ⟨ho.trans bo, ha.trans ba, hl.trans bl⟩

/-- The outcomes, the number of answers and the log stand. -/
theorem KeepsLists.of_same (ho : t.port.outcomes = s.port.outcomes)
    (ha : t.port.answers.length = s.port.answers.length) (hl : t.log = s.log) : KeepsLists s t :=
  .of_le (by rw [ho]) ha.le (by rw [hl])

/-- The port and the log stand. -/
theorem KeepsLists.of_port (hp : t.port = s.port) (hl : t.log = s.log) : KeepsLists s t :=
  .of_same (by rw [hp]) (by rw [hp]) hl

/-! ## What adds to a list (R86, R87, R185) -/

theorem addOutcome_keepsLists (station seq : Nat) (r : Result) (s : State) : KeepsLists s (addOutcome station seq r s) := by
  by_cases h : s.port.outcomes.length < 4
  · rw [addOutcome_room station seq r h]
    intro ⟨_, ba, bl⟩
    exact ⟨by rw [List.length_append]; exact h, ba, bl⟩
  · rw [addOutcome_full station seq r (Nat.not_lt.mp h)]
    exact .of_same rfl rfl rfl

theorem takePlace_keepsLists (station seq : Nat) (body : Option AnswerBody) (h : s.port.answers.length < 4) :
    KeepsLists s (takePlace station seq body s) := by
  intro ⟨bo, _, bl⟩
  exact ⟨bo, by rw [takePlace, List.length_append]; exact h, bl⟩

theorem offerCapture_length (x : CaptureEntry) {l : CaptureLog} (h : l.entries.length ≤ Config.logLimit) :
    (offerCapture x l).entries.length ≤ Config.logLimit := by
  unfold offerCapture
  split
  · rw [List.length_append]
    assumption
  · split <;> exact h

theorem capturePulse_keepsLists (s : State) : KeepsLists s (capturePulse s) := by
  have hoffer (c : Chan) (u : State) :
      KeepsLists u (if u.captures c then { u with log := offerCapture (u.captureEntry c) u.log } else u) := by
    split
    · exact fun ⟨bo, ba, bl⟩ => ⟨bo, ba, offerCapture_length _ bl⟩
    · exact .refl u
  unfold capturePulse
  split
  · exact .each hoffer s
  · exact .refl s

/-! ## What takes from a list -/

/-- The log is emptied at the commit of a new take (R187). -/
theorem clearLog_keepsLists (s : State) : KeepsLists s (clearLog s) := .of_le le_rfl le_rfl (Nat.zero_le _)

theorem fillWaiting_length (b : AnswerBody) (ps : List Place) : (fillWaiting b ps).length = ps.length := by
  induction ps with
  | nil => rfl
  | cons p ps ih =>
    rw [fillWaiting]
    split
    · rfl
    · exact congrArg (· + 1) ih

theorem markOldest_length {station : Nat} {ps qs : List Place} {bytes : List Byte}
    (h : markOldest station ps = some (bytes, qs)) : qs.length = ps.length := by
  induction ps generalizing qs with
  | nil => cases h
  | cons p ps ih =>
    rw [markOldest] at h
    split at h
    · cases h
      rfl
    · obtain ⟨⟨b, rs⟩, hrs, heq⟩ := Option.map_eq_some_iff.mp h
      cases heq
      exact congrArg (· + 1) (ih hrs)

theorem samplerSafeStop_keepsLists (x : Nat) (s : State) : KeepsLists s (samplerSafeStop x s) := by
  have hanswers : (samplerSafeStop x s).port.answers.length ≤ s.port.answers.length := by
    unfold samplerSafeStop giveUpWaiting
    dsimp only
    (repeat' split) <;> simp [List.length_filter_le]
  exact .of_le (by simp) hanswers (by simp)

/-! ## An ARM that ends or goes on (R115 to R118) -/

theorem checkRest_keepsLists (s : State) : KeepsLists s (checkRest s) := .of_port (by simp) (by simp)

theorem checkArmed_keepsLists (s : State) : KeepsLists s (checkArmed s) := by
  unfold checkArmed
  split
  · split
    · refine KeepsLists.trans ?_ (addOutcome_keepsLists _ _ _ _)
      exact .of_port rfl rfl
    · exact .refl s
  · exact .refl s

theorem discardArm_keepsLists (a : ArmFlight) (r : Result) (code : ScanCode) (s : State) :
    KeepsLists s (discardArm a r code s) := by
  unfold discardArm
  dsimp only
  refine KeepsLists.trans (.of_port ?_ ?_) (addOutcome_keepsLists _ _ _ _) <;> split <;> simp

theorem commitArm_keepsLists (a : ArmFlight) (s : State) : KeepsLists s (commitArm a s) := by
  unfold commitArm
  dsimp only
  refine KeepsLists.trans ?_ (checkArmed_keepsLists _)
  split
  · exact KeepsLists.trans (.of_port (by simp) (by simp)) (clearLog_keepsLists _)
  · exact .of_port (by simp) (by simp)

theorem unwindArm_keepsLists (a : ArmFlight) (r : Result) (s : State) : KeepsLists s (unwindArm a r s) := by
  have hstop : KeepsLists s (eachChannel unwindChannel
      { s with take := { s.take with arm := some { a with phase := .unwinding } } }) := .of_port (by simp) (by simp)
  exact (hstop.trans (addOutcome_keepsLists a.station a.seq r _)).trans (checkRest_keepsLists _)

/-! ## Sub-beats and pulses -/

/-- A seek that arrives may end the ARM (R117). -/
theorem seekStep_keepsLists (c : Chan) (now : Nat) (k : Seek) (s : State) : KeepsLists s (seekStep c now k s) := by
  unfold seekStep
  dsimp only
  split
  · split <;> exact .of_port (by simp) (by simp)
  · split
    · exact KeepsLists.trans (.of_port (by simp) (by simp)) (checkArmed_keepsLists _)
    · exact .of_port (by simp) (by simp)

theorem stateBeat_keepsLists (c : Chan) (now : Nat) (x : Option Nat) (k : Nat) (first : Bool) (s : State) :
    KeepsLists s (stateBeat c now x k first s) := by
  unfold stateBeat
  split
  case h_7 =>
    split
    · exact seekStep_keepsLists _ _ _ _
    · exact .of_port (by simp) (by simp)
  case h_9 => split <;> exact .of_same (by simp) (by simp) (by simp)
  all_goals (repeat' split) <;> exact .of_port (by simp) (by simp)

theorem driveBeat_keepsLists (now : Nat) (x : Option Nat) (k : Nat) (first : Bool) (c : Chan) (s : State) :
    KeepsLists s (driveBeat now x k first c s) := by
  unfold driveBeat
  split
  · exact KeepsLists.trans (.of_port (by simp) (by simp)) (stateBeat_keepsLists _ _ _ _ _ _)
  · exact .refl s

theorem driveFreeBeat_keepsLists (now : Nat) (c : Chan) (s : State) : KeepsLists s (driveFreeBeat now c s) := by
  unfold driveFreeBeat
  split
  · exact KeepsLists.trans (.of_port (by simp) (by simp)) (stateBeat_keepsLists _ _ _ _ _ _)
  · exact .refl s

theorem samplerTrigger_keepsLists (x : Nat) (s : State) : KeepsLists s (samplerTrigger x s) :=
  .of_port (by simp) (by simp)

theorem checkFinished_keepsLists (s : State) : KeepsLists s (checkFinished s) := .of_port (by simp) (by simp)

theorem consumeCues_keepsLists (s : State) : KeepsLists s (consumeCues s) := .of_port rfl rfl

theorem issueBeat_keepsLists (e k : Nat) (x : Option Nat) (first : Bool) (s : State) :
    KeepsLists s (issueBeat e k x first s) := by
  unfold issueBeat
  dsimp only
  refine KeepsLists.trans ?_ (samplerTrigger_keepsLists _ _)
  refine KeepsLists.trans ?_ (checkFinished_keepsLists _)
  refine KeepsLists.trans ?_ (consumeCues_keepsLists _)
  exact KeepsLists.trans (.of_port (by simp) (by simp)) (.each (driveBeat_keepsLists (e * Config.tick) x k first) _)

theorem issueFreeBeat_keepsLists (e : Nat) (s : State) : KeepsLists s (issueFreeBeat e s) := by
  have htimer : KeepsLists s { s with timer := { s.timer with latest := some e } } := .of_port rfl rfl
  unfold issueFreeBeat
  exact (htimer.trans (.each (driveFreeBeat_keepsLists (e * Config.tick)) _)).trans (samplerTrigger_keepsLists _ _)

theorem catchUp_keepsLists (e : Nat) (s : State) : KeepsLists s (catchUp e s) := by
  unfold catchUp
  split
  · exact (KeepsLists.foldl (fun s j => issueBeat_keepsLists e j _ false s) _ s).trans (.of_port rfl rfl)
  · exact .refl s

theorem beatN_keepsLists (locking rolled : Bool) (e : Nat) (s : State) : KeepsLists s (beatN locking rolled e s) := by
  have hcount : KeepsLists s (countDown s) := .of_port (by simp) (by simp)
  unfold beatN
  dsimp only
  split
  · exact hcount
  · exact hcount.trans (issueBeat_keepsLists _ _ _ _ _)

theorem afterBeats_keepsLists (locking rolled : Bool) (tag : Nat) (s : State) :
    KeepsLists s (afterBeats locking rolled tag s) := by
  unfold afterBeats
  dsimp only
  refine KeepsLists.trans (.of_same ?_ ?_ ?_) (capturePulse_keepsLists _) <;> (repeat' split) <;> simp

/-- What a pulse does to timer and port once its beats are over. -/
theorem laidOut_keepsLists (e d : Nat) (w : Option EndedWindow) (s : State) :
    KeepsLists s ((layOutWindow (keepUnbegun (beginFrame e d s))).withEnded w) :=
  .of_same (by simp) (by simp) (by simp)

theorem framePulse_keepsLists (locking : Bool) (e d : Nat) (s : State) : KeepsLists s (framePulse locking e d s) := by
  have hperiod : KeepsLists s { s with timer := { s.timer with period := some d } } := .of_port rfl rfl
  have hlatched : KeepsLists s (s.latchedAt e d) :=
    (hperiod.trans (catchUp_keepsLists e _)).trans (.of_port rfl rfl)
  rw [framePulse_eq]
  exact ((hlatched.trans (beatN_keepsLists _ _ _ _)).trans (afterBeats_keepsLists _ _ _ _)).trans
    (laidOut_keepsLists e d _ _)

theorem edgeUnlocked_keepsLists (e : Nat) (s : State) : KeepsLists s (edgeUnlocked e s) := by
  unfold edgeUnlocked
  split
  · exact .of_port rfl rfl
  · split
    · exact framePulse_keepsLists _ _ _ _
    · exact .of_port rfl rfl

theorem edgeLocked_keepsLists (e d p : Nat) (s : State) : KeepsLists s (edgeLocked e d p s) := by
  unfold edgeLocked
  split
  · exact .of_port (by simp) (by simp)
  · split
    · exact framePulse_keepsLists _ _ _ _
    · exact .of_same (by simp) (by simp) (by simp)

theorem risingEdge_keepsLists (time : Nat) (s : State) : KeepsLists s (risingEdge time s) := by
  refine KeepsLists.trans (.of_port (t := s.atTime time) rfl rfl) ?_
  unfold risingEdge
  dsimp only
  split
  · exact edgeLocked_keepsLists _ _ _ _
  all_goals exact edgeUnlocked_keepsLists _ _

/-- A row that is a whole edge when its event stands (log 3), and nothing otherwise. -/
theorem edgeRow_keepsLists (time : Nat) (s : State) (p : Prop) [Decidable p] :
    KeepsLists s (if p then risingEdge time s else s) := by
  split
  · exact risingEdge_keepsLists time s
  · exact .refl s

theorem scheduledBeat_keepsLists (k due q p : Nat) (s : State) : KeepsLists s (scheduledBeat k due q p s) := by
  have htime : KeepsLists s (s.atTime (max (micros s.clock) due * Config.tick)) := .of_port rfl rfl
  have hbeat := htime.trans (issueBeat_keepsLists (max (micros s.clock) due) k
    ((s.atTime (max (micros s.clock) due * Config.tick)).takeSubBeat k) false _)
  unfold scheduledBeat
  dsimp only
  exact hbeat.trans (.of_port rfl rfl)

theorem freeBeat_keepsLists (q p : Nat) (s : State) : KeepsLists s (freeBeat q p s) :=
  KeepsLists.trans (.of_port (t := s.atTime _) rfl rfl) (issueFreeBeat_keepsLists _ _)

/-! ## What arrives on the bus (R82 to R84, R86) -/

theorem heard_keepsLists (a : Activity) (s : State) : KeepsLists s (s.heard a) := .of_same rfl rfl rfl

theorem receive_keepsLists {act : Arrival → State → State} (h : ∀ m s, KeepsLists s (act m s)) (a : Activity) (s : State) :
    KeepsLists s (receive a act s) := by
  unfold receive
  split
  · exact (heard_keepsLists a s).trans (h _ _)
  · exact (heard_keepsLists a s).trans (.of_port (by simp [busErrorAt]) (by simp [busErrorAt]))
  · exact heard_keepsLists a s

theorem receiveKind_keepsLists {act : Arrival → State → State} (h : ∀ m s, KeepsLists s (act m s)) (k : Nat) (a : Activity)
    (s : State) : KeepsLists s (receiveKind k a act s) := by
  unfold receiveKind
  split
  · exact receive_keepsLists h a s
  · exact .refl s

theorem addressed_keepsLists {f : Arrival → State → Settled} (h : ∀ m s, KeepsLists s (f m s).2) (m : Arrival) (s : State) :
    KeepsLists s (addressed f m s) := by
  unfold addressed
  split
  · split
    · exact (h m s).trans (addOutcome_keepsLists _ _ _ _)
    · exact .refl s
  · exact addOutcome_keepsLists _ _ _ _

theorem broadcast_keepsLists {f : Arrival → State → State} (h : ∀ m s, KeepsLists s (f m s)) (m : Arrival) (s : State) :
    KeepsLists s (broadcast f m s) := by
  unfold broadcast
  split
  · split
    · exact addOutcome_keepsLists _ _ _ _
    · exact .refl s
  · exact h m s

theorem request_keepsLists {f : Arrival → State → Settled} (h : ∀ m s, KeepsLists s (f m s).2) (k : Nat) (a : Activity)
    (s : State) : KeepsLists s (receiveKind k a (addressed f) s) := receiveKind_keepsLists (addressed_keepsLists h) k a s

/-- A QUERY, recognized by more than its kind. -/
theorem query_keepsLists {f : Arrival → State → Settled} (h : ∀ m s, KeepsLists s (f m s).2) (b : Bool) (a : Activity)
    (s : State) : KeepsLists s (if b then receive a (addressed f) s else s) := by
  split
  · exact receive_keepsLists (addressed_keepsLists h) a s
  · exact .refl s

/-! ## The requests -/

theorem settleLoad_keepsLists (m : Arrival) (s : State) : KeepsLists s (settleLoad m s).2 := by
  unfold settleLoad
  (repeat' split) <;> exact .of_port rfl rfl

theorem settleAdvance_keepsLists (m : Arrival) (s : State) : KeepsLists s (settleAdvance m s).2 := by
  unfold settleAdvance
  (repeat' split) <;> exact .of_port rfl rfl

theorem settleRelease_keepsLists (m : Arrival) (s : State) : KeepsLists s (settleRelease m s).2 := by
  unfold settleRelease
  dsimp only
  (repeat' split) <;> exact .of_port rfl rfl

theorem settleClearRing_keepsLists (m : Arrival) (s : State) : KeepsLists s (settleClearRing m s).2 := by
  unfold settleClearRing
  (repeat' split) <;> exact .of_port rfl rfl

theorem settleSetupLines_keepsLists (m : Arrival) (s : State) : KeepsLists s (settleSetupLines m s).2 := by
  unfold settleSetupLines
  (repeat' split) <;> exact .of_port rfl rfl

theorem settleSetupChannel_keepsLists (pins : Pins) (m : Arrival) (s : State) :
    KeepsLists s (settleSetupChannel pins m s).2 := by
  unfold settleSetupChannel
  (repeat' split) <;> exact .of_port rfl rfl

theorem settleEnlist_keepsLists (m : Arrival) (s : State) : KeepsLists s (settleEnlist m s).2 := by
  unfold settleEnlist
  (repeat' split) <;> exact .of_port (by simp [refuse]) (by simp [refuse])

/-- DISMISS may give up a waiting answer (R181). -/
theorem settleDismiss_keepsLists (m : Arrival) (s : State) : KeepsLists s (settleDismiss m s).2 := by
  have hsafe : KeepsLists s (enterSafe m.time s) :=
    KeepsLists.trans (.of_port (by simp) (by simp)) (samplerSafeStop_keepsLists _ _)
  unfold settleDismiss
  split
  · exact .refl s
  · split
    · exact hsafe
    · exact .refl s

theorem settleClear_keepsLists (m : Arrival) (s : State) : KeepsLists s (settleClear m s).2 := by
  unfold settleClear
  (repeat' split) <;> exact .of_port (by simp [refuse]) (by simp [refuse])

theorem entryCheck_keepsLists (a : ArmFlight) (c : Chan) (s : State) : KeepsLists s (entryCheck a c s).1 :=
  .of_port (by simp) (by simp)

theorem entryChecks_keepsLists (a : ArmFlight) (cs : List Chan) (s : State) : KeepsLists s (entryChecks a cs s).1 := by
  induction cs generalizing s with
  | nil => exact .refl s
  | cons c cs ih =>
    have hc := entryCheck_keepsLists a c s
    rw [entryChecks]
    split
    · rename_i u hu
      rw [hu] at hc
      exact hc.trans (ih u)
    · rename_i u r hu
      rw [hu] at hc
      exact hc

theorem acceptArm_keepsLists (m : Arrival) (id : Nat) (k : TakeKind) (mask : List Nat) (start : Nat) (s : State) :
    KeepsLists s (acceptArm m id k mask start s) := by
  have hcheck {a : ArmFlight} {x : State × Option Result}
      (h : entryChecks a allChannels (enterSeeking a id k mask start s) = x) : KeepsLists s x.1 := by
    rw [← h]
    exact KeepsLists.trans (.of_port (by simp) (by simp)) (entryChecks_keepsLists a allChannels _)
  unfold acceptArm
  dsimp only
  split
  · rename_i u r hu
    exact (hcheck hu).trans (discardArm_keepsLists _ _ _ _)
  · rename_i u hu
    split
    · exact hcheck hu
    · exact (hcheck hu).trans (commitArm_keepsLists _ _)

theorem replaceArm_keepsLists (s : State) : KeepsLists s (replaceArm s) := by
  unfold replaceArm
  split
  · exact discardArm_keepsLists _ _ _ _
  · exact .refl s

theorem settleArm_keepsLists (m : Arrival) (s : State) : KeepsLists s (settleArm m s) := by
  unfold settleArm
  split
  · split
    · unfold armMember
      split
      · exact addOutcome_keepsLists _ _ _ _
      · split
        · exact addOutcome_keepsLists _ _ _ _
        · split
          · exact addOutcome_keepsLists _ _ _ _
          · split
            · exact addOutcome_keepsLists _ _ _ _
            · exact (replaceArm_keepsLists s).trans (acceptArm_keepsLists _ _ _ _ _ _)
    · exact .refl s
  · exact addOutcome_keepsLists _ _ _ _

theorem settleRoll_keepsLists (m : Arrival) (s : State) : KeepsLists s (settleRoll m s) := by
  have hstart (l : Nat) : KeepsLists s (startCountdown l s) := .of_port rfl rfl
  unfold settleRoll
  split
  · split
    · split
      · exact addOutcome_keepsLists _ _ _ _
      · exact (hstart _).trans (addOutcome_keepsLists _ _ _ _)
    · exact .refl s
  · exact addOutcome_keepsLists _ _ _ _

theorem disbandAtRest_keepsLists (s : State) : KeepsLists s (disbandAtRest s) := .of_port (by simp) (by simp)

theorem disbandSeeking_keepsLists (m : Arrival) (a : ArmFlight) (s : State) : KeepsLists s (disbandSeeking m a s) := by
  unfold disbandSeeking
  split
  · exact ((discardArm_keepsLists a _ _ s).trans (disbandAtRest_keepsLists _)).trans (addOutcome_keepsLists _ _ _ _)
  · exact (unwindArm_keepsLists _ _ s).trans (addOutcome_keepsLists _ _ _ _)
  · exact KeepsLists.trans (.of_port rfl rfl) (addOutcome_keepsLists m.sender m.seq .accepted
      { s with take := { s.take with arm := some { a with disbanded := true } } })

theorem settleDisband_keepsLists (m : Arrival) (s : State) : KeepsLists s (settleDisband m s) := by
  unfold settleDisband
  split
  · split
    · unfold disbandMember
      split
      · exact addOutcome_keepsLists _ _ _ _
      · exact addOutcome_keepsLists _ _ _ _
      · exact disbandSeeking_keepsLists _ _ _
      · exact (disbandAtRest_keepsLists s).trans (addOutcome_keepsLists _ _ _ _)
    · exact .refl s
  · exact addOutcome_keepsLists _ _ _ _

theorem holdFalls_keepsLists (s : State) : KeepsLists s (holdFalls s) := by
  unfold holdFalls
  split
  case h_6 =>
    unfold holdSeeking
    split
    · split
      · exact discardArm_keepsLists _ _ _ _
      · exact unwindArm_keepsLists _ _ _
      · exact .refl s
    · exact .refl s
  case h_7 | h_8 | h_9 => exact .of_port (by simp) (by simp)
  all_goals exact .refl s

/-! ## Answers (R87) -/

theorem answerWith_keepsLists (m : Arrival) (b : AnswerBody) (s : State) : KeepsLists s (answerWith m b s).2 := by
  unfold answerWith
  split
  · exact takePlace_keepsLists _ _ _ (of_decide_eq_true ‹_›)
  · exact .refl s

theorem plainQuery_keepsLists (body : State → AnswerBody) (m : Arrival) (s : State) :
    KeepsLists s (plainQuery body m s).2 := by
  unfold plainQuery
  split
  · exact answerWith_keepsLists _ _ _
  · exact .refl s

theorem settleQueryRing_keepsLists (m : Arrival) (s : State) : KeepsLists s (settleQueryRing m s).2 := by
  unfold settleQueryRing
  split
  · split
    · split
      · exact answerWith_keepsLists _ _ _
      · exact .refl s
    · exact .refl s
  · exact .refl s

theorem settleQueryCheckpoints_keepsLists (m : Arrival) (s : State) : KeepsLists s (settleQueryCheckpoints m s).2 := by
  unfold settleQueryCheckpoints
  split
  · split
    · split
      · exact answerWith_keepsLists _ _ _
      · exact .refl s
    · exact .refl s
  · exact .refl s

theorem settleQueryRoster_keepsLists (m : Arrival) (s : State) : KeepsLists s (settleQueryRoster m s).2 := by
  unfold settleQueryRoster
  split
  · split
    · exact answerWith_keepsLists _ _ _
    · exact .refl s
  · exact .refl s

theorem settleQuerySampler_keepsLists (m : Arrival) (s : State) : KeepsLists s (settleQuerySampler m s).2 := by
  have hquery := plainQuery_keepsLists samplerBody m s
  unfold settleQuerySampler
  dsimp only
  split
  · exact hquery.trans (.of_port rfl rfl)
  · exact hquery

theorem settleFetch_keepsLists (m : Arrival) (s : State) : KeepsLists s (settleFetch m s).2 := by
  have hdrop (n : Nat) : KeepsLists s { s with log := { s.log with entries := s.log.entries.drop n } } :=
    .of_le le_rfl le_rfl (by rw [List.length_drop]; exact Nat.sub_le _ _)
  unfold settleFetch
  split
  · split
    · exact .refl s
    · split
      · exact (hdrop _).trans (takePlace_keepsLists _ _ _ (of_decide_eq_true ‹_›))
      · exact .refl s
  · exact .refl s

theorem samplerAccept_keepsLists (n station seq x : Nat) (h : s.port.answers.length < 4) :
    KeepsLists s (samplerAccept n station seq x s) := by
  have hplace := takePlace_keepsLists station seq none h
  unfold samplerAccept
  dsimp only
  split
  · exact hplace.trans (.of_port rfl rfl)
  · split
    · exact hplace.trans (.of_port (by simp) (by simp))
    · exact hplace.trans (.of_port rfl rfl)

theorem settleSample_keepsLists (m : Arrival) (s : State) : KeepsLists s (settleSample m s).2 := by
  unfold settleSample
  split
  · split
    · exact .refl s
    · split
      · exact .refl s
      · split
        · exact samplerAccept_keepsLists _ _ _ _ (of_decide_eq_true ‹_›)
        · exact .refl s
  · exact .refl s

theorem settleUnknown_keepsLists (m : Arrival) (s : State) : KeepsLists s (settleUnknown m s) := by
  unfold settleUnknown
  split
  · exact addOutcome_keepsLists _ _ _ _
  · exact .refl s

theorem settleCue_keepsLists (m : Arrival) (s : State) : KeepsLists s (settleCue m s) := by
  unfold settleCue
  split <;> exact .of_port rfl rfl

theorem completeConversion_keepsLists (v : Conversion) (result : Nat) (s : State) :
    KeepsLists s (completeConversion v result s) := by
  have hwrite : KeepsLists s (writeConversion v result (s.atTime v.completes)) := by
    refine .of_same rfl ?_ rfl
    unfold writeConversion
    dsimp only
    split
    · exact fillWaiting_length _ _
    · rfl
  unfold completeConversion
  dsimp only
  split <;> exact hwrite.trans (.of_port (by simp) (by simp))

/-! ## Reports and turns (R75, R76, R86, R96) -/

theorem examineReport_keepsLists (r : Report) (c : Chan) (s : State) : KeepsLists s (examineReport r c s) := by
  unfold examineReport
  split
  · split
    · split
      · exact unwindArm_keepsLists _ _ _
      · exact KeepsLists.trans (.of_port rfl rfl) (checkArmed_keepsLists (s.setDrive c _))
    · exact .refl s
  · exact .refl s

theorem takeReport_keepsLists (r : Report) (s : State) : KeepsLists s (takeReport r s) :=
  KeepsLists.trans (.of_port (t := rosterWrite r s) rfl rfl) (.each (examineReport_keepsLists r) _)

theorem endSending_keepsLists (x : Nat) (s : State) : KeepsLists s (endSending x s) := .of_same rfl rfl rfl

/-- The outcomes that a report carried leave the list (R86). -/
theorem reportSettled_keepsLists (mismatch : Bool) (r : FullReport) (x : Nat) (s : State) :
    KeepsLists s (readBack mismatch (reportedOutcomes r (endSending x s))) := by
  have hdrop : KeepsLists s (reportedOutcomes r (endSending x s)) :=
    .of_le (by simp [reportedOutcomes]) (by simp) le_rfl
  exact hdrop.trans (.of_same (by simp) (by simp) (by simp))

theorem sendInTurn_keepsLists (x : Nat) (s : State) : KeepsLists s (sendInTurn x s) := by
  unfold sendInTurn
  split
  · rename_i y places hmessage
    split
    · refine .of_same rfl ?_ rfl
      unfold State.turnMessage at hmessage
      split at hmessage
      · cases hmessage
        rfl
      · obtain ⟨⟨b, qs⟩, hmark, heq⟩ := Option.map_eq_some_iff.mp hmessage
        cases heq
        exact markOldest_length hmark
    · exact .refl s
  · exact .refl s

theorem beginTurn_keepsLists (i x : Nat) (s : State) : KeepsLists s (beginTurn i x s) := by
  have hturn : KeepsLists s { s with port := { s.port with window := .turn i x x } } := .of_same rfl rfl rfl
  unfold beginTurn
  dsimp only
  split
  · exact hturn.trans (sendInTurn_keepsLists x _)
  · exact hturn

theorem nextTurn_keepsLists (i x : Nat) (s : State) : KeepsLists s (nextTurn i x s) := by
  have htime : KeepsLists s (s.atTime x) := .of_port rfl rfl
  unfold nextTurn
  split
  · exact htime.trans (beginTurn_keepsLists _ _ _)
  · exact .of_same rfl rfl rfl

theorem closeRound_keepsLists (q : Nat) (s : State) : KeepsLists s (closeRound q s) :=
  KeepsLists.trans (.of_same (by simp) (by simp) (by simp)) (beginTurn_keepsLists 0 ((q + Config.roundCloseAt) * Config.tick)
    (completeTake (settleTag (judgeRound (s.atTime ((q + Config.roundCloseAt) * Config.tick))))))

/-! ## One row of the table -/

/-- The next state an outcome gives, if any, has its lists within their bounds when `s` has. -/
def NextKeepsLists (s : State) (o : Host.Outcome State Fault Refusal) : Prop := ∀ t, o = .next t → KeepsLists s t

theorem KeepsLists.next (h : KeepsLists s t) : NextKeepsLists s (.next t) := by
  intro u hu
  cases hu
  exact h

/-- A row that leaves the outcomes, the number of answers and the log. -/
theorem nextKeepsLists_of_same (ho : t.port.outcomes = s.port.outcomes)
    (ha : t.port.answers.length = s.port.answers.length) (hl : t.log = s.log) : NextKeepsLists s (.next t) :=
  (KeepsLists.of_same ho ha hl).next

theorem State.afterReset_listsBounded (st n : Nat) (pins : Pins) (q : List Instr) :
    (State.afterReset st n pins q).listsBounded := ⟨Nat.zero_le _, Nat.zero_le _, Nat.zero_le _⟩

theorem takeWhen_keepsLists (p : Record → Bool) (c : Chan) (s : State) : KeepsLists s (takeWhen p c s) :=
  .of_same (by simp) (by simp) (by simp)

theorem execScanComplete_keepsLists (c : Chan) (s : State) : NextKeepsLists s (execScanComplete c s) := by
  have hpositioned (p : Positioning) (x : ScanState) : KeepsLists s (positioned c p x s) := .of_port (by simp) (by simp)
  unfold execScanComplete
  split
  · split
    · dsimp only
      split
      · exact ((hpositioned _ _).trans (discardArm_keepsLists _ _ _ _)).next
      · split
        · exact ((hpositioned _ _).trans (commitArm_keepsLists _ _)).next
        · exact (hpositioned _ _).next
    · exact (KeepsLists.refl s).next
  · exact (KeepsLists.refl s).next

theorem execScanRefusal_keepsLists (c : Chan) (s : State) : NextKeepsLists s (execScanRefusal c s) := by
  have hrefused (code : ScanCode) (k : Option FaultKind) (x : ScanState) : KeepsLists s (scanRefused c code k x s) :=
    .of_port (by simp) (by simp)
  unfold execScanRefusal
  split
  · split
    · exact (KeepsLists.refl s).next
    · exact ((hrefused _ _ _).trans (discardArm_keepsLists _ _ _ _)).next
    · exact ((hrefused _ _ _).trans (discardArm_keepsLists _ _ _ _)).next
  · exact (KeepsLists.refl s).next

/-- Every command keeps the three lists within their bounds. -/
theorem exec_keepsLists (i : Instr) (s : State) : NextKeepsLists s (exec i s) := by
  have same : NextKeepsLists s (.next s) := (KeepsLists.refl s).next
  cases i with
  | reset straps pins => exact KeepsLists.next fun _ => State.afterReset_listsBounded _ _ _ _
  | frameEdge time before after => exact (edgeRow_keepsLists time s _).next
  | rollPulse time before after => exact (edgeRow_keepsLists time s _).next
  | lastTakeFrame time before after => exact (edgeRow_keepsLists time s _).next
  | followerDone time before after c => exact (edgeRow_keepsLists time s _).next
  | lostFrameExpiry =>
    change NextKeepsLists s (execLostFrameExpiry s)
    unfold execLostFrameExpiry
    split
    · exact nextKeepsLists_of_same (by simp) (by simp) (by simp)
    · exact same
  | subBeat =>
    change NextKeepsLists s (execSubBeat s)
    unfold execSubBeat
    split
    · exact (scheduledBeat_keepsLists _ _ _ _ s).next
    · exact same
  | freeSubBeat =>
    change NextKeepsLists s (execFreeSubBeat s)
    unfold execFreeSubBeat
    split
    · split
      · exact (freeBeat_keepsLists _ _ s).next
      · exact same
    · exact same
  | stopped c =>
    change NextKeepsLists s (execStopped c s)
    unfold execStopped
    (repeat' split) <;> exact nextKeepsLists_of_same (by simp) (by simp) (by simp)
  | recordComplete c =>
    change NextKeepsLists s (execRecordComplete c s)
    unfold execRecordComplete
    (repeat' split) <;> exact nextKeepsLists_of_same (by simp) (by simp) (by simp)
  | originRecord c => exact (takeWhen_keepsLists _ c s).next
  | shapeRecord c => exact (takeWhen_keepsLists _ c s).next
  | spanRecord c => exact (takeWhen_keepsLists _ c s).next
  | dwellRecord c => exact (takeWhen_keepsLists _ c s).next
  | loopOpenRecord c => exact (takeWhen_keepsLists _ c s).next
  | loopCloseRecord c => exact (takeWhen_keepsLists _ c s).next
  | waitCueRecord c => exact (takeWhen_keepsLists _ c s).next
  | emitCueRecord c => exact (takeWhen_keepsLists _ c s).next
  | endRecord c => exact (takeWhen_keepsLists _ c s).next
  | noneRecord c => exact (takeWhen_keepsLists _ c s).next
  | stall c =>
    change NextKeepsLists s (execStall c s)
    unfold execStall
    split <;> exact nextKeepsLists_of_same (by simp) (by simp) (by simp)
  | waitStampPass c =>
    change NextKeepsLists s (execWaitStampPass c s)
    unfold execWaitStampPass
    (repeat' split) <;> exact nextKeepsLists_of_same (by simp) (by simp) (by simp)
  | waitExpiry c =>
    change NextKeepsLists s (execWaitExpiry c s)
    unfold execWaitExpiry
    (repeat' split) <;> exact nextKeepsLists_of_same (by simp) (by simp) (by simp)
  | followError c => exact (KeepsLists.of_port (t := faultOnFollow c s) (by simp) (by simp)).next
  | stepPulse c =>
    change NextKeepsLists s (execStepPulse c s)
    unfold execStepPulse
    (repeat' split) <;> exact nextKeepsLists_of_same rfl rfl rfl
  | reportSlot =>
    change NextKeepsLists s (execReportSlot s)
    unfold execReportSlot
    split <;> exact nextKeepsLists_of_same rfl rfl rfl
  | reportSent mismatch =>
    change NextKeepsLists s (execReportSent mismatch s)
    unfold execReportSent
    dsimp only
    split
    · split
      · split
        · exact (reportSettled_keepsLists _ _ _ _).next
        · exact ((reportSettled_keepsLists _ _ _ _).trans (takeReport_keepsLists _ _)).next
      · exact same
      · exact same
    · exact same
  | reportArrival a =>
    change NextKeepsLists s (execReportArrival a s)
    have htaken (r : Report) : KeepsLists s (takeReport r (s.heard a)) :=
      (heard_keepsLists a s).trans (takeReport_keepsLists r _)
    unfold execReportArrival
    split
    · split
      · exact nextKeepsLists_of_same rfl rfl rfl
      · exact (htaken _).next
    · exact (htaken _).next
    · split
      · exact (receive_keepsLists (fun _ u => .refl u) a s).next
      · exact same
  | roundClose =>
    change NextKeepsLists s (execRoundClose s)
    unfold execRoundClose
    split
    · exact (closeRound_keepsLists _ s).next
    · exact same
  | joined =>
    change NextKeepsLists s (execJoined s)
    unfold execJoined
    split
    · split
      · exact (closeRound_keepsLists _ s).next
      · exact same
    · exact same
  | entryAbsent station =>
    change NextKeepsLists s (execEntryAbsent station s)
    unfold execEntryAbsent
    split
    · split
      · exact (closeRound_keepsLists _ s).next
      · exact same
    · exact same
  | turnStart =>
    change NextKeepsLists s (execTurnStart s)
    unfold execTurnStart
    split
    · exact (nextTurn_keepsLists _ _ s).next
    · exact same
  | messageSent =>
    change NextKeepsLists s (execMessageSent s)
    have hsent (x : Nat) : KeepsLists (endSending x s) (answerSent (endSending x s)) :=
      .of_le le_rfl (List.length_filter_le _ _) le_rfl
    unfold execMessageSent
    split
    · split
      · exact nextKeepsLists_of_same (by simp) (by simp) (by simp)
      · exact ((endSending_keepsLists _ s).trans (hsent _)).next
      · exact same
    · exact same
  | busError a =>
    change NextKeepsLists s (execBusError a s)
    unfold execBusError busErrorAt
    split
    · exact nextKeepsLists_of_same (by simp [State.heard]) (by simp [State.heard]) (by simp)
    · exact same
  | setupLines a => exact (request_keepsLists settleSetupLines_keepsLists _ a s).next
  | setupChannel a pins => exact (request_keepsLists (settleSetupChannel_keepsLists pins) _ a s).next
  | enlist a => exact (request_keepsLists settleEnlist_keepsLists _ a s).next
  | dismiss a => exact (request_keepsLists settleDismiss_keepsLists _ a s).next
  | load a => exact (request_keepsLists settleLoad_keepsLists _ a s).next
  | advance a => exact (request_keepsLists settleAdvance_keepsLists _ a s).next
  | release a => exact (request_keepsLists settleRelease_keepsLists _ a s).next
  | clearRing a => exact (request_keepsLists settleClearRing_keepsLists _ a s).next
  | arm a => exact (receiveKind_keepsLists (broadcast_keepsLists settleArm_keepsLists) _ a s).next
  | roll a => exact (receiveKind_keepsLists (broadcast_keepsLists settleRoll_keepsLists) _ a s).next
  | disband a => exact (receiveKind_keepsLists (broadcast_keepsLists settleDisband_keepsLists) _ a s).next
  | clear a => exact (request_keepsLists settleClear_keepsLists _ a s).next
  | cue a => exact (receiveKind_keepsLists settleCue_keepsLists _ a s).next
  | queryRing a => exact (query_keepsLists settleQueryRing_keepsLists _ a s).next
  | queryCheckpoints a => exact (query_keepsLists settleQueryCheckpoints_keepsLists _ a s).next
  | queryRoster a => exact (query_keepsLists settleQueryRoster_keepsLists _ a s).next
  | queryHoldCauses a => exact (query_keepsLists (plainQuery_keepsLists _) _ a s).next
  | queryCueBoard a => exact (query_keepsLists (plainQuery_keepsLists _) _ a s).next
  | queryLines a pins =>
    change NextKeepsLists s (execQueryLines a pins s)
    have hpins : KeepsLists s (s.withPins pins) := .of_port rfl rfl
    unfold execQueryLines
    split
    · exact (hpins.trans (receive_keepsLists (addressed_keepsLists (plainQuery_keepsLists _)) a _)).next
    · exact same
  | querySampler a => exact (query_keepsLists settleQuerySampler_keepsLists _ a s).next
  | queryNoKnownRegion a => exact (query_keepsLists (fun _ s => .refl s) _ a s).next
  | fetch a => exact (request_keepsLists settleFetch_keepsLists _ a s).next
  | sample a => exact (request_keepsLists settleSample_keepsLists _ a s).next
  | answer a => exact (receiveKind_keepsLists (fun _ s => .refl s) _ a s).next
  | unknownKind a =>
    change NextKeepsLists s (execUnknownKind a s)
    unfold execUnknownKind
    split
    · exact (receive_keepsLists settleUnknown_keepsLists a s).next
    · exact same
  | scanComplete c => exact execScanComplete_keepsLists c s
  | scanRefusal c => exact execScanRefusal_keepsLists c s
  | holdFall time samples =>
    change NextKeepsLists s (execHoldFall time samples s)
    unfold execHoldFall
    split
    · exact (KeepsLists.trans (.of_port rfl rfl) (holdFalls_keepsLists { s.atTime time with holdInput := false })).next
    · exact same
  | holdRise time samples =>
    change NextKeepsLists s (execHoldRise time samples s)
    unfold execHoldRise
    split <;> exact nextKeepsLists_of_same rfl rfl rfl
  | limitActive time c plus samples =>
    change NextKeepsLists s (execLimitActive time c plus samples s)
    unfold execLimitActive
    split <;> exact nextKeepsLists_of_same (by simp) (by simp) (by simp)
  | limitInactive time c plus samples =>
    change NextKeepsLists s (execLimitInactive time c plus samples s)
    unfold execLimitInactive
    split <;> exact nextKeepsLists_of_same rfl rfl rfl
  | encoderChange time c first second =>
    change NextKeepsLists s (execEncoderChange time c first second s)
    unfold execEncoderChange
    dsimp only
    (repeat' split) <;> exact nextKeepsLists_of_same (by simp) (by simp) (by simp)
  | wheelChange time c first second =>
    change NextKeepsLists s (execWheelChange time c first second s)
    unfold execWheelChange
    split <;> exact nextKeepsLists_of_same rfl rfl rfl
  | wakeEnd =>
    change NextKeepsLists s (execWakeEnd s)
    unfold execWakeEnd
    split <;> exact nextKeepsLists_of_same (by simp) (by simp) (by simp)
  | conversionComplete result =>
    change NextKeepsLists s (execConversionComplete result s)
    unfold execConversionComplete
    split
    · split
      · exact (completeConversion_keepsLists _ _ s).next
      · exact same
    · exact same

/-- Settles O5: a step is the front command's row, and each row keeps the bounds. -/
theorem everyStepKeepsTheListsBounded : Obligations.EveryStepKeepsTheListsBounded := by
  refine ⟨fun s t h ht => ?_, State.afterReset_listsBounded 0 8 _ []⟩
  unfold step at ht
  split at ht
  · cases ht
    exact h
  · rename_i rest _
    have hqueue : KeepsLists s (s.withPending rest) := .of_port rfl rfl
    exact exec_keepsLists _ _ t ht (hqueue h)

end Sys2Proof.Machine
end

