-- ==== Sys2Proof/Proofs/FetchAndSampleSettled.lean ====
section
/-! FETCH and SAMPLE (R178, R186): what each answers by its checks in order, the entries a FETCH takes, and where an accepted
SAMPLE stands with the converter (R174, R177). -/

set_option Elab.async false

namespace Sys2Proof.Machine

variable {s : State} {a : Activity} {m : Arrival} {n : Nat}

theorem answerRoom_iff : answerRoom s = true ↔ s.port.answers.length < 4 := decide_eq_true_iff

/-! ## FETCH (R186) -/

theorem settleFetch_out (hn : readByte m.payload = some n) (h : n = 0 ∨ 6 < n) :
    settleFetch m s = (.refusedRange, s) := by
  unfold settleFetch
  rw [hn]
  exact if_pos (by omega)

/-- A FETCH whose count holds takes the entries with a place free, and is BUSY with none (R87). -/
theorem settleFetch_in (hn : readByte m.payload = some n) (h1 : 1 ≤ n) (h6 : n ≤ 6) :
    settleFetch m s = if answerRoom s then (.accepted, fetchEntries m n s) else (.busy, s) := by
  unfold settleFetch
  rw [hn]
  exact if_neg (by omega)

/-! ## SAMPLE (R178) -/

theorem settleSample_out (hn : readByte m.payload = some n) (h : 7 < n) : settleSample m s = (.refusedRange, s) := by
  unfold settleSample
  rw [hn]
  exact if_pos h

/-- A SAMPLE of an input is taken with no other single about and a place free, and is BUSY else. -/
theorem settleSample_in (hn : readByte m.payload = some n) (h : n ≤ 7) : settleSample m s =
    if s.singleBusy = false ∧ s.port.answers.length < 4 then (.accepted, samplerAccept n m.sender m.seq m.time s)
    else (.busy, s) := by
  unfold settleSample
  rw [hn]
  dsimp only
  rw [if_neg (Nat.not_lt.mpr h)]
  cases hb : s.singleBusy with
  | true => simp [refuse]
  | false => simp [answerRoom_iff, refuse]

/-- With no single about none is pending. -/
theorem singleBusy_false (h : s.singleBusy = false) : s.sampler.single = none := by
  rw [State.singleBusy, Bool.or_eq_false_iff, Option.isSome_eq_false_iff, Option.isNone_iff_eq_none] at h
  exact h.1

/-! ## An accepted SAMPLE and the converter (R174, R177) -/

/-- Asleep, the converter wakes for the single. -/
theorem samplerAccept_wakes (hmode : s.sampler.mode = .standby) (n station seq x : Nat) :
    samplerAccept n station seq x s = { takePlace station seq none s with sampler := { s.sampler with
      single := some { input := n, station := station, seq := seq }, mode := .sweep, waking := some (x + 320) } } := by
  unfold samplerAccept
  exact if_pos hmode

/-- Converting or waking, it leaves the single to wait. -/
theorem samplerAccept_waits (hmode : s.sampler.mode ≠ .standby)
    (hbusy : s.sampler.conversion ≠ none ∨ s.sampler.waking ≠ none) (n station seq x : Nat) :
    samplerAccept n station seq x s = { takePlace station seq none s with sampler := { s.sampler with
      single := some { input := n, station := station, seq := seq } } } := by
  unfold samplerAccept
  dsimp only
  rw [if_neg hmode, if_neg fun h => hbusy.elim (· h.1) (· h.2)]
  rfl

/-- Awake and idle, with no pass in flight, it begins the single. -/
theorem samplerAccept_begins (hmode : s.sampler.mode ≠ .standby) (hconversion : s.sampler.conversion = none)
    (hwaking : s.sampler.waking = none) (hpass : s.sampler.pass = none) (hsingle : s.sampler.single = none)
    (n station seq x : Nat) : samplerAccept n station seq x s = { takePlace station seq none s with sampler := { s.sampler with
      mode := .single, conversion := some (conversionAt s.sampler n true x) } } := by
  unfold samplerAccept
  dsimp only
  rw [if_neg hmode, if_pos ⟨hconversion, hwaking⟩]
  unfold samplerBegin
  simp only [takePlace_sampler, hpass]
  rw [← hsingle]
  rfl

/-- Settles O54: the owner's answer by its checks, and for a SAMPLE taken the converter's state. -/
theorem fetchAndSample : Obligations.FetchAndSample := by
  intro s a n hn m h
  refine ⟨fun hr => ⟨fun ho => ?_, fun h1 h6 hfull => ?_, fun h1 h6 hroom => ?_⟩,
    fun hr => ⟨fun ho => ?_, fun h7 hbusy => ?_, fun h7 hfree hroom => ?_⟩⟩
  · exact receiveKind_settles hr (settleFetch_out hn ho)
  · refine receiveKind_settles hr ((settleFetch_in hn h1 h6).trans (if_neg ?_))
    exact mt answerRoom_iff.mp (Nat.not_lt.mpr hfull)
  · exact receiveKind_settles hr ((settleFetch_in hn h1 h6).trans (if_pos (answerRoom_iff.mpr hroom)))
  · exact receiveKind_settles hr (settleSample_out hn ho)
  · refine receiveKind_settles hr ((settleSample_in hn h7).trans (if_neg fun hin => ?_))
    rcases hbusy with hbusy | hfull
    · exact Bool.false_ne_true (hin.1.symm.trans hbusy)
    · exact Nat.not_lt.mpr hfull hin.2
  · have haccepted := (settleSample_in (m := m) (s := h) hn h7).trans (if_pos ⟨hfree, hroom⟩)
    refine ⟨fun hmode => ?_, fun hmode hconversion hwaking hpass => ?_, fun hmode hbusy => ?_⟩
    · exact receiveKind_settles hr (haccepted.trans (congrArg _ (samplerAccept_wakes (s := h) hmode n _ _ _)))
    · exact receiveKind_settles hr (haccepted.trans (congrArg _
        (samplerAccept_begins (s := h) hmode hconversion hwaking hpass (singleBusy_false hfree) n _ _ _)))
    · exact receiveKind_settles hr (haccepted.trans (congrArg _ (samplerAccept_waits (s := h) hmode hbusy n _ _ _)))

end Sys2Proof.Machine
end

