-- ==== Sys2Proof/Proofs/CausesRaised.lean ====
section
/-! A cause raised to the Take Controller (R137, R138): which flags it latches, and what the record names. -/

set_option Elab.async false

namespace Sys2Proof.Machine

variable {s : State} {cause : Cause}

/-- Where the take state lets a cause pass nothing changes. -/
theorem raiseCause_passed (h : cause.latchesIn s.take.state = false) (who : Option Nat) (k : Option FaultKind) :
    raiseCause cause who k s = s := by
  unfold raiseCause
  rw [h]
  rfl

/-- A cause latched joins a record that holds one already. -/
theorem raiseCause_joins (h : cause.latchesIn s.take.state = true) (hany : s.holds.flags.any = true) (who : Option Nat)
    (k : Option FaultKind) : (raiseCause cause who k s).holds = { s.holds with flags := s.holds.flags.latch cause } := by
  unfold raiseCause
  rw [if_pos h, if_pos hany]

/-- The first cause of an empty record fills it. -/
theorem raiseCause_fills (h : cause.latchesIn s.take.state = true) (hany : s.holds.flags.any = false) (who : Option Nat)
    (k : Option FaultKind) : (raiseCause cause who k s).holds =
      { flags := s.holds.flags.latch cause, first := some cause, sub := s.causeSubBeat, concerned := who, kind := k } := by
  unfold raiseCause
  rw [if_pos h, if_neg (by rw [hany]; exact Bool.false_ne_true)]

theorem raiseCause_flags (h : cause.latchesIn s.take.state = true) (who : Option Nat) (k : Option FaultKind) :
    (raiseCause cause who k s).holds.flags = s.holds.flags.latch cause := by
  cases hany : s.holds.flags.any with
  | true => rw [raiseCause_joins h hany]
  | false => rw [raiseCause_fills h hany]

theorem CauseFlags.has_latch (f : CauseFlags) (c x : Cause) : (f.latch c).has x = (decide (c = x) || f.has x) := by
  cases c <;> cases x <;> rfl

/-- A cause raised clears no flag. -/
theorem raiseCause_keepsFlag {x : Cause} (who : Option Nat) (k : Option FaultKind) (h : s.holds.flags.has x = true) :
    (raiseCause cause who k s).holds.flags.has x = true := by
  cases hl : cause.latchesIn s.take.state with
  | true =>
    rw [raiseCause_flags hl, CauseFlags.has_latch, h, Bool.or_true]
  | false =>
    rw [raiseCause_passed hl]
    exact h

/-- A record with a flag latched is not empty. -/
theorem CauseFlags.latch_any (f : CauseFlags) (x : Cause) : (f.latch x).any = true := by
  cases x <;> simp [CauseFlags.latch, CauseFlags.any]

end Sys2Proof.Machine
end

