-- ==== Sys2Proof/Proofs/ConversionCompleted.lean ====
section
/-! CONVERSION_COMPLETE (R173, R174, R177, R179): what is written, what a broken wire does channel by channel, and what the freed
converter begins. -/

set_option Elab.async false

namespace Sys2Proof.Machine

variable {s t u : State} {c d : Chan} {n : Nat}

/-! ## A broken wire (R166, R179) -/

/-- A hard fault takes no station outside SEEKING into SAFE: the states it may bring are HELD's. -/
theorem hardFault_notSafe (hseek : s.take.state ≠ .seeking) (hsafe : s.take.state ≠ .safe) (k : FaultKind) :
    (hardFault c k s).take.state ≠ .safe := by
  have hrest (u : State) (hs : u.take.state ≠ .seeking) (hu : u.take.state ≠ .safe) : (checkRest u).take.state ≠ .safe := by
    rcases checkRest_cases u with h | ⟨-, h⟩ | ⟨hk, -⟩
    · rw [h]
      exact hu
    · rw [h]
      exact fun h => nomatch h
    · exact absurd hk hs
  have hraise (d : Drive) : (raiseCause .channelFault (some c.val) (some k) (s.setDrive c d)).take = s.take := by
    simp only [raiseCause_frame, State.setDrive_take]
  unfold hardFault
  split
  · dsimp only
    rw [show ∀ u : State, (samplerSettle u).take = u.take from fun u => by simp only [samplerSettle_frame]]
    split
    · exact hrest _ (fun h => nomatch h) (fun h => nomatch h)
    · exact hrest _ (by rw [hraise]; exact hseek) (by rw [hraise]; exact hsafe)
  · exact hsafe

/-- The hold record of a hard fault is that of the cause it raises. -/
theorem hardFault_holds (h : s.energized c = true) (k : FaultKind) : ∃ v : State,
    v.holds = s.holds ∧ v.take = s.take ∧ (hardFault c k s).holds = (raiseCause .channelFault (some c.val) (some k) v).holds := by
  refine ⟨s.setDrive c (((s.drive c).holdDir s.clock).hardFault k), rfl, rfl, ?_⟩
  unfold hardFault
  rw [if_pos h]
  simp only [samplerSettle_frame, checkRest_frame]
  split <;> rfl

/-- What wire breaks at channels other than `c` leave, outside SEEKING: channel `c`, a station not SAFE, and the flag. -/
structure BreaksBeside (c : Chan) (s t : State) : Prop where
  beats : Beats s t
  chan : s.take.state ≠ .seeking → t.chan c = s.chan c
  notSafe : s.take.state ≠ .seeking → s.take.state ≠ .safe → t.take.state ≠ .safe
  flag : s.holds.flags.channelFault = true → t.holds.flags.channelFault = true

theorem BreaksBeside.refl (c : Chan) (s : State) : BreaksBeside c s s :=
  ⟨(BeatAt.refl c s).toBeats, fun _ => rfl, fun _ => id, id⟩

theorem BreaksBeside.trans (h : BreaksBeside c s t) (k : BreaksBeside c t u) : BreaksBeside c s u where
  beats := h.beats.trans k.beats
  chan hs := (k.chan (h.beats.take hs).1).trans (h.chan hs)
  notSafe hs hsafe := k.notSafe (h.beats.take hs).1 (h.notSafe hs hsafe)
  flag hf := k.flag (h.flag hf)

theorem wireBreak_beats (n : Nat) (c : Chan) (s : State) : BeatAt c s (wireBreak n c s) := by
  unfold wireBreak
  split
  · exact hardFault_beats c .wireBreak s
  · exact .refl c s

theorem wireBreak_beside (hd : d ≠ c) (n : Nat) (s : State) : BreaksBeside c s (wireBreak n d s) where
  beats := (wireBreak_beats n d s).toBeats
  chan hs := (wireBreak_beats n d s).others hs c hd.symm
  notSafe hs hsafe := by
    unfold wireBreak
    split
    · exact hardFault_notSafe hs hsafe _
    · exact hsafe
  flag hf := by
    unfold wireBreak
    split
    · by_cases he : s.energized d = true
      · obtain ⟨v, hv, -, hh⟩ := hardFault_holds he .wireBreak
        rw [hh]
        exact raiseCause_keepsFlag (x := .channelFault) _ _ (by rw [hv]; exact hf)
      · unfold hardFault
        rw [if_neg he]
        exact hf
    · exact hf

/-- The broken wire of input `n` at every channel that reads it. -/
def State.broken (s : State) (n : Nat) : State := eachChannel (wireBreak n) s

theorem broken_beats (n : Nat) (s : State) : Beats s (s.broken n) := Beats.each (wireBreak_beats n) s

/-- A channel that does not read the input keeps what it has. -/
theorem broken_leaves (hs : s.take.state ≠ .seeking) (hf : (s.setup c).feedback ≠ .analog n) :
    (s.broken n).chan c = s.chan c :=
  eachChannel_leaves (wireBreak_beats n) hs fun _ hu _ => if_neg (by rw [hu.setup]; exact hf)

/-- An energized channel that reads the input is FAULTED, and the station has CHANNEL_FAULT latched (R166). -/
theorem broken_faults (hs : s.take.state ≠ .seeking) (hf : (s.setup c).feedback = .analog n) (he : s.energized c = true) :
    ((s.broken n).drive c).state = .faulted ∧ ((s.broken n).drive c).kind = some .wireBreak ∧
      (s.broken n).holds.flags.channelFault = true := by
  obtain ⟨u, hsu, hut⟩ := eachChannel_split (BreaksBeside c) (BreaksBeside.refl c) (fun _ _ _ => BreaksBeside.trans)
    (wireBreak n) c (fun d s hd => wireBreak_beside hd n s) s
  obtain ⟨hup, hsafe⟩ := (s.energized_iff c).mp he
  have hdrive : u.drive c = s.drive c := congrArg Channel.drive (hsu.chan hs)
  have hlive : u.energized c = true :=
    (u.energized_iff c).mpr ⟨by unfold State.down; rw [hdrive]; exact hup, hsu.notSafe hs hsafe⟩
  have hown : wireBreak n c u = hardFault c .wireBreak u := if_pos (by rw [hsu.beats.setup]; exact hf)
  rw [hown] at hut
  have hseek : (hardFault c .wireBreak u).take.state ≠ .seeking :=
    ((hardFault_beats c .wireBreak u).take (hsu.beats.take hs).1).1
  have hend : (s.broken n).drive c = (hardFault c .wireBreak u).drive c := congrArg Channel.drive (hut.chan hseek)
  obtain ⟨hstate, hkind, -⟩ := hardFault_drive .wireBreak hlive
  obtain ⟨v, -, hv, hholds⟩ := hardFault_holds hlive .wireBreak
  refine ⟨by rw [hend, hstate], by rw [hend, hkind], hut.flag ?_⟩
  have hlatches : Cause.channelFault.latchesIn v.take.state = true :=
    decide_eq_true (by rw [hv]; exact hsu.notSafe hs hsafe)
  rw [hholds, raiseCause_flags hlatches]
  rfl

/-! ## The freed converter (R174, R177) -/

theorem SleepsAtMost.mode (h : SleepsAtMost s t) : t.sampler = { s.sampler with mode := t.sampler.mode } := by
  rcases h with h | ⟨-, -, h⟩ <;> rw [h]

/-- The next input of the pass goes first. -/
theorem samplerBegin_pass {rest : List Nat} (h : s.sampler.pass = some (n :: rest)) (x : Nat) :
    (samplerBegin x s).sampler = { s.sampler with
      mode := .sweep, conversion := some (conversionAt s.sampler n false x), pass := some rest } := by
  unfold samplerBegin
  rw [h]

/-- With the pass over the pending single is next. -/
theorem samplerBegin_single (h : s.sampler.pass = none ∨ s.sampler.pass = some []) {y : PendingSingle}
    (hy : s.sampler.single = some y) (x : Nat) : (samplerBegin x s).sampler = { s.sampler with
      mode := .single, conversion := some (conversionAt s.sampler y.input true x), pass := none, single := none } := by
  unfold samplerBegin
  rcases h with h | h <;> rw [h, hy]

/-- With neither it idles, or sleeps. -/
theorem samplerBegin_idles (h : s.sampler.pass = none ∨ s.sampler.pass = some []) (hy : s.sampler.single = none) (x : Nat) :
    (samplerBegin x s).sampler =
      { s.sampler with mode := if sweepSet s = [] then .standby else .sweep, pass := none } := by
  unfold samplerBegin
  rcases h with h | h <;> rw [h, hy]

theorem samplerBegin_written (x : Nat) (s : State) : (samplerBegin x s).sampler.slots = s.sampler.slots ∧
    (samplerBegin x s).sampler.breaks = s.sampler.breaks := by
  unfold samplerBegin
  (repeat' split) <;> exact ⟨rfl, rfl⟩

theorem samplerBegin_sweepSet (x : Nat) (s : State) : sweepSet (samplerBegin x s) = sweepSet s := by
  obtain ⟨-, -, -, -, htake, -⟩ := samplerBegin_frame x s
  exact sweepSet_of_same (samplerBegin_channels x s) (congrArg Take.state htake)

/-! ## What a conversion writes (R173, R179) -/

/-- The oldest waiting place is filled. -/
theorem fillWaiting_append {b : AnswerBody} {ws ps : List Place} {p : Place} (hw : ∀ w ∈ ws, w.body.isSome = true)
    (hp : p.body = none) : fillWaiting b (ws ++ p :: ps) = ws ++ { p with body := some b } :: ps := by
  induction ws with
  | nil => exact if_pos hp
  | cons w ws ih =>
    have hbody : w.body ≠ none := Option.isSome_iff_ne_none.mp (hw w List.mem_cons_self)
    rw [List.cons_append, fillWaiting, if_neg hbody, ih fun x hx => hw x (List.mem_cons_of_mem w hx), List.cons_append]

/-- The state in which the converter, freed by conversion `v`, goes on: the result written, a broken wire judged. -/
def State.converted (s : State) (v : Conversion) (result : Nat) : State :=
  if v.breaks result then (writeConversion v result (s.atTime v.completes)).broken v.input
  else writeConversion v result (s.atTime v.completes)

theorem execConversionComplete_eq {v : Conversion} {result : Nat} (hv : s.sampler.conversion = some v) (hr : result < 4096) :
    exec (.conversionComplete result) s = .next (samplerBegin v.completes (s.converted v result)) := by
  change execConversionComplete result s = _
  unfold execConversionComplete
  rw [hv]
  exact congrArg Host.Outcome.next (if_pos hr)

/-- Writing the result, and its breaks, leave clock and port as written, and the sampler as written but for its mode. -/
theorem converted_written (s : State) (v : Conversion) (result : Nat) :
    let w := writeConversion v result (s.atTime v.completes)
    (s.converted v result).clock = w.clock ∧ (s.converted v result).port = w.port ∧
      (s.converted v result).sampler = { w.sampler with mode := (s.converted v result).sampler.mode } := by
  unfold State.converted
  split
  · refine ⟨?_, ?_, (broken_beats _ _).sampler.mode⟩ <;> simp [State.broken]
  · exact ⟨rfl, rfl, rfl⟩

theorem converted_unbroken {v : Conversion} {result : Nat} (h : v.breaks result = false) :
    s.converted v result = writeConversion v result (s.atTime v.completes) := by
  rw [State.converted, h, if_neg Bool.false_ne_true]

theorem converted_broken {v : Conversion} {result : Nat} (h : v.breaks result = true) :
    s.converted v result = (writeConversion v result (s.atTime v.completes)).broken v.input := by
  rw [State.converted, if_pos h]

/-- A channel that does not read the input is left. -/
theorem converted_leaves {v : Conversion} {result : Nat} (hs : s.take.state ≠ .seeking)
    (hf : (s.setup c).feedback ≠ .analog v.input) : (s.converted v result).chan c = s.chan c := by
  unfold State.converted
  split
  · exact broken_leaves (s := writeConversion v result (s.atTime v.completes)) hs hf
  · rfl

/-- Settles O53: the write, the break at every channel of the input, and the converter's next conversion. -/
theorem conversionWritesItsSlot : Obligations.ConversionWritesItsSlot := by
  intro s v result hv hr hslot hbreak hs broke began
  obtain ⟨hclock, hport, hsampler⟩ := converted_written s v result
  obtain ⟨bclock, -, bport, -, btake, bholds, -⟩ := samplerBegin_frame v.completes (s.converted v result)
  obtain ⟨bslots, bbreaks⟩ := samplerBegin_written v.completes (s.converted v result)
  have hchannels := samplerBegin_channels v.completes (s.converted v result)
  have hpass : (s.converted v result).sampler.pass = s.sampler.pass := by rw [hsampler]; rfl
  have hsingle : (s.converted v result).sampler.single = s.sampler.single := by rw [hsampler]; rfl
  have hbegan (n : Nat) (single : Bool) :
      conversionAt (s.converted v result).sampler n single v.completes = began n single := by
    rw [hsampler]
    rfl
  refine ⟨_, execConversionComplete_eq hv hr, bclock.trans hclock, ?_, ?_, fun hone => ?_, fun ws p ps hone hq hw hp => ?_,
    fun hb => ?_, fun hb c hf he => ?_, fun c hf => ?_, fun n rest hp => ?_, fun x hp hx => ?_, fun hp hx => ?_⟩
  · rw [bslots, hsampler]
    rfl
  · rw [bbreaks, hsampler]
    rfl
  · rw [bport, hport]
    unfold writeConversion
    rw [hone]
    rfl
  · rw [bport, hport]
    refine (if_pos hone).trans ?_
    change fillWaiting _ s.port.answers = _
    rw [hq]
    exact fillWaiting_append hw hp
  · rw [hchannels, bholds, btake, converted_unbroken hb]
    exact ⟨rfl, rfl, rfl⟩
  · rw [State.drive_def, hchannels, bholds, converted_broken hb]
    exact broken_faults (s := writeConversion v result (s.atTime v.completes)) hs hf he
  · rw [State.chan_def, hchannels]
    exact converted_leaves hs hf
  · rw [samplerBegin_pass (hpass.trans hp), hbegan]
    exact ⟨rfl, rfl, hsingle, rfl⟩
  · rw [← hpass] at hp
    rw [samplerBegin_single hp (hsingle.trans hx), hbegan]
    exact ⟨rfl, rfl, rfl, rfl⟩
  · rw [← hpass] at hp
    rw [samplerBegin_sweepSet, samplerBegin_idles hp (hsingle.trans hx)]
    refine ⟨?_, rfl, rfl⟩
    rw [hsampler]
    rfl

end Sys2Proof.Machine
end

