-- ==== Sys2Proof/Proofs/TurnsTaken.lean ====
section
/-! Turns and what a turn's holder sends (R75, R76, R74; log 40), and what a message sent leaves of the port (R84, R85, R87,
R89; log 33). -/

set_option Elab.async false

namespace Sys2Proof.Machine

variable {s : State} {i b q d t : Nat}

/-! ## The message of the own turn (R76) -/

theorem guardAt_eq (hq : s.timer.lastPulse = some q) (hd : s.timer.period = some d) :
    s.guardAt = some ((q + d - 200) * 16) := by
  unfold State.guardAt
  rw [hq, hd]
  rfl

theorem beforeGuard_iff (hq : s.timer.lastPulse = some q) (hd : s.timer.period = some d) (x : Nat) :
    s.beforeGuard x = true ↔ x ≤ (q + d - 200) * 16 := by
  rw [State.beforeGuard, guardAt_eq hq hd]
  exact decide_eq_true_iff

/-- A closed cue set goes first. -/
theorem turnMessage_cues (h : s.port.closedCues ≠ []) (x : Nat) : s.turnMessage x = some (sendingFrom x (.cues s.port.closedCues)
    (message 0x18 s.station none s.port.cueSeq (s.port.closedCues.map byte)), s.port.answers) := if_pos h

theorem turnMessage_answers (h : s.port.closedCues = []) (x : Nat) : s.turnMessage x =
    (markOldest s.station s.port.answers).map fun y => (sendingFrom x .answer y.1, y.2) := if_neg (not_not_intro h)

theorem markOldest_waiting (station : Nat) {ps : List Place} (h : ∀ p ∈ ps, p.body = none) : markOldest station ps = none := by
  induction ps with
  | nil => rfl
  | cons p ps ih =>
    rw [markOldest, h p List.mem_cons_self, ih fun w hw => h w (List.mem_cons_of_mem p hw)]
    rfl

/-- The oldest complete answer is marked, those waiting before it stand. -/
theorem markOldest_complete (station : Nat) {ws ps : List Place} {p : Place} {x : AnswerBody}
    (hw : ∀ w ∈ ws, w.body = none) (hp : p.body = some x) : markOldest station (ws ++ p :: ps) =
      some (message 0x21 station (some p.station) p.seq x.payload, ws ++ { p with sending := true } :: ps) := by
  induction ws with
  | nil =>
    rw [List.nil_append, markOldest, hp]
    rfl
  | cons w ws ih =>
    rw [List.cons_append, markOldest, hw w List.mem_cons_self, ih fun y hy => hw y (List.mem_cons_of_mem w hy)]
    rfl

/-! ## The own turn taken, or silent (R74, R75) -/

theorem sendInTurn_sends {x : Sending} {places : List Place} (hm : s.turnMessage (t + 16) = some (x, places))
    (h : s.beforeGuard x.ends = true) :
    sendInTurn t s = { s with port := { s.port with answers := places, sending := some x } } := by
  unfold sendInTurn Config.tick
  rw [hm]
  exact if_pos h

theorem sendInTurn_late {x : Sending} {places : List Place} (hm : s.turnMessage (t + 16) = some (x, places))
    (h : ¬s.beforeGuard x.ends = true) : sendInTurn t s = s := by
  unfold sendInTurn Config.tick
  rw [hm]
  exact if_neg h

theorem sendInTurn_nothing (hm : s.turnMessage (t + 16) = none) : sendInTurn t s = s := by
  unfold sendInTurn Config.tick
  rw [hm]

/-- The turn `i` begun at `t`, before its holder sends (R75). -/
def State.inTurn (s : State) (i t : Nat) : State := { s with port := { s.port with window := .turn i t t } }

/-- Turn `i` is the station's own (R75). -/
def State.ownsTurn (s : State) (i : Nat) : Prop :=
  s.port.join = .joined ∧ s.timer.state = .locked ∧ (s.timer.tag + i) % 16 = s.station

theorem beginTurn_other (h : ¬s.ownsTurn i) (t : Nat) : beginTurn i t s = s.inTurn i t := if_neg h

theorem beginTurn_own (h : s.ownsTurn i) (t : Nat) : beginTurn i t s = sendInTurn t (s.inTurn i t) := if_pos h

/-! ## TURN_START -/

theorem execTurnStart_eq {idle : Nat} (hw : s.port.window = .turn i b idle) (hs : s.port.sending = none) :
    exec .turnStart s = .next (nextTurn i (idle + 64) s) := by
  change execTurnStart s = _
  unfold execTurnStart
  rw [hw, hs]
  rfl

theorem execTurnStart_next {idle : Nat} (hw : s.port.window = .turn i b idle) (hs : s.port.sending = none) (hi : i < 15) :
    exec .turnStart s = .next (beginTurn (i + 1) (idle + 64) (s.atTime (idle + 64))) := by
  rw [execTurnStart_eq hw hs, nextTurn, if_pos hi]

theorem execTurnStart_last {idle : Nat} (hw : s.port.window = .turn i b idle) (hs : s.port.sending = none) (hi : 15 ≤ i) :
    exec .turnStart s = .next { s.atTime (idle + 64) with port := { s.port with window := .silence } } := by
  rw [execTurnStart_eq hw hs, nextTurn, if_neg (Nat.not_lt.mpr hi)]

/-- What the own turn makes of a message that is at hand: it is begun, or would not be over before the guard (log 40). -/
theorem beginTurn_message {x : Sending} {places : List Place} (ho : s.ownsTurn i) (hq : s.timer.lastPulse = some q)
    (hd : s.timer.period = some d) (hm : s.turnMessage (t + 16) = some (x, places)) :
    (x.ends ≤ (q + d - 200) * 16 → beginTurn i t s = { s.inTurn i t with port := { (s.inTurn i t).port with
      answers := places, sending := some x } }) ∧
    ((q + d - 200) * 16 < x.ends → beginTurn i t s = s.inTurn i t) := by
  have hguard := beforeGuard_iff (s := s.inTurn i t) hq hd x.ends
  rw [beginTurn_own ho]
  exact ⟨fun h => sendInTurn_sends (s := s.inTurn i t) hm (hguard.mpr h),
    fun h => sendInTurn_late (s := s.inTurn i t) hm (mt hguard.mp (Nat.not_le.mpr h))⟩

/-- With neither cues nor a complete answer the holder stays silent. -/
theorem beginTurn_nothing (ho : s.ownsTurn i) (hc : s.port.closedCues = []) (ha : ∀ p ∈ s.port.answers, p.body = none)
    (t : Nat) : beginTurn i t s = s.inTurn i t := by
  rw [beginTurn_own ho]
  refine sendInTurn_nothing ?_
  rw [turnMessage_answers (s := s.inTurn i t) hc]
  exact congrArg _ (markOldest_waiting s.station ha)

theorem turnMessage_oldest {ws ps : List Place} {p : Place} {y : AnswerBody} (hc : s.port.closedCues = [])
    (ha : s.port.answers = ws ++ p :: ps) (hw : ∀ w ∈ ws, w.body = none) (hp : p.body = some y) (x : Nat) :
    s.turnMessage x = some (sendingFrom x .answer (message 0x21 s.station (some p.station) p.seq y.payload),
      ws ++ { p with sending := true } :: ps) := by
  rw [turnMessage_answers hc, ha, markOldest_complete s.station hw hp]
  rfl

/-! ## MESSAGE_SENT -/

theorem execMessageSent_cues {cues : List Nat} {bytes : List Byte} {begins ends : Nat}
    (h : s.port.sending = some { what := .cues cues, bytes := bytes, begins := begins, ends := ends }) :
    exec .messageSent s = .next (cuesSent cues (endSending ends s)) := by
  change execMessageSent s = _
  unfold execMessageSent
  rw [h]

theorem execMessageSent_answer {bytes : List Byte} {begins ends : Nat}
    (h : s.port.sending = some { what := .answer, bytes := bytes, begins := begins, ends := ends }) :
    exec .messageSent s = .next (answerSent (endSending ends s)) := by
  change execMessageSent s = _
  unfold execMessageSent
  rw [h]

/-- The cues of the message alone leave the closed set (log 33). -/
theorem mem_cuesSent_closed {cues : List Nat} {x : Nat} :
    x ∈ (cuesSent cues s).port.closedCues ↔ x ∈ s.port.closedCues ∧ x ∉ cues := by
  simp [cuesSent]

/-- Of cue numbers, those below 64 join the pending set (R18). -/
theorem mem_pendCues_pending {cues : List Nat} {x : Nat} :
    x ∈ (pendCues cues s).board.pending ↔ x ∈ s.board.pending ∨ (x ∈ cues ∧ x < 64) := by
  unfold pendCues
  rw [mem_foldl_addCue, List.mem_filter, decide_eq_true_iff]

/-- Settles O36: the turn that begins, by its holder and what it has to send, and the two messages sent. -/
theorem turnsAndSentMessages : Obligations.TurnsAndSentMessages := by
  constructor
  · intro s i b idle hw hs t h silent own
    refine ⟨execTurnStart_last hw hs, fun hi ho => ?_, fun hi ho hc ha => ?_, ?_, ?_⟩
    · rw [execTurnStart_next hw hs hi, beginTurn_other (s := h) ho]
      rfl
    · rw [execTurnStart_next hw hs hi, beginTurn_nothing (s := h) ho hc ha]
      rfl
    · intro q d hi ho hc hq hd bytes
      rw [execTurnStart_next hw hs hi]
      obtain ⟨hbegun, hlate⟩ := beginTurn_message (s := h) ho hq hd (turnMessage_cues (s := h) hc (t + 16))
      exact ⟨fun hg => congrArg Host.Outcome.next (hbegun hg), fun hg => congrArg Host.Outcome.next (hlate hg)⟩
    · intro q d ws p ps x hi ho hc ha hws hp hq hd bytes
      rw [execTurnStart_next hw hs hi]
      obtain ⟨hbegun, hlate⟩ := beginTurn_message (s := h) ho hq hd (turnMessage_oldest (s := h) hc ha hws hp (t + 16))
      exact ⟨fun hg => congrArg Host.Outcome.next (hbegun hg), fun hg => congrArg Host.Outcome.next (hlate hg)⟩
  · refine fun s bytes begins ends => ⟨fun cues hs => ?_, fun hs => ?_⟩
    · exact ⟨_, execMessageSent_cues hs, rfl, rfl, rfl, rfl, fun x => mem_cuesSent_closed, fun x => mem_pendCues_pending,
        rfl, rfl, rfl⟩
    · exact ⟨_, execMessageSent_answer hs, rfl, rfl, rfl, rfl, rfl, rfl, rfl⟩

end Sys2Proof.Machine
end

