-- ==== Sys2Proof/Proofs/ReportSettled.lean ====
section
/-! REPORT_SLOT and REPORT_SENT (R74, R80, R81, R86, R96, R169): the report begun in its slot, and what its end leaves of port,
Roster and followers. -/

set_option Elab.async false

namespace Sys2Proof.Machine

variable {s t u : State} {r : Report} {c : Chan}

/-! ## The report begun (R81) -/

/-- A report is its kind, 42 bytes of body, and the check (R205). -/
theorem FullReport.bytes_length (r : FullReport) : r.bytes.length = 45 := by
  simp [FullReport.bytes, withCheck, leBytes_length]

theorem execReportSlot_begins {x : FullReport} {q : Nat} (hj : s.port.join = .joined) (hw : s.port.window = .slots)
    (hx : s.port.snapshot = some x) (hs : s.port.sending = none) (hq : s.timer.lastPulse = some q) :
    exec .reportSlot s = .next (beginReport q x s) := by
  change execReportSlot s = _
  unfold execReportSlot
  rw [hj, hw, hx, hs, hq]

/-- The report begins 2 µs into slot `n` (R74). -/
theorem slotOpens_begins (q n : Nat) : slotOpens q n + 2 * Config.tick = (q + 40 + 50 * n + 2) * 16 := by
  unfold slotOpens Config.firstSlotAt Config.slotLength Config.tick
  omega

/-! ## What examining a report leaves (R169, R117, R118) -/

/-- Of the port, `t` has at most the outcomes of requests settled since `s` (R86). -/
def SettlesOnly (s t : State) : Prop := t.port = { s.port with
  outcomes := t.port.outcomes, overflow := t.port.overflow, lateOverflow := t.port.lateOverflow }

theorem SettlesOnly.of_port (h : t.port = s.port) : SettlesOnly s t := by
  unfold SettlesOnly
  rw [h]

theorem SettlesOnly.trans (h : SettlesOnly s t) (k : SettlesOnly t u) : SettlesOnly s u := by
  unfold SettlesOnly at *
  rw [h] at k
  exact k

theorem addOutcome_settlesOnly (station seq : Nat) (x : Result) (s : State) : SettlesOnly s (addOutcome station seq x s) := by
  unfold addOutcome
  split <;> rfl

theorem checkArmed_settlesOnly (s : State) : SettlesOnly s (checkArmed s) := by
  have hsame : SettlesOnly s s := .of_port rfl
  unfold checkArmed
  split
  · split
    · refine SettlesOnly.trans ?_ (addOutcome_settlesOnly _ _ _ _)
      exact .of_port rfl
    · exact hsame
  · exact hsame

theorem unwindArm_settlesOnly (a : ArmFlight) (x : Result) (s : State) : SettlesOnly s (unwindArm a x s) := by
  have hrest (u : State) : SettlesOnly u (checkRest u) := .of_port (by simp)
  unfold unwindArm
  refine SettlesOnly.trans ?_ (hrest _)
  refine SettlesOnly.trans ?_ (addOutcome_settlesOnly _ _ _ _)
  exact .of_port (by simp)

theorem examineReport_settlesOnly (r : Report) (c : Chan) (s : State) : SettlesOnly s (examineReport r c s) := by
  have hsame : SettlesOnly s s := .of_port rfl
  unfold examineReport
  split
  · split
    · split
      · exact unwindArm_settlesOnly _ _ _
      · refine SettlesOnly.trans ?_ (checkArmed_settlesOnly _)
        exact .of_port rfl
    · exact hsame
  · exact hsame

/-- The four examinations leave clock, Roster and timer, and settle at most. -/
theorem examined_leaves (r : Report) (s : State) : SettlesOnly s (eachChannel (examineReport r) s) ∧
    (eachChannel (examineReport r) s).clock = s.clock ∧ (eachChannel (examineReport r) s).roster = s.roster := by
  have hsettles (c : Chan) (u : State) := examineReport_settlesOnly r c u
  refine ⟨?_, by simp, by simp⟩
  exact (((hsettles 0 _).trans (hsettles 1 _)).trans (hsettles 2 _)).trans (hsettles 3 _)

/-- Outside SEEKING no follower waits for its leader. -/
theorem examineReport_outside (h : s.take.state ≠ .seeking) (r : Report) (c : Chan) : examineReport r c s = s := by
  have hwaits : s.waitsFor c r.station = none := by
    unfold State.waitsFor
    split
    · rename_i hs _ _ _
      exact absurd hs h
    · rfl
  unfold examineReport
  rw [hwaits]

theorem examined_outside (h : s.take.state ≠ .seeking) (r : Report) : eachChannel (examineReport r) s = s := by
  unfold eachChannel
  simp only [examineReport_outside h]

/-! ## A Roster entry written (R96) -/

theorem rosterWrite_entry (r : Report) (h : r.station < s.roster.entries.length) : (rosterWrite r s).entry r.station =
    { present := true, missed := 0, mark := true, receivedTag := s.timer.tag, report := some r } := by
  unfold State.entry rosterWrite State.setEntry
  simp [List.getD, h]

theorem rosterWrite_entry_ne (r : Report) {n : Nat} (h : n ≠ r.station) : (rosterWrite r s).entry n = s.entry n := by
  unfold State.entry rosterWrite State.setEntry
  simp [List.getD, h.symm]

/-! ## The report's end -/

/-- The port once a report has been sent: its outcomes gone, the overflow flag settled, the read-back judged (R86, R80). -/
def State.reported (s : State) (x : FullReport) (ends : Nat) (mismatch : Bool) : State :=
  { s.atTime ends with port := { s.port with
    sending := none, snapshot := none, window := s.port.window.heard ends,
    outcomes := s.port.outcomes.drop x.outcomes.length,
    overflow := s.port.overflow && !(x.body.overflow && !s.port.lateOverflow),
    duplicateFree := s.port.duplicateFree && !mismatch } }

theorem readBack_reported (s : State) (x : FullReport) (ends : Nat) (mismatch : Bool) :
    readBack mismatch (reportedOutcomes x (endSending ends s)) = s.reported x ends mismatch := by
  unfold State.reported
  cases mismatch <;> simp [readBack, reportedOutcomes, endSending, State.atTime]

/-- While a window is laid out the report goes to the own entry, and to the own followers (log 18, log 30). -/
theorem execReportSent_laidOut {x : FullReport} {bytes : List Byte} {begins ends : Nat} (mismatch : Bool)
    (hs : s.port.sending = some { what := .report x, bytes := bytes, begins := begins, ends := ends })
    (hw : s.port.window ≠ .none) :
    exec (.reportSent mismatch) s = .next (takeReport x.body (s.reported x ends mismatch)) := by
  change execReportSent mismatch s = _
  unfold execReportSent
  rw [hs]
  dsimp only
  rw [if_neg hw, readBack_reported]

/-- Settles O31. -/
theorem reportIsSentInItsSlotAndSettles : Obligations.ReportIsSentInItsSlotAndSettles := by
  refine ⟨fun s x q hj hw hx hs hq => ?_, fun s x bytes begins ends mismatch hs hw hn => ?_,
    fun s x bytes begins ends mismatch hs hw => execReportSent_laidOut mismatch hs hw⟩
  · rw [execReportSlot_begins hj hw hx hs hq, beginReport, sendingFrom, FullReport.bytes_length, slotOpens_begins]
    rfl
  · obtain ⟨hport, hclock, hroster⟩ := examined_leaves x.body (rosterWrite x.body (s.reported x ends mismatch))
    have hentry (n : Nat) : (takeReport x.body (s.reported x ends mismatch)).entry n =
        (rosterWrite x.body (s.reported x ends mismatch)).entry n := by
      rw [State.entry, takeReport, hroster]
      rfl
    refine ⟨_, execReportSent_laidOut mismatch hs hw, hclock, ?_, ?_, ?_, ?_, ?_, fun n h => ?_, fun hseek => ?_⟩
    · rw [takeReport, hport]
      rfl
    · rw [takeReport, hport]
      rfl
    · rw [takeReport, hport]
      rfl
    · rw [takeReport, hport]
      rfl
    · exact (hentry _).trans (rosterWrite_entry x.body hn)
    · exact (hentry n).trans (rosterWrite_entry_ne x.body h)
    · rw [takeReport, examined_outside (s := rosterWrite x.body (s.reported x ends mismatch)) hseek]
      exact ⟨rfl, rfl, rfl, rfl⟩

end Sys2Proof.Machine
end

