-- ==== Sys2Proof/Proofs/BusErrorsRaised.lean ====
section
/-! ANSWER, and the activity that fails R82 (R83, R84, R137, R138): what a bus error latches and whom it names, in a turn, in the
silence, and past the pulse (logs 25, 44). -/

set_option Elab.async false

namespace Sys2Proof.Machine

variable {s : State} {a : Activity} {i b idle q p : Nat}

/-! ## BUS_ERROR raised -/

theorem execBusError_failed (ht : a.began ≤ a.ended) (h : s.admission a = .failed) :
    exec (.busError a) s = .next (busErrorAt a s) := congrArg Host.Outcome.next (if_pos ⟨ht, h⟩)

/-- BUS_ERROR latches in COUNTDOWN, ROLLING and FINISHED alone (R137). -/
theorem raiseCause_busError_flags (s : State) (who : Option Nat) : (raiseCause .busError who none s).holds.flags =
    { s.holds.flags with busError := s.holds.flags.busError || s.take.state.isRunning } := by
  cases hr : s.take.state.isRunning with
  | true =>
    rw [raiseCause_flags (cause := .busError) hr, Bool.or_true]
    rfl
  | false => rw [raiseCause_passed (cause := .busError) hr, Bool.or_false]

/-- A bus error that station `who` is named for leaves this state `t` (R83, R138). -/
structure State.BusErrorRaised (s t : State) (a : Activity) (who : Option Nat) : Prop where
  exec : exec (.busError a) s = .next t
  channels : t.channels = s.channels
  take : t.take = s.take
  roster : t.roster = s.roster
  outcomes : t.port.outcomes = s.port.outcomes
  clock : t.clock = max s.clock a.ended
  flags : t.holds.flags = { s.holds.flags with busError := s.holds.flags.busError || s.take.state.isRunning }
  names : s.take.state.isRunning = true → s.holds.flags.any = false →
    t.holds.first = some .busError ∧ t.holds.concerned = who

/-- Failed activity raises BUS_ERROR, naming the station whose turn it ended in. -/
theorem busErrorRaised (ht : a.began ≤ a.ended) (h : s.admission a = .failed) :
    s.BusErrorRaised (busErrorAt a s) a (s.turnHolder a.ended) := by
  obtain ⟨hclock, -, hport, hroster, htake, -⟩ := raiseCause_frame .busError (s.turnHolder a.ended) none (s.heard a)
  refine ⟨execBusError_failed ht h, raiseCause_channels _ _ _ _, htake, hroster, ?_, hclock,
    raiseCause_busError_flags (s.heard a) _, fun hr hany => ?_⟩
  · rw [busErrorAt, hport]
    rfl
  · rw [busErrorAt, raiseCause_fills (cause := .busError) (s := s.heard a) hr hany]
    exact ⟨rfl, rfl⟩

/-! ## What fails (R82, R83) -/

/-- A message of the report's kind is no traffic. -/
theorem isSound_report (h : a.kind? = some 0x30) : isSound a = false := by
  rw [isSound, h]
  exact Bool.and_false _

/-- What began in the open window of the frame and fails is a bus error. -/
theorem failing_inOpenWindow (h : s.inOpenWindow a.began = true) : s.failing a = .failed := by
  rw [State.failing, h, Bool.true_or]
  rfl

theorem admission_turn (hj : s.port.join = .joined) (hw : s.port.window = .turn i b idle) : s.admission a =
    if b ≤ a.began ∧ s.inOpenWindow a.began = true ∧ isSound a = true ∧ senderOf a.bytes = s.holder i then .valid
    else s.failing a := by
  unfold State.admission
  rw [if_pos hj, hw]

/-- In a turn: begun before it, of the report's kind, unsound, or from a station not holding it. -/
theorem admission_turn_failed (hj : s.port.join = .joined) (hw : s.port.window = .turn i b idle)
    (hopen : s.inOpenWindow a.began = true)
    (h : a.began < b ∨ a.kind? = some 0x30 ∨ isSound a = false ∨ senderOf a.bytes ≠ (s.timer.tag + i) % 16) :
    s.admission a = .failed := by
  rw [admission_turn hj hw, if_neg, failing_inOpenWindow hopen]
  rintro ⟨hbegan, -, hsound, hsender⟩
  rcases h with h | h | h | h
  · exact Nat.not_lt.mpr hbegan h
  · exact Bool.false_ne_true ((isSound_report h).symm.trans hsound)
  · exact Bool.false_ne_true (h.symm.trans hsound)
  · exact h hsender

/-- In the silence every activity of the open window fails. -/
theorem admission_silence_failed (hj : s.port.join = .joined) (hw : s.port.window = .silence)
    (hopen : s.inOpenWindow a.began = true) : s.admission a = .failed := by
  unfold State.admission
  rw [if_pos hj, hw]
  exact failing_inOpenWindow hopen

/-- In the slots: what began in the window that the pulse ended, and not soundly in its sender's turn (log 44). -/
theorem admission_slots_failed {w : EndedWindow} (hj : s.port.join = .joined) (hw : s.port.window = .slots)
    (he : s.port.ended = some w) (hin : w.has a.began = true)
    (h : a.kind? = some 0x30 ∨ isSound a = false ∨
      ∀ x, w.turn = some x → a.began < x.began ∨ senderOf a.bytes ≠ x.holder) : s.admission a = .failed := by
  rw [admission_inSlots hj hw, if_neg, if_pos ((beganInEnded_of he).trans hin)]
  rintro ⟨hturn, hsound⟩
  rcases h with h | h | h
  · exact Bool.false_ne_true ((isSound_report h).symm.trans hsound)
  · exact Bool.false_ne_true (h.symm.trans hsound)
  · rw [State.beganInEndedTurn, he, Option.any_some, Bool.and_eq_true, Option.any_eq_true] at hturn
    obtain ⟨-, x, hx, hholder⟩ := hturn
    rw [Bool.and_eq_true, decide_eq_true_iff, decide_eq_true_iff] at hholder
    rcases h x hx with h | h
    · exact Nat.not_lt.mpr hholder.1 h
    · exact h hholder.2

/-! ## Whom a bus error names (R138, log 25) -/

theorem turnHolder_turn (hw : s.port.window = .turn i b idle) (hq : s.timer.lastPulse = some q)
    (hp : s.timer.period = some p) (x : Nat) :
    s.turnHolder x = if x ≤ (q + p - 200) * 16 then some ((s.timer.tag + i) % 16) else none := by
  unfold State.turnHolder
  rw [hw]
  simp only [beforeGuard_iff hq hp]
  rfl

theorem turnHolder_outside (hw : s.port.window = .slots ∨ s.port.window = .silence) (x : Nat) : s.turnHolder x = none := by
  unfold State.turnHolder
  rcases hw with hw | hw <;> rw [hw]

/-! ## A report outside the slots (R83) -/

/-- Outside the slots a report that fails is a bus error as any other activity. -/
theorem execReportArrival_failed (ht : a.began ≤ a.ended) (hw : s.port.window ≠ .slots) (h : s.admission a = .failed) :
    exec (.reportArrival a) s = exec (.busError a) s := by
  have hnone : s.slotReport a = none := by
    unfold State.slotReport
    split
    · exact absurd ‹_› hw
    · rfl
  rw [execBusError_failed ht h]
  change execReportArrival a s = _
  unfold execReportArrival receive
  rw [hnone, h, if_pos ht]

/-- Settles O30: each case is a failed admission, and the station its bus error names. -/
theorem answersAndFailedActivity : Obligations.AnswersAndFailedActivity := by
  refine fun s a => ⟨fun hk hv => congrArg Host.Outcome.next (receiveKind_valid _ hk hv), ?_⟩
  intro ht hj raised report
  have hraises {who : Option Nat} (h : s.admission a = .failed) (hwho : s.turnHolder a.ended = who) : ∃ t, raised t who := by
    obtain ⟨hexec, hchannels, htake, hroster, houtcomes, hclock, hflags, hnames⟩ := busErrorRaised ht h
    rw [hwho] at hnames
    exact ⟨_, hexec, hchannels, htake, hroster, houtcomes, hclock, hflags, hnames⟩
  refine ⟨fun i b idle q p hw hq hp hopen h => ?_, fun hw hopen => ?_, fun hreport hw hopen => ?_,
    fun w hw he hopens hcloses h => ?_⟩
  · exact hraises (admission_turn_failed hj hw hopen h) (turnHolder_turn hw hq hp _)
  · exact hraises (admission_silence_failed hj hw hopen) (turnHolder_outside (.inr hw) _)
  · rcases hw with hw | ⟨i, b, idle, hw⟩
    · exact execReportArrival_failed ht (by rw [hw]; decide) (admission_silence_failed hj hw hopen)
    · exact execReportArrival_failed ht (by rw [hw]; exact fun h => nomatch h)
        (admission_turn_failed hj hw hopen (.inr (.inl hreport)))
  · have hin := (w.has_iff a.began).mpr ⟨hopens, hcloses⟩
    exact hraises (admission_slots_failed hj hw he hin h) (turnHolder_outside (.inl hw) _)

end Sys2Proof.Machine
end

