-- ==== Sys2Proof/Proofs/RosterJudged.lean ====
section
/-! The Roster at round close: ageing (R98), the members missing, disagreeing and slipping (R99, R102), roll-ready and
all-finished (R104), the causes handed over (R103), and the tag of the lowest-numbered station heard (R78, R101). -/

set_option Elab.async false

namespace Sys2Proof.Machine

variable {s : State} {n : Nat} {own r : Report}

/-! ## Sets of stations -/

theorem mem_stationsWhere {p : Nat → Bool} : n ∈ stationsWhere p ↔ n < 16 ∧ p n = true := by
  rw [stationsWhere, List.mem_filter, List.mem_range]

theorem stationsWhere_sorted (p : Nat → Bool) : (stationsWhere p).Pairwise (· < ·) :=
  List.Pairwise.filter _ List.pairwise_lt_range

/-- The lowest-numbered station of a set. -/
theorem head?_stationsWhere {p : Nat → Bool} (hn : n < 16) (hp : p n = true) (hlow : ∀ m < n, p m = false) :
    (stationsWhere p).head? = some n := by
  rw [stationsWhere, List.head?_filter, List.find?_range_eq_some]
  exact ⟨hp, List.mem_range.mpr hn, fun m hm => by rw [hlow m hm]; rfl⟩

theorem stationsWhere_empty {p : Nat → Bool} (h : ∀ m < 16, p m = false) : stationsWhere p = [] :=
  List.filter_eq_nil_iff.mpr fun m hm => by rw [h m (List.mem_range.mp hm)]; exact Bool.false_ne_true

/-! ## Ageing (R98) -/

theorem RosterEntry.aged_marked {e : RosterEntry} (h : e.mark = true) : e.aged = e := if_pos h

theorem RosterEntry.aged_unmarked {e : RosterEntry} (h : e.mark = false) : e.aged =
    { e with missed := min (e.missed + 1) 8, present := e.present && decide (e.missed + 1 < 8) } := by
  have hmin : min (e.missed + 1) 8 < 8 ↔ e.missed + 1 < 8 := by omega
  unfold RosterEntry.aged
  rw [if_neg (by rw [h]; exact Bool.false_ne_true)]
  simp only [hmin]

@[simp] theorem RosterEntry.aged_mark (e : RosterEntry) : e.aged.mark = e.mark := by
  unfold RosterEntry.aged
  split <;> rfl

@[simp] theorem RosterEntry.aged_report (e : RosterEntry) : e.aged.report = e.report := by
  unfold RosterEntry.aged
  split <;> rfl

theorem ageEntries_entry (h : n < s.roster.entries.length) : (ageEntries s).entry n = (s.entry n).aged := by
  unfold State.entry ageEntries
  rw [List.getD_eq_getElem _ _ (by rwa [List.length_map]), List.getD_eq_getElem _ _ h, List.getElem_map]

theorem ageEntries_noEntry (h : s.roster.entries.length ≤ n) : (ageEntries s).entry n = s.entry n := by
  unfold State.entry ageEntries
  rw [List.getD_eq_default _ _ (by rwa [List.length_map]), List.getD_eq_default _ _ h]

@[simp] theorem ageEntries_mark (s : State) (n : Nat) : ((ageEntries s).entry n).mark = (s.entry n).mark := by
  rcases Nat.lt_or_ge n s.roster.entries.length with h | h
  · rw [ageEntries_entry h, RosterEntry.aged_mark]
  · rw [ageEntries_noEntry h]

@[simp] theorem ageEntries_report (s : State) (n : Nat) : ((ageEntries s).entry n).report = (s.entry n).report := by
  rcases Nat.lt_or_ge n s.roster.entries.length with h | h
  · rw [ageEntries_entry h, RosterEntry.aged_report]
  · rw [ageEntries_noEntry h]

/-! Judging looks at marks and reports, which ageing leaves. -/

theorem ageEntries_missingMembers (s : State) : (ageEntries s).missingMembers = s.missingMembers := by
  simp only [State.missingMembers, ageEntries_mark]
  rfl

theorem ageEntries_memberFails (s : State) (p : Report → Report → Bool) :
    (ageEntries s).memberFails p = s.memberFails p := by
  funext n
  simp only [State.memberFails, ageEntries_mark, ageEntries_report]
  rfl

theorem ageEntries_disagreeingMembers (s : State) : (ageEntries s).disagreeingMembers = s.disagreeingMembers :=
  congrArg stationsWhere (ageEntries_memberFails s _)

theorem ageEntries_slippingMembers (s : State) : (ageEntries s).slippingMembers = s.slippingMembers :=
  congrArg stationsWhere (ageEntries_memberFails s _)

theorem ageEntries_everyMember (s : State) (p : Report → Bool) : (ageEntries s).everyMember p = s.everyMember p := by
  simp only [State.everyMember, ageEntries_mark, ageEntries_report]
  rfl

theorem ageEntries_rollReady (s : State) : (ageEntries s).rollReady = s.rollReady := by
  simp only [State.rollReady, ageEntries_everyMember, ageEntries_report]
  rfl

theorem ageEntries_allFinished (s : State) : (ageEntries s).allFinished = s.allFinished := by
  simp only [State.allFinished, ageEntries_everyMember, ageEntries_missingMembers, ageEntries_disagreeingMembers,
    ageEntries_slippingMembers]
  rfl

theorem ageEntries_handedCauses (s : State) : (ageEntries s).handedCauses = s.handedCauses := by
  simp only [State.handedCauses, ageEntries_take, ageEntries_missingMembers, ageEntries_disagreeingMembers,
    ageEntries_slippingMembers]

theorem ageEntries_lowestTag (s : State) : (ageEntries s).lowestTag = s.lowestTag := by
  simp only [State.lowestTag, ageEntries_mark, ageEntries_report]

/-- Of the summary, ageing decides who is present. -/
theorem ageEntries_judged (s : State) : (ageEntries s).judged =
    { s.judged with present := stationsWhere fun n => ((ageEntries s).entry n).present } := by
  simp only [State.judged, ageEntries_mark, ageEntries_missingMembers, ageEntries_disagreeingMembers,
    ageEntries_slippingMembers, ageEntries_rollReady, ageEntries_allFinished, ageEntries_handedCauses]
  rfl

/-! ## Members judged (R99, R102) -/

/-- Station `n` is a member of the take other than this station. -/
def State.IsJudged (s : State) (n : Nat) : Prop := n < 16 ∧ s.take.id ≠ 0 ∧ s.take.mask.contains n = true ∧ n ≠ s.station

theorem State.IsJudged.station (h : s.IsJudged n) : n < 16 := h.1

theorem State.IsJudged.inTake (h : s.IsJudged n) : s.take.id ≠ 0 := h.2.1

theorem judges_iff (hn : n < 16) : s.judges n = true ↔ s.IsJudged n := by
  simp only [State.judges, State.IsJudged, Bool.and_eq_true, decide_eq_true_iff, hn, true_and, and_assoc]

theorem mem_missingMembers : n ∈ s.missingMembers ↔ s.IsJudged n ∧ (s.entry n).mark = false := by
  rw [State.missingMembers, mem_stationsWhere, Bool.and_eq_true, Bool.not_eq_true']
  constructor
  · rintro ⟨hn, hjudged, hmark⟩
    exact ⟨(judges_iff hn).mp hjudged, hmark⟩
  · rintro ⟨hjudged, hmark⟩
    exact ⟨hjudged.station, (judges_iff hjudged.station).mpr hjudged, hmark⟩

/-- Only a member judged and heard in the round fails a comparison. -/
theorem memberFails_mem {p : Report → Report → Bool} :
    n ∈ stationsWhere (s.memberFails p) → s.IsJudged n ∧ (s.entry n).mark = true := by
  rw [mem_stationsWhere, State.memberFails, Bool.and_eq_true, Bool.and_eq_true]
  rintro ⟨hn, ⟨hjudged, hmark⟩, -⟩
  exact ⟨(judges_iff hn).mp hjudged, hmark⟩

theorem memberFails_mem_iff {p : Report → Report → Bool} (hown : (s.entry s.station).report = some own)
    (hr : (s.entry n).report = some r) :
    n ∈ stationsWhere (s.memberFails p) ↔ s.IsJudged n ∧ (s.entry n).mark = true ∧ p own r = true := by
  rw [mem_stationsWhere, State.memberFails, hown, hr, Bool.and_eq_true, Bool.and_eq_true]
  constructor
  · rintro ⟨hn, ⟨hjudged, hmark⟩, hp⟩
    exact ⟨(judges_iff hn).mp hjudged, hmark, hp⟩
  · rintro ⟨hjudged, hmark, hp⟩
    exact ⟨hjudged.station, ⟨(judges_iff hjudged.station).mpr hjudged, hmark⟩, hp⟩

theorem TakeState.isRunning_iff (st : TakeState) : st.isRunning = true ↔ st = .countdown ∨ st = .rolling ∨ st = .finished := by
  cases st <;> decide

theorem State.missingMembers_sorted (s : State) : s.missingMembers.Pairwise (· < ·) := stationsWhere_sorted _

theorem State.disagreeingMembers_sorted (s : State) : s.disagreeingMembers.Pairwise (· < ·) := stationsWhere_sorted _

theorem State.slippingMembers_sorted (s : State) : s.slippingMembers.Pairwise (· < ·) := stationsWhere_sorted _

/-- The member states that agree while this station is COUNTDOWN, ROLLING or FINISHED, by their code (R102). -/
def TakeState.Allows (own : TakeState) (member : Nat) : Prop :=
  (own = .countdown ∧ member = 4) ∨ ((own = .rolling ∨ own = .finished) ∧ (member = 5 ∨ member = 6))

theorem memberStateAllowed_running {st : TakeState} (h : st.isRunning = true) (member : Nat) :
    memberStateAllowed st member = true ↔ st.Allows member := by
  rcases (TakeState.isRunning_iff st).mp h with rfl | rfl | rfl <;>
    simp only [memberStateAllowed, Bool.or_eq_true, decide_eq_true_iff] <;> simp [TakeState.Allows, TakeState.code]

/-- Equal states agree (log 9). -/
theorem memberStateAllowed_same {st : TakeState} (h : st.isRunning = false) : memberStateAllowed st st.code = true := by
  cases st with
  | countdown | rolling | finished => exact nomatch h
  | safe | idle | seeking | armed | stopping | held => simp [memberStateAllowed]

theorem agrees_running {st : TakeState} (h : st.isRunning = true) :
    agrees st own r = true ↔ r.takeId = own.takeId ∧ st.Allows r.takeState := by
  rw [agrees, Bool.and_eq_true, decide_eq_true_iff, memberStateAllowed_running h]

theorem slips_running {st : TakeState} (h : st.isRunning = true) : slips st own r = true ↔
    r.tag ≠ own.tag ∨ (r.takeId = own.takeId ∧ st.Allows r.takeState ∧ r.frame ≠ own.frame) := by
  rw [slips, h, Bool.true_and, Bool.or_eq_true, Bool.and_eq_true, agrees_running h, decide_eq_true_iff, decide_eq_true_iff,
    and_assoc]

theorem slips_standing {st : TakeState} (h : st.isRunning = false) : slips st own r = true ↔ r.tag ≠ own.tag := by
  rw [slips, h, Bool.false_and, Bool.false_and, Bool.or_false, decide_eq_true_iff]

theorem mem_disagreeing_running (h : s.take.state.isRunning = true) (hown : (s.entry s.station).report = some own)
    (hr : (s.entry n).report = some r) : n ∈ s.disagreeingMembers ↔
      s.IsJudged n ∧ (s.entry n).mark = true ∧ (r.takeId ≠ own.takeId ∨ ¬s.take.state.Allows r.takeState) := by
  rw [State.disagreeingMembers, memberFails_mem_iff hown hr, Bool.not_eq_true', ← Bool.not_eq_true, agrees_running h,
    not_and_or]

/-- Outside COUNTDOWN, ROLLING and FINISHED another take disagrees, and the same take in the same state agrees. -/
theorem mem_disagreeing_standing (h : s.take.state.isRunning = false) (hown : (s.entry s.station).report = some own)
    (hr : (s.entry n).report = some r) :
    (s.IsJudged n → (s.entry n).mark = true → r.takeId ≠ own.takeId → n ∈ s.disagreeingMembers) ∧
    (r.takeId = own.takeId → r.takeState = s.take.state.code → n ∉ s.disagreeingMembers) := by
  rw [State.disagreeingMembers, memberFails_mem_iff hown hr]
  refine ⟨fun hjudged hmark hid => ⟨hjudged, hmark, ?_⟩, fun hid hstate => ?_⟩
  · rw [agrees, decide_eq_false hid]
    rfl
  · rintro ⟨-, -, hfails⟩
    rw [agrees, decide_eq_true hid, hstate, memberStateAllowed_same h] at hfails
    exact nomatch hfails

/-! ## Roll-ready and all-finished (R104) -/

/-- Every member of the current take is heard in the round, and its report satisfies `p`. -/
def State.AllMembers (s : State) (p : Report → Prop) : Prop :=
  s.take.id ≠ 0 ∧ ∀ n ∈ s.take.mask, (s.entry n).mark = true ∧ ∃ r, (s.entry n).report = some r ∧ p r

theorem everyMember_iff {p : Report → Bool} {P : Report → Prop} (h : ∀ r, p r = true ↔ P r) :
    s.everyMember p = true ↔ s.AllMembers P := by
  have hreport (n : Nat) : (match (s.entry n).report with | some r => p r | none => false) = true ↔
      ∃ r, (s.entry n).report = some r ∧ P r := by
    cases (s.entry n).report with
    | none => simp
    | some r => simp [h]
  simp only [State.everyMember, State.AllMembers, Bool.and_eq_true, decide_eq_true_iff, List.all_eq_true]
  exact and_congr_right fun _ => forall₂_congr fun n _ => and_congr_right fun _ => hreport n

theorem rollReady_iff : s.rollReady = true ↔ ∃ own, (s.entry s.station).report = some own ∧ s.AllMembers fun r =>
    r.takeState = 3 ∧ r.takeId = s.take.id ∧ r.frame = s.take.s ∧ r.tag = own.tag := by
  unfold State.rollReady
  cases hown : (s.entry s.station).report with
  | none => simp
  | some own =>
    dsimp only
    rw [everyMember_iff (P := fun r => r.takeState = TakeState.armed.code ∧ r.takeId = s.take.id ∧ r.frame = s.take.s ∧
      r.tag = own.tag) fun r => by simp only [Bool.and_eq_true, decide_eq_true_iff, and_assoc]]
    exact ⟨fun h => ⟨own, rfl, h⟩, fun ⟨_, ho, h⟩ => by cases ho; exact h⟩

theorem allFinished_iff : s.allFinished = true ↔ (s.AllMembers fun r => r.takeState = 6 ∧ r.takeId = s.take.id) ∧
    s.missingMembers = [] ∧ s.disagreeingMembers = [] ∧ s.slippingMembers = [] := by
  rw [State.allFinished, Bool.and_eq_true, Bool.and_eq_true, Bool.and_eq_true, List.isEmpty_iff, List.isEmpty_iff,
    List.isEmpty_iff, and_assoc, and_assoc,
    everyMember_iff (P := fun r => r.takeState = TakeState.finished.code ∧ r.takeId = s.take.id)
      fun r => by rw [Bool.and_eq_true, decide_eq_true_iff, decide_eq_true_iff]]
  rfl

/-! ## The causes handed over (R103) -/

/-- The station a cause of the Roster names: the lowest-numbered one it holds for. -/
def State.named (s : State) : Cause → Option Nat
  | .memberMissing => s.missingMembers.head?
  | .disagree => s.disagreeingMembers.head?
  | _ => s.slippingMembers.head?

theorem handedCauses_standing (h : s.take.state.isRunning = false) : s.handedCauses = [] :=
  if_neg (by rw [h]; exact Bool.false_ne_true)

theorem handedCauses_running (h : s.take.state.isRunning = true) : s.handedCauses =
    (if s.missingMembers.isEmpty then [] else [(Cause.memberMissing, s.missingMembers.head?)]) ++
      (if s.disagreeingMembers.isEmpty then [] else [(Cause.disagree, s.disagreeingMembers.head?)]) ++
      (if s.slippingMembers.isEmpty then [] else [(Cause.slip, s.slippingMembers.head?)]) := if_pos h

/-- A cause handed over is one of the Roster's three, and holds for some member. -/
theorem mem_handedCauses {x : Cause × Option Nat} (h : x ∈ s.handedCauses) :
    s.take.state.isRunning = true ∧ x.2 = s.named x.1 ∧
      (x.1 = .memberMissing ∧ s.missingMembers ≠ [] ∨ x.1 = .disagree ∧ s.disagreeingMembers ≠ [] ∨
        x.1 = .slip ∧ s.slippingMembers ≠ []) := by
  cases hrun : s.take.state.isRunning with
  | false =>
    rw [handedCauses_standing hrun] at h
    exact absurd h List.not_mem_nil
  | true =>
    rw [handedCauses_running hrun, List.mem_append, List.mem_append, List.mem_ite_nil_left, List.mem_ite_nil_left,
      List.mem_ite_nil_left, List.mem_singleton, List.mem_singleton, List.mem_singleton, List.isEmpty_iff, List.isEmpty_iff,
      List.isEmpty_iff] at h
    rcases h with (⟨hsome, rfl⟩ | ⟨hsome, rfl⟩) | ⟨hsome, rfl⟩
    · exact ⟨rfl, rfl, .inl ⟨rfl, hsome⟩⟩
    · exact ⟨rfl, rfl, .inr (.inl ⟨rfl, hsome⟩)⟩
    · exact ⟨rfl, rfl, .inr (.inr ⟨rfl, hsome⟩)⟩

theorem handedCauses_latchIn {x : Cause × Option Nat} (h : x ∈ s.handedCauses) : x.1.latchesIn s.take.state = true := by
  obtain ⟨hrun, -, hcause⟩ := mem_handedCauses h
  rcases hcause with ⟨hx, -⟩ | ⟨hx, -⟩ | ⟨hx, -⟩ <;> rw [hx] <;> exact hrun

/-- A cause is handed over for a member, so there is a take. -/
theorem handedCauses_inTake {x : Cause × Option Nat} (h : x ∈ s.handedCauses) : s.take.id ≠ 0 := by
  obtain ⟨-, -, hcause⟩ := mem_handedCauses h
  rcases hcause with ⟨-, hsome⟩ | ⟨-, hsome⟩ | ⟨-, hsome⟩ <;> obtain ⟨n, hn⟩ := List.exists_mem_of_ne_nil _ hsome
  · exact (mem_missingMembers.mp hn).1.inTake
  · exact (memberFails_mem hn).1.inTake
  · exact (memberFails_mem hn).1.inTake

/-- The causes of the summary, by the members they hold for. -/
theorem handedCauses_map (h : s.take.state.isRunning = true) : (s.handedCauses.map fun x => x.1) =
    (if s.missingMembers = [] then [] else [Cause.memberMissing]) ++
      (if s.disagreeingMembers = [] then [] else [Cause.disagree]) ++
      (if s.slippingMembers = [] then [] else [Cause.slip]) := by
  rw [handedCauses_running h, List.map_append, List.map_append]
  simp only [List.isEmpty_iff, apply_ite (List.map fun x : Cause × Option Nat => x.1), List.map_nil, List.map_singleton]

/-! ## The causes raised (R103, R137, R138) -/

theorem raiseAll_cons (x : Cause × Option Nat) (cs : List (Cause × Option Nat)) (s : State) :
    raiseAll (x :: cs) s = raiseAll cs (raiseCause x.1 x.2 none s) := rfl

/-- Causes raised to a record that holds one already join its flags. -/
theorem raiseAll_joins {cs : List (Cause × Option Nat)} (hcs : ∀ x ∈ cs, x.1.latchesIn s.take.state = true)
    (hany : s.holds.flags.any = true) : (raiseAll cs s).holds =
      { s.holds with flags := cs.foldl (fun f x => f.latch x.1) s.holds.flags } := by
  induction cs generalizing s with
  | nil => rfl
  | cons x cs ih =>
    have hx := raiseCause_joins (hcs x List.mem_cons_self) hany x.2 none
    have htake : (raiseCause x.1 x.2 none s).take = s.take := by simp only [raiseCause_frame]
    rw [raiseAll_cons, ih, hx]
    · rfl
    · rw [htake]
      exact fun y hy => hcs y (List.mem_cons_of_mem x hy)
    · rw [hx]
      exact CauseFlags.latch_any _ _

/-- The first of the causes raised to an empty record fills it. -/
theorem raiseAll_fills {x : Cause × Option Nat} {cs : List (Cause × Option Nat)}
    (hcs : ∀ y ∈ x :: cs, y.1.latchesIn s.take.state = true) (hany : s.holds.flags.any = false) :
    (raiseAll (x :: cs) s).holds =
      { flags := (x :: cs).foldl (fun f y => f.latch y.1) s.holds.flags,
        first := some x.1, sub := s.causeSubBeat, concerned := x.2, kind := none } := by
  have hx := raiseCause_fills (hcs x List.mem_cons_self) hany x.2 none
  have htake : (raiseCause x.1 x.2 none s).take = s.take := by simp only [raiseCause_frame]
  rw [raiseAll_cons, raiseAll_joins, hx]
  · rfl
  · rw [htake]
    exact fun y hy => hcs y (List.mem_cons_of_mem x hy)
  · rw [hx]
    exact CauseFlags.latch_any _ _

theorem raiseAll_flags {cs : List (Cause × Option Nat)} (hcs : ∀ x ∈ cs, x.1.latchesIn s.take.state = true) :
    (raiseAll cs s).holds.flags = cs.foldl (fun f x => f.latch x.1) s.holds.flags := by
  cases cs with
  | nil => rfl
  | cons x cs =>
    cases hany : s.holds.flags.any with
    | true => rw [raiseAll_joins hcs hany]
    | false => rw [raiseAll_fills hcs hany]

theorem raiseAll_channels (cs : List (Cause × Option Nat)) (s : State) : (raiseAll cs s).channels = s.channels :=
  foldl_same _ (fun s x => raiseCause x.1 x.2 none s) (fun s x => raiseCause_channels s x.1 x.2 none) cs s

/-- The flags that the causes handed over latch. -/
theorem handedCauses_flags (h : s.take.state.isRunning = true) (f : CauseFlags) :
    s.handedCauses.foldl (fun f x => f.latch x.1) f = { f with
      memberMissing := f.memberMissing || decide (s.missingMembers ≠ []),
      disagree := f.disagree || decide (s.disagreeingMembers ≠ []),
      slip := f.slip || decide (s.slippingMembers ≠ []) } := by
  rw [handedCauses_running h, List.foldl_append, List.foldl_append]
  cases s.missingMembers <;> cases s.disagreeingMembers <;> cases s.slippingMembers <;> simp [CauseFlags.latch]

/-! ## The tag of the lowest-numbered station heard (R78, R101) -/

theorem lowestTag_heard (hn : n < 16) (hmark : (s.entry n).mark = true) (hlow : ∀ m < n, (s.entry m).mark = false)
    (hr : (s.entry n).report = some r) : s.lowestTag = some r.tag := by
  rw [State.lowestTag, head?_stationsWhere hn hmark hlow]
  dsimp only
  rw [hr]
  rfl

theorem lowestTag_silent (h : ∀ n < 16, (s.entry n).mark = false) : s.lowestTag = none := by
  rw [State.lowestTag, stationsWhere_empty h]
  rfl

end Sys2Proof.Machine
end

