-- ==== Sys2Proof/Proofs/RoundsClosed.lean ====
section
/-! ROUND_CLOSE (R98 to R104, R78, R127, R171) and turn 0 (R75, log 16): what the whole round close does to each part of the
state. JOINED and ENTRY_ABSENT, which are round closes (log 3). -/

set_option Elab.async false

namespace Sys2Proof.Machine

variable {s : State} {q n i t count : Nat} {heard : Bool} {r : Report}

/-! ## A turn's beginning leaves the rest of the port -/

theorem beginTurn_port (i t : Nat) (s : State) : (beginTurn i t s).port = { s.port with
    window := .turn i t t, answers := (beginTurn i t s).port.answers, sending := (beginTurn i t s).port.sending } := by
  by_cases ho : s.ownsTurn i
  · rw [beginTurn_own ho]
    unfold sendInTurn
    split
    · split <;> rfl
    · rfl
  · rw [beginTurn_other ho]
    rfl

theorem beginTurn_channels (i t : Nat) (s : State) : (beginTurn i t s).channels = s.channels := by
  by_cases ho : s.ownsTurn i
  · rw [beginTurn_own ho]
    unfold sendInTurn
    split
    · split <;> rfl
    · rfl
  · rw [beginTurn_other ho]
    rfl

/-- The own turn and what it sends (R74, R75, R76). -/
theorem beginTurn_ownTurn {d : Nat} (ho : s.ownsTurn i) (hq : s.timer.lastPulse = some q) (hd : s.timer.period = some d)
    (t : Nat) : s.port.OwnTurn (beginTurn i t s).port s.station t ((q + d - 200) * 16) where
  cues hc := by
    obtain ⟨hbegun, hlate⟩ := beginTurn_message (t := t) ho hq hd (turnMessage_cues hc (t + 16))
    exact ⟨fun hg => by rw [hbegun hg]; exact ⟨rfl, rfl⟩, fun hg => by rw [hlate hg]; exact ⟨rfl, rfl⟩⟩
  silence hc ha := by
    rw [beginTurn_nothing ho hc ha]
    exact ⟨rfl, rfl⟩
  answer ws a ps x hc ha hws hx := by
    obtain ⟨hbegun, hlate⟩ := beginTurn_message (t := t) ho hq hd (turnMessage_oldest hc ha hws hx (t + 16))
    exact ⟨fun hg => by rw [hbegun hg]; exact ⟨rfl, rfl⟩, fun hg => by rw [hlate hg]; exact ⟨rfl, rfl⟩⟩

/-! ## The tag settled (R78, R101) -/

theorem realign_running (h : s.take.state.isRunning = true) : realign s = s := if_pos h

theorem realign_standing (h : s.take.state.isRunning = false) :
    (realign s).timer = { s.timer with tag := s.lowestTag.getD s.timer.tag } := by
  unfold realign
  rw [if_neg (by rw [h]; exact Bool.false_ne_true)]
  cases s.lowestTag <;> rfl

theorem listenRound_adopts {g : Nat} (h : s.lowestTag = some g) : (listenRound count heard s).timer.tag = g := by
  unfold listenRound
  rw [h]
  dsimp only
  split <;> rfl

/-- With no station heard the tag stands, but for the fourth of four silent rounds. -/
theorem listenRound_silent (h : s.lowestTag = none) : (listenRound count heard s).timer.tag =
    if count + 1 = 4 ∧ heard = false then 0 else s.timer.tag := by
  unfold listenRound
  rw [h]
  dsimp only
  split <;> split <;> rfl

theorem listenRound_counts (h : count < 3) (heard : Bool) (s : State) :
    (listenRound count heard s).port.join = .listening (count + 1) (heard || s.lowestTag.isSome) := by
  unfold listenRound
  dsimp only
  rw [if_neg (by omega)]

theorem listenRound_joins (heard : Bool) (s : State) : (listenRound 3 heard s).port.join = .joined ∧
    (listenRound 3 heard s).port.duplicateFree = true := ⟨rfl, rfl⟩

/-- Realigning and adopting touch the tag alone of the timer, the joining alone of the port, and no other state. -/
theorem listenRound_eq (count : Nat) (heard : Bool) (s : State) : listenRound count heard s = { s with
    timer := { s.timer with tag := (listenRound count heard s).timer.tag },
    port := { s.port with
      join := (listenRound count heard s).port.join, duplicateFree := (listenRound count heard s).port.duplicateFree } } := by
  unfold listenRound
  cases s.lowestTag with
  | none => dsimp only; split <;> split <;> rfl
  | some g => dsimp only; split <;> rfl

theorem realign_eq (s : State) : realign s = { s with
    timer := { s.timer with tag := (realign s).timer.tag },
    port := { s.port with join := (realign s).port.join, duplicateFree := (realign s).port.duplicateFree } } := by
  unfold realign
  split
  · rfl
  · split <;> rfl

theorem settleTag_joined (h : s.port.join = .joined) : settleTag s = realign s := by
  unfold settleTag
  rw [h]

theorem settleTag_listening (h : s.port.join = .listening count heard) : settleTag s = listenRound count heard s := by
  unfold settleTag
  rw [h]

theorem settleTag_eq (s : State) : settleTag s = { s with
    timer := { s.timer with tag := (settleTag s).timer.tag },
    port := { s.port with join := (settleTag s).port.join, duplicateFree := (settleTag s).port.duplicateFree } } := by
  unfold settleTag
  cases s.port.join with
  | listening count heard => exact listenRound_eq count heard s
  | joined => exact realign_eq s
  | unjoined => rfl
  | duplicate => rfl

theorem settleTag_channels (s : State) : (settleTag s).channels = s.channels := (congrArg State.channels (settleTag_eq s) :)

/-! ## The round judged (R98 to R100, R103, R171) -/

/-- The round's summary written and the leader-done counts raised, before the causes are handed over. -/
def State.counted (s : State) : State := eachChannel countLeaderDone (writeSummary (ageEntries s))

theorem judgeRound_eq (s : State) : judgeRound s = raiseAll s.handedCauses s.counted := by
  rw [← ageEntries_handedCauses]
  rfl

theorem counted_take (s : State) : s.counted.take = s.take :=
  eachChannel_take countLeaderDone _ fun c s => by simp only [countLeaderDone_frame]

theorem counted_holds (s : State) : s.counted.holds = s.holds :=
  eachChannel_holds countLeaderDone _ fun c s => by simp only [countLeaderDone_frame]

theorem counted_roster (s : State) : s.counted.roster =
    { entries := s.roster.entries.map RosterEntry.aged, summary := (ageEntries s).judged } :=
  eachChannel_roster countLeaderDone _ fun c s => by simp only [countLeaderDone_frame]

theorem counted_subBeats (s : State) : s.counted.subBeats = s.subBeats :=
  eachChannel_same State.subBeats countLeaderDone (fun c s => by unfold countLeaderDone; dsimp only; split <;> rfl) _

theorem countLeaderDone_chan (s : State) (c : Chan) : (countLeaderDone c s).chan c = { s.chan c with
    drive := { s.drive c with leaderDone := ((countLeaderDone c s).drive c).leaderDone } } := by
  unfold countLeaderDone
  dsimp only
  split
  · rw [setDrive_chan, State.drive_setDrive]
  · rfl

theorem countLeaderDone_chan_ne {c d : Chan} (h : d ≠ c) (s : State) : (countLeaderDone d s).chan c = s.chan c := by
  unfold countLeaderDone
  dsimp only
  split
  · exact setDrive_chan_ne h.symm s _
  · rfl

/-- Of a channel, a leader-done count alone changes (R171). -/
theorem counted_chan (s : State) (c : Chan) : s.counted.chan c = { s.chan c with
    drive := { s.drive c with leaderDone := (s.counted.drive c).leaderDone } } :=
  eachChannel_chan (fun x y => y = { x with drive := { x.drive with leaderDone := y.drive.leaderDone } }) countLeaderDone
    (fun s => countLeaderDone_chan s c) (fun _ s h => countLeaderDone_chan_ne h s) (writeSummary (ageEntries s))

theorem judgeRound_roster (s : State) : (judgeRound s).roster =
    { entries := s.roster.entries.map RosterEntry.aged, summary := (ageEntries s).judged } := by
  rw [judgeRound_eq, ← counted_roster]
  simp only [raiseAll_frame]

theorem judgeRound_chan (s : State) (c : Chan) : (judgeRound s).chan c = { s.chan c with
    drive := { s.drive c with leaderDone := ((judgeRound s).drive c).leaderDone } } := by
  have hchannels : (judgeRound s).channels = s.counted.channels := by rw [judgeRound_eq, raiseAll_channels]
  unfold State.drive State.chan
  rw [hchannels]
  exact counted_chan s c

theorem judgeRound_lowestTag (s : State) : (judgeRound s).lowestTag = s.lowestTag := by
  rw [← ageEntries_lowestTag s]
  unfold State.lowestTag State.entry
  rw [judgeRound_roster]
  rfl

theorem judgeRound_lowestTag_atTime (s : State) (x : Nat) : (judgeRound (s.atTime x)).lowestTag = s.lowestTag :=
  judgeRound_lowestTag (s.atTime x)

/-! ## The take complete (R127) -/

/-- The round is all-finished at a FINISHED station. -/
theorem completeTake_completes (h : s.take.state = .finished ∧ s.roster.summary.allFinished = true) :
    completeTake s = leaveTake (parkTakeChannels s) := if_pos h

theorem completeTake_stays (h : ¬(s.take.state = .finished ∧ s.roster.summary.allFinished = true)) : completeTake s = s :=
  if_neg h

theorem leaveTake_take (s : State) : (leaveTake s).take = { s.take with
    state := .idle, id := 0, mask := [], s := 0, remaining := 0, tf := 0, committed := false, arm := none, latest := none,
    inTakeFrame := false, lastId := if s.take.committed then s.take.id else s.take.lastId } := by
  unfold leaveTake
  simp only [clearSources_frame]

theorem leftParked_drive (s : State) (c : Chan) :
    (leaveTake (parkTakeChannels s)).drive c = { s.parkedDrive c with source := none } := by
  rw [leaveTake, clearSources_drive]
  exact congrArg (fun d : Drive => { d with source := none }) (parkTakeChannels_drive s c)

/-! ## The round close -/

/-- Everything of the round close but turn 0: the round judged, and the tag settled. -/
def State.roundSettled (s : State) (q : Nat) : State := settleTag (judgeRound (s.atTime ((q + 840) * 16)))

theorem closeRound_eq (q : Nat) (s : State) :
    closeRound q s = beginTurn 0 ((q + 840) * 16) (completeTake (s.roundSettled q)) := rfl

theorem roundSettled_timer (s : State) (q : Nat) : (s.roundSettled q).timer = { s.timer with tag := (s.roundSettled q).timer.tag } := by
  have hjudged : (judgeRound (s.atTime ((q + 840) * 16))).timer = s.timer := by simp only [judgeRound_frame, State.atTime_timer]
  rw [State.roundSettled, ← hjudged]
  exact congrArg State.timer (settleTag_eq _)

theorem roundSettled_port (s : State) (q : Nat) : (s.roundSettled q).port =
    { s.port with join := (s.roundSettled q).port.join, duplicateFree := (s.roundSettled q).port.duplicateFree } := by
  have hjudged : (judgeRound (s.atTime ((q + 840) * 16))).port = s.port := by simp only [judgeRound_frame, State.atTime_port]
  rw [State.roundSettled, ← hjudged]
  exact congrArg State.port (settleTag_eq _)

theorem roundSettled_take (s : State) (q : Nat) : (s.roundSettled q).take = s.take := by
  simp only [State.roundSettled, settleTag_frame, judgeRound_frame, State.atTime_take]

theorem roundSettled_roster (s : State) (q : Nat) : (s.roundSettled q).roster =
    { entries := s.roster.entries.map RosterEntry.aged, summary := (ageEntries s).judged } := by
  have h := judgeRound_roster (s.atTime ((q + 840) * 16))
  simp only [State.roundSettled, settleTag_frame, h]
  rfl

theorem roundSettled_chan (s : State) (q : Nat) (c : Chan) : (s.roundSettled q).chan c = { s.chan c with
    drive := { s.drive c with leaderDone := ((s.roundSettled q).drive c).leaderDone } } := by
  have hchannels : (s.roundSettled q).channels = (judgeRound (s.atTime ((q + 840) * 16))).channels :=
    settleTag_channels _
  unfold State.drive State.chan
  rw [hchannels]
  exact judgeRound_chan (s.atTime ((q + 840) * 16)) c

theorem closeRound_clock (q : Nat) (s : State) : (closeRound q s).clock = max s.clock ((q + 840) * 16) := by
  simp only [closeRound_eq, State.roundSettled, beginTurn_frame, completeTake_frame, settleTag_frame, judgeRound_frame,
    State.clock_atTime]

theorem closeRound_roster (q : Nat) (s : State) : (closeRound q s).roster =
    { entries := s.roster.entries.map RosterEntry.aged, summary := (ageEntries s).judged } := by
  rw [← roundSettled_roster s q, closeRound_eq]
  simp only [beginTurn_frame, completeTake_frame]

theorem closeRound_entry (q : Nat) (s : State) (n : Nat) : (closeRound q s).entry n = (ageEntries s).entry n := by
  unfold State.entry
  rw [closeRound_roster]
  rfl

theorem closeRound_summary (q : Nat) (s : State) : (closeRound q s).roster.summary =
    { s.judged with present := stationsWhere fun n => ((closeRound q s).entry n).present } := by
  simp only [closeRound_entry, ← ageEntries_judged, closeRound_roster]

theorem closeRound_timer (q : Nat) (s : State) : (closeRound q s).timer = (s.roundSettled q).timer := by
  simp only [closeRound_eq, beginTurn_frame, completeTake_frame]

theorem closeRound_window (q : Nat) (s : State) :
    (closeRound q s).port.window = .turn 0 ((q + 840) * 16) ((q + 840) * 16) := by
  rw [closeRound_eq, beginTurn_port]

theorem closeRound_join (q : Nat) (s : State) : (closeRound q s).port.join = (s.roundSettled q).port.join ∧
    (closeRound q s).port.duplicateFree = (s.roundSettled q).port.duplicateFree := by
  rw [closeRound_eq, beginTurn_port]
  simp only [completeTake_frame, and_self]

theorem execRoundClose_eq (hw : s.port.window = .slots) (hq : s.timer.lastPulse = some q) :
    exec .roundClose s = .next (closeRound q s) := by
  change execRoundClose s = _
  rw [execRoundClose, State.roundStands, hw, hq]

/-! ## Listening, JOINED (R78) -/

theorem roundSettled_listening (h : s.port.join = .listening count heard) (q : Nat) :
    s.roundSettled q = listenRound count heard (judgeRound (s.atTime ((q + 840) * 16))) :=
  settleTag_listening (by simp only [judgeRound_frame, State.atTime_port, h])

/-- A listening station's tag after the round close: of the lowest-numbered station heard. -/
theorem closeRound_adopts (hj : s.port.join = .listening count heard) {g : Nat} (h : s.lowestTag = some g) (q : Nat) :
    (closeRound q s).timer.tag = g := by
  rw [closeRound_timer, roundSettled_listening hj]
  exact listenRound_adopts ((judgeRound_lowestTag_atTime s _).trans h)

theorem closeRound_hearsNothing (hj : s.port.join = .listening count heard) (h : s.lowestTag = none) (q : Nat) :
    (closeRound q s).timer.tag = if count + 1 = 4 ∧ heard = false then 0 else s.timer.tag := by
  rw [closeRound_timer, roundSettled_listening hj, listenRound_silent ((judgeRound_lowestTag_atTime s _).trans h)]
  simp only [judgeRound_frame, State.atTime_timer]

theorem closeRound_counts (hj : s.port.join = .listening count heard) (h : count < 3) (q : Nat) :
    (closeRound q s).port.join = .listening (count + 1) (heard || s.lowestTag.isSome) := by
  obtain ⟨hjoin, -⟩ := closeRound_join q s
  rw [hjoin, roundSettled_listening hj, listenRound_counts h, judgeRound_lowestTag_atTime]

theorem closeRound_joins (hj : s.port.join = .listening 3 heard) (q : Nat) :
    (closeRound q s).port.join = .joined ∧ (closeRound q s).port.duplicateFree = true := by
  obtain ⟨hjoin, hfree⟩ := closeRound_join q s
  rw [hjoin, hfree, roundSettled_listening hj]
  exact listenRound_joins heard _

theorem execJoined_eq (hw : s.port.window = .slots) (hq : s.timer.lastPulse = some q)
    (hj : s.port.join = .listening count heard) :
    exec .joined s = .next (if (closeRound q s).port.join = .joined then closeRound q s else s) := by
  change execJoined s = _
  rw [execJoined, State.roundStands, hw, hq, hj]

/-! ## ENTRY_ABSENT (R98) -/

theorem execEntryAbsent_eq (hw : s.port.window = .slots) (hq : s.timer.lastPulse = some q)
    (hbefore : (s.entry n).present = true) (hafter : ((closeRound q s).entry n).present = false) :
    exec (.entryAbsent n) s = .next (closeRound q s) := by
  change execEntryAbsent n s = _
  rw [execEntryAbsent, State.roundStands, hw, hq]
  exact congrArg Host.Outcome.next (if_pos ⟨hbefore, hafter⟩)

/-- The eighth round in which an entry is missed makes it absent. -/
theorem closeRound_absents (hn : n < s.roster.entries.length) (hmark : (s.entry n).mark = false)
    (hmissed : 7 ≤ (s.entry n).missed) (q : Nat) : (closeRound q s).entry n =
      { s.entry n with missed := 8, present := false } := by
  have hmin : min ((s.entry n).missed + 1) 8 = 8 := by omega
  have hlate : ¬(s.entry n).missed + 1 < 8 := by omega
  rw [closeRound_entry, ageEntries_entry hn, RosterEntry.aged_unmarked hmark, hmin, decide_eq_false hlate, Bool.and_false]

/-- Settles O35: the round close of a listening station by its count, and of an entry at its eighth missed round. -/
theorem joiningAndAbsence : Obligations.JoiningAndAbsence := by
  refine ⟨fun s q n heard hw hq hj hn => ?_, fun s q heard hw hq hj => ?_, fun s q n hw hq hn hpresent hmark hmissed => ?_⟩
  · have hcounts := closeRound_counts hj hn q
    refine ⟨?_, closeRound q s, execRoundClose_eq hw hq, fun m r hm hmark hlow hr => ?_, fun hsilent => ?_⟩
    · rw [execJoined_eq hw hq hj, if_neg (by rw [hcounts]; exact fun h => nomatch h)]
    · have hlowest := lowestTag_heard hm hmark hlow hr
      rw [hcounts, hlowest]
      exact ⟨congrArg (Join.listening (n + 1)) (Bool.or_true heard), closeRound_adopts hj hlowest q⟩
    · have hlowest := lowestTag_silent hsilent
      rw [hcounts, hlowest, closeRound_hearsNothing hj hlowest, if_neg (by omega)]
      exact ⟨congrArg (Join.listening (n + 1)) (Bool.or_false heard), rfl⟩
  · obtain ⟨hjoin, hfree⟩ := closeRound_joins hj q
    refine ⟨closeRound q s, ?_, execRoundClose_eq hw hq, hjoin, hfree, fun m r hm hmark hlow hr => ?_, fun hsilent => ?_⟩
    · rw [execJoined_eq hw hq hj, if_pos hjoin]
    · exact closeRound_adopts hj (lowestTag_heard hm hmark hlow hr) q
    · rw [closeRound_hearsNothing hj (lowestTag_silent hsilent)]
      cases heard <;> rfl
  · have hentry := closeRound_absents hn hmark hmissed q
    refine ⟨closeRound q s, ?_, execRoundClose_eq hw hq, ?_⟩
    · exact execEntryAbsent_eq hw hq hpresent (by rw [hentry])
    · rw [hentry]
      exact ⟨rfl, rfl, rfl, rfl⟩

end Sys2Proof.Machine
end

