-- ==== Sys2Proof/Proofs/RoundCloseJudges.lean ====
section
/-! ROUND_CLOSE (R98 to R104, R127, R137, R138, R75): the causes a round close latches, the take it completes, the turn 0 it
begins, and the statement on the whole of it. -/

set_option Elab.async false

namespace Sys2Proof.Machine

variable {s : State} {q n : Nat} {c : Chan}

/-! ## The causes latched (R103, R137, R138) -/

/-- The round close hands its causes to a hold record, in a take and at a sub-beat that are still those before it. -/
theorem closeRound_holds (q : Nat) (s : State) : ∃ u : State, (closeRound q s).holds = (raiseAll s.handedCauses u).holds ∧
    u.take = s.take ∧ u.holds = s.holds ∧ u.subBeats = s.subBeats := by
  have hjudged := judgeRound_eq (s.atTime ((q + 840) * 16))
  refine ⟨(s.atTime ((q + 840) * 16)).counted, ?_, counted_take _, counted_holds _, counted_subBeats _⟩
  simp only [closeRound_eq, State.roundSettled, beginTurn_frame, completeTake_frame, settleTag_frame, hjudged]
  rfl

theorem closeRound_holds_standing (h : s.take.state.isRunning = false) (q : Nat) : (closeRound q s).holds = s.holds := by
  obtain ⟨u, hclosed, -, hholds, -⟩ := closeRound_holds q s
  rw [hclosed, handedCauses_standing h, ← hholds]
  rfl

theorem closeRound_flags (h : s.take.state.isRunning = true) (q : Nat) : (closeRound q s).holds.flags =
    { s.holds.flags with
      memberMissing := s.holds.flags.memberMissing || decide (s.missingMembers ≠ []),
      disagree := s.holds.flags.disagree || decide (s.disagreeingMembers ≠ []),
      slip := s.holds.flags.slip || decide (s.slippingMembers ≠ []) } := by
  obtain ⟨u, hclosed, htake, hholds, -⟩ := closeRound_holds q s
  have hlatch : ∀ x ∈ s.handedCauses, x.1.latchesIn u.take.state = true := htake ▸ fun x => handedCauses_latchIn
  rw [hclosed, raiseAll_flags hlatch, hholds, handedCauses_flags h]

theorem closeRound_joinsRecord (hany : s.holds.flags.any = true) (q : Nat) :
    (closeRound q s).holds = { s.holds with flags := (closeRound q s).holds.flags } := by
  obtain ⟨u, hclosed, htake, hholds, -⟩ := closeRound_holds q s
  have hlatch : ∀ x ∈ s.handedCauses, x.1.latchesIn u.take.state = true := htake ▸ fun x => handedCauses_latchIn
  rw [hclosed, raiseAll_joins hlatch (hholds ▸ hany), hholds]

/-- The first cause handed over fills an empty record. -/
theorem closeRound_fillsRecord (hany : s.holds.flags.any = false) {x : Cause} {xs : List Cause}
    (hx : s.handedCauses.map (fun y => y.1) = x :: xs) (q : Nat) : (closeRound q s).holds = { (closeRound q s).holds with
      first := some x, kind := none, sub := some (s.take.latest.getD (s.take.s * s.subBeats)), concerned := s.named x } := by
  obtain ⟨u, hclosed, htake, hholds, hsubBeats⟩ := closeRound_holds q s
  obtain ⟨y, ys, hcauses, rfl, -⟩ := List.map_eq_cons_iff.mp hx
  have hlatch : ∀ z ∈ s.handedCauses, z.1.latchesIn u.take.state = true := htake ▸ fun z => handedCauses_latchIn
  have hfirst : y ∈ s.handedCauses := hcauses ▸ List.mem_cons_self
  have hsub : u.causeSubBeat = some (s.take.latest.getD (s.take.s * s.subBeats)) := by
    rw [State.causeSubBeat, htake, hsubBeats, if_neg (handedCauses_inTake hfirst)]
  obtain ⟨-, hnamed, -⟩ := mem_handedCauses hfirst
  rw [hcauses] at hclosed hlatch
  rw [hclosed, raiseAll_fills hlatch (hholds ▸ hany), hsub, hnamed]

/-! ## The take at the round close (R127, R171) -/

theorem roundSettled_completes (s : State) (q : Nat) :
    ((s.roundSettled q).take.state = .finished ∧ (s.roundSettled q).roster.summary.allFinished = true) ↔
      (s.take.state = .finished ∧ s.allFinished = true) := by
  rw [roundSettled_take, roundSettled_roster, ← ageEntries_allFinished s]
  rfl

theorem roundSettled_drive (s : State) (q : Nat) (c : Chan) : (s.roundSettled q).drive c =
    { s.drive c with leaderDone := ((s.roundSettled q).drive c).leaderDone } :=
  congrArg Channel.drive (roundSettled_chan s q c)

theorem closeRound_drive (q : Nat) (s : State) (c : Chan) :
    (closeRound q s).drive c = (completeTake (s.roundSettled q)).drive c := by
  unfold State.drive State.chan
  rw [closeRound_eq, beginTurn_channels]

theorem closeRound_take (q : Nat) (s : State) : (closeRound q s).take = (completeTake (s.roundSettled q)).take := by
  simp only [closeRound_eq, beginTurn_frame]

/-- Unless the take completes it stands, and of a channel its leader-done count alone changes. -/
theorem closeRound_goesOn (h : ¬(s.take.state = .finished ∧ s.allFinished = true)) (q : Nat) :
    (closeRound q s).take = s.take ∧ ∀ c, (closeRound q s).drive c =
      { s.drive c with leaderDone := ((closeRound q s).drive c).leaderDone } := by
  have hstays := completeTake_stays (mt (roundSettled_completes s q).mp h)
  refine ⟨?_, fun c => ?_⟩
  · rw [closeRound_take, hstays, roundSettled_take]
  · rw [closeRound_drive, hstays]
    exact roundSettled_drive s q c

theorem closeRound_completes_take (h : s.take.state = .finished ∧ s.allFinished = true) (q : Nat) :
    (closeRound q s).take = { s.take with
      state := .idle, id := 0, mask := [], s := 0, remaining := 0, tf := 0, committed := false, arm := none, latest := none,
      inTakeFrame := false, lastId := if s.take.committed then s.take.id else s.take.lastId } := by
  rw [closeRound_take, completeTake_completes ((roundSettled_completes s q).mpr h), leaveTake_take, parkTakeChannels_take,
    roundSettled_take]

/-- The take complete, its channels park and lose their source (R127, R154). -/
theorem closeRound_completes_drive (h : s.take.state = .finished ∧ s.allFinished = true) (q : Nat) (c : Chan) :
    ((closeRound q s).drive c).source = none ∧ ((closeRound q s).drive c).setPoint = (s.drive c).setPoint ∧
    (s.isTakeChannel c = true → (s.drive c).state = .done → ((closeRound q s).drive c).state = .parked) := by
  have hdrive := roundSettled_drive s q c
  obtain ⟨hsetPoint, -⟩ := parkedDrive_keeps (s.roundSettled q) c
  rw [closeRound_drive, completeTake_completes ((roundSettled_completes s q).mpr h), leftParked_drive]
  refine ⟨rfl, hsetPoint.trans (congrArg Drive.setPoint hdrive :), fun htake hdone => ?_⟩
  have hmember : (s.roundSettled q).isTakeChannel c = true := by rwa [State.isTakeChannel, hdrive]
  have hparks : ((s.roundSettled q).drive c).parks = true := by rw [Drive.parks, hdrive, hdone]
  rw [parkedDrive_parks hmember hparks]
  rfl

/-! ## The tag of a JOINED station (R101) -/

theorem roundSettled_joined (h : s.port.join = .joined) (q : Nat) :
    s.roundSettled q = realign (judgeRound (s.atTime ((q + 840) * 16))) :=
  settleTag_joined (by simp only [judgeRound_frame, State.atTime_port, h])

theorem closeRound_timer_running (hj : s.port.join = .joined) (h : s.take.state.isRunning = true) (q : Nat) :
    (closeRound q s).timer = s.timer := by
  rw [closeRound_timer, roundSettled_joined hj, realign_running (by simpa only [judgeRound_frame, State.atTime_take] using h)]
  simp only [judgeRound_frame, State.atTime_timer]

theorem closeRound_timer_standing (hj : s.port.join = .joined) (h : s.take.state.isRunning = false) (q : Nat) :
    (closeRound q s).timer = { s.timer with tag := s.lowestTag.getD s.timer.tag } := by
  rw [closeRound_timer, roundSettled_joined hj, realign_standing (by simpa only [judgeRound_frame, State.atTime_take] using h),
    judgeRound_lowestTag_atTime]
  simp only [judgeRound_frame, State.atTime_timer]

/-! ## Turn 0 (R75, log 16) -/

/-- The station that holds turn 0 by its tag after the round close. -/
def State.holdsTurnZero (s t : State) : Prop :=
  t.port.join = .joined ∧ s.timer.state = .locked ∧ t.timer.tag % 16 = s.station

theorem completeTake_station (s : State) (q : Nat) : (completeTake (s.roundSettled q)).station = s.station := by
  have hfixed : (completeTake (s.roundSettled q)).fixed = s.fixed := by
    rw [completeTake_fixed, State.roundSettled, settleTag_fixed, judgeRound_fixed, State.atTime_fixed]
  exact congrArg Prod.fst hfixed

theorem completeTake_port (s : State) (q : Nat) : (completeTake (s.roundSettled q)).port = { s.port with
    join := (closeRound q s).port.join, duplicateFree := (closeRound q s).port.duplicateFree } := by
  obtain ⟨hjoin, hfree⟩ := closeRound_join q s
  rw [hjoin, hfree, ← roundSettled_port]
  simp only [completeTake_frame]

theorem completeTake_timer (s : State) (q : Nat) : (completeTake (s.roundSettled q)).timer =
    { s.timer with tag := (closeRound q s).timer.tag } := by
  rw [closeRound_timer, ← roundSettled_timer]
  simp only [completeTake_frame]

theorem ownsTurnZero_iff (s : State) (q : Nat) :
    (completeTake (s.roundSettled q)).ownsTurn 0 ↔ s.holdsTurnZero (closeRound q s) := by
  rw [State.ownsTurn, completeTake_port, completeTake_timer, completeTake_station]
  rfl

theorem closeRound_otherTurn (h : ¬s.holdsTurnZero (closeRound q s)) :
    (closeRound q s).port.sending = s.port.sending ∧ (closeRound q s).port.answers = s.port.answers := by
  have hport := completeTake_port s q
  rw [closeRound_eq, beginTurn_other (mt (ownsTurnZero_iff s q).mp h)]
  exact ⟨(congrArg Port.sending hport :), (congrArg Port.answers hport :)⟩

/-- Turn 0 of the station itself begins within the round close. -/
theorem closeRound_ownTurn (h : s.holdsTurnZero (closeRound q s)) {d : Nat} (hq : s.timer.lastPulse = some q)
    (hd : s.timer.period = some d) :
    s.port.OwnTurn (closeRound q s).port s.station ((q + 840) * 16) ((q + d - 200) * 16) := by
  have hown := beginTurn_ownTurn ((ownsTurnZero_iff s q).mpr h) (by rw [completeTake_timer]; exact hq)
    (by rw [completeTake_timer]; exact hd) ((q + 840) * 16)
  rw [← closeRound_eq, completeTake_port, completeTake_station] at hown
  exact ⟨hown.cues, hown.silence, hown.answer⟩

/-! ## A member not heard (R99, R103) -/

/-- The lowest-numbered missing member. -/
theorem missingMembers_head? (hjudged : s.IsJudged n) (hmark : (s.entry n).mark = false)
    (hlow : ∀ m < n, s.take.mask.contains m = true → m ≠ s.station → (s.entry m).mark = true) :
    s.missingMembers.head? = some n := by
  have hn : n < 16 := hjudged.station
  refine head?_stationsWhere hn ?_ fun m hm => ?_
  · rw [(judges_iff hn).mpr hjudged, hmark]
    rfl
  · cases hm' : s.judges m with
    | false => rfl
    | true =>
      obtain ⟨-, -, hmask, hother⟩ := (judges_iff (hm.trans hn)).mp hm'
      rw [hlow m hm hmask hother]
      rfl

theorem closeRound_namesMissing (hrun : s.take.state.isRunning = true) (hany : s.holds.flags.any = false)
    (hhead : s.missingMembers.head? = some n) (q : Nat) :
    (closeRound q s).holds.first = some .memberMissing ∧ (closeRound q s).holds.concerned = some n := by
  have hsome : s.missingMembers ≠ [] := fun h => by rw [h] at hhead; exact nomatch hhead
  have hcauses := handedCauses_map hrun
  rw [if_neg hsome, List.append_assoc, List.singleton_append] at hcauses
  rw [closeRound_fillsRecord hany hcauses]
  exact ⟨rfl, hhead⟩

/-- Settles O34: the round close part by part, and a member not heard in the round. -/
theorem roundCloseJudgesTheRound : Obligations.RoundCloseJudgesTheRound := by
  refine ⟨fun s q hw hq => ?_, fun s q n hw hq hn hid hmask hother hmark => ⟨fun hrun => ?_, fun hrun => ?_⟩⟩
  · intro close judged running allowed all
    have hrunning : running ↔ s.take.state.isRunning = true := (TakeState.isRunning_iff _).symm
    have hstanding : ¬running ↔ s.take.state.isRunning = false := (not_congr hrunning).trans (Bool.not_eq_true _).to_iff
    have hlog : (closeRound q s).log = s.log := by simp only [closeRound_frame]
    refine ⟨closeRound q s, execRoundClose_eq hw hq, closeRound_clock q s, closeRound_window q s, ?_, ?_, ?_,
      closeRound_ports q s, hlog, ?_, ?_⟩
    · rw [closeRound_roster]
      exact List.length_map _
    · intro n hn
      rw [closeRound_entry, ageEntries_entry hn]
      exact ⟨RosterEntry.aged_marked, RosterEntry.aged_unmarked⟩
    · rw [closeRound_summary]
      refine ⟨rfl, rfl, rfl, rfl, rfl, rfl, rfl, fun n => mem_missingMembers, s.missingMembers_sorted, ?_, ?_,
        s.disagreeingMembers_sorted, s.slippingMembers_sorted, rollReady_iff, allFinished_iff, ?_, ?_, ?_, ?_⟩
      · intro hrun n own r hown hr
        have hrun := hrunning.mp hrun
        refine ⟨mem_disagreeing_running hrun hown hr, (memberFails_mem_iff hown hr).trans ?_⟩
        rw [slips_running hrun]
        rfl
      · intro hrun n own r hown hr
        have hrun := hstanding.mp hrun
        obtain ⟨hdisagrees, hagrees⟩ := mem_disagreeing_standing hrun hown hr
        refine ⟨memberFails_mem, hdisagrees, hagrees, (memberFails_mem_iff hown hr).trans ?_⟩
        rw [slips_standing hrun]
        rfl
      · intro hrun
        have hrun := hstanding.mp hrun
        exact ⟨congrArg _ (handedCauses_standing hrun), closeRound_holds_standing hrun q⟩
      · intro hrun
        have hrun := hrunning.mp hrun
        refine ⟨handedCauses_map hrun, closeRound_flags hrun q, fun hany => closeRound_joinsRecord hany q,
          fun hany x xs hx => (closeRound_fillsRecord hany hx q).trans ?_⟩
        cases x <;> rfl
      · intro hstate hall
        have htake := closeRound_completes_take ⟨hstate, hall⟩ q
        rw [htake]
        exact ⟨rfl, rfl, rfl, rfl, rfl, rfl, rfl, rfl, fun c => ⟨congrFun (closeRound_engine q s) c,
          closeRound_completes_drive ⟨hstate, hall⟩ q c⟩⟩
      · intro h
        have hnot : ¬(s.take.state = .finished ∧ s.allFinished = true) := fun ⟨hstate, hall⟩ =>
          h.elim (· hstate) fun h => Bool.false_ne_true (h.symm.trans hall)
        obtain ⟨htake, hdrive⟩ := closeRound_goesOn hnot q
        exact ⟨htake, fun c => ⟨congrFun (closeRound_engine q s) c, hdrive c⟩⟩
    · intro hj
      refine ⟨fun hrun => closeRound_timer_running hj (hrunning.mp hrun) q, fun hrun => ?_⟩
      rw [closeRound_timer_standing hj (hstanding.mp hrun)]
      refine ⟨fun n r hn hmark hlow hr => ?_, fun hsilent => ?_⟩
      · rw [lowestTag_heard hn hmark hlow hr]
        rfl
      · rw [lowestTag_silent hsilent]
        rfl
    · exact ⟨closeRound_otherTurn, fun p hown hp => closeRound_ownTurn hown hq hp⟩
  · have hjudged : s.IsJudged n := ⟨hn, hid, hmask, hother⟩
    refine ⟨closeRound q s, execRoundClose_eq hw hq, ?_, fun hany hlow => ?_⟩
    · have hsome := List.ne_nil_of_mem (mem_missingMembers.mpr ⟨hjudged, hmark⟩)
      rw [closeRound_flags hrun, decide_eq_true hsome]
      exact Bool.or_true _
    · exact closeRound_namesMissing hrun hany (missingMembers_head? hjudged hmark hlow) q
  · exact ⟨closeRound q s, execRoundClose_eq hw hq, closeRound_holds_standing hrun q⟩

end Sys2Proof.Machine
end

