-- ==== Sys2Proof/Proofs/FollowerTargets.lean ====
section
/-! A follower that waits for its leader, and a report examined by it (R117, R159, R169): the target it takes, or why none. -/

set_option Elab.async false

namespace Sys2Proof.Machine

variable {s : State} {c ch : Chan} {r : Report} {a : ArmFlight}

/-- A follower that waits for its leader is SEEKING. -/
theorem waitsFor_seeking {n : Nat} (h : s.waitsFor c n = some (a, ch)) : (s.drive c).state = .seeking := by
  unfold State.waitsFor at h
  split at h
  · split at h
    · next hwaits =>
      obtain ⟨-, hseeking, -⟩ := hwaits
      exact hseeking
    · cases h
  · cases h

/-! ## The target in the report (R169) -/

/-- A report of the leader READY in this take gives g of its set-point; the states are codes (R201). -/
theorem followTarget_ready (hid : r.takeId = s.take.id) (hstate : r.takeState = 2 ∨ r.takeState = 3)
    (hready : (r.channels.get ch).state = 3) :
    s.followTarget ch c r = some (followValue (s.setup c) (r.channels.get ch).setPoint) :=
  if_pos ⟨hstate, hid, hready⟩

theorem followTarget_notReady (h : r.takeId ≠ s.take.id ∨ (r.takeState ≠ 2 ∧ r.takeState ≠ 3) ∨
    (r.channels.get ch).state ≠ 3) : s.followTarget ch c r = none := by
  refine if_neg fun ⟨hstate, hid, hready⟩ => ?_
  rcases h with h | ⟨h2, h3⟩ | h
  · exact h hid
  · exact hstate.elim h2 h3
  · exact h hready

/-! ## The report examined (R117, R159) -/

theorem examineReport_noTarget (hwaits : s.waitsFor c r.station = some (a, ch)) (h : s.followTarget ch c r = none) :
    examineReport r c s = s := by
  unfold examineReport
  rw [hwaits]
  dsimp only
  rw [h]

/-- A target is checked against travel before the seek toward it begins. -/
theorem examineReport_target {x : Int} (hwaits : s.waitsFor c r.station = some (a, ch))
    (h : s.followTarget ch c r = some x) : examineReport r c s =
    if (s.setup c).outside x then unwindArm a .travel s else checkArmed (s.setDrive c ((s.drive c).beginSeek x)) := by
  unfold examineReport
  rw [hwaits]
  dsimp only
  rw [h]

/-- A take channel that seeks keeps the ARM going. -/
theorem checkArmed_seeks {x : Int} (ht : s.isTakeChannel c = true) (hs : (s.drive c).state = .seeking)
    (hx : x ≠ (s.drive c).setPoint) :
    checkArmed (s.setDrive c ((s.drive c).beginSeek x)) = s.setDrive c ((s.drive c).beginSeek x) := by
  refine checkArmed_goesOn ⟨c, ?_, ?_⟩
  · rw [State.isTakeChannel, State.drive_setDrive, (Drive.beginSeek_keeps x _).1]
    exact ht
  · rw [State.drive_setDrive, Drive.beginSeek_away hx]
    dsimp only
    rw [hs]
    decide

/-- Settles O33: the target in the report, then travel, then the distance. -/
theorem followerTakesItsTarget : Obligations.FollowerTakesItsTarget := by
  intro s c ch r a hwaits ht x d
  refine ⟨fun hid hstate hready hmin hmax => ?_, fun hid hstate hready hout => ?_, fun h => ?_⟩
  · have hexamine := examineReport_target hwaits (followTarget_ready (c := c) hid hstate hready)
    rw [if_neg fun hout => Setup.outside_iff.mp hout ⟨hmin, hmax⟩] at hexamine
    refine ⟨fun hx => ?_, fun hx => ?_⟩
    · rw [hexamine, checkArmed_seeks ht (waitsFor_seeking hwaits) hx, Drive.beginSeek_away hx]
    · rw [hexamine, State.drive_def, checkArmed_channels, ← State.drive_def, State.drive_setDrive, Drive.beginSeek_here hx]
  · rw [examineReport_target hwaits (followTarget_ready (c := c) hid hstate hready), if_pos (Setup.outside_iff.mpr ?_)]
    rintro ⟨hmin, hmax⟩
    omega
  · exact examineReport_noTarget hwaits (followTarget_notReady h)

end Sys2Proof.Machine
end

