-- ==== Sys2Proof/Proofs/StationEnlisted.lean ====
section
/-! ENLIST and DISMISS (R110, R163, R181, R192, R198, R199): the energized period a channel starts, the step outputs that stop,
and the sampler stopped. -/

set_option Elab.async false

namespace Sys2Proof.Machine

variable {s t : State} {a : Activity} {m : Arrival} {c : Chan}

/-! ## One channel's turn, with what no turn changes -/

/-- Channel `c`'s turn of four is taken in a state with its channel, and with what no turn changes, as they were. -/
theorem eachChannel_turn {α : Type} (g : State → α) (f : Chan → State → State) (hg : ∀ d s, g (f d s) = g s)
    (hother : ∀ d s, d ≠ c → (f d s).chan c = s.chan c) (s : State) :
    ∃ u, u.chan c = s.chan c ∧ g u = g s ∧ (eachChannel f s).chan c = (f c u).chan c := by
  obtain ⟨u, ⟨hchan, hsame⟩, hafter, -⟩ := eachChannel_split (fun s t => t.chan c = s.chan c ∧ g t = g s)
    (fun _ => ⟨rfl, rfl⟩) (fun _ _ _ ⟨hchan, hsame⟩ ⟨hchan', hsame'⟩ => ⟨hchan'.trans hchan, hsame'.trans hsame⟩) f c
    (fun d s hd => ⟨hother d s hd, hg d s⟩) s
  exact ⟨u, hchan, hsame, hafter⟩

/-! ## A new energized period (R163) -/

theorem feedback_of_same (hc : t.chan c = s.chan c) (hs : t.sampler = s.sampler) : t.feedback c = s.feedback c := by
  unfold State.feedback State.setup State.drive
  rw [hc, hs]

/-- Channel `c`'s drive at the start of an energized period in state `st`. -/
def State.startDrive (s : State) (c : Chan) (st : ChanState) : Drive :=
  let x := match s.feedback c with
    | some v => toSetPoint v
    | none => (s.drive c).setPoint
  { s.drive c with state := st, setPoint := x, previous := none, stepPos := x, followErrors := 0, pulses := none }

theorem energize_drive (c : Chan) (st : ChanState) (s : State) : (energize c st s).drive c = s.startDrive c st :=
  State.drive_setDrive s c _

theorem startDrive_of_same (hc : t.chan c = s.chan c) (hs : t.sampler = s.sampler) (st : ChanState) :
    t.startDrive c st = s.startDrive c st := by
  unfold State.startDrive
  rw [feedback_of_same hc hs, State.drive, State.drive, hc]

/-! ## ENLIST (R198) -/

theorem enlistChannel_parks (h : (s.drive c).state = .unset) (hc : (s.chan c).configured = true) :
    enlistChannel c s = energize c .parked s := by
  rw [enlistChannel, h]
  exact if_pos hc

theorem enlistChannel_stays (h : (s.drive c).state = .unset ∧ (s.chan c).configured = false ∨
    (s.drive c).state = .faulted) : enlistChannel c s = s := by
  rcases h with ⟨h, hc⟩ | h
  · rw [enlistChannel, h]
    exact if_neg (by rw [hc]; exact Bool.false_ne_true)
  · rw [enlistChannel, h]

theorem enlistChannel_starts (hu : (s.drive c).state ≠ .unset) (hf : (s.drive c).state ≠ .faulted) :
    enlistChannel c s = energize c (s.drive c).state s := by
  unfold enlistChannel
  split
  · next h => exact absurd h hu
  · next h => exact absurd h hf
  · rfl

theorem enlistChannel_chan_ne {d : Chan} (h : d ≠ c) (s : State) : (enlistChannel d s).chan c = s.chan c := by
  unfold enlistChannel
  split
  · split
    · exact setDrive_chan_ne h.symm s _
    · rfl
  · rfl
  · exact setDrive_chan_ne h.symm s _

/-- The four channels' turns: the one at `c` in a state with its channel and the sampler as they were. -/
theorem enlisted_drive (s : State) (c : Chan) : ∃ u, u.chan c = s.chan c ∧ u.sampler = s.sampler ∧
    (eachChannel enlistChannel s).drive c = (enlistChannel c u).drive c := by
  obtain ⟨u, hchan, hsampler, hafter⟩ := eachChannel_turn State.sampler enlistChannel (fun _ _ => by simp)
    (fun _ s hd => enlistChannel_chan_ne hd s) s
  exact ⟨u, hchan, hsampler, congrArg Channel.drive hafter⟩

/-- What an accepted ENLIST makes of a drive. -/
theorem enlisted_starts (s : State) (c : Chan) :
    ((s.drive c).state = .unset → (s.chan c).configured = false →
      (eachChannel enlistChannel s).drive c = s.drive c) ∧
    ((s.drive c).state = .unset → (s.chan c).configured = true →
      (eachChannel enlistChannel s).drive c = s.startDrive c .parked) ∧
    ((s.drive c).state = .faulted → (eachChannel enlistChannel s).drive c = s.drive c) ∧
    ((s.drive c).state ≠ .unset → (s.drive c).state ≠ .faulted →
      (eachChannel enlistChannel s).drive c = s.startDrive c (s.drive c).state) := by
  obtain ⟨u, hchan, hsampler, hdrive⟩ := enlisted_drive s c
  have hsame : u.drive c = s.drive c := congrArg Channel.drive hchan
  rw [hdrive, ← hsame, ← hchan]
  refine ⟨fun h hc => ?_, fun h hc => ?_, fun h => ?_, fun hu hf => ?_⟩
  · rw [enlistChannel_stays (.inl ⟨h, hc⟩)]
  · rw [enlistChannel_parks h hc, energize_drive, startDrive_of_same hchan hsampler]
  · rw [enlistChannel_stays (.inr h)]
  · rw [enlistChannel_starts hu hf, energize_drive, startDrive_of_same hchan hsampler]

theorem settleEnlist_refused (hp : m.payload = []) (h : s.take.state ≠ .safe) : settleEnlist m s = (.refusedState, s) := by
  unfold settleEnlist
  rw [if_neg (not_not_intro hp), if_neg h]
  rfl

theorem settleEnlist_accepted (hp : m.payload = []) (h : s.take.state = .safe) : settleEnlist m s =
    (.accepted, eachChannel enlistChannel { s with take := { s.take with state := .idle } }) := by
  unfold settleEnlist
  rw [if_neg (not_not_intro hp), if_pos h]

/-! ## The step outputs stop, DIR held (R158, R192, R199) -/

/-- DIR held at an instant has its level from then on. -/
theorem Drive.dirAt_holdDir {x u : Nat} (h : x ≤ u) (d : Drive) : (d.holdDir x).dirAt u = d.dirAt x := by
  have hnone : ((d.dirSince.filter fun y => decide (y ≤ x)).any fun y => decide (u < y)) = false := by
    cases hs : d.dirSince with
    | none => rfl
    | some y =>
      by_cases hy : y ≤ x
      · simpa [Option.filter, hy] using Nat.le_trans hy h
      · simp [Option.filter, hy]
  unfold Drive.holdDir
  rw [Drive.dirAt]
  dsimp only
  rw [hnone]
  exact if_neg Bool.false_ne_true

theorem stopPulses_chan (c : Chan) (s : State) : (stopPulses c s).chan c =
    { s.chan c with drive := { (s.drive c).holdDir s.clock with pulses := none } } := setDrive_chan s c _

/-- The four step outputs stop at the clock. -/
theorem stoppedPulses_drive (s : State) (c : Chan) : (eachChannel stopPulses s).drive c =
    { (s.drive c).holdDir s.clock with pulses := none } := by
  obtain ⟨u, hchan, hclock, hafter⟩ := eachChannel_turn State.clock stopPulses (fun _ _ => by simp)
    (fun _ s hd => setDrive_chan_ne hd.symm s _) s
  rw [State.drive, hafter, stopPulses_chan]
  dsimp only
  rw [hclock, State.drive, hchan]
  rfl

/-! ## The sampler at the entry of SAFE (R181) -/

theorem samplerSafeStop_channels (x : Nat) (s : State) : (samplerSafeStop x s).channels = s.channels := by
  unfold samplerSafeStop
  dsimp only
  split
  · split
    · exact samplerBegin_channels x _
    · rfl
  · rfl

/-- With no single pending the converter sleeps. -/
theorem samplerSafeStop_sleeps (h : s.sampler.single = none) (x : Nat) :
    (samplerSafeStop x s).sampler.conversion = none ∧ (samplerSafeStop x s).sampler.mode = .standby ∧
      (samplerSafeStop x s).sampler.waking = none := by
  unfold samplerSafeStop
  dsimp only
  rw [h]
  exact ⟨rfl, rfl, rfl⟩

/-- The pass ends, and the slots are those of the conversion given up: a pending single changes neither. -/
theorem samplerSafeStop_ends (x : Nat) (s : State) : (samplerSafeStop x s).sampler.pass = none ∧
    ∀ v, s.sampler.conversion = some v → (samplerSafeStop x s).sampler.slots = s.sampler.slots.set v.input
      { s.sampler.slots.getD v.input { result := 0, isVoid := true } with isVoid := true } := by
  unfold samplerSafeStop
  dsimp only
  split
  · next y hy =>
    split
    · rw [samplerBegin_single (y := y)]
      · refine ⟨rfl, fun v hv => ?_⟩
        dsimp only
        rw [hv]
      · exact .inl rfl
      · exact hy
    · refine ⟨rfl, fun v hv => ?_⟩
      dsimp only
      rw [hv]
  · refine ⟨rfl, fun v hv => ?_⟩
    dsimp only
    rw [hv]

/-! ## DISMISS (R199) -/

theorem settleDismiss_refused (hp : m.payload = []) (h : s.take.state ≠ .idle) :
    settleDismiss m s = (.refusedState, s) := by
  unfold settleDismiss
  rw [if_neg (not_not_intro hp), if_neg h]
  rfl

theorem settleDismiss_accepted (hp : m.payload = []) (h : s.take.state = .idle) :
    settleDismiss m s = (.accepted, enterSafe m.time s) := by
  unfold settleDismiss
  rw [if_neg (not_not_intro hp), if_pos h]

theorem enterSafe_take (x : Nat) (s : State) : (enterSafe x s).take = { s.take with state := .safe } := by
  unfold enterSafe
  simp

theorem enterSafe_sampler (x : Nat) (s : State) : (enterSafe x s).sampler.pass = none ∧
    (s.sampler.single = none → (enterSafe x s).sampler.conversion = none ∧ (enterSafe x s).sampler.mode = .standby ∧
      (enterSafe x s).sampler.waking = none) ∧
    ∀ v, s.sampler.conversion = some v → (enterSafe x s).sampler.slots = s.sampler.slots.set v.input
      { s.sampler.slots.getD v.input { result := 0, isVoid := true } with isVoid := true } := by
  have hsame : (eachChannel stopPulses { s with take := { s.take with state := .safe } }).sampler = s.sampler := by simp
  unfold enterSafe
  generalize eachChannel stopPulses { s with take := { s.take with state := .safe } } = u at hsame ⊢
  rw [← hsame]
  obtain ⟨hpass, hslots⟩ := samplerSafeStop_ends x u
  exact ⟨hpass, fun h => samplerSafeStop_sleeps h x, hslots⟩

theorem enterSafe_drive (x : Nat) (s : State) (c : Chan) : (enterSafe x s).drive c =
    { (s.drive c).holdDir s.clock with pulses := none } := by
  rw [enterSafe, State.drive_def, samplerSafeStop_channels, ← State.drive_def]
  exact stoppedPulses_drive { s with take := { s.take with state := .safe } } c

/-- The step outputs stop, DIR at its level from the entry of SAFE on (R192). -/
theorem enterSafe_outputs (x : Nat) (s : State) (c : Chan) : (enterSafe x s).drive c = { s.drive c with
      pulses := none, dirHigh := ((enterSafe x s).drive c).dirHigh, dirSince := ((enterSafe x s).drive c).dirSince } ∧
    ∀ u, s.clock ≤ u → ((enterSafe x s).drive c).dirAt u = (s.drive c).dirAt s.clock := by
  rw [enterSafe_drive]
  exact ⟨rfl, fun u hu => Drive.dirAt_holdDir hu (s.drive c)⟩

/-- In SAFE no channel is energized and no step output is high (R110, R192). -/
theorem safe_quiet (h : s.take.state = .safe) (c : Chan) : s.energized c = false ∧ s.stepHigh c = false := by
  simp [State.energized, State.stepHigh, h]

/-- Settles O44: each request by its checks, then channel by channel. -/
theorem enlistAndDismiss : Obligations.EnlistAndDismiss := by
  refine ⟨fun s a hr hp => ⟨fun h => ?_, fun h => ?_⟩, fun s a hr hp => ⟨fun h => ?_, fun h => ?_⟩⟩
  · exact receiveKind_settles hr (settleEnlist_refused (s := s.heard a) hp h)
  · refine ⟨_, receiveKind_settles hr (settleEnlist_accepted (s := s.heard a) hp h), by simp, by simp, by simp, by simp,
      fun c => ⟨by simp, by simp, ?_⟩⟩
    exact enlisted_starts { s.heard a with take := { s.take with state := .idle } } c
  · exact receiveKind_settles hr (settleDismiss_refused (s := s.heard a) hp h)
  · refine ⟨_, receiveKind_settles hr (settleDismiss_accepted (s := s.heard a) hp h), ?_⟩
    obtain ⟨-, -, hroster, hholds, -, hlog, -, hsetup⟩ := enterSafe_frame (arrivalOf a).time (s.heard a)
    obtain ⟨hpass, hsleeps, hslots⟩ := enterSafe_sampler (arrivalOf a).time (s.heard a)
    have htake := enterSafe_take (arrivalOf a).time (s.heard a)
    refine ⟨htake, hholds, hlog, hroster, hpass, hsleeps, fun v hv hlt => ?_, fun c => ?_⟩
    · rw [hslots v hv, List.getD_eq_getElem?_getD, State.heard_sampler, List.getElem?_set_self hlt]
      rfl
    · obtain ⟨henergized, hstep⟩ := safe_quiet (congrArg Take.state htake) c
      obtain ⟨hdrive, hdir⟩ := enterSafe_outputs (arrivalOf a).time (s.heard a) c
      exact ⟨henergized, hstep, hdrive, hdir, congrFun (enterSafe_engine (arrivalOf a).time (s.heard a)) c,
        congrFun hsetup c⟩

end Sys2Proof.Machine
end

