-- ==== Sys2Proof/Proofs/HoldLineActs.lean ====
section
/-! A channel that enters STOPPING (R144, R145, R148), and the hold line's fall and rise by the take state (R131, R132, R140). -/

set_option Elab.async false

namespace Sys2Proof.Machine

variable {s : State} {c : Chan} {time : Nat} {samples : List Bool}

/-! ## The entry of STOPPING (R144, R145) -/

theorem Drive.leavingHoldPoint_playing {d : Drive} (h : d.state = .playing) : d.leavingHoldPoint = some d.playedNext := if_pos h

theorem Drive.leavingHoldPoint_other {d : Drive} (h : d.state ≠ .playing) : d.leavingHoldPoint = d.holdPoint := if_neg h

/-- The stop profile begins with the speed of the last two issued set-points. -/
theorem Drive.enterStop_moves {d : Drive} {p : Int} (hp : d.previous = some p) (hne : p ≠ d.setPoint) : d.enterStop =
    { d with state := .stopping, holdPoint := d.leavingHoldPoint, seek := none, follow := .none,
             stop := some { speed := (d.setPoint - p).natAbs, up := decide (p < d.setPoint), position := d.setPoint } } := by
  have hspeed : d.stopSpeed = (d.setPoint - p).natAbs := by rw [Drive.stopSpeed, hp]
  have hmoves : (d.setPoint - p).natAbs ≠ 0 := by omega
  unfold Drive.enterStop
  dsimp only
  rw [hspeed, if_neg hmoves, hp]
  rfl

/-- With no speed the channel is STOPPED at the entry. -/
theorem Drive.enterStop_still {d : Drive} (h : d.previous = none ∨ d.previous = some d.setPoint) : d.enterStop =
    { d with state := .stopped, holdPoint := d.leavingHoldPoint, seek := none, follow := .none, stop := none } := by
  have hspeed : d.stopSpeed = 0 := by
    rcases h with h | h
    · rw [Drive.stopSpeed, h]
    · rw [Drive.stopSpeed, h]
      dsimp only
      omega
  unfold Drive.enterStop
  dsimp only
  exact if_pos hspeed

theorem Drive.enterStop_keeps (d : Drive) : d.enterStop.setPoint = d.setPoint ∧ d.enterStop.previous = d.previous ∧
    d.enterStop.kind = d.kind ∧ d.enterStop.holdPoint = d.leavingHoldPoint ∧
    (d.enterStop.state = .stopping ∨ d.enterStop.state = .stopped) := by
  unfold Drive.enterStop
  dsimp only
  split
  · exact ⟨rfl, rfl, rfl, rfl, .inr rfl⟩
  · exact ⟨rfl, rfl, rfl, rfl, .inl rfl⟩

/-! ## The take channels stop (R132) -/

/-- A drive once a PLAYING take channel has entered STOPPING. -/
def Drive.playStopped (d : Drive) : Drive := if d.source.isSome ∧ d.state = .playing then d.enterStop else d

theorem Drive.playStopped_playing {d : Drive} (ht : d.source.isSome = true) (h : d.state = .playing) :
    d.playStopped = d.enterStop := if_pos ⟨ht, h⟩

theorem Drive.playStopped_other {d : Drive} (h : d.source.isSome = false ∨ d.state ≠ .playing) : d.playStopped = d := by
  refine if_neg fun ⟨ht, hs⟩ => ?_
  rcases h with h | h
  · exact Bool.false_ne_true (h.symm.trans ht)
  · exact h hs

theorem Drive.playStopped_setPoint (d : Drive) : d.playStopped.setPoint = d.setPoint := by
  unfold Drive.playStopped
  split
  · exact d.enterStop_keeps.1
  · rfl

theorem stopPlayings_drive (s : State) (c : Chan) : (eachChannel stopPlaying s).drive c = (s.drive c).playStopped := by
  refine eachChannel_drive stopPlaying (fun _ => Drive.playStopped) (fun c s => ?_) (fun c b s h => ?_) s c
  · unfold stopPlaying Drive.playStopped State.isTakeChannel
    split
    · exact State.drive_setDrive s c _
    · rfl
  · unfold stopPlaying
    split
    · exact State.drive_setDrive_ne s c b _ h
    · rfl

/-- STOPPING is entered with every PLAYING take channel stopped, and is HELD at once when none is STOPPING (R131, R132). -/
theorem enterStopping_stops (s : State) :
    (∀ c, (enterStopping s).drive c = (s.drive c).playStopped) ∧
    ((enterStopping s).allTake (fun d => decide (d.state ≠ .stopping)) = true →
      (enterStopping s).take = { s.take with state := .held }) ∧
    ((enterStopping s).allTake (fun d => decide (d.state ≠ .stopping)) = false →
      (enterStopping s).take = { s.take with state := .stopping }) := by
  have htake : (eachChannel stopPlaying { s with take := { s.take with state := .stopping } }).take =
      { s.take with state := .stopping } := by simp
  obtain ⟨hchannels, -, hheld, hstopping⟩ := checkRest_inStopping (congrArg Take.state htake)
  rw [htake] at hheld hstopping
  refine ⟨fun c => ?_, hheld, hstopping⟩
  rw [enterStopping, State.drive_def, hchannels, ← State.drive_def]
  exact stopPlayings_drive _ c

theorem enterStopping_holdInput (s : State) : (enterStopping s).holdInput = s.holdInput := by
  have heach (u : State) : (eachChannel stopPlaying u).holdInput = u.holdInput :=
    eachChannel_same State.holdInput stopPlaying (fun c t => by unfold stopPlaying; split <;> rfl) u
  have htake : (eachChannel stopPlaying { s with take := { s.take with state := .stopping } }).take.state = .stopping := by
    simp
  unfold enterStopping
  rcases checkRest_cases (eachChannel stopPlaying { s with take := { s.take with state := .stopping } }) with
    h | ⟨-, h⟩ | ⟨hs, -⟩
  · rw [h]
    exact heach _
  · rw [h]
    exact heach _
  · rw [htake] at hs
    cases hs

/-! ## The fall and the rise (R131, R140) -/

theorem settlesTo_iff {n : Nat} {level : Bool} : settlesTo n level samples = true ↔
    n ≤ samples.length ∧ (samples.reverse.take n).all (· == level) = true := by
  rw [settlesTo, Bool.and_eq_true, decide_eq_true_iff]

theorem execHoldFall_falls (hlen : 2 ≤ samples.length) (hin : s.holdInput = true)
    (hlow : (samples.reverse.take 2).all (· == false) = true) :
    exec (.holdFall time samples) s = .next (holdFalls { s.atTime time with holdInput := false }) :=
  congrArg Host.Outcome.next (if_pos ⟨hin, settlesTo_iff.mpr ⟨hlen, hlow⟩⟩)

theorem execHoldRise_rises (hlen : 2 ≤ samples.length) (hin : s.holdInput = false)
    (hhigh : (samples.reverse.take 2).all (· == true) = true) :
    exec (.holdRise time samples) s = .next { s.atTime time with holdInput := true } :=
  congrArg Host.Outcome.next (if_pos ⟨hin, settlesTo_iff.mpr ⟨hlen, hhigh⟩⟩)

theorem holdFalls_stands (h : s.take.state = .safe ∨ s.take.state = .idle ∨ s.take.state = .armed ∨
    s.take.state = .stopping ∨ s.take.state = .held) : holdFalls s = s := by
  rcases h with h | h | h | h | h <;> rw [holdFalls, h]

theorem holdFalls_running (h : s.take.state = .countdown ∨ s.take.state = .rolling ∨ s.take.state = .finished) :
    holdFalls s = enterStopping s := by
  rcases h with h | h | h <;> rw [holdFalls, h]

/-- While an ARM is in flight the fall goes by its phase. -/
theorem holdFalls_seeking {f : ArmFlight} (hs : s.take.state = .seeking) (hf : s.take.arm = some f) :
    (f.phase = .positioning → holdFalls s = discardArm f .aborted .abandoned s) ∧
    (f.phase = .moving → holdFalls s = unwindArm f .aborted s) ∧ (f.phase = .unwinding → holdFalls s = s) := by
  unfold holdFalls holdSeeking
  rw [hs, hf]
  refine ⟨fun h => ?_, fun h => ?_, fun h => ?_⟩
  all_goals
    dsimp only
    rw [h]

/-- Settles O51: the fall by the take state, and from a running take channel by channel; the rise. -/
theorem holdLineActsByTakeState : Obligations.HoldLineActsByTakeState := by
  intro s time samples hlen h
  refine ⟨fun hin hlow => ?_, execHoldRise_rises hlen⟩
  have hexec : exec (.holdFall time samples) s = .next (holdFalls h) := execHoldFall_falls hlen hin hlow
  rw [hexec]
  refine ⟨fun hst => ?_, fun f hs hf => ?_, fun hst => ⟨enterStopping h, ?_, ?_⟩⟩
  · rw [holdFalls_stands (s := h) hst]
  · obtain ⟨hpositioning, hmoving, hunwinding⟩ := holdFalls_seeking (s := h) hs hf
    exact ⟨fun hp => congrArg _ (hpositioning hp), fun hp => congrArg _ (hmoving hp), fun hp => congrArg _ (hunwinding hp)⟩
  · rw [holdFalls_running (s := h) hst]
  · obtain ⟨-, -, -, -, hholds, -, -, hlog, -⟩ := enterStopping_frame h
    obtain ⟨hdrive, hheld, hstopping⟩ := enterStopping_stops h
    refine ⟨enterStopping_holdInput h, hholds, hlog, hheld, hstopping, fun c => ?_⟩
    have hstopped : (enterStopping h).drive c = (s.drive c).playStopped := hdrive c
    rw [hstopped]
    refine ⟨congrFun (enterStopping_engine h) c, Drive.playStopped_setPoint _, fun ht hplay => ?_, fun hother => ?_⟩
    · rw [Drive.playStopped_playing ht hplay]
      obtain ⟨-, -, -, hpoint, hstate⟩ := Drive.enterStop_keeps (s.drive c)
      refine ⟨hpoint.trans (Drive.leavingHoldPoint_playing hplay), hstate, fun p hp hne => ?_⟩
      rw [Drive.enterStop_moves hp hne]
    · exact Drive.playStopped_other hother

end Sys2Proof.Machine
end

