-- ==== Sys2Proof/Proofs/TakesDisbanded.lean ====
section
/-! ROLL (R121), DISBAND (R129) and the unwinding of an ARM (R118): the checks, the take left for IDLE, and how motion ends. -/

set_option Elab.async false

namespace Sys2Proof.Machine

variable {s : State} {a : Activity} {m : Arrival} {c : Chan} {id l : Nat} {f : ArmFlight} {r : Result}

theorem namesTake_iff : s.namesTake id = true ↔ s.take.id ≠ 0 ∧ s.take.id = id := by
  rw [State.namesTake, Bool.and_eq_true, decide_eq_true_iff, decide_eq_true_iff]

theorem namesTake_other (h : s.take.id = 0 ∨ s.take.id ≠ id) : ¬s.namesTake id = true := fun hn => by
  obtain ⟨h0, hid⟩ := namesTake_iff.mp hn
  exact h.elim h0 (· hid)

/-! ## ROLL (R121) -/

theorem execRoll_settles (h : s.reachesAll 0x11 a) : exec (.roll a) s = .next (settleRoll (arrivalOf a) (s.heard a)) :=
  congrArg _ (receiveKind_reachesAll settleRoll h)

theorem settleRoll_elsewhere (hq : readRoll m.payload = some (id, l)) (h : s.take.id = 0 ∨ s.take.id ≠ id) :
    settleRoll m s = s := by
  rw [settleRoll, hq]
  exact if_neg (namesTake_other h)

theorem settleRoll_refused (hq : readRoll m.payload = some (id, l)) (h0 : s.take.id ≠ 0) (hid : s.take.id = id)
    (hr : s.rollCheck l = some r) : settleRoll m s = addOutcome m.sender m.seq r s := by
  rw [settleRoll, hq]
  dsimp only
  rw [if_pos (namesTake_iff.mpr ⟨h0, hid⟩), hr]

theorem settleRoll_counts (hq : readRoll m.payload = some (id, l)) (h0 : s.take.id ≠ 0) (hid : s.take.id = id)
    (hr : s.rollCheck l = none) : settleRoll m s = addOutcome m.sender m.seq .accepted (startCountdown l s) := by
  rw [settleRoll, hq]
  dsimp only
  rw [if_pos (namesTake_iff.mpr ⟨h0, hid⟩), hr]

theorem rollCheck_range (h : l < 2 ∨ 15 < l) : s.rollCheck l = some .refusedRange := if_pos h

theorem rollCheck_hold (h2 : 2 ≤ l) (h15 : l ≤ 15) (h : s.holdInput = false ∨ s.holds.flags.any = true) :
    s.rollCheck l = some .refusedHold := by
  rw [State.rollCheck, if_neg (by omega), holdFree_false h]
  rfl

/-- With the lead in range and no hold the take state is checked, then the round summary. -/
theorem rollCheck_free (h2 : 2 ≤ l) (h15 : l ≤ 15) (hin : s.holdInput = true) (hflags : s.holds.flags.any = false) :
    s.rollCheck l = if s.take.state ≠ .armed then some .refusedState
      else if s.roster.summary.current && s.roster.summary.rollReady then none else some .refusedState := by
  rw [State.rollCheck, if_neg (by omega), holdFree_iff.mpr ⟨hin, hflags⟩]
  rfl

/-! ## DISBAND with nothing in motion (R129) -/

theorem execDisband_settles (h : s.reachesAll 0x12 a) :
    exec (.disband a) s = .next (settleDisband (arrivalOf a) (s.heard a)) := congrArg _ (receiveKind_reachesAll settleDisband h)

theorem settleDisband_elsewhere (hq : readDisband m.payload = some id) (h : s.take.id = 0 ∨ s.take.id ≠ id) :
    settleDisband m s = s := by
  rw [settleDisband, hq]
  exact if_neg (namesTake_other h)

theorem settleDisband_member (hq : readDisband m.payload = some id) (h0 : s.take.id ≠ 0) (hid : s.take.id = id) :
    settleDisband m s = disbandMember m s := by
  rw [settleDisband, hq]
  exact if_pos (namesTake_iff.mpr ⟨h0, hid⟩)

theorem disbandMember_refused (h : s.take.state = .rolling ∨ s.take.state = .stopping) :
    disbandMember m s = addOutcome m.sender m.seq .refusedState s := by
  rcases h with h | h <;> rw [disbandMember, h]

theorem disbandMember_rest (h : s.take.state = .armed ∨ s.take.state = .countdown ∨ s.take.state = .finished ∨
    s.take.state = .held) : disbandMember m s = addOutcome m.sender m.seq .accepted (disbandAtRest s) := by
  rcases h with h | h | h | h <;> rw [disbandMember, h]

theorem disbandMember_seeking (hs : s.take.state = .seeking) (hf : s.take.arm = some f) :
    disbandMember m s = disbandSeeking m f s := by
  rw [disbandMember, hs, hf]

theorem disbandAtRest_take (s : State) : (disbandAtRest s).take = { s.take with
    state := .idle, id := 0, mask := [], s := 0, remaining := 0, tf := 0, committed := false, arm := none, latest := none,
    inTakeFrame := false, lastId := if s.take.committed then s.take.id else s.take.lastId } := by
  rw [disbandAtRest, leaveTake_take, parkTakeChannels_take]

theorem disbandAtRest_drive (s : State) (c : Chan) : (disbandAtRest s).drive c = { s.parkedDrive c with source := none } :=
  leftParked_drive s c

theorem disbandAtRest_drive_keeps (s : State) (c : Chan) : ((disbandAtRest s).drive c).setPoint = (s.drive c).setPoint ∧
    ((disbandAtRest s).drive c).kind = (s.drive c).kind ∧ ((disbandAtRest s).drive c).holdPoint = (s.drive c).holdPoint ∧
    ((disbandAtRest s).drive c).source = none := by
  obtain ⟨hpoint, hkind, hhold, -⟩ := parkedDrive_keeps s c
  rw [disbandAtRest_drive]
  exact ⟨hpoint, hkind, hhold, rfl⟩

theorem disbandAtRest_parks (ht : s.isTakeChannel c = true) (hp : (s.drive c).parks = true) :
    ((disbandAtRest s).drive c).state = .parked := by
  rw [disbandAtRest_drive, parkedDrive_parks ht hp]
  rfl

theorem disbandAtRest_stays (h : s.isTakeChannel c = false ∨ (s.drive c).parks = false) :
    ((disbandAtRest s).drive c).state = (s.drive c).state := by
  rw [disbandAtRest_drive, parkedDrive_stays h]

theorem Drive.parks_faulted {d : Drive} (h : d.state = .faulted) : d.parks = false := by rw [Drive.parks, h]

/-! ## DISBAND while the ARM positions (R115, R129) -/

/-- A drive once the ARM `f` is discarded: a take channel not FAULTED has its prior state, and parks when the take before
the ARM goes too. -/
theorem disbandPositioning_state (f : ArmFlight) (r : Result) (code : ScanCode) (s : State) (c : Chan) :
    ((s.drive c).state = .faulted → ((disbandAtRest (discardArm f r code s)).drive c).state = .faulted) ∧
    (s.isTakeChannel c = true → (s.drive c).state ≠ .faulted →
      (f.prior.id = 0 → ((disbandAtRest (discardArm f r code s)).drive c).state = f.priorStates.get c) ∧
      (f.prior.id ≠ 0 → f.priorStates.get c ≠ .unset → f.priorStates.get c ≠ .faulted →
        f.priorStates.get c ≠ .stopped ∨ (s.drive c).kind = none →
        ((disbandAtRest (discardArm f r code s)).drive c).state = .parked)) := by
  have hdrive := discardArm_drive f r code s c
  have hstate : ((discardArm f r code s).drive c).state = ((s.drive c).restored f.priorStates c).state := by
    rw [hdrive, Drive.discarded_state]
  refine ⟨fun hf => ?_, fun ht hf => ?_⟩
  · rw [Drive.restored_eq (.inr hf), hf] at hstate
    rw [disbandAtRest_stays (.inr (Drive.parks_faulted hstate)), hstate]
  · rw [Drive.restored_state ht hf] at hstate
    refine ⟨fun h0 => ?_, fun h0 hunset hfaulted hstopped => disbandAtRest_parks ?_ ?_⟩
    · rw [disbandAtRest_stays (.inl ?_), hstate]
      rw [State.isTakeChannel, hdrive, Drive.discarded, if_pos h0]
      rfl
    · rw [State.isTakeChannel, hdrive, Drive.discarded, if_neg h0, Drive.restored, if_pos ⟨ht, hf⟩]
      exact ht
    · rw [Drive.parks_iff, hstate, hdrive, (Drive.discarded_keeps f c _).2]
      exact ⟨hunset, hfaulted, hstopped⟩

theorem disbandPositioning_engine (f : ArmFlight) (r : Result) (code : ScanCode) (s : State) (c : Chan) :
    ((disbandAtRest (discardArm f r code s)).engine c).positioning = none ∧
    ((disbandAtRest (discardArm f r code s)).engine c).ring = (s.engine c).ring ∧
    ((disbandAtRest (discardArm f r code s)).engine c).path = (s.engine c).path := by
  obtain ⟨k, he⟩ := discardArm_engineAt f r code s c
  obtain ⟨hring, -, -, hpath⟩ := Engine.discarded_keeps code k (s.take.s * s.subBeats) (s.engine c)
  rw [disbandAtRest_engine, he]
  exact ⟨Engine.discarded_positioning .., hring, hpath⟩

/-- Hearing a message takes no outcome and no room from the port's list. -/
theorem addOutcome_heard (station seq : Nat) (r : Result) (s : State) (a : Activity) :
    (addOutcome station seq r (s.heard a)).port.outcomes = (addOutcome station seq r s).port.outcomes ∧
    (addOutcome station seq r (s.heard a)).port.overflow = (addOutcome station seq r s).port.overflow := by
  unfold addOutcome
  rw [show (s.heard a).port.outcomes = s.port.outcomes from rfl]
  split <;> exact ⟨rfl, rfl⟩

/-! ## An unwinding (R118) -/

/-- The state in which the unwinding of `f` with outcome `r` has begun. -/
def State.unwindingOf (s : State) (f : ArmFlight) (r : Result) : State :=
  addOutcome f.station f.seq r (eachChannel unwindChannel
    { s with take := { s.take with arm := some { f with phase := .unwinding } } })

theorem unwindArm_eq (f : ArmFlight) (r : Result) (s : State) : unwindArm f r s = checkRest (s.unwindingOf f r) := rfl

theorem unwindingOf_take (f : ArmFlight) (r : Result) (s : State) :
    (s.unwindingOf f r).take = { s.take with arm := some { f with phase := .unwinding } } := by
  simp [State.unwindingOf]

theorem unwindingOf_drive (f : ArmFlight) (r : Result) (s : State) (c : Chan) : (s.unwindingOf f r).drive c =
    if s.isTakeChannel c ∧ (s.drive c).state = .seeking then
      if (s.drive c).seek.isSome then (s.drive c).enterStop else { s.drive c with follow := .none }
    else s.drive c := by
  rw [State.unwindingOf, addOutcome_drive]
  exact unwindChannels_drive _ c

/-- A take channel in seek motion enters STOPPING. -/
theorem unwindingOf_moving (f : ArmFlight) (r : Result) (ht : s.isTakeChannel c = true) (hs : (s.drive c).state = .seeking)
    (hseek : (s.drive c).seek ≠ none) : (s.unwindingOf f r).drive c = (s.drive c).enterStop := by
  rw [unwindingOf_drive, if_pos ⟨ht, hs⟩, if_pos (Option.isSome_iff_ne_none.mpr hseek)]

theorem unwindingOf_begun (s : State) (f : ArmFlight) (r : Result) : s.UnwindingBegun (s.unwindingOf f r) f r where
  take := unwindingOf_take f r s
  outcome := addOutcome_port (by simp) f.station f.seq r
  moving c p ht hs hseek hp hne := by
    rw [unwindingOf_moving f r ht hs hseek, Drive.enterStop_moves hp hne,
      Drive.leavingHoldPoint_other (by rw [hs]; decide)]
  still c ht hs hseek hp := by
    rw [unwindingOf_moving f r ht hs hseek, Drive.enterStop_still hp, Drive.leavingHoldPoint_other (by rw [hs]; decide)]
  waiting c ht hs hseek := by
    rw [unwindingOf_drive, if_pos ⟨ht, hs⟩, hseek]
    rfl
  others c h := by
    rw [unwindingOf_drive, if_neg]
    rintro ⟨ht, hs⟩
    exact h.elim (fun h => Bool.false_ne_true (h.symm.trans ht)) (· hs)
  engines c := by simp [State.unwindingOf]
  rest := by simp [State.unwindingOf]

/-- An unwinding is over at once when no take channel is STOPPING. -/
theorem unwindArm_ends (hs : s.take.state = .seeking) (h : ¬(s.unwindingOf f r).someStopping) :
    (s.unwindingOf f r).Unwound (unwindArm f r s) f := by
  have htake := unwindingOf_take f r s
  rw [unwindArm_eq, checkRest_unwound h (by rw [htake]; exact hs) (by rw [htake]) rfl]
  exact endUnwinding_unwound f _

/-! ## The requests settled -/

theorem execRoll_refused (h : s.reachesAll 0x11 a) (hq : readRoll (arrivalOf a).payload = some (id, l)) (h0 : s.take.id ≠ 0)
    (hid : s.take.id = id) (hr : (s.heard a).rollCheck l = some r) :
    exec (.roll a) s = .next (State.settled a r (s.heard a)) := by
  rw [execRoll_settles h, settleRoll_refused (s := s.heard a) hq h0 hid hr]
  rfl

/-- A DISBAND of the take with nothing in motion. -/
theorem disbandAtRest_states (s : State) (c : Chan) :
    (s.isTakeChannel c = true → (s.drive c).state = .ready ∨ (s.drive c).state = .done ∨ (s.drive c).state = .seeking ∨
      ((s.drive c).state = .stopped ∧ (s.drive c).kind = none) → ((disbandAtRest s).drive c).state = .parked) ∧
    (s.isTakeChannel c = false ∨ (s.drive c).state = .faulted ∨
      ((s.drive c).state = .stopped ∧ (s.drive c).kind ≠ none) →
      ((disbandAtRest s).drive c).state = (s.drive c).state) := by
  refine ⟨fun ht h => disbandAtRest_parks ht ?_, fun h => disbandAtRest_stays ?_⟩
  · rw [Drive.parks_iff]
    rcases h with h | h | h | ⟨h, hk⟩ <;> simp [*]
  · refine h.imp_right fun h => Bool.eq_false_iff.mpr fun hp => ?_
    obtain ⟨-, hfaulted, hstopped⟩ := Drive.parks_iff.mp hp
    rcases h with h | ⟨h, hk⟩
    · exact hfaulted h
    · exact hstopped.elim (· h) hk

/-- Settles O49: ROLL by its checks, DISBAND by take state and phase, and the unwinding by what is STOPPING as it begins. -/
theorem rollAndDisband : Obligations.RollAndDisband := by
  refine ⟨fun s a id l h hq => ⟨fun hother => ?_, fun h0 hid => ?_⟩,
    fun s a id h hq => ⟨fun hother => ?_, fun h0 hid => ?_⟩,
    fun s f r hs => ⟨s.unwindingOf f r, unwindingOf_begun s f r, checkRest_goesOn, unwindArm_ends hs⟩⟩
  · rw [execRoll_settles h, settleRoll_elsewhere (s := s.heard a) hq hother]
  · refine ⟨fun hl => execRoll_refused h hq h0 hid (rollCheck_range hl), fun h2 h15 =>
      ⟨fun hhold => execRoll_refused h hq h0 hid (rollCheck_hold (s := s.heard a) h2 h15 hhold), fun hin hflags => ?_⟩⟩
    have hcheck := rollCheck_free (s := s.heard a) h2 h15 hin hflags
    refine ⟨fun hst => execRoll_refused h hq h0 hid (hcheck.trans (if_pos hst)), fun hst hready =>
      execRoll_refused h hq h0 hid (hcheck.trans ((if_neg (not_not_intro hst)).trans (if_neg ?_))), fun hst hready => ?_⟩
    · rw [Bool.and_eq_true]
      exact hready
    · rw [execRoll_settles h, settleRoll_counts (s := s.heard a) hq h0 hid
        (hcheck.trans ((if_neg (not_not_intro hst)).trans (if_pos (Bool.and_eq_true_iff.mpr hready))))]
      rfl
  · rw [execDisband_settles h, settleDisband_elsewhere (s := s.heard a) hq hother]
  · have hexec : exec (.disband a) s = .next (disbandMember (arrivalOf a) (s.heard a)) := by
      rw [execDisband_settles h, settleDisband_member (s := s.heard a) hq h0 hid]
    rw [hexec]
    refine ⟨fun hst => ?_, fun hst => ⟨disbandAtRest (s.heard a), ?_, ?_⟩, fun f hs hf => ?_⟩
    · rw [disbandMember_refused (s := s.heard a) hst]
      rfl
    · rw [disbandMember_rest (s := s.heard a) hst]
      rfl
    · obtain ⟨-, htimer, -, -, hholds, -, -, hlog, -⟩ := disbandAtRest_frame (s.heard a)
      rw [disbandAtRest_take]
      refine ⟨rfl, rfl, rfl, rfl, rfl, rfl, rfl, rfl, rfl, hholds, hlog, htimer, fun c => ?_⟩
      obtain ⟨hpoint, hkind, hhold, hsource⟩ := disbandAtRest_drive_keeps (s.heard a) c
      exact ⟨congrFun (disbandAtRest_engine (s.heard a)) c, hpoint, hkind, hhold, hsource, disbandAtRest_states (s.heard a) c⟩
    · rw [disbandMember_seeking (s := s.heard a) hs hf]
      unfold disbandSeeking
      refine ⟨fun hp => ?_, fun hp => ?_, fun hp => ?_⟩
      · rw [hp]
        refine ⟨disbandAtRest (discardArm f .aborted .abandoned (s.heard a)), rfl, ?_⟩
        obtain ⟨-, -, hport, -, hholds, -, -, hlog, -⟩ := disbandAtRest_frame (discardArm f .aborted .abandoned (s.heard a))
        obtain ⟨-, -, -, hholds', -, -, hlog', -⟩ := discardArm_frame f .aborted .abandoned (s.heard a)
        obtain ⟨houtcomes, hoverflow⟩ := addOutcome_heard f.station f.seq .aborted s a
        rw [disbandAtRest_take, discardArm_take, hport, discardArm_port, hholds, hlog, hholds', hlog']
        refine ⟨houtcomes, hoverflow, rfl, rfl, rfl, rfl, rfl, rfl, rfl, rfl, rfl, rfl, rfl, fun c => ?_⟩
        obtain ⟨hpositioning, hring, hpath⟩ := disbandPositioning_engine f .aborted .abandoned (s.heard a) c
        obtain ⟨hpoint, hkind, -, hsource⟩ := disbandAtRest_drive_keeps (discardArm f .aborted .abandoned (s.heard a)) c
        obtain ⟨hpoint', hkind'⟩ := Drive.discarded_keeps f c (s.drive c)
        rw [discardArm_drive] at hpoint hkind
        exact ⟨hpositioning, hring, hpath, hpoint.trans hpoint', hkind.trans hkind', hsource,
          disbandPositioning_state f .aborted .abandoned (s.heard a) c⟩
      · rw [hp]
        rfl
      · rw [hp]
        rfl

end Sys2Proof.Machine
end

