-- ==== Sys2Proof/Proofs/ChannelFaultsTaken.lean ====
section
/-! Soft and hard faults taken by the station (R120, R137, R144 to R148, R158, R166, R167), and the unwinding that a hard fault
ends (R118). -/

set_option Elab.async false

namespace Sys2Proof.Machine

variable {s : State} {b c : Chan} {k : FaultKind}

/-- The event at which nothing moves matters in STOPPING and SEEKING alone. -/
theorem checkRest_stands (hstopping : s.take.state ≠ .stopping) (hseeking : s.take.state ≠ .seeking) : checkRest s = s := by
  rcases checkRest_cases s with h | ⟨hs, -⟩ | ⟨hs, -⟩
  · exact h
  · exact absurd hs hstopping
  · exact absurd hs hseeking

theorem checkRest_held (h : s.take.state = .held) : checkRest s = s :=
  checkRest_stands (by rw [h]; decide) (by rw [h]; decide)

/-- In SEEKING only an unwinding can be over. -/
theorem checkRest_noUnwinding (hs : s.take.state = .seeking) (h : ∀ f, s.take.arm = some f → f.phase ≠ .unwinding) :
    checkRest s = s := by
  rcases checkRest_cases s with hc | ⟨hs', -⟩ | ⟨-, f, hf, hp, -⟩
  · exact hc
  · rw [hs] at hs'
    cases hs'
  · exact absurd hp (h f hf)

/-! ## The cause a fault raises (R137) -/

/-- Channel `c`'s drive replaced, and fault kind `k` of it raised. -/
def State.raisedBy (s : State) (c : Chan) (k : FaultKind) (d : Drive) : State :=
  raiseCause .channelFault (some c.val) (some k) (s.setDrive c d)

theorem raisedBy_drive (s : State) (c : Chan) (k : FaultKind) (d : Drive) : (s.raisedBy c k d).drive c = d := by
  rw [State.raisedBy, State.drive_def, raiseCause_channels, ← State.drive_def, State.drive_setDrive]

theorem raisedBy_chan_ne (h : b ≠ c) (s : State) (k : FaultKind) (d : Drive) : (s.raisedBy c k d).chan b = s.chan b := by
  rw [State.raisedBy, State.chan_def, raiseCause_channels, ← State.chan_def, setDrive_chan_ne h]

theorem raisedBy_engine (s : State) (c : Chan) (k : FaultKind) (d : Drive) : (s.raisedBy c k d).engine b = s.engine b := by
  simp [State.raisedBy]

theorem raisedBy_frame (s : State) (c : Chan) (k : FaultKind) (d : Drive) : (s.raisedBy c k d).take = s.take ∧
    (s.raisedBy c k d).port = s.port ∧ (s.raisedBy c k d).log = s.log ∧ (s.raisedBy c k d).timer = s.timer := by
  simp [State.raisedBy]

/-- CHANNEL_FAULT is latched in every take state but SAFE. -/
theorem raisedBy_flags (h : s.take.state ≠ .safe) (c : Chan) (k : FaultKind) (d : Drive) :
    (s.raisedBy c k d).holds.flags = { s.holds.flags with channelFault := true } := by
  have hlatches : Cause.channelFault.latchesIn (s.setDrive c d).take.state = true := decide_eq_true h
  exact raiseCause_flags hlatches _ _

/-! ## A soft fault of a PLAYING channel (R144, R145, R148, R167) -/

theorem softFault_playing (hs : s.take.state = .rolling) (hplay : (s.drive c).state = .playing) (k : FaultKind) :
    softFault c k s = s.raisedBy c k ((s.drive c).recordKind k).enterStop := by
  have hstate : ((s.drive c).recordKind k).state ≠ .stopping := by
    rw [show ((s.drive c).recordKind k).state = (s.drive c).state from rfl, hplay]
    decide
  obtain ⟨htake, -⟩ := raisedBy_frame s c k ((s.drive c).recordKind k).enterStop
  unfold softFault
  dsimp only
  rw [if_neg hstate]
  refine checkRest_stands (s := s.raisedBy c k ((s.drive c).recordKind k).enterStop) ?_ ?_ <;>
    rw [htake, hs] <;> decide

/-! ## A hard fault (R120, R158, R166) -/

/-- A drive that has taken hard fault `k` at `x`. -/
def Drive.faulted (x : Nat) (k : FaultKind) (d : Drive) : Drive := (d.holdDir x).hardFault k

/-- Hard fault `k` of channel `c` raised, before the end of motion is looked at. -/
def State.faultRaised (s : State) (c : Chan) (k : FaultKind) : State := s.raisedBy c k ((s.drive c).faulted s.clock k)

theorem faultRaised_drive (s : State) (c : Chan) (k : FaultKind) :
    (s.faultRaised c k).drive c = (s.drive c).faulted s.clock k := raisedBy_drive s c k _

theorem faultRaised_chan_ne (h : b ≠ c) (s : State) (k : FaultKind) : (s.faultRaised c k).chan b = s.chan b :=
  raisedBy_chan_ne h s k _

theorem faultRaised_frame (s : State) (c : Chan) (k : FaultKind) : (s.faultRaised c k).take = s.take ∧
    (s.faultRaised c k).port = s.port ∧ (s.faultRaised c k).log = s.log ∧ (s.faultRaised c k).timer = s.timer :=
  raisedBy_frame s c k _

theorem faultRaised_flags (h : s.take.state ≠ .safe) (c : Chan) (k : FaultKind) :
    (s.faultRaised c k).holds.flags = { s.holds.flags with channelFault := true } := raisedBy_flags h c k _

/-- An ARMED station whose take channel `c` has faulted is HELD (R120). -/
def State.heldIfArmed (s : State) (c : Chan) : State :=
  if s.take.state = .armed ∧ s.isTakeChannel c then { s with take := { s.take with state := .held } } else s

/-- A hard fault of an energized channel: the fault raised, ARMED left, then what the end of motion brings. -/
theorem hardFault_energized (h : s.energized c = true) (k : FaultKind) : hardFault c k s =
    samplerSettle (checkRest ((s.faultRaised c k).heldIfArmed c)) := if_pos h

theorem heldIfArmed_armed (hs : s.take.state = .armed) (ht : s.isTakeChannel c = true) :
    s.heldIfArmed c = { s with take := { s.take with state := .held } } := if_pos ⟨hs, ht⟩

theorem heldIfArmed_other (h : s.take.state ≠ .armed) : s.heldIfArmed c = s := if_neg fun ha => h ha.1

/-- Leaving ARMED for HELD touches the take state alone. -/
theorem heldIfArmed_frame (s : State) (c : Chan) : (s.heldIfArmed c).channels = s.channels ∧
    (s.heldIfArmed c).holds = s.holds ∧
    ((s.heldIfArmed c).take.state = s.take.state ∨ (s.heldIfArmed c).take.state = .held) := by
  unfold State.heldIfArmed
  split
  · exact ⟨rfl, rfl, .inr rfl⟩
  · exact ⟨rfl, rfl, .inl rfl⟩

theorem energized_notSafe (h : s.energized c = true) : s.take.state ≠ .safe := ((s.energized_iff c).mp h).2

/-- Outside SEEKING a hard fault changes channel `c` alone. -/
theorem hardFault_channels (h : s.energized c = true) (hs : s.take.state ≠ .seeking) (k : FaultKind) :
    (hardFault c k s).channels = (s.faultRaised c k).channels := by
  obtain ⟨htake, -⟩ := faultRaised_frame s c k
  obtain ⟨hchannels, -, hstate⟩ := heldIfArmed_frame (s.faultRaised c k) c
  rw [htake] at hstate
  rw [hardFault_energized h, samplerSettle_channels, checkRest_channels, hchannels]
  rcases hstate with hstate | hstate
  · rw [hstate]
    exact hs
  · rw [hstate]
    decide

/-- A hard fault keeps what the statement names of the drive, DIR at its level (R158, R166). -/
theorem Drive.faulted_eq (x : Nat) (k : FaultKind) (d : Drive) : d.faulted x k = { d with
    state := .faulted, kind := some k, seek := none, follow := .none, stop := none, pulses := none,
    holdPoint := if d.state = .playing then some d.playedNext else d.holdPoint,
    dirHigh := (d.faulted x k).dirHigh, dirSince := (d.faulted x k).dirSince } := rfl

theorem Drive.dirAt_faulted {x u : Nat} (h : x ≤ u) (k : FaultKind) (d : Drive) : (d.faulted x k).dirAt u = d.dirAt x :=
  Drive.dirAt_holdDir h d

/-- The cause of a hard fault is latched in whatever take state it finds. -/
theorem hardFault_flags (h : s.energized c = true) (k : FaultKind) :
    (hardFault c k s).holds.flags = { s.holds.flags with channelFault := true } := by
  obtain ⟨-, hholds, -⟩ := heldIfArmed_frame (s.faultRaised c k) c
  rw [hardFault_energized h]
  simp only [samplerSettle_frame, checkRest_frame]
  rw [hholds]
  exact faultRaised_flags (energized_notSafe h) c k

/-- A hard fault of a take channel ends ARMED (R120). -/
theorem hardFault_armed (h : s.energized c = true) (hs : s.take.state = .armed) (ht : s.isTakeChannel c = true)
    (k : FaultKind) : (hardFault c k s).take.state = .held := by
  obtain ⟨htake, -⟩ := faultRaised_frame s c k
  have hsource : (s.faultRaised c k).isTakeChannel c = true := by
    rw [State.isTakeChannel, faultRaised_drive]
    exact ht
  rw [hardFault_energized h, heldIfArmed_armed (by rw [htake, hs]) hsource, checkRest_held]
  · simp only [samplerSettle_frame]
  · rfl

/-- Where nothing waits for motion to end a hard fault leaves the take record. -/
theorem hardFault_take (h : s.energized c = true) (k : FaultKind) (harmed : s.take.state ≠ .armed)
    (hstopping : s.take.state ≠ .stopping) (hseeking : s.take.state ≠ .seeking) : (hardFault c k s).take = s.take := by
  obtain ⟨htake, -⟩ := faultRaised_frame s c k
  rw [hardFault_energized h, heldIfArmed_other (by rw [htake]; exact harmed), checkRest_stands]
  · simp only [samplerSettle_frame]
    exact htake
  · rw [htake]
    exact hstopping
  · rw [htake]
    exact hseeking

/-- In SEEKING the fault raised may end an unwinding. -/
theorem hardFault_seeking (h : s.energized c = true) (hs : s.take.state = .seeking) (k : FaultKind) :
    hardFault c k s = samplerSettle (checkRest (s.faultRaised c k)) := by
  obtain ⟨htake, -⟩ := faultRaised_frame s c k
  rw [hardFault_energized h, heldIfArmed_other (by rw [htake, hs]; decide)]

theorem samplerSettle_unwound {u t : State} {f : ArmFlight} (h : u.Unwound t f) : u.Unwound (samplerSettle t) f := by
  obtain ⟨-, -, hport, -, htake, hholds, -, hlog, -⟩ := samplerSettle_frame t
  exact h.of_same (samplerSettle_channels t) htake hport hholds hlog

/-- Settles O21: the soft fault, the hard fault outside SEEKING, and in SEEKING by whether an unwinding is over. -/
theorem softAndHardFaults : Obligations.SoftAndHardFaults := by
  refine ⟨fun s c k hs hplay => ?_, fun s c k => ⟨fun h => if_neg (by rw [h]; exact Bool.false_ne_true),
    fun h hs => ?_, fun h hs => ?_⟩⟩
  · intro d t
    have ht : t = s.raisedBy c k (d.recordKind k).enterStop := softFault_playing hs hplay k
    have hdrive : t.drive c = (d.recordKind k).enterStop := by rw [ht, raisedBy_drive]
    obtain ⟨hpoint, hprevious, hkind, hhold, -⟩ := Drive.enterStop_keeps (d.recordKind k)
    obtain ⟨htake, -⟩ := raisedBy_frame s c k (d.recordKind k).enterStop
    rw [hdrive]
    refine ⟨hkind, hhold.trans (Drive.leavingHoldPoint_playing hplay), hpoint, hprevious, fun p hp hne => ?_, fun hp => ?_,
      by rw [ht, htake], ?_, fun b hb => by rw [ht, raisedBy_chan_ne hb], by rw [ht, raisedBy_engine]⟩
    · rw [Drive.enterStop_moves (d := d.recordKind k) hp hne]
      exact ⟨rfl, rfl⟩
    · rw [Drive.enterStop_still (d := d.recordKind k) hp]
      exact ⟨rfl, rfl⟩
    · rw [ht]
      exact raisedBy_flags (by rw [hs]; decide) c k _
  · intro d t
    have hchannels : t.channels = (s.faultRaised c k).channels := hardFault_channels h hs k
    have hdrive : t.drive c = d.faulted s.clock k := by
      rw [State.drive_def, hchannels, ← State.drive_def, faultRaised_drive]
    obtain ⟨-, htimer, -, -, -, hlog, -⟩ := hardFault_frame c k s
    rw [hdrive]
    refine ⟨Drive.faulted_eq s.clock k d, fun u hu => Drive.dirAt_faulted hu k d, ?_, hardFault_flags h k,
      fun ha ht => hardFault_armed h ha ht k, fun hst => ?_, fun b hb => ?_, congrFun (hardFault_engine c k s) c, htimer, hlog⟩
    · exact State.down.energized (.inr (by rw [hdrive]; rfl))
    · rcases hst with hst | hst | hst | hst <;>
        exact hardFault_take h k (by rw [hst]; decide) (by rw [hst]; decide) hs
    · rw [State.chan_def, hchannels, ← State.chan_def, faultRaised_chan_ne hb]
  · intro d t
    obtain ⟨htake, hport, hlog, -⟩ := faultRaised_frame s c k
    have ht : t = samplerSettle (checkRest (s.faultRaised c k)) := hardFault_seeking h hs k
    have hseeking : (s.faultRaised c k).take.state = .seeking := by rw [htake, hs]
    have hstays (hu : checkRest (s.faultRaised c k) = s.faultRaised c k) :
        t.take = (s.faultRaised c k).take ∧ t.channels = (s.faultRaised c k).channels ∧
          t.holds = (s.faultRaised c k).holds := by
      rw [ht, hu]
      exact ⟨by simp only [samplerSettle_frame], samplerSettle_channels _, by simp only [samplerSettle_frame]⟩
    refine ⟨s.faultRaised c k, ?_, fun b hb => faultRaised_chan_ne hb s k, raisedBy_engine s c k _, htake,
      hport, hlog, faultRaised_flags (energized_notSafe h) c k, fun f hf hp hstop => ?_, fun hgoes => hstays ?_⟩
    · rw [faultRaised_drive]
      exact Drive.faulted_eq s.clock k d
    · rw [ht, checkRest_unwound hstop hseeking (by rw [htake, hf]) hp]
      exact samplerSettle_unwound (endUnwinding_unwound f _)
    · rcases hgoes with hnone | hsome
      · exact checkRest_noUnwinding hseeking fun f hf => hnone f (by rw [← htake, hf])
      · exact checkRest_goesOn hsome

end Sys2Proof.Machine
end

