-- ==== Sys2Proof/Proofs/TakeRolled.lean ====
section
/-! The roll (R122, R123, R148, R171, R188): the pulse that takes the countdown to 0, and the take channels at it. -/

set_option Elab.async false

namespace Sys2Proof.Machine

variable {s : State} {c : Chan} {time : Nat}

/-! ## The take channels at the roll -/

theorem rollChannel_chan (ht : s.isTakeChannel c = true) : (rollChannel c s).chan c =
    { s.chan c with drive := (s.drive c).rolled (s.setup c) (s.engine c).path.ended (s.take.s * s.subBeats) } := by
  rw [rollChannel, if_pos ht]
  exact setDrive_chan s c _

theorem rollChannel_chan_ne {d : Chan} (h : d ≠ c) (s : State) : (rollChannel d s).chan c = s.chan c := by
  unfold rollChannel
  split
  · exact setDrive_chan_ne h.symm s _
  · rfl

/-- A take channel has rolled, with `n` the take sub-beat it would play next. -/
theorem rollStart_drive (ht : s.isTakeChannel c = true) :
    ∃ n, (rollStart s).drive c = (s.drive c).rolled (s.setup c) (s.engine c).path.ended n := by
  obtain ⟨n, hn⟩ := eachChannel_chan (fun x y => ∃ n, x.drive.source.isSome = true →
      y.drive = x.drive.rolled x.setup x.engine.path.ended n) rollChannel
    (fun s => ⟨s.take.s * s.subBeats, fun h => congrArg Channel.drive (rollChannel_chan h)⟩)
    (fun d s hd => rollChannel_chan_ne hd s) { s with take := { s.take with state := .rolling, tf := s.take.s, remaining := 0 } }
  exact ⟨n, hn ht⟩

/-- Hold point and leader-done count go, the set-point stays, and the wheel counts from here (R148, R171, R188). -/
theorem Drive.rolled_keeps (d : Drive) (u : Setup) (ended : Bool) (n : Nat) : (d.rolled u ended n).holdPoint = none ∧
    (d.rolled u ended n).leaderDone = 0 ∧ (d.rolled u ended n).setPoint = d.setPoint ∧
    (d.rolled u ended n).wheelOffset = d.setPoint - wheelValue u d.wheel := by
  unfold Drive.rolled
  dsimp only
  split <;> exact ⟨rfl, rfl, rfl, rfl⟩

theorem Drive.rolled_ready {d : Drive} (h : d.state = .ready) (u : Setup) (ended : Bool) (n : Nat) :
    (d.rolled u ended n).state = if d.source = some .path ∧ ended = true then .done else .playing := by
  unfold Drive.rolled
  dsimp only
  rw [if_pos h]

theorem Drive.rolled_other {d : Drive} (h : d.state ≠ .ready) (u : Setup) (ended : Bool) (n : Nat) :
    (d.rolled u ended n).state = d.state := by
  unfold Drive.rolled
  dsimp only
  rw [if_neg h]

/-! ## The roll pulse (R122, R123) -/

/-- The take record after the roll pulse: that of the followers' turn, the frame marked; TF does not rise. -/
theorem framePulse_rollTake {e d : Nat} (hroll : (s.latchedAt e d).rolls = true) : (framePulse false e d s).take =
    (markTakeFrame (eachChannel (followerPulse (s.latchedAt e d).timer.tag)
      (beatN false true e (s.latchedAt e d)))).take := by
  rw [framePulse_eq, hroll, State.withEnded_take]
  simp only [layOutWindow_frame]
  rw [keepUnbegun_take]
  simp only [beginFrame_frame]
  rw [afterBeats_take, if_pos rfl]

/-- The roll pulse issues sub-beat N as take sub-beat S·N after the countdown (R69, R123). -/
theorem beatN_roll (e : Nat) (u : State) : beatN false true e u = issueBeat e (countDown u).subBeats
    (some ((countDown u).take.s * (countDown u).subBeats)) true (countDown u) := by
  unfold beatN
  simp only [Bool.false_eq_true, if_false, if_true]

/-- Sub-beat N of the roll pulse and the followers' turn run the take on from the roll. -/
theorem beatN_rollRuns (e tag : Nat) (u : State) :
    RunsOn (countDown u) (eachChannel (followerPulse tag) (beatN false true e u)) := by
  rw [beatN_roll]
  exact RunsOn.trans (issueBeat_runs _ _ _ _ _) (eachFollower_runs tag _)

/-- The countdown at its last frame begins the roll with TF = S. -/
theorem countDown_rolls (hs : s.take.state = .countdown) (hr : s.take.remaining ≤ 1) :
    (countDown s).take = { s.take with state := .rolling, tf := s.take.s, remaining := 0 } := by
  unfold countDown
  dsimp only
  rw [if_pos hs, if_pos (by omega), rollStart_take]

/-- While the take runs its id stands. -/
theorem RunsOn.takeId {t : State} (h : RunsOn s t) (hs : s.take.state.isRunning = true) : t.take.id = s.take.id := by
  obtain ⟨htake, -⟩ := h hs
  rw [htake]

theorem framePulse_rolls {e d : Nat} (hs : s.take.state = .countdown) (hr : s.take.remaining ≤ 1) :
    ((framePulse false e d s).take.state = .rolling ∨ (framePulse false e d s).take.state = .finished) ∧
      (framePulse false e d s).take.tf = s.take.s ∧ (framePulse false e d s).take.id = s.take.id := by
  have hut := (latchedAt_runs s e d).countdown hs
  have htake := framePulse_rollTake (s := s) (e := e) (d := d)
  generalize s.latchedAt e d = u at hut htake
  have hust : u.take.state = .countdown := by rw [hut, hs]
  have hrem : u.take.remaining ≤ 1 := by rw [hut]; exact hr
  have hroll : u.rolls = true := by
    rw [State.rolls, decide_eq_true hust, decide_eq_true hrem]
    rfl
  have hcd := countDown_rolls hust hrem
  have hruns := beatN_rollRuns e u.timer.tag u
  generalize eachChannel (followerPulse u.timer.tag) (beatN false true e u) = v at htake hruns
  generalize countDown u = w at hcd hruns
  obtain ⟨hst, htf⟩ := hruns.playing (.inl (by rw [hcd]))
  have hid := hruns.takeId (by rw [hcd]; rfl)
  rw [htake hroll, markTakeFrame_take]
  refine ⟨hst, htf.trans ?_, hid.trans ?_⟩
  · rw [hcd, hut]
  · rw [hcd, hut]

/-- ROLL_PULSE is the edge at which the countdown ends (log 3). -/
theorem execRollPulse_rolls (hs : s.take.state = .countdown)
    (h : (risingEdge time s).take.state = .rolling ∨ (risingEdge time s).take.state = .finished) :
    exec (.rollPulse time false true) s = .next (risingEdge time s) :=
  congrArg Host.Outcome.next (if_pos ⟨rfl, hs, h⟩)

/-- Settles O10: the pulse by the take record it leaves, the take channels each by its own turn. -/
theorem theRoll : Obligations.TheRoll := by
  refine ⟨fun s time ha hs hr => ?_, fun s c ht => ?_⟩
  · obtain ⟨q, -, -, hq, -⟩ := id ha
    have hedge := risingEdge_accepted ha hq
    obtain ⟨hst, htf, hid⟩ := framePulse_rolls (s := s.atTime time) (e := micros (max s.clock time))
      (d := micros (max s.clock time) - q) hs hr
    have htimer := framePulse_timer (micros (max s.clock time)) (micros (max s.clock time) - q) (s.atTime time)
    rw [← hedge] at hst htf hid htimer
    refine ⟨risingEdge time s, execRollPulse_rolls hs hst, rfl, hst, htf, hid, ?_⟩
    rw [htimer]
    rfl
  · obtain ⟨n, hdrive⟩ := rollStart_drive ht
    obtain ⟨hhold, hdone, hpoint, hwheel⟩ := Drive.rolled_keeps (s.drive c) (s.setup c) (s.engine c).path.ended n
    rw [rollStart_take, hdrive]
    exact ⟨⟨rfl, rfl⟩, hhold, hdone, hpoint, hwheel, fun hready => Drive.rolled_ready hready _ _ _,
      fun hready => Drive.rolled_other hready _ _ _⟩

end Sys2Proof.Machine
end

/-! CLEAR (R139, R141, R142, R163): the take states that take it, what it makes of each channel, and the hold line released. -/

namespace Sys2Proof.Machine

set_option Elab.async false

variable {s : State} {c : Chan} {m : Arrival}

/-! ## The hold line -/

/-- An empty hold-cause record pulls nothing (R139). -/
theorem pullsHold_of_empty (h : s.holds = HoldRecord.empty) : s.pullsHold = false := by
  rw [State.pullsHold, h]
  rfl

/-! ## One channel's turn (R142) -/

/-- The drive with no fault kind recorded. -/
def Drive.kindCleared (d : Drive) : Drive := { d with kind := none }

theorem clearChannel_faulted (h : (s.drive c).state = .faulted) :
    clearChannel c s = energize c .parked (s.setDrive c (s.drive c).kindCleared) := by
  unfold clearChannel
  dsimp only
  split
  · rfl
  · next h' => exact absurd (h.symm.trans h') (by decide)
  · next h' _ => exact absurd h h'

theorem clearChannel_stopped (h : (s.drive c).state = .stopped) :
    clearChannel c s = if s.take.state = .held ∨ s.take.state = .armed then s.setDrive c (s.drive c).kindCleared
      else s.setDrive c (s.drive c).park.kindCleared := by
  unfold clearChannel
  dsimp only
  split
  · next h' => exact absurd (h.symm.trans h') (by decide)
  · rfl
  · next _ h' => exact absurd h h'

theorem clearChannel_other (hf : (s.drive c).state ≠ .faulted) (hs : (s.drive c).state ≠ .stopped) :
    clearChannel c s = s.setDrive c (s.drive c).kindCleared := by
  unfold clearChannel
  dsimp only
  split
  · next h => exact absurd h hf
  · next h => exact absurd h hs
  · rfl

theorem clearChannel_chan_ne {d : Chan} (h : d ≠ c) (s : State) : (clearChannel d s).chan c = s.chan c := by
  by_cases hf : (s.drive d).state = .faulted
  · rw [clearChannel_faulted hf]
    exact (setDrive_chan_ne h.symm _ _).trans (setDrive_chan_ne h.symm s _)
  · by_cases hs : (s.drive d).state = .stopped
    · rw [clearChannel_stopped hs]
      split <;> exact setDrive_chan_ne h.symm s _
    · rw [clearChannel_other hf hs]
      exact setDrive_chan_ne h.symm s _

/-- The fault kind plays no part in a channel's feedback nor in the energized period it starts (R163). -/
theorem startDrive_kindCleared (s : State) (c : Chan) (st : ChanState) :
    (s.setDrive c (s.drive c).kindCleared).startDrive c st = (s.startDrive c st).kindCleared := by
  have hfeedback : (s.setDrive c (s.drive c).kindCleared).feedback c = s.feedback c := by
    unfold State.feedback
    rw [State.drive_setDrive, State.setDrive_setup, State.setDrive_sampler]
    rfl
  rw [State.startDrive, hfeedback, State.drive_setDrive]
  rfl

/-- `d` is what R142 makes of channel `c`'s drive. -/
structure State.ClearsTo (s : State) (c : Chan) (d : Drive) : Prop where
  faulted : (s.drive c).state = .faulted → d = (s.startDrive c .parked).kindCleared
  staysStopped : (s.drive c).state = .stopped → s.take.state = .held ∨ s.take.state = .armed → d = (s.drive c).kindCleared
  parks : (s.drive c).state = .stopped → s.take.state = .safe ∨ s.take.state = .idle → d = (s.drive c).park.kindCleared
  other : (s.drive c).state ≠ .faulted → (s.drive c).state ≠ .stopped → d = (s.drive c).kindCleared

theorem clearChannel_clears (c : Chan) (s : State) : s.ClearsTo c ((clearChannel c s).drive c) where
  faulted h := by rw [clearChannel_faulted h, energize_drive, startDrive_kindCleared]
  staysStopped h hs := by rw [clearChannel_stopped h, if_pos hs, State.drive_setDrive]
  parks h hs := by
    have hrest : ¬(s.take.state = .held ∨ s.take.state = .armed) := by
      rcases hs with hs | hs <;> rw [hs] <;> decide
    rw [clearChannel_stopped h, if_neg hrest, State.drive_setDrive]
  other hf hs := by rw [clearChannel_other hf hs, State.drive_setDrive]

/-! ## The four turns -/

theorem eachClear_frame (s : State) : (eachChannel clearChannel s).take = s.take ∧
    (eachChannel clearChannel s).holds = s.holds ∧ (eachChannel clearChannel s).roster = s.roster ∧
    (eachChannel clearChannel s).log = s.log ∧ (eachChannel clearChannel s).sampler = s.sampler ∧
    (eachChannel clearChannel s).engine = s.engine ∧ (eachChannel clearChannel s).setup = s.setup := by
  simp

/-- Channel `c`'s turn finds its channel, the take record and the sampler as they stood before the first turn. -/
theorem eachClear_clears (s : State) (c : Chan) : s.ClearsTo c ((eachChannel clearChannel s).drive c) := by
  obtain ⟨u, hchan, hsame, hafter⟩ := eachChannel_turn (fun t => (t.take, t.sampler)) clearChannel (fun _ _ => by simp)
    (fun _ s hd => clearChannel_chan_ne hd s) s
  obtain ⟨htake, hsampler⟩ : u.take = s.take ∧ u.sampler = s.sampler := Prod.ext_iff.mp hsame
  have hdrive : u.drive c = s.drive c := congrArg Channel.drive hchan
  obtain ⟨hfaulted, hstays, hparks, hother⟩ := clearChannel_clears c u
  rw [hdrive, startDrive_of_same hchan hsampler] at hfaulted
  rw [hdrive, htake] at hstays hparks
  rw [hdrive] at hother
  rw [State.drive, hafter]
  exact ⟨hfaulted, hstays, hparks, hother⟩

/-! ## The request (R141) -/

theorem settleClear_refused (hp : m.payload = []) (h : s.take.state.clears = false) :
    settleClear m s = (.refusedState, s) := by
  unfold settleClear
  rw [if_neg (not_not_intro hp), if_neg (Bool.eq_false_iff.mp h)]
  rfl

theorem settleClear_accepted (hp : m.payload = []) (h : s.take.state.clears = true) :
    settleClear m s = (.accepted, eachChannel clearChannel { s with holds := HoldRecord.empty }) := by
  unfold settleClear
  rw [if_neg (not_not_intro hp), if_pos h]

/-- Settles O50: the request by the take state, the drives by the four turns on the station with its record emptied. -/
theorem clearEmptiesTheHoldRecord : Obligations.ClearEmptiesTheHoldRecord := by
  refine fun s a h hp => ⟨fun hst => ?_, fun hst => ?_⟩
  · refine receiveKind_settles h (settleClear_refused (s := s.heard a) hp ?_)
    rw [State.heard_take]
    rcases hst with hst | hst | hst | hst | hst <;> rw [hst] <;> rfl
  · have hclears : (s.heard a).take.state.clears = true := by
      rw [State.heard_take]
      rcases hst with hst | hst | hst | hst <;> rw [hst] <;> rfl
    obtain ⟨htake, hholds, hroster, hlog, hsampler, hengine, hsetup⟩ :=
      eachClear_frame { s.heard a with holds := HoldRecord.empty }
    refine ⟨_, receiveKind_settles h (settleClear_accepted hp hclears), hholds, pullsHold_of_empty hholds, htake, hroster,
      hlog, hsampler, fun c => ⟨congrFun hengine c, congrFun hsetup c, ?_⟩⟩
    obtain ⟨hfaulted, hstays, hparks, hother⟩ := eachClear_clears { s.heard a with holds := HoldRecord.empty } c
    refine ⟨hfaulted, hstays, fun hd hs => ?_, hother⟩
    rw [hparks hd hs]
    exact ⟨rfl, rfl, rfl, rfl⟩

end Sys2Proof.Machine

-- ==== Sys2Proof/Proofs/LinesClamped.lean ====
section
/-! The lines (R190 to R192): what a channel's functions supply as it is energized or not, the setting a line has under its
owner, and the level an input reads. -/

set_option Elab.async false

namespace Sys2Proof.Machine

variable {s : State} {c : Chan} {i : Nat} {f : LineFunction}

/-! ## The levels a channel supplies (R191, R192) -/

theorem functionLevel_enable_iff (s : State) (c : Chan) :
    s.functionLevel c .enable = some (s.setup c).enableHigh ↔ s.energized c = true := by
  unfold State.functionLevel
  cases s.energized c <;> simp

theorem functionLevel_brake_iff (s : State) (c : Chan) :
    s.functionLevel c .brake = some (s.setup c).brakeHigh ↔ s.energized c = false := by
  unfold State.functionLevel
  cases s.energized c <;> simp

/-- No pulse is high in SAFE. -/
theorem functionLevel_step_safe (h : s.take.state = .safe) : s.functionLevel c .step = some false := by
  unfold State.functionLevel State.stepHigh
  rw [h]
  rfl

/-! ## The setting of a line under its owner -/

theorem effective_unowned (h : s.lineOwner i = .none) :
    s.effective i = { s.plainOf i with pullUp := (s.plainOf i).pullUp && !(s.plainOf i).output } := by
  unfold State.effective
  rw [h]

theorem effective_tally (h : s.lines.tally = some i) :
    s.effective i = { s.plainOf i with output := true, high := decide (s.take.state = .rolling), pullUp := false } := by
  have howner : s.lineOwner i = .tally := if_pos h
  unfold State.effective
  rw [howner]

theorem effective_outputFunction {v : Bool} (h : s.lineOwner i = .function c f) (hv : s.functionLevel c f = some v) :
    s.effective i = { s.plainOf i with output := true, high := v, pullUp := false } := by
  unfold State.effective
  rw [h]
  dsimp only
  rw [hv]

theorem effective_inputFunction (h : s.lineOwner i = .function c f) (hv : s.functionLevel c f = none) :
    s.effective i = { s.plainOf i with output := false, inputEnable := true } := by
  unfold State.effective
  rw [h]
  dsimp only
  rw [hv]

/-- An output has no pull, whoever owns the line. -/
theorem effective_output_noPull (s : State) (i : Nat) (h : (s.effective i).output = true) : (s.effective i).pullUp = false := by
  cases howner : s.lineOwner i with
  | none =>
    rw [effective_unowned howner] at h ⊢
    simp [show (s.plainOf i).output = true from h]
  | tally =>
    unfold State.effective
    rw [howner]
  | function c f =>
    cases hlevel : s.functionLevel c f with
    | some v => rw [effective_outputFunction howner hlevel]
    | none =>
      rw [effective_inputFunction howner hlevel] at h
      cases h

/-! ## The level read at a line (R190) -/

theorem inputLevel_disabled (h : (s.effective i).inputEnable = false) : s.inputLevel i = false := by
  unfold State.inputLevel
  rw [h]
  rfl

theorem inputLevel_output (he : (s.effective i).inputEnable = true) (ho : (s.effective i).output = true) :
    s.inputLevel i = s.drivenLevel i := by
  unfold State.inputLevel State.drivenLevel
  rw [he, ho]
  rfl

theorem inputLevel_input (he : (s.effective i).inputEnable = true) (ho : (s.effective i).output = false) :
    s.inputLevel i = s.pinLevel i := by
  unfold State.inputLevel
  rw [he, ho]
  rfl

theorem pinLevel_driven (h : s.lines.pins.driven.getLsbD i = true) : s.pinLevel i = s.lines.pins.level.getLsbD i := by
  unfold State.pinLevel
  rw [h]
  rfl

theorem pinLevel_pulledUp (h : s.lines.pins.driven.getLsbD i = false) (hp : (s.effective i).pullUp = true) :
    s.pinLevel i = true := by
  unfold State.pinLevel
  rw [h, hp]
  rfl

/-- Settles O58: the interlock by what is energized, the settings by the owner, the levels by how the line is set. -/
theorem clampAndInterlock : Obligations.ClampAndInterlock := by
  refine fun s c i => ⟨?_, functionLevel_enable_iff s c, functionLevel_brake_iff s c, functionLevel_step_safe, fun h => ?_,
    effective_output_noPull s i, inputLevel_disabled, inputLevel_output, fun he ho => ?_⟩
  · rw [State.energized_iff, State.down, not_or, and_assoc]
  · unfold State.drivenLevel
    rw [effective_tally h]
    exact ⟨rfl, rfl⟩
  · rw [inputLevel_input he ho]
    exact ⟨pinLevel_driven, pinLevel_pulledUp⟩

end Sys2Proof.Machine
end

