-- ==== Sys2Proof/Proofs/InputsSampled.lean ====
section
/-! The sampled inputs of a channel (R162, R165, R193): the limits after eight samples of the other level, and the counts of
the encoder and the wheel along the sequence of their pairs. -/

set_option Elab.async false

namespace Sys2Proof.Machine

variable {s : State} {c : Chan} {time : Nat} {plus active : Bool} {samples : List Bool} {old new : Bool × Bool}

/-! ## Limits -/

/-- A limit with a line, standing the other way, changes on eight samples of the new level. -/
theorem limitChanges_of (hconfigured : (s.chan c).configured = true) (hline : (s.limitLine c plus).isSome = true)
    (hstands : (s.drive c).limit plus = !active) (hlength : 8 ≤ samples.length)
    (hshows : (samples.reverse.take 8).all (· == limitLevel (s.setup c) active) = true) :
    s.limitChanges c plus active samples = true := by
  unfold State.limitChanges
  rw [hconfigured, hline, hstands, settlesTo_iff.mpr ⟨hlength, hshows⟩]
  cases active <;> rfl

theorem execLimitActive_changes (h : s.limitChanges c plus true samples = true) : exec (.limitActive time c plus samples) s =
    .next (hardFault c .limit ((s.atTime time).setDrive c ((s.drive c).setLimit plus true))) :=
  congrArg Host.Outcome.next (if_pos h)

theorem execLimitInactive_changes (h : s.limitChanges c plus false samples = true) :
    exec (.limitInactive time c plus samples) s =
      .next ((s.atTime time).setDrive c ((s.drive c).setLimit plus false)) :=
  congrArg Host.Outcome.next (if_pos h)

/-- Settles O25: each limit by its line, its standing level and the samples. -/
theorem limitInputs : Obligations.LimitInputs := by
  refine fun s time c samples hc hlength => ⟨fun hl hs hshows => ?_, fun hl hs hshows => ?_, fun hl hs hshows => ?_,
    fun hl hs hshows => ?_⟩
  · exact execLimitActive_changes (limitChanges_of (plus := true) hc hl hs hlength hshows)
  · exact execLimitActive_changes (limitChanges_of (plus := false) hc hl hs hlength hshows)
  · exact execLimitInactive_changes (limitChanges_of (plus := true) hc hl hs hlength hshows)
  · exact execLimitInactive_changes (limitChanges_of (plus := false) hc hl hs hlength hshows)

/-! ## The sequence 00, 10, 11, 01 of a pair -/

/-- Two samples of the same pair are the filtered pair. -/
theorem filterPair_same (old new : Bool × Bool) : filterPair old new new = new := by
  simp [filterPair, filterTwo]

/-- The pair that comes after `p` in the sequence. -/
def pairAfter (p : Bool × Bool) : Bool × Bool := (!p.2, p.1)

/-- How many places after `old` the pair `new` comes in the sequence. -/
def pairSteps (old new : Bool × Bool) : Nat := (pairPlace new + 4 - pairPlace old) % 4

theorem pairSteps_forward (p : Bool × Bool) : pairSteps p (pairAfter p) = 1 := by revert p; decide

theorem pairSteps_backward (p : Bool × Bool) : pairSteps (pairAfter p) p = 3 := by revert p; decide

theorem pairSteps_across (p : Bool × Bool) : pairSteps p (!p.1, !p.2) = 2 := by revert p; decide

theorem pairSteps_none (p : Bool × Bool) : pairSteps p p = 0 := by revert p; decide

theorem countPair_forward (h : pairSteps old new = 1) (n : Count) : countPair old new n = n + 1 := by
  unfold countPair
  rw [show (pairPlace new + 4 - pairPlace old) % 4 = 1 from h]
  rfl

theorem countPair_backward (h : pairSteps old new = 3) (n : Count) : countPair old new n = n - 1 := by
  unfold countPair
  rw [show (pairPlace new + 4 - pairPlace old) % 4 = 3 from h]
  rfl

theorem countPair_stands (h : pairSteps old new = 0 ∨ pairSteps old new = 2) (n : Count) : countPair old new n = n := by
  unfold countPair
  rcases h with h | h <;> rw [show (pairPlace new + 4 - pairPlace old) % 4 = _ from h] <;> rfl

theorem skips_iff : skips old new = true ↔ pairSteps old new = 2 := decide_eq_true_iff

/-! ## Encoder and wheel -/

theorem execEncoderChange_assigned (hc : (s.chan c).configured = true) (ha : (s.setup c).lines.encA.isSome = true)
    (hb : (s.setup c).lines.encB.isSome = true) (hold : (s.drive c).encPair = old) :
    exec (.encoderChange time c new new) s =
      let t := (s.atTime time).setDrive c
        { s.drive c with encPair := new, encoder := countPair old new (s.drive c).encoder }
      .next (if skips old new then hardFault c .encoderSkip t else t) := by
  refine (congrArg Host.Outcome.next (if_pos ⟨hc, ha, hb⟩)).trans ?_
  dsimp only
  rw [filterPair_same, hold]
  rfl

theorem execWheelChange_assigned (hc : (s.chan c).configured = true) (ha : (s.setup c).lines.wheelA.isSome = true)
    (hb : (s.setup c).lines.wheelB.isSome = true) (hold : (s.drive c).wheelPair = old) :
    exec (.wheelChange time c new new) s = .next ((s.atTime time).setDrive c
      { s.drive c with wheelPair := new, wheel := countPair old new (s.drive c).wheel }) := by
  refine (congrArg Host.Outcome.next (if_pos ⟨hc, ha, hb⟩)).trans ?_
  dsimp only
  rw [filterPair_same, hold]
  rfl

/-- A change that does not skip faults nothing. -/
theorem execEncoderChange_counts (hc : (s.chan c).configured = true) (ha : (s.setup c).lines.encA.isSome = true)
    (hb : (s.setup c).lines.encB.isSome = true) (hold : (s.drive c).encPair = old) (h : pairSteps old new ≠ 2) :
    exec (.encoderChange time c new new) s = .next ((s.atTime time).setDrive c
      { s.drive c with encPair := new, encoder := countPair old new (s.drive c).encoder }) := by
  rw [execEncoderChange_assigned hc ha hb hold]
  exact congrArg Host.Outcome.next (if_neg (mt skips_iff.mp h))

/-- Settles O26: both counts by the steps of the pair around the sequence. -/
theorem encoderAndWheelCount : Obligations.EncoderAndWheelCount := by
  refine fun s time c old new hc => ⟨fun ha hb hold => ⟨fun h => ?_, fun h => ?_, fun h => ?_, fun h => ?_⟩,
    fun ha hb hold => ⟨fun h => ?_, fun h => ?_, fun h => ?_, fun h => ?_⟩⟩
  · have hsteps : pairSteps old new = 1 := h ▸ pairSteps_forward old
    rw [execEncoderChange_counts hc ha hb hold (by omega), countPair_forward hsteps]
  · have hsteps : pairSteps old new = 3 := h ▸ pairSteps_backward new
    rw [execEncoderChange_counts hc ha hb hold (by omega), countPair_backward hsteps]
  · have hsteps : pairSteps old new = 2 := h ▸ pairSteps_across old
    rw [execEncoderChange_assigned hc ha hb hold, countPair_stands (.inr hsteps)]
    exact congrArg Host.Outcome.next (if_pos (skips_iff.mpr hsteps))
  · have hsteps : pairSteps old new = 0 := h ▸ pairSteps_none old
    rw [execEncoderChange_counts hc ha hb hold (by omega), countPair_stands (.inl hsteps), h, ← hold]
    exact congrArg Host.Outcome.next ((s.atTime time).setDrive_drive c)
  · rw [execWheelChange_assigned hc ha hb hold, countPair_forward (h ▸ pairSteps_forward old)]
  · rw [execWheelChange_assigned hc ha hb hold, countPair_backward (h ▸ pairSteps_backward new)]
  · rw [execWheelChange_assigned hc ha hb hold, countPair_stands (.inr (h ▸ pairSteps_across old))]
  · rw [execWheelChange_assigned hc ha hb hold, countPair_stands (.inl (h ▸ pairSteps_none old)), h, ← hold]
    exact congrArg Host.Outcome.next ((s.atTime time).setDrive_drive c)

end Sys2Proof.Machine
end

