-- ==== Sys2Proof/Proofs/PulsesScheduled.lean ====
section
/-! The step output (R158): a pulse sent, the instants of the pulses of a plan, and DIR and the plan that an issue leaves. -/

set_option Elab.async false

namespace Sys2Proof.Machine

variable {s : State} {c : Chan} {d : Drive} {p : PulsePlan} {t i u : Nat} {x : Int}

/-! ## A pulse sent -/

/-- STEP_PULSE of an energized channel with a pulse scheduled and a backlog. -/
theorem execStepPulse_sends (hp : (s.drive c).pulses = some p) (hlive : s.energized c = true)
    (hb : (s.drive c).backlog ≠ 0) :
    exec (.stepPulse c) s = .next ((s.setDrive c ((s.drive c).pulse p)).atTime p.next) := by
  change execStepPulse c s = _
  unfold execStepPulse
  rw [hp]
  exact congrArg Host.Outcome.next (if_pos ⟨hlive, hb⟩)

/-- With no backlog nothing is sent. -/
theorem execStepPulse_idle (hp : (s.drive c).pulses = some p) (hb : (s.drive c).backlog = 0) :
    exec (.stepPulse c) s = .next s := by
  change execStepPulse c s = _
  unfold execStepPulse
  rw [hp]
  exact congrArg Host.Outcome.next (if_neg fun h => h.2 hb)

/-- A pulse moves the step position up while the set-point is above it, and down else. -/
theorem Drive.pulse_eq (d : Drive) (p : PulsePlan) : d.pulse p = { d with
    stepPos := if d.stepPos < d.setPoint then d.stepPos + 1 else d.stepPos - 1, lastPulse := some p.next,
    pulses := if p.sent + 1 < p.count then some { p with sent := p.sent + 1 } else none } := by
  unfold Drive.pulse Drive.backlog
  simp only [Int.sub_pos]

/-! ## The instants of the pulses of a plan -/

theorem PulsePlan.next_spread (h : 8 * p.count ≤ p.interval) :
    p.next = p.start + p.sent * p.interval / p.count := if_pos h

theorem PulsePlan.next_dense (h : p.interval < 8 * p.count) : p.next = p.start + 8 * p.sent :=
  if_neg (Nat.not_le.mpr h)

/-- Two pulses of a plan begin at least 8 periods apart. -/
theorem PulsePlan.next_gap (hp : 0 < p.count) : p.next + 8 ≤ { p with sent := p.sent + 1 }.next := by
  by_cases h : 8 * p.count ≤ p.interval
  · have hnext : { p with sent := p.sent + 1 }.next = p.start + (p.sent + 1) * p.interval / p.count := if_pos h
    have hgap : p.sent * p.interval / p.count + 8 ≤ (p.sent + 1) * p.interval / p.count := by
      rw [← Nat.add_mul_div_right _ _ hp]
      exact Nat.div_le_div_right (by rw [Nat.add_mul p.sent 1]; omega)
    rw [PulsePlan.next_spread h, hnext]
    omega
  · have hdense : p.interval < 8 * p.count := Nat.not_le.mp h
    have hnext : { p with sent := p.sent + 1 }.next = p.start + 8 * (p.sent + 1) := if_neg h
    rw [PulsePlan.next_dense hdense, hnext]
    omega

/-! ## An issue -/

/-- The drive with set-point `x` before DIR and the pulses follow it. -/
def Drive.aimed (d : Drive) (x : Int) : Drive := { d with previous := some d.setPoint, setPoint := x }

/-- DIR first, then the pulses. -/
theorem Drive.issue_eq (t i : Nat) (x : Int) (d : Drive) :
    d.issue t i x = { (d.aimed x).setDir t with pulses := ((d.aimed x).setDir t).schedule t i } := rfl

/-- The output is free at the issue, or 8 periods after the last pulse sent began. -/
theorem Drive.outputFree_eq (t : Nat) (d : Drive) : d.outputFree t =
    match d.lastPulse with
    | some b => max t (b + 8)
    | none => t := by
  unfold Drive.outputFree
  cases d.lastPulse with
  | some b => rfl
  | none => exact Nat.max_eq_left (Nat.zero_le t)

/-- DIR has to turn for set-point `x` where the step position lies the way DIR does not stand. -/
theorem aimed_turns_iff (d : Drive) (x : Int) (t : Nat) :
    (d.aimed x).turns t = true ↔ x ≠ d.stepPos ∧ decide (d.stepPos < x) ≠ d.dirAt t := by
  have hbacklog : (d.aimed x).backlog = x - d.stepPos := rfl
  have hdir : (d.aimed x).dirAt t = d.dirAt t := rfl
  unfold Drive.turns
  rw [hbacklog, hdir, Bool.and_eq_true, decide_eq_true_iff, bne_iff_ne]
  simp only [Int.sub_pos, ne_eq, Int.sub_eq_zero]

/-- DIR turns for set-point `x` when the output is free. -/
theorem setDir_turns (h : (d.aimed x).turns t = true) : (d.aimed x).setDir t =
    { d.aimed x with dirHigh := decide (d.stepPos < x), dirSince := some (d.outputFree t) } := by
  have hup : decide (0 < (d.aimed x).backlog) = decide (d.stepPos < x) := by
    unfold Drive.backlog Drive.aimed
    simp only [Int.sub_pos]
  refine (if_pos h).trans ?_
  rw [hup]
  rfl

/-- DIR stays as it is, and a turn not yet reached is given up. -/
theorem setDir_stays (h : (d.aimed x).turns t ≠ true) : (d.aimed x).setDir t = (d.aimed x).holdDir t := if_neg h

/-- Setting DIR moves nothing else. -/
theorem Drive.setDir_keeps (t : Nat) (d : Drive) : (d.setDir t).setPoint = d.setPoint ∧ (d.setDir t).previous = d.previous ∧
    (d.setDir t).stepPos = d.stepPos ∧ (d.setDir t).lastPulse = d.lastPulse := by
  unfold Drive.setDir
  split <;> exact ⟨rfl, rfl, rfl, rfl⟩

/-- The pulses an issue schedules, DIR set: none without a backlog, else as many as it is wide. -/
theorem Drive.schedule_none (h : d.setPoint = d.stepPos) (t i : Nat) : d.schedule t i = none :=
  if_pos (by rw [Drive.backlog, h, Int.sub_self])

theorem Drive.schedule_some (h : d.setPoint ≠ d.stepPos) (t i : Nat) : d.schedule t i =
    some { start := max (d.outputFree t) ((d.dirSince.map fun u => u + 16).getD 0), interval := i,
           count := (d.setPoint - d.stepPos).natAbs, sent := 0 } :=
  if_neg (by rw [Drive.backlog]; omega)

/-- The plan of an issue that has a backlog. -/
theorem issue_pulses (h : x ≠ d.stepPos) (t i : Nat) : (d.issue t i x).pulses =
    some { start := max (d.outputFree t) ((((d.aimed x).setDir t).dirSince.map fun u => u + 16).getD 0), interval := i,
           count := (x - d.stepPos).natAbs, sent := 0 } := by
  obtain ⟨hpoint, -, hstep, hlast⟩ := (d.aimed x).setDir_keeps t
  have hfree : ((d.aimed x).setDir t).outputFree t = d.outputFree t := by
    unfold Drive.outputFree
    rw [hlast]
    rfl
  have hne : ((d.aimed x).setDir t).setPoint ≠ ((d.aimed x).setDir t).stepPos := by rw [hpoint, hstep]; exact h
  rw [Drive.issue_eq, Drive.schedule_some hne, hfree, hpoint, hstep]
  rfl

/-- Where DIR turns, it has its old level up to the turn and the new one from it on. -/
theorem issue_dirAt_turns (h : (d.aimed x).turns t = true) (i u : Nat) :
    (d.issue t i x).dirAt u = if u < d.outputFree t then d.dirAt t else decide (d.stepPos < x) := by
  obtain ⟨-, hlevel⟩ := (aimed_turns_iff d x t).mp h
  have hold : (!decide (d.stepPos < x)) = d.dirAt t := Bool.not_eq.mpr hlevel
  have hissue : (d.issue t i x).dirAt u =
      if decide (u < d.outputFree t) = true then !decide (d.stepPos < x) else decide (d.stepPos < x) := by
    rw [Drive.issue_eq, setDir_turns h]
    rfl
  rw [hissue, hold]
  simp only [decide_eq_true_eq]

/-- Where DIR does not turn, it keeps the level it has at the issue. -/
theorem issue_dirAt_stays (h : (d.aimed x).turns t ≠ true) (i : Nat) (hu : t ≤ u) :
    (d.issue t i x).dirAt u = d.dirAt t := by
  rw [Drive.issue_eq, setDir_stays h]
  exact Drive.dirAt_holdDir hu (d.aimed x)

/-- A turn of DIR already made at `t` keeps the first pulse 16 periods away; one not yet reached is given up (log 24). -/
theorem start_of_stays (h : (d.aimed x).turns t ≠ true) :
    max (d.outputFree t) ((((d.aimed x).setDir t).dirSince.map fun u => u + 16).getD 0) =
      match d.dirSince with
      | some v => if v ≤ t then max (d.outputFree t) (v + 16) else d.outputFree t
      | none => d.outputFree t := by
  have hsince : ((d.aimed x).setDir t).dirSince = d.dirSince.filter fun v => decide (v ≤ t) := by
    rw [setDir_stays h]
    rfl
  rw [hsince]
  cases d.dirSince with
  | none => exact Nat.max_eq_left (Nat.zero_le _)
  | some v =>
    by_cases hv : v ≤ t <;> simp [Option.filter, hv]

/-- Settles O23: a pulse by the side the set-point lies on, a plan by whether its pulses fit, an issue by whether DIR turns. -/
theorem stepPulses : Obligations.StepPulses := by
  refine ⟨fun s c p hp hlive => ⟨fun h => ?_, fun h => ?_, fun h => ?_⟩, fun p hp => ⟨PulsePlan.next_spread,
    PulsePlan.next_dense, PulsePlan.next_gap hp⟩, ?_⟩
  · rw [execStepPulse_sends hp hlive (by rw [Drive.backlog]; omega), Drive.pulse_eq, if_pos h]
  · rw [execStepPulse_sends hp hlive (by rw [Drive.backlog]; omega), Drive.pulse_eq, if_neg (by omega)]
  · exact execStepPulse_idle hp (by rw [Drive.backlog]; omega)
  · intro d t i x e free turns
    have hfree : d.outputFree t = free := Drive.outputFree_eq t d
    have hturns : (d.aimed x).turns t = true ↔ turns := aimed_turns_iff d x t
    obtain ⟨hpoint, hprevious, hstep, hlast⟩ := (d.aimed x).setDir_keeps t
    refine ⟨hpoint, hprevious, hstep, hlast, fun h => ?_, fun h => ⟨_, issue_pulses h t i, rfl, rfl, rfl, fun ht => ?_, fun ht => ?_⟩,
      fun ht => ⟨fun u _ hu => ?_, fun u hu => ?_⟩, fun ht u hu => issue_dirAt_stays (mt hturns.mp ht) i hu⟩
    · exact Drive.schedule_none (hpoint.trans (h.trans hstep.symm)) t i
    · rw [setDir_turns (hturns.mpr ht), hfree]
      exact Nat.max_eq_right (Nat.le_add_right free 16)
    · rw [← hfree]
      exact start_of_stays (mt hturns.mp ht)
    · rw [issue_dirAt_turns (hturns.mpr ht), if_pos (hfree ▸ hu)]
    · rw [issue_dirAt_turns (hturns.mpr ht), if_neg (by omega)]

end Sys2Proof.Machine
end

