-- ==== Sys2Proof/Proofs/SeekStepsOffered.lean ====
section
/-! The issue checks (R157, R165), the seek profile (R160), and the sub-beat of a SEEKING channel (R156, R161). -/

set_option Elab.async false

namespace Sys2Proof.Machine

variable {s t u : State} {c : Chan} {d : Drive} {v : Setup} {x : Int} {y : Seek} {e : Nat}

/-! ## The issue checks, in order -/

/-- Set-point `x` moves the drive toward an active limit (R165). -/
def Drive.towardLimit (d : Drive) (x : Int) : Prop :=
  (d.setPoint < x ∧ d.limitPlus = true) ∨ (x < d.setPoint ∧ d.limitMinus = true)

theorem offerCheck_travel (hx : x ≠ d.setPoint) (h : x < v.travelMin ∨ v.travelMax < x) :
    offerCheck d v x = some .travel := by
  unfold offerCheck
  rw [if_neg hx, if_pos h]

theorem offerCheck_stepLimit (hx : x ≠ d.setPoint) (hmin : v.travelMin ≤ x) (hmax : x ≤ v.travelMax)
    (h : v.maxStep < (x - d.setPoint).natAbs) : offerCheck d v x = some .stepLimit := by
  unfold offerCheck
  rw [if_neg hx, if_neg (by omega), if_pos h]

theorem Drive.towardLimit.moves (h : d.towardLimit x) : x ≠ d.setPoint := by
  rcases h with ⟨h, -⟩ | ⟨h, -⟩ <;> omega

theorem offerCheck_limit (hmin : v.travelMin ≤ x) (hmax : x ≤ v.travelMax) (hstep : (x - d.setPoint).natAbs ≤ v.maxStep)
    (h : d.towardLimit x) : offerCheck d v x = some .limit := by
  unfold offerCheck
  rw [if_neg h.moves, if_neg (by omega), if_neg (Nat.not_lt.mpr hstep)]
  exact if_pos h

theorem offerCheck_passes (hmin : v.travelMin ≤ x) (hmax : x ≤ v.travelMax) (hstep : (x - d.setPoint).natAbs ≤ v.maxStep)
    (h : ¬d.towardLimit x) : offerCheck d v x = none := by
  unfold offerCheck
  split
  · rfl
  · rw [if_neg (by omega), if_neg (Nat.not_lt.mpr hstep)]
    exact if_neg h

/-- The four ways of a set-point: unchanged, or stopped at the first check it fails, or passing them all. -/
theorem offerCheck_cases (d : Drive) (v : Setup) (x : Int) :
    x = d.setPoint ∨ (x ≠ d.setPoint ∧ offerCheck d v x = some .travel) ∨
    (x ≠ d.setPoint ∧ offerCheck d v x = some .stepLimit) ∨
    (d.towardLimit x ∧ offerCheck d v x = some .limit) ∨
    (offerCheck d v x = none ∧ v.travelMin ≤ x ∧ x ≤ v.travelMax ∧ (x - d.setPoint).natAbs ≤ v.maxStep ∧ ¬d.towardLimit x) := by
  by_cases hx : x = d.setPoint
  · exact .inl hx
  by_cases htravel : x < v.travelMin ∨ v.travelMax < x
  · exact .inr (.inl ⟨hx, offerCheck_travel hx htravel⟩)
  obtain ⟨hmin, hmax⟩ : v.travelMin ≤ x ∧ x ≤ v.travelMax := by omega
  by_cases hstep : v.maxStep < (x - d.setPoint).natAbs
  · exact .inr (.inr (.inl ⟨hx, offerCheck_stepLimit hx hmin hmax hstep⟩))
  rw [Nat.not_lt] at hstep
  by_cases hlimit : d.towardLimit x
  · exact .inr (.inr (.inr (.inl ⟨hlimit, offerCheck_limit hmin hmax hstep hlimit⟩)))
  · exact .inr (.inr (.inr (.inr ⟨offerCheck_passes hmin hmax hstep hlimit, hmin, hmax, hstep, hlimit⟩)))

theorem not_towardLimit_iff : ¬d.towardLimit x ↔
    (d.setPoint < x → d.limitPlus = false) ∧ (x < d.setPoint → d.limitMinus = false) := by
  simp only [Drive.towardLimit, not_or, not_and, Bool.not_eq_true]

/-- What passes: no change, or one within travel and max step that does not move toward an active limit. -/
theorem offerCheck_none_iff : offerCheck d v x = none ↔ x = d.setPoint ∨
    (v.travelMin ≤ x ∧ x ≤ v.travelMax ∧ (x - d.setPoint).natAbs ≤ v.maxStep ∧
      (d.setPoint < x → d.limitPlus = false) ∧ (x < d.setPoint → d.limitMinus = false)) := by
  rw [← not_towardLimit_iff]
  constructor
  · intro h
    rcases offerCheck_cases d v x with hx | ⟨-, hf⟩ | ⟨-, hf⟩ | ⟨-, hf⟩ | ⟨-, hpass⟩
    · exact .inl hx
    · rw [h] at hf; cases hf
    · rw [h] at hf; cases hf
    · rw [h] at hf; cases hf
    · exact .inr hpass
  · rintro (rfl | ⟨hmin, hmax, hstep, hlimit⟩)
    · exact offerCheck_same d v
    · exact offerCheck_passes hmin hmax hstep hlimit

/-- Only three faults are found at an offer. -/
theorem offerCheck_faults (d : Drive) (v : Setup) (x : Int) : offerCheck d v x = none ∨ offerCheck d v x = some .travel ∨
    offerCheck d v x = some .stepLimit ∨ offerCheck d v x = some .limit := by
  rcases offerCheck_cases d v x with rfl | ⟨-, h⟩ | ⟨-, h⟩ | ⟨-, h⟩ | ⟨h, -⟩
  · exact .inl (offerCheck_same d v)
  · exact .inr (.inl h)
  · exact .inr (.inr (.inl h))
  · exact .inr (.inr (.inr h))
  · exact .inl h

/-! ## The seek profile (R160) -/

/-- How many positive terms the sum w + (w − a) + … has. -/
def brakeTerms (w a : Nat) : Nat := (w + a - 1) / a

theorem brakeDistance_eq (w a : Nat) : brakeDistance w a =
    brakeTerms w a * w - a * (brakeTerms w a * (brakeTerms w a - 1) / 2) := rfl

theorem brakeTerms_zero (a : Nat) : brakeTerms 0 a = 0 := by
  unfold brakeTerms
  rcases Nat.eq_zero_or_pos a with rfl | ha
  · rfl
  · exact Nat.div_eq_of_lt (by omega)

/-- A speed above 0 gives one term more than the speed after it. -/
theorem brakeTerms_succ {w a : Nat} (hw : 0 < w) (ha : 0 < a) : brakeTerms w a = brakeTerms (w - a) a + 1 := by
  unfold brakeTerms
  rw [← Nat.add_div_right _ ha]
  by_cases h : a ≤ w
  · congr 1
    omega
  · rw [Nat.div_eq_of_lt_le (k := 1) (by omega) (by omega), Nat.div_eq_of_lt_le (k := 1) (by omega) (by omega)]

/-- All terms but the last lie within the speed. -/
theorem brakeTerms_mul_le (w a : Nat) : (brakeTerms w a - 1) * a ≤ w := by
  have h := Nat.div_mul_le_self (w + a - 1) a
  unfold brakeTerms
  rw [Nat.sub_one_mul]
  omega

/-- What the terms lose against w each, a·m·(m − 1)/2 in all, is no more than m·w. -/
theorem brakeLoss_le (w a : Nat) : a * (brakeTerms w a * (brakeTerms w a - 1) / 2) ≤ brakeTerms w a * w := by
  calc a * (brakeTerms w a * (brakeTerms w a - 1) / 2)
      ≤ a * (brakeTerms w a * (brakeTerms w a - 1)) := Nat.mul_le_mul_left a (Nat.div_le_self _ 2)
    _ = brakeTerms w a * ((brakeTerms w a - 1) * a) := by ring
    _ ≤ brakeTerms w a * w := Nat.mul_le_mul_left _ (brakeTerms_mul_le w a)

theorem brakeDistance_zero (a : Nat) : brakeDistance 0 a = 0 := by
  rw [brakeDistance_eq, brakeTerms_zero, Nat.zero_mul, Nat.zero_sub]

/-- One step of `w`, then the braking from `w − a`. -/
theorem brakeDistance_succ {w a : Nat} (hw : 0 < w) (ha : 0 < a) :
    brakeDistance w a = w + brakeDistance (w - a) a := by
  rw [brakeDistance_eq, brakeDistance_eq, brakeTerms_succ hw ha]
  have hloss := brakeLoss_le (w - a) a
  have hzero : w ≤ a → brakeTerms (w - a) a = 0 := fun h => by rw [Nat.sub_eq_zero_of_le h, brakeTerms_zero]
  generalize brakeTerms (w - a) a = m at hloss hzero
  rw [Nat.triangle_succ, Nat.mul_add]
  by_cases h : w ≤ a
  · rw [hzero h]
    simp
  · have hsplit : (m + 1) * w = w + (m * (w - a) + a * m) := by
      obtain ⟨b, rfl⟩ := Nat.exists_eq_add_of_le (Nat.le_of_not_le h)
      rw [Nat.add_sub_cancel_left]
      ring
    rw [hsplit]
    omega

section
variable {a vmax w dist : Nat}

/-- The speed rises where that leaves room to brake. -/
theorem seekSpeed_rises (h : brakeDistance (min (w + a) vmax) a ≤ dist) : seekSpeed a vmax w dist = min (w + a) vmax :=
  if_pos h

/-- It is held where only that leaves room. -/
theorem seekSpeed_holds (h : dist < brakeDistance (min (w + a) vmax) a) (hw : 0 < w) (hb : brakeDistance w a ≤ dist) :
    seekSpeed a vmax w dist = w := by
  unfold seekSpeed
  dsimp only
  rw [if_neg (Nat.not_le.mpr h), if_pos ⟨hw, hb⟩]

/-- It falls where neither does. -/
theorem seekSpeed_falls (h : dist < brakeDistance (min (w + a) vmax) a) (hb : w = 0 ∨ dist < brakeDistance w a) :
    seekSpeed a vmax w dist = max (w - a) (min a vmax) := by
  unfold seekSpeed
  dsimp only
  rw [if_neg (Nat.not_le.mpr h), if_neg (by omega)]

/-- The speed lies from 1 to vmax. -/
theorem seekSpeed_bounds (ha : 0 < a) (hv : 0 < vmax) (hw : w ≤ vmax) (dist : Nat) :
    1 ≤ seekSpeed a vmax w dist ∧ seekSpeed a vmax w dist ≤ vmax := by
  unfold seekSpeed
  dsimp only
  split
  · omega
  · split <;> omega

end

/-! ## A step of a seek (R160, R161) -/

/-- The speed of the next step of seek `y`. -/
def Seek.nextSpeed (y : Seek) (d : Drive) (v : Setup) : Nat :=
  seekSpeed v.seekRate v.vmax y.speed (y.target - d.setPoint).natAbs

/-- The set-point that the next step of seek `y` offers. -/
def Seek.nextPoint (y : Seek) (d : Drive) (v : Setup) : Int :=
  d.setPoint + signedStep y.up (min (y.nextSpeed d v) (y.target - d.setPoint).natAbs)

/-- The drive with the speed of the next step of seek `y`. -/
def Drive.seeksOn (d : Drive) (y : Seek) (v : Setup) : Drive := { d with seek := some { y with speed := y.nextSpeed d v } }

/-- The drive READY, its seek over. -/
def Drive.arrived (d : Drive) : Drive := { d with state := .ready, seek := none, follow := .none }

theorem becomeReady_eq (c : Chan) (s : State) : becomeReady c s = s.setDrive c (s.drive c).arrived := rfl

/-- A step that fails an issue check takes the fault. -/
theorem seekStep_faults {f : FaultKind} (h : offerCheck (u.drive c) (u.setup c) (y.nextPoint (u.drive c) (u.setup c)) = some f)
    (now : Nat) : seekStep c now y u = if f.isHard then hardFault c f u else softFault c f u := by
  unfold Seek.nextPoint Seek.nextSpeed at h
  unfold seekStep
  dsimp only
  rw [h]

/-- The next step of seek `y` issued. -/
def State.seekIssued (u : State) (c : Chan) (now : Nat) (y : Seek) : State :=
  issueSetPoint c now (y.nextPoint (u.drive c) (u.setup c)) (u.setDrive c ((u.drive c).seeksOn y (u.setup c)))

/-- A step that passes is issued; on the target a channel still SEEKING is READY. -/
theorem seekStep_issues (h : offerCheck (u.drive c) (u.setup c) (y.nextPoint (u.drive c) (u.setup c)) = none) (now : Nat) :
    seekStep c now y u =
      if ((u.seekIssued c now y).drive c).state = .seeking ∧ y.nextPoint (u.drive c) (u.setup c) = y.target then
        checkArmed (becomeReady c (u.seekIssued c now y))
      else u.seekIssued c now y := by
  unfold Seek.nextPoint Seek.nextSpeed at h
  unfold seekStep
  dsimp only
  rw [h]
  rfl

/-- The step issued without a backlog, or with STEP_BACKLOG found after it. -/
theorem seekIssued_drive (hlive : u.energized c = true) (now : Nat) (y : Seek) :
    let x := y.nextPoint (u.drive c) (u.setup c)
    let t := u.seekIssued c now y
    ((x - (u.drive c).stepPos).natAbs ≤ 2 * (u.setup c).maxStep →
      t.drive c = ((u.drive c).seeksOn y (u.setup c)).issue now u.interval x) ∧
    (2 * (u.setup c).maxStep < (x - (u.drive c).stepPos).natAbs →
      (t.drive c).state = .faulted ∧ (t.drive c).kind = some .stepBacklog ∧ (t.drive c).setPoint = x) := by
  have hup : (u.setDrive c ((u.drive c).seeksOn y (u.setup c))).energized c = true :=
    (State.energized_setDrive u ((u.drive c).seeksOn y (u.setup c)) rfl).trans hlive
  obtain ⟨hissues, hbacklog⟩ := issueSetPoint_drive now (y.nextPoint (u.drive c) (u.setup c)) hup
  rw [State.drive_setDrive, State.setup_setDrive] at hissues hbacklog
  refine ⟨fun hl => ?_, hbacklog⟩
  rw [State.seekIssued, hissues hl, State.drive_setDrive]
  rfl

/-- The drive `n` that has issued `x`, READY where `x` is the target. -/
def Seek.reached (y : Seek) (x : Int) (n : Drive) : Drive := if x = y.target then n.arrived else n

/-- A step issued without a backlog. -/
theorem seekStep_drive_issued {now : Nat} (hlive : u.energized c = true) (hseeking : (u.drive c).state = .seeking)
    (hx : y.nextPoint (u.drive c) (u.setup c) = x) (h : offerCheck (u.drive c) (u.setup c) x = none)
    (hl : (x - (u.drive c).stepPos).natAbs ≤ 2 * (u.setup c).maxStep) :
    (seekStep c now y u).drive c = y.reached x (((u.drive c).seeksOn y (u.setup c)).issue now u.interval x) := by
  obtain ⟨hissued, -⟩ := seekIssued_drive hlive now y
  obtain ⟨-, -, hstate, -⟩ := Drive.issue_same now u.interval x ((u.drive c).seeksOn y (u.setup c))
  have hsteps := seekStep_issues (hx.symm ▸ h) now
  rw [hx] at hissued hsteps
  have hstill : ((u.seekIssued c now y).drive c).state = .seeking := by
    rw [hissued hl, hstate]
    exact hseeking
  unfold Seek.reached
  rw [hsteps, ← hissued hl]
  by_cases ht : x = y.target
  · rw [if_pos ⟨hstill, ht⟩, if_pos ht, State.drive_def, checkArmed_channels, ← State.drive_def, becomeReady_eq,
      State.drive_setDrive]
  · rw [if_neg fun h => ht h.2, if_neg ht]

/-- A step issued that finds STEP_BACKLOG. -/
theorem seekStep_drive_backlog {now : Nat} (hlive : u.energized c = true)
    (hx : y.nextPoint (u.drive c) (u.setup c) = x) (h : offerCheck (u.drive c) (u.setup c) x = none)
    (hl : 2 * (u.setup c).maxStep < (x - (u.drive c).stepPos).natAbs) :
    ((seekStep c now y u).drive c).state = .faulted ∧ ((seekStep c now y u).drive c).kind = some .stepBacklog ∧
      ((seekStep c now y u).drive c).setPoint = x := by
  obtain ⟨-, hbacklog⟩ := seekIssued_drive hlive now y
  have hsteps := seekStep_issues (hx.symm ▸ h) now
  rw [hx] at hbacklog hsteps
  obtain ⟨hstate, hrest⟩ := hbacklog hl
  rw [hsteps, if_neg fun h => by rw [hstate] at h; cases h.1]
  exact ⟨hstate, hrest⟩

/-- What the offer of a seek step comes to (R156 steps 3 to 5, R161). -/
theorem seekStep_offered (hu : s.MetBy u c) (hlive : s.energized c = true) (hseeking : (s.drive c).state = .seeking)
    (ht : t.drive c = (seekStep c (e * Config.tick) y u).drive c) :
    let x := y.nextPoint (s.monitored c) (s.setup c)
    s.Offered t c x (s.monitored c) (y.reached x (s.issued e x ((s.monitored c).seeksOn y (s.setup c)))) := by
  intro x
  have hup : u.energized c = true := hu.energized.trans hlive
  have hstill : (u.drive c).state = .seeking := by rw [hu.drive]; exact hseeking
  have hx : y.nextPoint (u.drive c) (u.setup c) = x := by rw [hu.drive, hu.setup]
  have hissued := seekStep_drive_issued (now := e * Config.tick) hup hstill hx
  have hbacklog := seekStep_drive_backlog (now := e * Config.tick) hup hx
  have hfaults := fun f => faults_drive f hup
  rw [hu.drive, hu.setup, hu.interval] at hissued
  rw [hu.drive, hu.setup] at hbacklog
  rw [hu.drive] at hfaults
  refine ⟨fun hnone hl => ?_, fun hnone hl => ?_, fun f hf => ?_⟩
  · rw [ht, hissued hnone hl]
    rfl
  · rw [ht]
    exact hbacklog hnone hl
  · have hchecks : offerCheck (u.drive c) (u.setup c) (y.nextPoint (u.drive c) (u.setup c)) = some f := by
      rw [hx, hu.drive, hu.setup]
      exact hf
    rw [ht, seekStep_faults hchecks]
    exact hfaults f

/-- SUB_BEAT of a channel in seek motion is the next step of its seek. -/
theorem subBeat_seeks {k : Nat} (h : s.dueAt k e) (ha : s.alone c) (hf : s.follows c)
    (hs : (s.drive c).state = .seeking) (hy : (s.drive c).seek = some y) :
    ∃ t, exec .subBeat s = .next t ∧ t.engine c = s.engine c ∧
      t.drive c = (seekStep c (e * Config.tick) y (s.beating k e c)).drive c := by
  obtain ⟨t, hexec, hdrive, hengine, -⟩ := subBeat_alone_follows h ha hf
  obtain ⟨hd, he, -⟩ := s.beating_same k e c
  have hstep : stateBeat c (e * Config.tick) (s.takeSubBeat k) k false (s.beating k e c) =
      seekStep c (e * Config.tick) y (s.beating k e c) := by
    have hstate : ((s.beating k e c).drive c).state = .seeking := by rw [hd]; exact hs
    have hseek : ((s.beating k e c).drive c).seek = some y := by rw [hd]; exact hy
    unfold stateBeat
    rw [hstate, hseek]
  rw [hstep] at hdrive hengine
  exact ⟨t, hexec, by rw [hengine, seekStep_engine, he], hdrive⟩

/-- Settles O24: the checks in order, the profile by its three branches, and the sub-beat by the offer of its step. -/
theorem issueChecksAndSeekProfile : Obligations.IssueChecksAndSeekProfile := by
  refine ⟨fun d v x => ⟨offerCheck_none_iff, offerCheck_travel, offerCheck_stepLimit, offerCheck_limit,
    offerCheck_faults d v x⟩, ⟨brakeDistance_zero, fun w a => brakeDistance_succ, fun a vmax w dist ha hv hd hw => ?_⟩, ?_⟩
  · obtain ⟨hlow, hhigh⟩ := seekSpeed_bounds ha hv hw dist
    exact ⟨hhigh, le_min hlow hd, seekSpeed_rises, seekSpeed_holds, seekSpeed_falls⟩
  · intro s c k e y hdue halone hfollows hs hy d v dist w x n
    obtain ⟨t, hexec, hengine, hdrive⟩ := subBeat_seeks hdue halone hfollows hs hy
    have hoffered := seekStep_offered (beating_metBy s k e c) halone.1 hs hdrive
    refine ⟨t, hexec, hengine, fun hx => ?_, fun hx => ?_⟩
    · have hreached : y.reached x (s.issued e x (d.seeksOn y v)) = n := if_neg hx
      rw [← hreached]
      exact hoffered
    · have hreached : y.reached x (s.issued e x (d.seeksOn y v)) = n.arrived := if_pos hx
      change s.Offered t c x d n.arrived
      rw [← hreached]
      exact hoffered

end Sys2Proof.Machine
end

