-- ==== Sys2Proof/Proofs/FollowersAtPulses.lean ====
section
/-! A follower on its target at an accepted pulse in ROLLING (R170, R171): what sub-beat N and the other channels leave of it,
and the followers' turn. -/

set_option Elab.async false

namespace Sys2Proof.Machine

variable {s t u : State} {c d ch : Chan} {st : Nat} {x : Int} {r : Report}

/-! ## Turns of the other channels in a running take -/

/-- While the take runs, an operation leaves it running and channel `c` as it is. -/
def LeavesRunning (c : Chan) (s t : State) : Prop :=
  s.take.state.isRunning = true → t.take.state.isRunning = true ∧ t.chan c = s.chan c

theorem LeavesRunning.refl (c : Chan) (s : State) : LeavesRunning c s s := fun hs => ⟨hs, rfl⟩

theorem LeavesRunning.trans (h : LeavesRunning c s t) (k : LeavesRunning c t u) : LeavesRunning c s u := fun hs =>
  have ⟨ht, hst⟩ := h hs
  have ⟨hu, htu⟩ := k ht
  ⟨hu, htu.trans hst⟩

theorem RunsOn.isRunning (h : RunsOn s t) (hs : s.take.state.isRunning = true) : t.take.state.isRunning = true := by
  obtain ⟨-, hstate | ⟨-, hstate⟩⟩ := h hs
  · rw [hstate]
    exact hs
  · rw [hstate]
    rfl

theorem isRunning_ne_seeking (h : s.take.state.isRunning = true) : s.take.state ≠ .seeking := fun hs => by
  rw [hs] at h
  cases h

theorem isRunning_ne_safe (h : s.take.state.isRunning = true) : s.take.state ≠ .safe := fun hs => by
  rw [hs] at h
  cases h

/-- A sub-beat at another channel. -/
theorem driveBeat_leavesRunning (h : d ≠ c) (now : Nat) (n : Option Nat) (k : Nat) (first : Bool) (s : State) :
    LeavesRunning c s (driveBeat now n k first d s) := fun hs =>
  ⟨(driveBeat_runs now n k first d s).isRunning hs,
    (driveBeat_beats now n k first d s).others (isRunning_ne_seeking hs) c h.symm⟩

/-! ## A follower on its target at a sub-beat (R170) -/

/-- Channel `c` is a PLAYING follower without feedback, whose pair and step position stand at its set-point. -/
structure State.FollowsAtRest (s : State) (c : Chan) : Prop where
  playing : (s.drive c).state = .playing
  source : (s.drive c).source = some .follow
  pair : (s.drive c).follow = .pair (s.drive c).setPoint (s.drive c).setPoint
  feedback : (s.setup c).feedback = .none
  atRest : (s.drive c).stepPos = (s.drive c).setPoint

theorem State.FollowsAtRest.of_chan (h : s.FollowsAtRest c) (hc : t.chan c = s.chan c) : t.FollowsAtRest c := by
  have hdrive : t.drive c = s.drive c := congrArg Channel.drive hc
  have hsetup : t.setup c = s.setup c := congrArg Channel.setup hc
  obtain ⟨hplaying, hsource, hpair, hfeedback, hrest⟩ := h
  exact ⟨hdrive ▸ hplaying, hdrive ▸ hsource, hdrive ▸ hpair, hsetup ▸ hfeedback, hdrive ▸ hrest⟩

/-- Without feedback there is nothing to monitor (R164). -/
theorem monitor_noFeedback (h : (s.setup c).feedback = .none) : monitor c s = s := by
  unfold monitor followingError State.feedback
  rw [h]

theorem stateBeat_playing (h : (s.drive c).state = .playing) (now n k : Nat) (first : Bool) :
    stateBeat c now (some n) k first s = playBeat c now n k first s := by
  unfold stateBeat
  rw [h]

theorem playBeat_follow (h : (s.drive c).source = some .follow) (now n k : Nat) (first : Bool) :
    playBeat c now n k first s = playSetPoint c now n (followSetPoint (s.drive c) s.subBeats k) s := by
  unfold playBeat
  rw [h]

/-- What lies between the two ends of a pair at sub-beat `k` (R170). -/
theorem followSetPoint_pair {d : Drive} {a b : Int} (h : d.follow = .pair a b) (n k : Nat) :
    followSetPoint d n k = a + ((b - a) * k).tdiv n := by
  unfold followSetPoint
  rw [h]
  rfl

theorem followSetPoint_atRest {d : Drive} (h : d.follow = .pair x x) (n k : Nat) : followSetPoint d n k = x := by
  rw [followSetPoint_pair h, Int.sub_self, Int.zero_mul, Int.zero_tdiv, Int.add_zero]

/-- An unchanged set-point with no backlog is issued. -/
theorem playSetPoint_atRest (hlive : s.energized c = true) (hrest : (s.drive c).stepPos = (s.drive c).setPoint)
    (now n : Nat) : (playSetPoint c now n (s.drive c).setPoint s).chan c = { s.chan c with
      drive := { s.drive c with playedNext := n + 1 }.issue now s.interval (s.drive c).setPoint } := by
  have hup : (s.setDrive c { s.drive c with playedNext := n + 1 }).energized c = true :=
    (State.energized_setDrive s { s.drive c with playedNext := n + 1 } rfl).trans hlive
  obtain ⟨hissues, -⟩ := issueSetPoint_drive now (s.drive c).setPoint hup
  rw [State.drive_setDrive, hrest, Int.sub_self] at hissues
  unfold playSetPoint
  rw [offerCheck_same]
  dsimp only
  rw [hissues (Nat.zero_le _), setDrive_chan, setDrive_chan]
  rfl

/-- The drive `e` is `d` with an issue behind it, as far as following goes. -/
structure Drive.Held (d e : Drive) : Prop where
  state : e.state = d.state
  source : e.source = d.source
  setPoint : e.setPoint = d.setPoint
  leaderDone : e.leaderDone = d.leaderDone

/-- The own turn of a follower on its target in a running take. -/
theorem driveBeat_atRest (h : s.FollowsAtRest c) (hrun : s.take.state.isRunning = true) (now n k : Nat) (first : Bool) :
    ∃ x, (s.drive c).Held x ∧ (driveBeat now (some n) k first c s).chan c = { s.chan c with drive := x } := by
  have hlive : s.energized c = true :=
    (s.energized_iff c).mpr ⟨State.not_down h.playing (by decide), isRunning_ne_safe hrun⟩
  have hturn : driveBeat now (some n) k first c s = playSetPoint c now n (s.drive c).setPoint s := by
    unfold driveBeat
    rw [if_pos hlive, monitor_noFeedback h.feedback, stateBeat_playing h.playing, playBeat_follow h.source,
      followSetPoint_atRest h.pair]
  refine ⟨_, ?_, (congrArg (State.chan · c) hturn).trans (playSetPoint_atRest hlive h.atRest now n)⟩
  unfold Drive.issue Drive.setDir Drive.holdDir
  dsimp only
  split <;> exact ⟨rfl, rfl, rfl, rfl⟩

/-- A sub-beat carrying a take sub-beat, at the channel of a follower on its target. -/
theorem issueBeat_atRest (h : s.FollowsAtRest c) (hrun : s.take.state.isRunning = true) (e k n : Nat) (first : Bool) :
    ∃ x, (s.drive c).Held x ∧ (issueBeat e k (some n) first s).chan c = { s.chan c with drive := x } := by
  have hmet : (consumeCues (noteTakeSubBeat (some n) { s with timer := { s.timer with latest := some e } })).chan c =
      s.chan c := rfl
  have hmetRun : (consumeCues (noteTakeSubBeat (some n)
      { s with timer := { s.timer with latest := some e } })).take.state.isRunning = true := hrun
  have hafter (v : State) : (samplerTrigger (e * Config.tick) (checkFinished (consumeCues v))).chan c = v.chan c := by
    rw [State.chan_def, samplerTrigger_channels, checkFinished_channels]
    rfl
  unfold issueBeat
  dsimp only
  generalize consumeCues (noteTakeSubBeat (some n) _) = w at hmet hmetRun
  obtain ⟨u, hbefore, hturns⟩ := eachChannel_split (LeavesRunning c) (LeavesRunning.refl c) (fun _ _ _ => LeavesRunning.trans)
    (driveBeat (e * Config.tick) (some n) k first) c (fun d s hd => driveBeat_leavesRunning hd _ _ _ _ s) w
  obtain ⟨hu, huc⟩ := hbefore hmetRun
  have huchan : u.chan c = s.chan c := huc.trans hmet
  obtain ⟨x, hheld, hown⟩ := driveBeat_atRest (h.of_chan huchan) hu (e * Config.tick) n k first
  obtain ⟨-, hend⟩ := hturns ((driveBeat_runs _ _ _ _ c u).isRunning hu)
  rw [show u.drive c = s.drive c from congrArg Channel.drive huchan] at hheld
  exact ⟨x, hheld, by rw [hafter, hend, hown, huchan]⟩

/-! ## The followers' turn at a pulse (R170, R171) -/

theorem followerPulse_chan_ne (h : d ≠ c) (tag : Nat) (s : State) : (followerPulse tag d s).chan c = s.chan c := by
  unfold followerPulse
  dsimp only
  split
  · split
    · rw [becomeDone, State.chan_def, checkFinished_channels]
      exact setDrive_chan_ne h.symm s _
    · exact setDrive_chan_ne h.symm s _
  · rfl

/-- With leader-done count 2 the follower becomes DONE. -/
theorem followerPulse_done (hplaying : (s.drive c).state = .playing) (hsource : (s.drive c).source = some .follow)
    (hdone : (s.drive c).leaderDone = 2) (tag : Nat) :
    (followerPulse tag c s).drive c = { s.drive c with state := .done, follow := .none } := by
  unfold followerPulse
  dsimp only
  rw [if_pos ⟨hplaying, hsource⟩, if_pos hdone, becomeDone, State.drive_def, checkFinished_channels]
  exact State.drive_setDrive _ _ _

/-- With a lower one its pair is fixed. -/
theorem followerPulse_pair (hplaying : (s.drive c).state = .playing) (hsource : (s.drive c).source = some .follow)
    (hdone : (s.drive c).leaderDone ≠ 2) (tag : Nat) : (followerPulse tag c s).drive c = { s.drive c with
      follow := .pair (s.drive c).setPoint ((s.followGoal c tag).getD (s.drive c).setPoint) } := by
  unfold followerPulse
  dsimp only
  rw [if_pos ⟨hplaying, hsource⟩, if_neg hdone]
  exact State.drive_setDrive _ _ _

/-- The pair leads to g of the leader's set-point where the report of the frame just ended is held. -/
theorem followGoal_held (hl : (s.setup c).leader = some (st, ch)) (hr : (s.entry st).report = some r) {tag : Nat}
    (ht : (s.entry st).receivedTag = tag) :
    s.followGoal c tag = some (followValue (s.setup c) (r.channels.get ch).setPoint) := by
  unfold State.followGoal
  rw [hl]
  dsimp only
  rw [hr]
  exact if_pos ht

theorem followGoal_none (hl : (s.setup c).leader = some (st, ch)) {tag : Nat}
    (h : (s.entry st).report = none ∨ (s.entry st).receivedTag ≠ tag) : s.followGoal c tag = none := by
  unfold State.followGoal
  rw [hl]
  dsimp only
  cases hr : (s.entry st).report with
  | none => rfl
  | some r =>
    rw [hr] at h
    exact if_neg (h.resolve_left fun h => by cases h)

theorem followGoal_of_same (hc : t.setup c = s.setup c) (hr : t.roster = s.roster) (tag : Nat) :
    t.followGoal c tag = s.followGoal c tag := by
  unfold State.followGoal State.entry
  rw [hc, hr]

/-! ## What follows the followers' turn leaves the channels -/

theorem riseTF_channels (s : State) : (riseTF s).channels = s.channels := by
  unfold riseTF
  split <;> rfl

theorem lastFrameFault_channels (s : State) : (lastFrameFault s).channels = s.channels := by
  unfold lastFrameFault
  split
  · exact raiseCause_channels s .frameFault none none
  · rfl

theorem capturePulse_channels (s : State) : (capturePulse s).channels = s.channels := by
  unfold capturePulse
  split
  · exact eachChannel_same State.channels _ (fun c s => by split <;> rfl) s
  · rfl

theorem afterBeats_channels (locking rolled : Bool) (tag : Nat) (s : State) :
    (afterBeats locking rolled tag s).channels = (eachChannel (followerPulse tag) s).channels := by
  unfold afterBeats
  dsimp only
  rw [capturePulse_channels, lastFrameFault_channels, markTakeFrame_channels]
  cases rolled <;> cases locking <;> simp only [Bool.false_eq_true, if_false, if_true, riseTF_channels, closeCues_channels]

theorem layOutWindow_channels (s : State) : (layOutWindow s).channels = s.channels := by
  unfold layOutWindow
  cases s.port.join <;> rfl

/-- At a pulse the followers' turn is the last to touch a channel. -/
theorem framePulse_channels (e p : Nat) (s : State) : (framePulse false e p s).channels =
    (eachChannel (followerPulse (s.latchedAt e p).timer.tag)
      (beatN false (s.latchedAt e p).rolls e (s.latchedAt e p))).channels := by
  rw [framePulse_eq, State.withEnded_channels, layOutWindow_channels, keepUnbegun_channels]
  exact afterBeats_channels _ _ _ _

/-! ## The pulse at a follower on its target -/

/-- In ROLLING a pulse is sub-beat N, carrying a take sub-beat (R69, R73). -/
theorem beatN_rolling (h : s.take.state = .rolling) (e : Nat) :
    beatN false s.rolls e s = issueBeat e s.subBeats (some (s.take.tf * s.subBeats + s.subBeats)) false s := by
  have hnone : countDown s = s := if_neg (by rw [h]; decide)
  have hroll : s.rolls = false := by rw [State.rolls, h]; rfl
  rw [hroll, beatN_eq, hnone, takeSubBeat_running (.inl h)]

/-- A pulse in ROLLING with no sub-beat left to catch up with: the follower's turn, taken as the pulse found it but for the
issue of sub-beat N. -/
theorem framePulse_follower (h : s.FollowsAtRest c) (hr : s.take.state = .rolling) (hs : s.timer.schedule = none)
    (e p : Nat) : ∃ v : State, (s.drive c).Held (v.drive c) ∧ v.setup c = s.setup c ∧ v.engine c = s.engine c ∧
      v.roster = s.roster ∧ (framePulse false e p s).chan c = (followerPulse s.timer.tag c v).chan c := by
  have hlatched := latchedAt_complete hs e p
  have hchan : (s.latchedAt e p).chan c = s.chan c := by rw [hlatched]; rfl
  have hstate : (s.latchedAt e p).take.state = .rolling := by rw [hlatched]; exact hr
  have hroster : (s.latchedAt e p).roster = s.roster := by rw [hlatched]; rfl
  have htag : (s.latchedAt e p).timer.tag = s.timer.tag := by rw [hlatched]; rfl
  have hpulse := congrArg (Quad.get · c) (framePulse_channels e p s)
  rw [htag, beatN_rolling hstate] at hpulse
  generalize s.latchedAt e p = w at hchan hstate hroster hpulse
  obtain ⟨x, hheld, hbeat⟩ := issueBeat_atRest (h.of_chan hchan) (by rw [hstate]; rfl) e w.subBeats
    (w.take.tf * w.subBeats + w.subBeats) false
  obtain ⟨-, hbeatRoster, -⟩ := issueBeat_frame e w.subBeats (some (w.take.tf * w.subBeats + w.subBeats)) false w
  obtain ⟨v, hvchan, hvroster, hturn⟩ := eachChannel_turn State.roster (followerPulse s.timer.tag)
    (fun d v => by simp only [followerPulse_frame]) (fun d v hd => followerPulse_chan_ne hd s.timer.tag v)
    (issueBeat e w.subBeats (some (w.take.tf * w.subBeats + w.subBeats)) false w)
  have hv : v.chan c = { s.chan c with drive := x } := by rw [hvchan, hbeat, hchan]
  have hvdrive : v.drive c = x := congrArg Channel.drive hv
  rw [show w.drive c = s.drive c from congrArg Channel.drive hchan] at hheld
  refine ⟨v, hvdrive ▸ hheld, (congrArg Channel.setup hv :), (congrArg Channel.engine hv :), ?_, hpulse.trans hturn⟩
  rw [hvroster, hbeatRoster, hroster]

end Sys2Proof.Machine
end

