-- ==== Sys2Proof/Proofs/FollowersPlay.lean ====
section
/-! FOLLOWER_DONE (R171), the leader-done count of a round close (R171), and what a sub-beat offers a follower and a WHEEL
channel (R170, R188, R189). -/

set_option Elab.async false

namespace Sys2Proof.Machine

variable {s t u : State} {c ch : Chan} {time e k q st : Nat} {x : Int} {d n : Drive} {r : Report}

/-! ## The accepted pulse (R170, R171) -/

/-- FOLLOWER_DONE is the edge at which the follower becomes DONE (log 3). -/
theorem execFollowerDone_edge (hplaying : (s.drive c).state = .playing) (hsource : (s.drive c).source = some .follow)
    (hdone : ((risingEdge time s).drive c).state = .done) :
    exec (.followerDone time false true c) s = .next (risingEdge time s) :=
  congrArg Host.Outcome.next (if_pos ⟨rfl, hplaying, hsource, hdone⟩)

/-- An accepted pulse in ROLLING at a follower on its target: with leader-done count 2 it is DONE, else its pair is fixed. -/
theorem risingEdge_follower (ha : s.acceptsPulse time) (hs : s.timer.schedule = none) (hr : s.take.state = .rolling)
    (h : s.FollowsAtRest c) : ∃ x, (s.drive c).Held x ∧
      ((s.drive c).leaderDone = 2 → (risingEdge time s).drive c = { x with state := .done, follow := .none }) ∧
      ((s.drive c).leaderDone ≠ 2 → (risingEdge time s).drive c = { x with
        follow := .pair (s.drive c).setPoint ((s.followGoal c s.timer.tag).getD (s.drive c).setPoint) }) ∧
      (risingEdge time s).engine c = s.engine c := by
  obtain ⟨q, -, -, hq, -⟩ := id ha
  rw [risingEdge_accepted ha hq]
  obtain ⟨v, hheld, hsetup, hengine, hroster, hturn⟩ := framePulse_follower (h.of_chan (t := s.atTime time) rfl) hr hs
    (micros (max s.clock time)) (micros (max s.clock time) - q)
  rw [State.atTime_timer] at hturn
  have hgoal : v.followGoal c s.timer.tag = s.followGoal c s.timer.tag := followGoal_of_same hsetup hroster _
  have hplaying : (v.drive c).state = .playing := hheld.state.trans h.playing
  have hsource : (v.drive c).source = some .follow := hheld.source.trans h.source
  have hpoint : (v.drive c).setPoint = (s.drive c).setPoint := hheld.setPoint
  have hcount : (v.drive c).leaderDone = (s.drive c).leaderDone := hheld.leaderDone
  have hdrive := congrArg Channel.drive hturn
  have hleft := congrArg Channel.engine hturn
  refine ⟨v.drive c, hheld, fun hd => ?_, fun hd => ?_, ?_⟩
  · exact hdrive.trans (followerPulse_done hplaying hsource (hcount.trans hd) s.timer.tag)
  · rw [← hgoal, ← hpoint]
    exact hdrive.trans (followerPulse_pair hplaying hsource (hcount ▸ hd) s.timer.tag)
  · exact hleft.trans ((congrFun (followerPulse_engine s.timer.tag c v) c).trans hengine)

/-! ## The leader-done count of a round close (R171) -/

/-- The leader is done by the mark and the report of its entry; the state in a report is a code (R201). -/
theorem leaderIsDone_reported (hl : (s.setup c).leader = some (st, ch)) (hr : (s.entry st).report = some r) :
    s.leaderIsDone c =
      ((s.entry st).mark && decide (r.takeId = s.take.id ∧ (r.channels.get ch).state = 5)) := by
  unfold State.leaderIsDone
  rw [hl]
  dsimp only
  rw [hr, Bool.decide_and]
  rfl

theorem leaderIsDone_unmarked (hl : (s.setup c).leader = some (st, ch)) (hm : (s.entry st).mark = false) :
    s.leaderIsDone c = false := by
  unfold State.leaderIsDone
  rw [hl]
  dsimp only
  rw [hm, Bool.false_and]

/-- Whether the leader is done is read from its entry's mark and report, which ageing leaves. -/
theorem ageEntries_leaderIsDone (s : State) (c : Chan) : (ageEntries s).leaderIsDone c = s.leaderIsDone c := by
  unfold State.leaderIsDone
  simp only [ageEntries_mark, ageEntries_report]
  rfl

theorem leaderIsDone_of_same (hc : t.chan c = s.chan c) (ht : t.take = s.take) (hr : t.roster = s.roster) :
    t.leaderIsDone c = s.leaderIsDone c := by
  unfold State.leaderIsDone State.entry State.setup
  rw [hc, ht, hr]

theorem countLeaderDone_follower (hplaying : (s.drive c).state = .playing) (hsource : (s.drive c).source = some .follow) :
    ((countLeaderDone c s).drive c).leaderDone =
      if s.leaderIsDone c then min ((s.drive c).leaderDone + 1) 2 else 0 := by
  unfold countLeaderDone
  dsimp only
  rw [if_pos ⟨hplaying, hsource⟩, State.drive_setDrive]

/-- Once the round is judged, a PLAYING follower's count has risen, or is 0 again. -/
theorem counted_leaderDone (hplaying : (s.drive c).state = .playing) (hsource : (s.drive c).source = some .follow) :
    (s.counted.drive c).leaderDone = if s.leaderIsDone c then min ((s.drive c).leaderDone + 1) 2 else 0 := by
  obtain ⟨u, hchan, hsame, hturn⟩ := eachChannel_turn (c := c) (fun t : State => (t.take, t.roster)) countLeaderDone
    (fun d v => by simp only [countLeaderDone_frame]) (fun d v hd => countLeaderDone_chan_ne hd v)
    (writeSummary (ageEntries s))
  obtain ⟨htake, hroster⟩ := Prod.mk.inj hsame
  have hdrive : u.drive c = s.drive c := congrArg Channel.drive hchan
  have hdone : u.leaderIsDone c = s.leaderIsDone c :=
    (leaderIsDone_of_same (s := writeSummary (ageEntries s)) hchan htake hroster).trans (ageEntries_leaderIsDone s c)
  have hown := countLeaderDone_follower (s := u) (c := c) (by rw [hdrive]; exact hplaying) (by rw [hdrive]; exact hsource)
  rw [hdrive, hdone] at hown
  exact (congrArg (fun x : Channel => x.drive.leaderDone) hturn).trans hown

/-- A channel that parks as the take completes keeps its leader-done count. -/
theorem completeTake_leaderDone (s : State) (c : Chan) : ((completeTake s).drive c).leaderDone = (s.drive c).leaderDone := by
  by_cases h : s.take.state = .finished ∧ s.roster.summary.allFinished = true
  · rw [completeTake_completes h, leftParked_drive]
    dsimp only
    unfold State.parkedDrive
    split <;> rfl
  · rw [completeTake_stays h]

theorem closeRound_leaderDone (hplaying : (s.drive c).state = .playing) (hsource : (s.drive c).source = some .follow)
    (q : Nat) : ((closeRound q s).drive c).leaderDone =
      if s.leaderIsDone c then min ((s.drive c).leaderDone + 1) 2 else 0 := by
  have hchannels : (s.roundSettled q).channels = (s.atTime ((q + 840) * 16)).counted.channels := by
    rw [State.roundSettled, settleTag_channels, judgeRound_eq, raiseAll_channels]
  rw [closeRound_drive, completeTake_leaderDone, State.drive_def, hchannels, ← State.drive_def]
  exact counted_leaderDone (s := s.atTime ((q + 840) * 16)) hplaying hsource

/-! ## A sub-beat of a PLAYING follower or WHEEL channel (R170, R188, R189) -/

/-- An offer is said of a state by the drive it left. -/
theorem State.Offered.of_drive (h : s.Offered u c x d n) (ht : t.drive c = u.drive c) : s.Offered t c x d n := by
  obtain ⟨hissues, hbacklog, hfails⟩ := h
  exact ⟨ht ▸ hissues, ht ▸ hbacklog, ht ▸ hfails⟩

theorem playBeat_wheel (h : (s.drive c).source = some .wheel) (now n k : Nat) (first : Bool) :
    playBeat c now n k first s =
      playSetPoint c now n ((s.drive c).wheelOffset + wheelValue (s.setup c) (s.drive c).wheel) s := by
  unfold playBeat
  rw [h]

/-- SUB_BEAT of a PLAYING channel in a running take: where its source gives set-point `x`, that is what it offers. -/
theorem subBeat_offers (hdue : s.dueAt k e) (ha : s.alone c) (hf : s.follows c)
    (hrun : s.take.state = .rolling ∨ s.take.state = .finished) (hp : (s.drive c).state = .playing)
    (hx : playBeat c (e * Config.tick) (s.take.tf * s.subBeats + k) k false (s.beating k e c) =
      playSetPoint c (e * Config.tick) (s.take.tf * s.subBeats + k) x (s.beating k e c)) :
    ∃ t, exec .subBeat s = .next t ∧ t.engine c = s.engine c ∧
      s.Offered t c x (s.monitored c) (s.issued e x { s.monitored c with playedNext := s.take.tf * s.subBeats + k + 1 }) := by
  obtain ⟨t, hexec, hdrive, hengine, -⟩ := subBeat_alone_follows hdue ha hf
  obtain ⟨hd, he, hu, -, hi, hlive, -⟩ := s.beating_same k e c
  rw [takeSubBeat_running hrun, stateBeat_playing (by rw [hd]; exact hp), hx] at hdrive hengine
  have hoffered := playSetPoint_offered (s := s) (e * Config.tick) (s.take.tf * s.subBeats + k) x
    (congrFun hu c) (hlive.trans ha.1)
  rw [hd, hi] at hoffered
  exact ⟨t, hexec, by rw [hengine, playSetPoint_engine, he], hoffered.of_drive hdrive⟩

/-- Settles O27: the pulse by the leader-done count, the round close by the leader's report, the sub-beat by the source. -/
theorem followerBecomesDone : Obligations.FollowerBecomesDone := by
  refine ⟨fun s time c ha hschedule hrolling hplaying hsource hpair hfeedback hrest => ?_, ?_, ?_⟩
  · obtain ⟨x, hheld, hdone, hgoes, hengine⟩ :=
      risingEdge_follower ha hschedule hrolling ⟨hplaying, hsource, hpair, hfeedback, hrest⟩
    refine ⟨fun h => ?_, fun h st ch hl => ?_⟩
    · have hdrive := hdone h
      have hstate : ((risingEdge time s).drive c).state = .done := by rw [hdrive]
      refine ⟨_, execFollowerDone_edge hplaying hsource hstate, rfl, hstate, ?_, hengine⟩
      rw [hdrive]
      exact hheld.setPoint
    · have hdrive := hgoes h
      refine ⟨risingEdge time s, rfl, ?_, fun r hr htag => ?_, fun hnone => ?_⟩
      · rw [hdrive]
        exact hheld.state.trans hplaying
      · rw [hdrive, followGoal_held hl hr htag]
        rfl
      · rw [hdrive, followGoal_none hl hnone]
        rfl
  · intro s q st c ch hw hq hplaying hsource hl done
    have hcount := closeRound_leaderDone hplaying hsource q
    refine ⟨_, execRoundClose_eq hw hq, fun r hm hr hd => ?_, fun h => ?_⟩
    · have hdone : s.leaderIsDone c = true := by rw [leaderIsDone_reported hl hr, hm, decide_eq_true hd, Bool.and_self]
      rw [hcount, hdone, if_pos rfl]
    · have hnot : s.leaderIsDone c = false := by
        rcases h with hm | ⟨r, hr, hd⟩
        · exact leaderIsDone_unmarked hl hm
        · rw [leaderIsDone_reported hl hr, decide_eq_false hd, Bool.and_false]
      rw [hcount, hnot, if_neg Bool.false_ne_true]
  · intro s c k e hdue ha hf hrun hp d offers
    obtain ⟨hd, -, hu, -, -, -, hsub, -⟩ := s.beating_same k e c
    refine ⟨fun a b hsource hpair => subBeat_offers hdue ha hf hrun hp ?_, fun hsource => subBeat_offers hdue ha hf hrun hp ?_⟩
    · have hbeat : ((s.beating k e c).drive c).follow = .pair a b := by rw [hd]; exact hpair
      rw [playBeat_follow (by rw [hd]; exact hsource), followSetPoint_pair hbeat, hsub]
    · rw [playBeat_wheel (by rw [hd]; exact hsource), hd, hu]
      rfl

end Sys2Proof.Machine
end

