-- ==== Sys2Proof/Proofs/WakeEnded.lean ====
section
/-! WAKE_END (R174, R177): the converter woken begins the work that waits for it, and nothing but the sampler and the clock
changes. -/

set_option Elab.async false

namespace Sys2Proof.Machine

variable {s : State} {t : Nat}

/-- The converter's next conversion is a change of the sampler alone. -/
theorem samplerBegin_eq (x : Nat) (s : State) :
    samplerBegin x s = { s with sampler := (samplerBegin x s).sampler } := by
  unfold samplerBegin
  split
  · rfl
  · split <;> rfl

/-- The state in which the converter, its wake over at `t`, looks for work. -/
def State.woken (s : State) (t : Nat) : State :=
  { s.atTime t with sampler := { s.sampler with waking := none } }

/-- The end of a wake frees the converter, and moves the clock to its instant. -/
theorem execWakeEnd_eq (h : s.sampler.waking = some t) : exec .wakeEnd s =
    .next { s.atTime t with sampler := (samplerBegin t (s.woken t)).sampler } := by
  have hexec : exec .wakeEnd s = .next (samplerBegin t (s.woken t)) := by
    change execWakeEnd s = _
    unfold execWakeEnd
    rw [h]
    rfl
  exact hexec.trans (congrArg Host.Outcome.next (samplerBegin_eq t (s.woken t)))

theorem woken_sweepSet (s : State) (t : Nat) : sweepSet (s.woken t) = sweepSet s := sweepSet_of_same rfl rfl

/-- Settles O52: the wake's end by what waits, the pass, the single, or neither. -/
theorem wakeBeginsTheWaitingWork : Obligations.WakeBeginsTheWaitingWork := by
  intro s t hwaking began
  rw [execWakeEnd_eq hwaking]
  refine ⟨fun n rest hp => ?_, fun x hp hx => ?_, fun hp hx => ?_⟩
  · rw [samplerBegin_pass (s := s.woken t) hp]
    rfl
  · rw [samplerBegin_single (s := s.woken t) (.inl hp) hx]
    rfl
  · rw [samplerBegin_idles (s := s.woken t) (.inl hp) hx, woken_sweepSet, ← hp]
    rfl

end Sys2Proof.Machine
end

