-- ==== Sys2Proof/Proofs/CapturesLogged.lean ====
section
/-! The Capture Log at a pulse (R183 to R185): the entry offered, the entries of a capturing pulse in channel order, and the
place of the capture in an accepted pulse, behind all that it reads. -/

set_option Elab.async false

namespace Sys2Proof.Machine

variable {s t : State} {l : CaptureLog}

/-! ## An entry offered (R185) -/

theorem offerCapture_room (h : l.entries.length < 512) (x : CaptureEntry) :
    offerCapture x l = { l with entries := l.entries ++ [x] } := if_pos h

/-- The first entry lost sets the gap and fixes its frame. -/
theorem offerCapture_firstLoss (h : 512 ≤ l.entries.length) (hgap : l.gap = false) (x : CaptureEntry) :
    offerCapture x l = { l with gap := true, firstGap := some x.tf } := by
  have hfull : ¬l.entries.length < Config.logLimit := Nat.not_lt.mpr h
  rw [offerCapture, if_neg hfull, hgap, if_neg Bool.false_ne_true]

/-- A later loss finds the gap set, and leaves the log. -/
theorem offerCapture_laterLoss (h : 512 ≤ l.entries.length) (hgap : l.gap = true) (x : CaptureEntry) :
    offerCapture x l = l := by
  have hfull : ¬l.entries.length < Config.logLimit := Nat.not_lt.mpr h
  rw [offerCapture, if_neg hfull, if_pos hgap]

/-! ## A capturing pulse (R184) -/

/-- The Capture Log with more entries behind its own. -/
def CaptureLog.extended (l : CaptureLog) (es : List CaptureEntry) : CaptureLog := { l with entries := l.entries ++ es }

theorem CaptureLog.extended_nil (l : CaptureLog) : l.extended [] = l :=
  congrArg (fun es => { l with entries := es }) (List.append_nil l.entries)

theorem CaptureLog.extended_extended (l : CaptureLog) (xs ys : List CaptureEntry) :
    (l.extended xs).extended ys = l.extended (xs ++ ys) :=
  congrArg (fun es => { l with entries := es }) (List.append_assoc l.entries xs ys)

/-- The Capture Log replaced: nothing that a capture reads. -/
def State.withLog (s : State) (l : CaptureLog) : State := { s with log := l }

/-- Channel `c`'s turn at a capturing pulse. -/
def captureTurn (c : Chan) (s : State) : State :=
  if s.captures c then s.withLog (offerCapture (s.captureEntry c) s.log) else s

/-- The entries of the channels `cs` that capture, in their order. -/
def State.capturesOf (s : State) (cs : List Chan) : List CaptureEntry := (cs.filter s.captures).map s.captureEntry

theorem capturesOf_cons (s : State) (c : Chan) (cs : List Chan) :
    s.capturesOf (c :: cs) = (if s.captures c then [s.captureEntry c] else []) ++ s.capturesOf cs := by
  unfold State.capturesOf
  split
  case isTrue h => rw [List.filter_cons_of_pos h]; rfl
  case isFalse h => rw [List.filter_cons_of_neg h]; rfl

/-- With room for one entry, a channel's turn puts its entry, where it captures, behind those that stand. -/
theorem captureTurn_room (h : s.log.entries.length < 512) (c : Chan) :
    captureTurn c s = s.withLog (s.log.extended (if s.captures c then [s.captureEntry c] else [])) := by
  unfold captureTurn
  split
  · rw [offerCapture_room h]
    rfl
  · rw [CaptureLog.extended_nil]
    rfl

/-- With room for an entry of each, the turns of several channels give the entries of those that capture. -/
theorem foldl_captureTurn (cs : List Chan) (s : State) (h : s.log.entries.length + cs.length ≤ 512) :
    cs.foldl (fun u c => captureTurn c u) s = s.withLog (s.log.extended (s.capturesOf cs)) := by
  induction cs generalizing s with
  | nil => exact congrArg s.withLog (CaptureLog.extended_nil s.log).symm
  | cons c cs ih =>
    rw [List.length_cons] at h
    rw [List.foldl_cons, captureTurn_room (by omega), capturesOf_cons]
    generalize hes : (if s.captures c then [s.captureEntry c] else []) = es
    have hone : es.length ≤ 1 := by rw [← hes]; split; exacts [Nat.le_refl 1, Nat.zero_le 1]
    have hroom : (s.log.entries ++ es).length + cs.length ≤ 512 := by rw [List.length_append]; omega
    calc cs.foldl (fun u c => captureTurn c u) (s.withLog (s.log.extended es))
        = s.withLog ((s.log.extended es).extended (s.capturesOf cs)) := ih (s.withLog (s.log.extended es)) hroom
      _ = s.withLog (s.log.extended (es ++ s.capturesOf cs)) := by rw [CaptureLog.extended_extended]

/-- A pulse in ROLLING or FINISHED with room for four entries logs every channel that captures. -/
theorem capturePulse_captures (hs : s.take.state = .rolling ∨ s.take.state = .finished) (h : s.log.entries.length ≤ 508) :
    capturePulse s = s.withLog (s.log.extended (s.capturesOf allChannels)) := by
  have hturns : capturePulse s = allChannels.foldl (fun u c => captureTurn c u) s := if_pos hs
  rw [hturns, foldl_captureTurn allChannels s (Nat.add_le_add_right h 4)]

/-- A pulse in any other take state captures nothing. -/
theorem capturePulse_noCapture (hr : s.take.state ≠ .rolling) (hf : s.take.state ≠ .finished) : capturePulse s = s :=
  if_neg (not_or.mpr ⟨hr, hf⟩)

/-! ## The capture within an accepted pulse -/

/-- `t` has the take record, the channels and the sampler that a capture in `s` reads, and its log. -/
def State.SameCapture (s t : State) : Prop :=
  t.take = s.take ∧ t.channels = s.channels ∧ t.sampler = s.sampler ∧ t.log = s.log

theorem State.SameCapture.capturesOf (h : s.SameCapture t) (cs : List Chan) : t.capturesOf cs = s.capturesOf cs := by
  obtain ⟨htake, hchannels, hsampler, -⟩ := h
  have hchan : t.chan = s.chan := congrArg Quad.get hchannels
  have hcaptures : t.captures = s.captures := by
    funext c
    rw [State.captures, State.setup, State.drive, hchan]
    rfl
  have hentry : t.captureEntry = s.captureEntry := by
    funext c
    rw [State.captureEntry, feedback_of_same (congrFun hchan c) hsampler, htake, State.drive, hchan]
    rfl
  rw [State.capturesOf, hcaptures, hentry]
  rfl

/-- What follows sub-beat N ends with the capture, and nothing of it before then touches the log (R184). -/
theorem afterBeats_capture (locking rolled : Bool) (tag : Nat) (s : State) :
    ∃ u, u.log = s.log ∧ afterBeats locking rolled tag s = capturePulse u := by
  have hturns : (eachChannel (followerPulse tag) s).log = s.log := eachChannel_log _ s fun c v => by
    simp only [followerPulse_frame]
  refine ⟨_, ?_, rfl⟩
  simp only [lastFrameFault_frame, markTakeFrame_log]
  cases rolled <;> cases locking <;>
    simp only [Bool.false_eq_true, if_false, if_true, riseTF_frame, closeCues_log, hturns]

/-- What begins the frame behind the capture leaves it as it stands. -/
theorem layOutFrame_sameCapture (e d : Nat) (w : Option EndedWindow) (v : State) :
    v.SameCapture ((layOutWindow (keepUnbegun (beginFrame e d v))).withEnded w) := by
  refine ⟨?_, ?_, ?_, ?_⟩
  · simp only [State.withEnded_take, layOutWindow_frame, keepUnbegun_take, beginFrame_frame]
  · rw [State.withEnded_channels, layOutWindow_channels, keepUnbegun_channels]
    rfl
  · simp only [State.withEnded_sampler, layOutWindow_frame, keepUnbegun_sampler, beginFrame_frame]
  · simp only [State.withEnded_log, layOutWindow_frame, keepUnbegun_log, beginFrame_frame]

/-- A pulse captures into the log it found, and leaves what the capture read as the capture found it. -/
theorem framePulse_capture (locking : Bool) (e d : Nat) (s : State) :
    ∃ u, u.log = s.log ∧ (capturePulse u).SameCapture (framePulse locking e d s) := by
  obtain ⟨u, hlog, hafter⟩ := afterBeats_capture locking (s.latchedAt e d).rolls (s.latchedAt e d).timer.tag
    (beatN locking (s.latchedAt e d).rolls e (s.latchedAt e d))
  refine ⟨u, ?_, ?_⟩
  · rw [hlog]
    simp only [beatN_frame, State.latchedAt, beforeBeatN_frame]
  · rw [framePulse_eq, hafter]
    exact layOutFrame_sameCapture e d (s.endedWindow e) (capturePulse u)

theorem capturePulse_take (s : State) : (capturePulse s).take = s.take := by simp only [capturePulse_frame]

/-- After a pulse in ROLLING or FINISHED the log holds, behind what it held, the captures of the state the pulse leaves. -/
theorem framePulse_captures {locking : Bool} {e d : Nat} (h : s.log.entries.length ≤ 508)
    (hs : (framePulse locking e d s).take.state = .rolling ∨ (framePulse locking e d s).take.state = .finished) :
    (framePulse locking e d s).log = s.log.extended ((framePulse locking e d s).capturesOf allChannels) := by
  obtain ⟨u, hu, hsame⟩ := framePulse_capture locking e d s
  have hcaptures := hsame.capturesOf allChannels
  obtain ⟨htake, -, -, hlog⟩ := hsame
  rw [htake, capturePulse_take] at hs
  have hpulse := capturePulse_captures hs (by rw [hu]; exact h)
  rw [hlog, hcaptures, hpulse, hu]
  rfl

/-- After a pulse in another take state the log is the one the pulse found. -/
theorem framePulse_noCapture {locking : Bool} {e d : Nat} (hr : (framePulse locking e d s).take.state ≠ .rolling)
    (hf : (framePulse locking e d s).take.state ≠ .finished) : (framePulse locking e d s).log = s.log := by
  obtain ⟨u, hu, htake, -, -, hlog⟩ := framePulse_capture locking e d s
  rw [htake, capturePulse_take] at hr hf
  rw [hlog, capturePulse_noCapture hr hf, hu]

/-- Settles O56: the entry offered by the room and the gap; the pulse, alone and as an accepted FRAME_EDGE, by take state. -/
theorem captureLogKeepsTheFirstGap : Obligations.CaptureLogKeepsTheFirstGap := by
  refine ⟨fun l x => ?_, fun s => ?_, fun s time ha h => ?_⟩
  · exact ⟨fun h => offerCapture_room h x, fun h hgap => offerCapture_firstLoss h hgap x,
      fun h hgap => offerCapture_laterLoss h hgap x⟩
  · exact ⟨capturePulse_noCapture, fun hs h => congrArg State.log (capturePulse_captures hs h)⟩
  · obtain ⟨q, -, -, hq, -⟩ := id ha
    exact ⟨_, congrArg Host.Outcome.next (risingEdge_accepted ha hq),
      framePulse_captures (s := s.atTime time) h, framePulse_noCapture (s := s.atTime time)⟩

end Sys2Proof.Machine
end

