-- ==== Sys2Proof/Proofs/CommandsAnswer.lean ====
section
/-! Every command answers a next state, and none but RESET changes what the straps fix and the queue (R194, log 2): the rows
by what they share, then each by its cases. -/

set_option Elab.async false

namespace Sys2Proof.Machine

variable {s t : State}

theorem State.fixed_eq_iff : t.fixed = s.fixed ↔ t.station = s.station ∧ t.subBeats = s.subBeats ∧ t.pending = s.pending := by
  simp only [State.fixed, Prod.mk.injEq]

/-! ## The rows that share a shape -/

/-- The outcome is a next state with the station number, N and the queue of `s`. -/
def AnswersFixed (s : State) (o : Host.Outcome State Fault Refusal) : Prop := ∃ t, o = .next t ∧ t.fixed = s.fixed

theorem answersFixed (h : t.fixed = s.fixed) : AnswersFixed s (.next t) := ⟨t, rfl, h⟩

/-- A row whose event does not stand leaves the whole state (log 2). -/
theorem answersFixed_self (s : State) : AnswersFixed s (.next s) := answersFixed rfl

/-- A row that acts only where its event stands. -/
theorem answersFixed_ite {p : Prop} [Decidable p] (h : t.fixed = s.fixed) :
    AnswersFixed s (.next (if p then t else s)) := by
  split
  · exact answersFixed h
  · exact answersFixed_self s

/-- A request addressed to this station, by its kind. -/
theorem request_answersFixed {f : Arrival → State → Settled} (h : ∀ m s, (f m s).2.fixed = s.fixed) (k : Nat) (a : Activity)
    (s : State) : AnswersFixed s (.next (receiveKind k a (addressed f) s)) :=
  answersFixed (receiveKind_fixed k a _ s fun m s => addressed_fixed f m s h)

/-- A take request to ALL, by its kind. -/
theorem takeRequest_answersFixed {f : Arrival → State → State} (h : ∀ m s, (f m s).fixed = s.fixed) (k : Nat) (a : Activity)
    (s : State) : AnswersFixed s (.next (receiveKind k a (broadcast f) s)) :=
  answersFixed (receiveKind_fixed k a _ s fun m s => broadcast_fixed f m s h)

/-- A QUERY, by the region it names. -/
theorem query_answersFixed {f : Arrival → State → Settled} (h : ∀ m s, (f m s).2.fixed = s.fixed) (b : Bool) (a : Activity)
    (s : State) : AnswersFixed s (.next (if b then receive a (addressed f) s else s)) :=
  answersFixed_ite (receive_fixed a _ s fun m s => addressed_fixed f m s h)

/-- A row of a rising edge (log 3). -/
theorem edge_answersFixed {p : Prop} [Decidable p] (time : Nat) (s : State) :
    AnswersFixed s (.next (if p then risingEdge time s else s)) := answersFixed_ite (risingEdge_fixed time s)

/-! ## The rows with cases of their own -/

theorem execScanComplete_answersFixed (c : Chan) (s : State) : AnswersFixed s (execScanComplete c s) := by
  unfold execScanComplete
  split
  · split
    · refine answersFixed ?_
      (repeat' split) <;> simp
    · exact answersFixed_self s
  · exact answersFixed_self s

theorem execScanRefusal_answersFixed (c : Chan) (s : State) : AnswersFixed s (execScanRefusal c s) := by
  unfold execScanRefusal
  split
  · split <;> exact answersFixed (by simp)
  · exact answersFixed_self s

theorem execReportSent_answersFixed (mismatch : Bool) (s : State) : AnswersFixed s (execReportSent mismatch s) := by
  unfold execReportSent
  split
  · split
    · refine answersFixed ?_
      split <;> simp
    · exact answersFixed_self s
    · exact answersFixed_self s
  · exact answersFixed_self s

theorem execReportArrival_answersFixed (a : Activity) (s : State) : AnswersFixed s (execReportArrival a s) := by
  unfold execReportArrival
  split
  · split <;> exact answersFixed (by simp)
  · exact answersFixed (by simp)
  · exact answersFixed_ite (receive_fixed a _ s fun _ _ => rfl)

theorem execEncoderChange_answersFixed (time : Nat) (c : Chan) (first second : Bool × Bool) (s : State) :
    AnswersFixed s (execEncoderChange time c first second s) := by
  refine answersFixed_ite ?_
  dsimp only
  split <;> simp

/-! ## One row of the table -/

/-- Every command but RESET answers a next state with the station number, N and the queue as they stand. -/
theorem exec_answersFixed (i : Instr) (hreset : ∀ straps pins, i ≠ .reset straps pins) (s : State) :
    AnswersFixed s (exec i s) := by
  cases i with
  | reset straps pins => exact absurd rfl (hreset straps pins)
  | frameEdge time before after => exact edge_answersFixed time s
  | rollPulse time before after => exact edge_answersFixed time s
  | lastTakeFrame time before after => exact edge_answersFixed time s
  | followerDone time before after c => exact edge_answersFixed time s
  | lostFrameExpiry =>
    change AnswersFixed s (execLostFrameExpiry s)
    unfold execLostFrameExpiry
    split <;> exact answersFixed (by simp)
  | subBeat =>
    change AnswersFixed s (execSubBeat s)
    unfold execSubBeat
    split <;> exact answersFixed (by simp)
  | freeSubBeat =>
    change AnswersFixed s (execFreeSubBeat s)
    unfold execFreeSubBeat
    split
    · exact answersFixed_ite (freeBeat_fixed _ _ s)
    · exact answersFixed_self s
  | stopped c =>
    change AnswersFixed s (execStopped c s)
    unfold execStopped
    split
    · exact answersFixed_ite (finishStop_fixed c s)
    · exact answersFixed_self s
  | recordComplete c =>
    change AnswersFixed s (execRecordComplete c s)
    unfold execRecordComplete
    split
    · exact answersFixed_ite (completeAndGoOn_fixed c _ none s)
    · exact answersFixed_self s
  | originRecord c => exact answersFixed (takeWhen_fixed _ c s)
  | shapeRecord c => exact answersFixed (takeWhen_fixed _ c s)
  | spanRecord c => exact answersFixed (takeWhen_fixed _ c s)
  | dwellRecord c => exact answersFixed (takeWhen_fixed _ c s)
  | loopOpenRecord c => exact answersFixed (takeWhen_fixed _ c s)
  | loopCloseRecord c => exact answersFixed (takeWhen_fixed _ c s)
  | waitCueRecord c => exact answersFixed (takeWhen_fixed _ c s)
  | emitCueRecord c => exact answersFixed (takeWhen_fixed _ c s)
  | endRecord c => exact answersFixed (takeWhen_fixed _ c s)
  | noneRecord c => exact answersFixed (takeWhen_fixed _ c s)
  | stall c => exact answersFixed_ite (takeOne_fixed c s)
  | waitStampPass c =>
    change AnswersFixed s (execWaitStampPass c s)
    unfold execWaitStampPass
    split
    · exact answersFixed_ite (completeAndGoOn_fixed c _ none s)
    · exact answersFixed_self s
  | waitExpiry c =>
    change AnswersFixed s (execWaitExpiry c s)
    unfold execWaitExpiry
    split
    · exact answersFixed_ite (expireWait_fixed c _ _ _ s)
    · exact answersFixed_self s
  | followError c => exact answersFixed (faultOnFollow_fixed c s)
  | stepPulse c =>
    change AnswersFixed s (execStepPulse c s)
    unfold execStepPulse
    split
    · exact answersFixed_ite rfl
    · exact answersFixed_self s
  | reportSlot =>
    change AnswersFixed s (execReportSlot s)
    unfold execReportSlot
    split <;> exact answersFixed (by simp)
  | reportSent mismatch => exact execReportSent_answersFixed mismatch s
  | reportArrival a => exact execReportArrival_answersFixed a s
  | roundClose =>
    change AnswersFixed s (execRoundClose s)
    unfold execRoundClose
    split <;> exact answersFixed (by simp)
  | joined =>
    change AnswersFixed s (execJoined s)
    unfold execJoined
    split
    · exact answersFixed_ite (closeRound_fixed _ s)
    · exact answersFixed_self s
  | entryAbsent station =>
    change AnswersFixed s (execEntryAbsent station s)
    unfold execEntryAbsent
    split
    · exact answersFixed_ite (closeRound_fixed _ s)
    · exact answersFixed_self s
  | turnStart =>
    change AnswersFixed s (execTurnStart s)
    unfold execTurnStart
    split <;> exact answersFixed (by simp)
  | messageSent =>
    change AnswersFixed s (execMessageSent s)
    unfold execMessageSent
    (repeat' split) <;> exact answersFixed (by simp)
  | busError a => exact answersFixed_ite (busErrorAt_fixed a s)
  | setupLines a => exact request_answersFixed settleSetupLines_fixed _ a s
  | setupChannel a pins => exact request_answersFixed (settleSetupChannel_fixed pins) _ a s
  | enlist a => exact request_answersFixed settleEnlist_fixed _ a s
  | dismiss a => exact request_answersFixed settleDismiss_fixed _ a s
  | load a => exact request_answersFixed settleLoad_fixed _ a s
  | advance a => exact request_answersFixed settleAdvance_fixed _ a s
  | release a => exact request_answersFixed settleRelease_fixed _ a s
  | clearRing a => exact request_answersFixed settleClearRing_fixed _ a s
  | arm a => exact takeRequest_answersFixed settleArm_fixed _ a s
  | roll a => exact takeRequest_answersFixed settleRoll_fixed _ a s
  | disband a => exact takeRequest_answersFixed settleDisband_fixed _ a s
  | clear a => exact request_answersFixed settleClear_fixed _ a s
  | cue a => exact answersFixed (receiveKind_fixed _ a _ s settleCue_fixed)
  | queryRing a => exact query_answersFixed settleQueryRing_fixed _ a s
  | queryCheckpoints a => exact query_answersFixed settleQueryCheckpoints_fixed _ a s
  | queryRoster a => exact query_answersFixed settleQueryRoster_fixed _ a s
  | queryHoldCauses a => exact query_answersFixed (plainQuery_fixed _) _ a s
  | queryCueBoard a => exact query_answersFixed (plainQuery_fixed _) _ a s
  | queryLines a pins =>
    have hquery := receive_fixed a (addressed (plainQuery linesBody)) (s.withPins pins) fun m s =>
      addressed_fixed _ m s (plainQuery_fixed _)
    exact answersFixed_ite (hquery.trans (s.withPins_fixed pins))
  | querySampler a => exact query_answersFixed settleQuerySampler_fixed _ a s
  | queryNoKnownRegion a => exact query_answersFixed (fun _ _ => rfl) _ a s
  | fetch a => exact request_answersFixed settleFetch_fixed _ a s
  | sample a => exact request_answersFixed settleSample_fixed _ a s
  | answer a => exact answersFixed (receiveKind_fixed _ a _ s fun _ _ => rfl)
  | unknownKind a => exact answersFixed_ite (receive_fixed a _ s settleUnknown_fixed)
  | scanComplete c => exact execScanComplete_answersFixed c s
  | scanRefusal c => exact execScanRefusal_answersFixed c s
  | holdFall time samples => exact answersFixed_ite (holdFalls_fixed { s.atTime time with holdInput := false })
  | holdRise time samples => exact answersFixed_ite rfl
  | limitActive time c plus samples => exact answersFixed_ite (hardFault_fixed c .limit _)
  | limitInactive time c plus samples => exact answersFixed_ite rfl
  | encoderChange time c first second => exact execEncoderChange_answersFixed time c first second s
  | wheelChange time c first second => exact answersFixed_ite rfl
  | wakeEnd =>
    change AnswersFixed s (execWakeEnd s)
    unfold execWakeEnd
    split <;> exact answersFixed (by simp)
  | conversionComplete result =>
    change AnswersFixed s (execConversionComplete result s)
    unfold execConversionComplete
    split
    · exact answersFixed_ite (completeConversion_fixed _ result s)
    · exact answersFixed_self s

/-- A command is RESET, or answers with the station number, N and the queue as they stand. -/
theorem exec_reset_or_answersFixed (i : Instr) (s : State) :
    (∃ straps pins, i = .reset straps pins) ∨ AnswersFixed s (exec i s) := by
  by_cases h : ∃ straps pins, i = .reset straps pins
  · exact .inl h
  · exact .inr (exec_answersFixed i (fun straps pins hi => h ⟨straps, pins, hi⟩) s)

theorem exec_answers (i : Instr) (s : State) : ∃ t, exec i s = .next t := by
  obtain ⟨straps, pins, rfl⟩ | ⟨t, ht, -⟩ := exec_reset_or_answersFixed i s
  · exact ⟨_, rfl⟩
  · exact ⟨t, ht⟩

theorem step_answers (s : State) : stepsOn s := by
  unfold stepsOn step
  split
  · exact ⟨s, rfl⟩
  · exact exec_answers _ _

/-- Settles O2: RESET keeps the queue, and every other command all three. -/
theorem everyCommandAnswersAndKeepsStrapsAndQueue : Obligations.EveryCommandAnswersAndKeepsStrapsAndQueue := by
  refine ⟨⟨exec_answers, step_answers⟩, fun c s t ht => ?_⟩
  obtain ⟨straps, pins, rfl⟩ | ⟨u, hu, hfixed⟩ := exec_reset_or_answersFixed c s
  · cases ht
    exact ⟨rfl, fun h => absurd rfl (h straps pins)⟩
  · cases ht.symm.trans hu
    obtain ⟨hstation, hsubBeats, hpending⟩ := State.fixed_eq_iff.mp hfixed
    exact ⟨hpending, fun _ => ⟨hstation, hsubBeats⟩⟩

end Sys2Proof.Machine
end

