-- ==== Sys2Proof/Proofs/ResetValues.lean ====
section
/-! RESET (R194): the straps read, and the reset values of the blocks that are lists or read through a function. -/

set_option Elab.async false

namespace Sys2Proof.Machine

variable {station n : Nat} {pins : Pins} {queue : List Instr}

/-! ## The blocks after reset -/

/-- Each of the four channels is at its reset values. -/
theorem State.afterReset_chan (c : Chan) : (State.afterReset station n pins queue).chan c = Channel.reset := by
  fin_cases c <;> rfl

/-- DIR is low at every instant (R158). -/
theorem Drive.reset_dirAt (x : Nat) : Drive.reset.dirAt x = false := rfl

/-- No pulse is high: the station is in SAFE (R192). -/
theorem State.afterReset_stepHigh (c : Chan) : (State.afterReset station n pins queue).stepHigh c = false := rfl

theorem ringGet_nil (p : Nat) : ringGet [] p = Entry.blank := rfl

/-- Every Roster entry is absent (R95). -/
theorem State.afterReset_entry {k : Nat} (h : k < 16) :
    (State.afterReset station n pins queue).entry k = RosterEntry.reset :=
  List.getD_replicate _ h

/-- The Cue Board is clear (R18). -/
theorem State.afterReset_cueEntry {q : Nat} (h : q < 64) :
    (State.afterReset station n pins queue).board.entries[q]? = some { isSet := false, tag := 0 } :=
  List.getElem?_replicate_of_lt h

/-- Every line is a plain input (R190). -/
theorem State.afterReset_plainOf {i : Nat} (h : i < 24) :
    (State.afterReset station n pins queue).plainOf i = Plain.reset :=
  List.getD_replicate _ h

/-- No channel is configured, and TALLY is on no line: no line has an owner (R190). -/
theorem State.afterReset_lineOwner (i : Nat) : (State.afterReset station n pins queue).lineOwner i = .none := rfl

/-! ## The straps (R194) -/

/-- Straps ST5 ST4 hold one of four codes, and each gives its N. -/
theorem strapSubBeats_of_code (straps : BitVec 6) :
    (straps.toNat / 16 = 0 → strapSubBeats straps = 8) ∧ (straps.toNat / 16 = 1 → strapSubBeats straps = 16) ∧
      (straps.toNat / 16 = 2 → strapSubBeats straps = 32) ∧ (straps.toNat / 16 = 3 → strapSubBeats straps = 64) := by
  unfold strapSubBeats
  refine ⟨fun h => ?_, fun h => ?_, fun h => ?_, fun h => ?_⟩ <;> simp only [h]

/-- Settles O6: block by block. -/
theorem resetGivesTheResetValues : Obligations.ResetGivesTheResetValues := by
  intro straps pins s
  obtain ⟨h8, h16, h32, h64⟩ := strapSubBeats_of_code straps
  refine ⟨_, rfl, rfl, h8, h16, h32, h64, rfl, rfl, fun _ => State.afterReset_entry, rfl, rfl, rfl, rfl, rfl, fun c => ?_,
    fun _ => State.afterReset_cueEntry, rfl, rfl, rfl, rfl,
    fun i hi => ⟨State.afterReset_plainOf hi, State.afterReset_lineOwner i⟩⟩
  rw [State.setup, State.drive, State.engine, State.afterReset_chan]
  exact ⟨rfl, rfl, rfl, Drive.reset_dirAt, State.afterReset_stepHigh c, fun p _ => ringGet_nil p, rfl, rfl, rfl, rfl, rfl⟩

end Sys2Proof.Machine
end

