-- ==== Sys2Proof/Proofs/SetupLinesSettled.lean ====
section
/-! SETUP_LINES (R195): the plain settings after a list of them is written, the tally byte's four readings, and what the request
answers by its checks in order. -/

set_option Elab.async false

namespace Sys2Proof.Machine

variable {s : State} {m : Arrival} {q : LinesRequest} {es : List (Nat × Plain)} {ps : List Plain}

/-! ## Plain settings written -/

theorem writePlain_length (es : List (Nat × Plain)) (ps : List Plain) : (writePlain es ps).length = ps.length := by
  induction es generalizing ps with
  | nil => rfl
  | cons x es ih => exact (ih (ps.set x.1 x.2)).trans List.length_set

/-- A line that no entry names keeps its setting. -/
theorem writePlain_unnamed {i : Nat} (h : ∀ x ∈ es, x.1 ≠ i) (d : Plain) : (writePlain es ps).getD i d = ps.getD i d := by
  induction es generalizing ps with
  | nil => rfl
  | cons x es ih =>
    obtain ⟨hx, hes⟩ := List.forall_mem_cons.mp h
    calc (writePlain es (ps.set x.1 x.2)).getD i d
        = (ps.set x.1 x.2).getD i d := ih hes
      _ = ps.getD i d := by rw [List.getD_eq_getElem?_getD, List.getElem?_set_ne hx, List.getD_eq_getElem?_getD]

/-- A line that one entry names has that entry's setting: no later entry names it again. -/
theorem writePlain_named (hdup : (es.map Prod.fst).Nodup) {x : Nat × Plain} (hx : x ∈ es) (hlt : x.1 < ps.length)
    (d : Plain) : (writePlain es ps).getD x.1 d = x.2 := by
  induction es generalizing ps with
  | nil => cases hx
  | cons y es ih =>
    obtain ⟨hy, hes⟩ := List.nodup_cons.mp hdup
    rcases List.mem_cons.mp hx with rfl | hx
    · have hlater : ∀ z ∈ es, z.1 ≠ x.1 := fun z hz he => hy (he ▸ List.mem_map_of_mem hz)
      calc (writePlain es (ps.set x.1 x.2)).getD x.1 d
          = (ps.set x.1 x.2).getD x.1 d := writePlain_unnamed hlater d
        _ = x.2 := by rw [List.getD_eq_getElem?_getD, List.getElem?_set_self hlt, Option.getD_some]
    · exact ih hes hx (by rwa [List.length_set])

/-! ## The checks -/

theorem entriesInRange_iff : entriesInRange es = true ↔
    1 ≤ es.length ∧ es.length ≤ 8 ∧ (∀ x ∈ es, x.1 < 24) ∧ (es.map Prod.fst).Nodup := by
  simp only [entriesInRange, Bool.and_eq_true, decide_eq_true_eq, List.all_eq_true, and_assoc]

theorem entriesInRange_false (h : es = [] ∨ 8 < es.length ∨ (∃ x ∈ es, 24 ≤ x.1) ∨ ¬(es.map Prod.fst).Nodup) :
    entriesInRange es = false := by
  refine Bool.eq_false_iff.mpr fun hin => ?_
  obtain ⟨hone, height, hlines, hdup⟩ := entriesInRange_iff.mp hin
  rcases h with rfl | h | ⟨x, hx, h⟩ | h
  · exact absurd hone (by decide)
  · exact absurd height (Nat.not_le.mpr h)
  · exact absurd (hlines x hx) (Nat.not_lt.mpr h)
  · exact h hdup

theorem tallyField_line {v : Nat} (h : v < 24) : tallyField v = .line v := if_pos h

theorem tallyField_off : tallyField 0xFE = .off := rfl

theorem tallyField_unchanged : tallyField 0xFF = .unchanged := rfl

theorem tallyField_outOfRange {v : Nat} (h : 24 ≤ v) (hv : v < 0xFE) : tallyField v = .outOfRange := by
  rw [tallyField, if_neg (by omega), if_neg (by omega), if_neg (by omega)]

/-! ## The request -/

/-- What a SETUP_LINES with entries `es` answers once they are in range, by its tally field. -/
def TallyField.settles (es : List (Nat × Plain)) (s : State) : TallyField → Settled
  | .unchanged => (.accepted, applyLines es s.lines.tally s)
  | .off => (.accepted, applyLines es none s)
  | .line i => if s.functionOwned i then (.lineConflict, s) else (.accepted, applyLines es (some i) s)
  | .outOfRange => (.refusedRange, s)

theorem settleSetupLines_notSafe (hq : readLines m.payload = some q) (h : s.take.state ≠ .safe) :
    settleSetupLines m s = (.refusedState, s) := by
  unfold settleSetupLines
  rw [hq]
  exact if_pos h

/-- In SAFE the entries are checked first. -/
theorem settleSetupLines_entries (hq : readLines m.payload = some q) (h : s.take.state = .safe)
    (hes : entriesInRange q.entries = false) : settleSetupLines m s = (.refusedRange, s) := by
  unfold settleSetupLines
  rw [hq]
  dsimp only
  rw [if_neg (not_not_intro h), hes]
  rfl

/-- In SAFE, with the entries in range, the tally field decides. -/
theorem settleSetupLines_tally (hq : readLines m.payload = some q) (h : s.take.state = .safe)
    (hes : entriesInRange q.entries = true) : settleSetupLines m s = (tallyField q.tally).settles q.entries s := by
  unfold settleSetupLines
  rw [hq]
  dsimp only
  rw [if_neg (not_not_intro h), hes]
  cases tallyField q.tally <;> rfl

/-- The line TALLY has after an accepted request: as it was, none, or the free line named. -/
theorem settleSetupLines_accepted (hq : readLines m.payload = some q) (h : s.take.state = .safe)
    (hes : entriesInRange q.entries = true) {v : Option Nat} (hv : (q.tally = 0xFF ∧ v = s.lines.tally) ∨
      (q.tally = 0xFE ∧ v = none) ∨ (q.tally < 24 ∧ s.functionOwned q.tally = false ∧ v = some q.tally)) :
    settleSetupLines m s = (.accepted, applyLines q.entries v s) := by
  rw [settleSetupLines_tally hq h hes]
  rcases hv with ⟨ht, rfl⟩ | ⟨ht, rfl⟩ | ⟨ht, hfree, rfl⟩
  · rw [ht, tallyField_unchanged]
    rfl
  · rw [ht, tallyField_off]
    rfl
  · rw [tallyField_line ht]
    exact if_neg (ne_true_of_eq_false hfree)

/-- A line owned by a channel function is not TALLY's. -/
theorem settleSetupLines_conflict (hq : readLines m.payload = some q) (h : s.take.state = .safe)
    (hes : entriesInRange q.entries = true) (ht : q.tally < 24) (howned : s.functionOwned q.tally = true) :
    settleSetupLines m s = (.lineConflict, s) := by
  rw [settleSetupLines_tally hq h hes, tallyField_line ht]
  exact if_pos howned

theorem settleSetupLines_tallyOutOfRange (hq : readLines m.payload = some q) (h : s.take.state = .safe)
    (hes : entriesInRange q.entries = true) (ht : 24 ≤ q.tally) (hlt : q.tally < 0xFE) :
    settleSetupLines m s = (.refusedRange, s) := by
  rw [settleSetupLines_tally hq h hes, tallyField_outOfRange ht hlt]
  rfl

/-- Settles O42: the checks in order, and the settings an accepted request writes. -/
theorem setupLinesWritesPlainSettings : Obligations.SetupLinesWritesPlainSettings := by
  intro s a q hr hq hlen
  refine ⟨fun h => ?_, fun h hbad => ?_, fun h hone height hlines hdup => ?_⟩
  · exact receiveKind_settles hr (settleSetupLines_notSafe (s := s.heard a) hq h)
  · exact receiveKind_settles hr (settleSetupLines_entries (s := s.heard a) hq h (entriesInRange_false hbad))
  · have hes : entriesInRange q.entries = true := entriesInRange_iff.mpr ⟨hone, height, hlines, hdup⟩
    refine ⟨fun v hv => ?_, fun ht howned => ?_, fun ht hlt => ?_⟩
    · refine ⟨writePlain q.entries s.lines.plain, ?_, (writePlain_length _ _).trans hlen, fun x hx => ?_, fun i hi => ?_⟩
      · exact receiveKind_settles hr (settleSetupLines_accepted (s := s.heard a) hq h hes hv)
      · exact writePlain_named hdup hx (hlen ▸ hlines x hx) _
      · exact writePlain_unnamed hi _
    · exact receiveKind_settles hr (settleSetupLines_conflict (s := s.heard a) hq h hes ht howned)
    · exact receiveKind_settles hr (settleSetupLines_tallyOutOfRange (s := s.heard a) hq h hes ht hlt)

end Sys2Proof.Machine
end

