-- ==== Sys2Proof/Proofs/SetupChannelSettled.lean ====
section
/-! SETUP_CHANNEL (R196, R197): which payloads do not give a setup, by their bytes (R207); what the request answers by its
checks in order; and what an accepted one leaves of the station. -/

set_option Elab.async false

namespace Sys2Proof.Machine

variable {s : State} {c : Chan} {u : Setup} {pins : Pins} {m : Arrival} {q : ChannelRequest} {p : List Byte}

/-! ## Ranges of single fields -/

theorem leValue_lt (bs : List Byte) : leValue bs < 256 ^ bs.length := by
  induction bs with
  | nil => exact Nat.one_pos
  | cons b bs ih =>
    have hb : b.toNat < 256 := b.isLt
    rw [leValue, List.length_cons, pow_succ]
    omega

/-- A field of two bytes is below 65,536. -/
theorem field_two_lt (p : List Byte) (i : Nat) : field p i 2 < 65536 :=
  (leValue_lt _).trans_le (Nat.pow_le_pow_right (by decide) (List.length_take_le 2 _))

theorem within_eq_false_iff {lo hi v : Nat} : within lo hi v = false ↔ v < lo ∨ hi < v := by
  rw [within, Bool.and_eq_false_iff, decide_eq_false_iff_not, decide_eq_false_iff_not, Nat.not_le, Nat.not_le]

/-- The two bytes at `i` are no term of a ratio: 0, or above 4,096. -/
def BadRatio (p : List Byte) (i : Nat) : Prop := field p i 2 = 0 ∨ 4096 < field p i 2

theorem within_ratio_eq_false_iff {i : Nat} : within 1 4096 (field p i 2) = false ↔ BadRatio p i := by
  rw [within_eq_false_iff, Nat.lt_one_iff, BadRatio]

/-- A rate of two bytes is out of range at 0 alone. -/
theorem within_rate_eq_false_iff {i : Nat} : within 1 65535 (field p i 2) = false ↔ field p i 2 = 0 := by
  have h := field_two_lt p i
  rw [within_eq_false_iff]
  omega

theorem readLine_eq_none_iff {v : Nat} : readLine v = none ↔ 23 < v ∧ v ≠ 255 := by
  unfold readLine
  split
  · next h => exact iff_of_false (Option.some_ne_none _) (by omega)
  · split
    · next h => exact iff_of_false (Option.some_ne_none _) fun hv => hv.2 h
    · next hline hnone => exact iff_of_true rfl ⟨Nat.not_lt.mp hline, hnone⟩

theorem chan?_eq_none_iff {n : Nat} : chan? n = none ↔ 3 < n := by
  refine ⟨fun h => ?_, chan?_above⟩
  by_contra hn
  rw [chan?, dif_pos (by omega)] at h
  cases h

/-! ## Groups of fields -/

/-- A chain of readings fails when its first reading fails, or what follows does, whatever was read. -/
theorem bind_eq_none_iff_or {α β : Type} {o : Option α} {f : α → Option β} {P : Prop} (h : ∀ x, f x = none ↔ P) :
    (o >>= f) = none ↔ o = none ∨ P := by
  cases o with
  | none => simp
  | some x => simpa using h x

/-- The source fields are out of range: no such source, or a leader of FOLLOW that is none. -/
theorem readSource_eq_none_iff : readSource p = none ↔ 1 < field p 1 1 ∨
    (field p 1 1 = 1 ∧ (15 < field p 2 1 ∨ 3 < field p 3 1 ∨ BadRatio p 4 ∨ BadRatio p 6)) := by
  unfold readSource
  split
  · next h => simp [h]
  · next h =>
    have hfollow : ¬1 < field p 1 1 := by omega
    rw [or_iff_right hfollow, and_iff_right h]
    split
    · next hc =>
      have hchan : ¬3 < field p 3 1 := Nat.not_lt.mpr (Nat.le_of_lt_succ (chan?_lt hc))
      rw [or_iff_right hchan]
      simp only [ite_eq_right_iff, reduceCtorEq, imp_false, not_and_or, Nat.not_lt, Bool.not_eq_true,
        within_ratio_eq_false_iff]
      exact Iff.rfl
    · next hc => exact iff_of_true rfl (.inr (.inl (chan?_eq_none_iff.mp hc)))
  · next hpath hfollow =>
    have hcode : field p 1 1 ≠ 0 ∧ field p 1 1 ≠ 1 := ⟨hpath, hfollow⟩
    exact iff_of_true rfl (.inl (by omega))

/-- The feedback fields are out of range: no such kind, or an input of ANALOG that is none. -/
theorem readFeedback_eq_none_iff : readFeedback p = none ↔
    2 < field p 12 1 ∨ (field p 12 1 = 1 ∧ 7 < field p 13 1) := by
  unfold readFeedback
  split
  · next h => simp [h]
  · next h =>
    have hanalog : ¬2 < field p 12 1 := by omega
    rw [or_iff_right hanalog, and_iff_right h]
    simp only [ite_eq_right_iff, reduceCtorEq, imp_false, Nat.not_lt]
    exact Iff.rfl
  · next h => simp [h]
  · next hencoder hanalog hnone =>
    have hcode : field p 12 1 ≠ 0 ∧ field p 12 1 ≠ 1 ∧ field p 12 1 ≠ 2 := ⟨hencoder, hanalog, hnone⟩
    exact iff_of_true rfl (.inl (by omega))

/-- One of the ten line fields, bytes 14 to 23, is neither a line nor none. -/
theorem readAssignment_eq_none_iff : readAssignment p = none ↔
    ∃ k < 10, 23 < field p (14 + k) 1 ∧ field p (14 + k) 1 ≠ 255 := by
  unfold readAssignment
  refine Iff.trans (bind_eq_none_iff_or fun _ => bind_eq_none_iff_or fun _ => bind_eq_none_iff_or fun _ =>
    bind_eq_none_iff_or fun _ => bind_eq_none_iff_or fun _ => bind_eq_none_iff_or fun _ => bind_eq_none_iff_or fun _ =>
    bind_eq_none_iff_or fun _ => bind_eq_none_iff_or fun _ => bind_eq_none_iff_or fun _ =>
    iff_false_intro (Option.some_ne_none _)) ?_
  simp only [readLine_eq_none_iff, Nat.exists_lt_succ_left, Nat.not_lt_zero, false_and, exists_false]

/-- A numeric field is out of range: the follow limit, one of four rates, the low mark, or a term of the two ratios. -/
theorem setupNumbersInRange_eq_false_iff : setupNumbersInRange p = false ↔ 2147483647 < field p 25 4 ∨
    (∃ k < 4, field p (29 + 2 * k) 2 = 0) ∨ 1023 < field p 45 2 ∨ ∃ k < 4, BadRatio p (48 + 2 * k) := by
  simp only [setupNumbersInRange, Bool.and_eq_false_iff, within_ratio_eq_false_iff, within_rate_eq_false_iff,
    decide_eq_false_iff_not, Nat.not_le, Nat.exists_lt_succ_left, Nat.not_lt_zero, false_and, exists_false, or_false, or_assoc]

/-- A setup is read when none of its four groups fails. -/
theorem readSetup_eq_none_iff : readSetup p = none ↔
    readSource p = none ∨ readFeedback p = none ∨ readAssignment p = none ∨ setupNumbersInRange p = false := by
  refine bind_eq_none_iff_or fun _ => bind_eq_none_iff_or fun _ => bind_eq_none_iff_or fun _ => ?_
  cases setupNumbersInRange p <;> simp

/-- The fields of a SETUP_CHANNEL payload out of their ranges, by the payload's bytes (R196, R207). -/
def SetupOutOfRange (p : List Byte) : Prop :=
  3 < field p 0 1 ∨ 1 < field p 1 1 ∨
  (field p 1 1 = 1 ∧ (15 < field p 2 1 ∨ 3 < field p 3 1 ∨ BadRatio p 4 ∨ BadRatio p 6)) ∨
  2 < field p 12 1 ∨ (field p 12 1 = 1 ∧ 7 < field p 13 1) ∨
  (∃ k < 10, 23 < field p (14 + k) 1 ∧ field p (14 + k) 1 ≠ 255) ∨
  2147483647 < field p 25 4 ∨ (∃ k < 4, field p (29 + 2 * k) 2 = 0) ∨ 1023 < field p 45 2 ∨
  ∃ k < 4, BadRatio p (48 + 2 * k)

/-- A field out of range leaves no channel, or no setup. -/
theorem setupOutOfRange_iff : SetupOutOfRange p ↔ chan? (field p 0 1) = none ∨ readSetup p = none := by
  rw [readSetup_eq_none_iff, chan?_eq_none_iff, readSource_eq_none_iff, readFeedback_eq_none_iff,
    readAssignment_eq_none_iff, setupNumbersInRange_eq_false_iff, SetupOutOfRange]
  simp only [or_assoc]

/-! ## The checks of the request -/

theorem readChannelSetup_length (h : p.length = 60) :
    readChannelSetup p = some { channel := field p 0 1, setup := readSetup p } := if_pos h

/-- A payload of another length is refused before every other check (log 19). -/
theorem settleSetupChannel_length (h : m.payload.length ≠ 60) : settleSetupChannel pins m s = (.refusedRange, s) := by
  have hq : readChannelSetup m.payload = none := if_neg h
  unfold settleSetupChannel
  rw [hq]
  rfl

theorem settleSetupChannel_notSafe (hq : readChannelSetup m.payload = some q) (h : s.take.state ≠ .safe) :
    settleSetupChannel pins m s = (.refusedState, s) := by
  unfold settleSetupChannel
  rw [hq]
  exact if_pos h

theorem settleSetupChannel_outOfRange (hq : readChannelSetup m.payload = some q) (h : s.take.state = .safe)
    (hr : chan? q.channel = none ∨ q.setup = none) : settleSetupChannel pins m s = (.refusedRange, s) := by
  unfold settleSetupChannel
  rw [hq]
  dsimp only
  rw [if_neg (not_not_intro h)]
  split
  · next hc hu =>
    rw [hc, hu] at hr
    rcases hr with hr | hr <;> cases hr
  · rfl

theorem setupRelations_iff : setupRelations u = true ↔ u.vmax ≤ u.maxStep ∧ u.travelMin ≤ u.travelMax := by
  simp only [setupRelations, Bool.and_eq_true, decide_eq_true_eq]

theorem setupRelations_false (h : u.maxStep < u.vmax ∨ u.travelMax < u.travelMin) : setupRelations u = false := by
  refine Bool.eq_false_iff.mpr fun hrel => ?_
  obtain ⟨hrate, htravel⟩ := setupRelations_iff.mp hrel
  omega

/-- In SAFE, with every field in range, what is left are the pairs, the lines and the relations of the fields. -/
theorem settleSetupChannel_inRange (hq : readChannelSetup m.payload = some q) (h : s.take.state = .safe)
    (hc : chan? q.channel = some c) (hu : q.setup = some u) : settleSetupChannel pins m s =
      if setupConsistent s.station c u = false then (.refusedRange, s)
      else if s.linesFree c u = false then (.lineConflict, s)
      else if setupRelations u = false then (.refusedRange, s)
      else (.accepted, applySetup c u pins s) := by
  unfold settleSetupChannel
  rw [hq]
  dsimp only
  rw [if_neg (not_not_intro h), hc, hu]
  simp only [Bool.not_eq_true', refuse]

theorem settleSetupChannel_pairs (hq : readChannelSetup m.payload = some q) (h : s.take.state = .safe)
    (hc : chan? q.channel = some c) (hu : q.setup = some u) (hpairs : setupConsistent s.station c u = false) :
    settleSetupChannel pins m s = (.refusedRange, s) := by
  rw [settleSetupChannel_inRange hq h hc hu, if_pos hpairs]

theorem settleSetupChannel_lines (hq : readChannelSetup m.payload = some q) (h : s.take.state = .safe)
    (hc : chan? q.channel = some c) (hu : q.setup = some u) (hpairs : setupConsistent s.station c u = true)
    (hfree : s.linesFree c u = false) : settleSetupChannel pins m s = (.lineConflict, s) := by
  rw [settleSetupChannel_inRange hq h hc hu, if_neg (ne_false_of_eq_true hpairs), if_pos hfree]

/-- With its pairs and lines free, the relations of the fields decide. -/
theorem settleSetupChannel_relations (hq : readChannelSetup m.payload = some q) (h : s.take.state = .safe)
    (hc : chan? q.channel = some c) (hu : q.setup = some u) (hpairs : setupConsistent s.station c u = true)
    (hfree : s.linesFree c u = true) : settleSetupChannel pins m s =
      if setupRelations u = false then (.refusedRange, s) else (.accepted, applySetup c u pins s) := by
  rw [settleSetupChannel_inRange hq h hc hu, if_neg (ne_false_of_eq_true hpairs), if_neg (ne_false_of_eq_true hfree)]

/-! ## What an accepted one leaves (R193, R197) -/

theorem startInputs_chan (c : Chan) (s : State) : ∃ enc wheel, (startInputs c s).chan c = { s.chan c with
    drive := { s.drive c with limitPlus := false, limitMinus := false, encPair := enc, wheelPair := wheel } } :=
  ⟨_, _, setDrive_chan s c _⟩

/-- The channel is configured with the setup, its limits inactive and its pairs at their levels; the rest of it stands. -/
theorem applySetup_chan (c : Chan) (u : Setup) (pins : Pins) (s : State) : ∃ enc wheel, (applySetup c u pins s).chan c =
    { s.chan c with
      configured := true, setup := u,
      drive := { s.drive c with limitPlus := false, limitMinus := false, encPair := enc, wheelPair := wheel } } := by
  have hset : ({ s.setChan c { s.chan c with configured := true, setup := u } with
      lines := { s.lines with pins := pins } } : State).chan c = { s.chan c with configured := true, setup := u } :=
    State.chan_setChan s c _
  obtain ⟨enc, wheel, h⟩ := startInputs_chan c
    { s.setChan c { s.chan c with configured := true, setup := u } with lines := { s.lines with pins := pins } }
  refine ⟨enc, wheel, h.trans ?_⟩
  rw [State.drive, hset]
  rfl

theorem applySetup_chan_ne {d : Chan} (h : d ≠ c) (u : Setup) (pins : Pins) (s : State) :
    (applySetup c u pins s).chan d = s.chan d :=
  (setDrive_chan_ne h _ _).trans (State.chan_setChan_ne s c d _ h)

/-- The plain settings, TALLY and the slots stand. -/
theorem applySetup_leaves (c : Chan) (u : Setup) (pins : Pins) (s : State) :
    (applySetup c u pins s).lines.plain = s.lines.plain ∧ (applySetup c u pins s).lines.tally = s.lines.tally ∧
      (applySetup c u pins s).sampler.slots = s.sampler.slots :=
  ⟨rfl, rfl, rfl⟩

theorem breakEnable_iff {n : Nat} : s.breakEnable n = true ↔
    ∃ d, (s.chan d).configured = true ∧ (s.setup d).feedback = .analog n ∧ (s.setup d).breakCheck = true := by
  simp only [State.breakEnable, List.any_eq_true, mem_allChannels, true_and, Bool.and_eq_true, decide_eq_true_eq, and_assoc]

/-- The break-check enables are those of the channels as they now stand. -/
theorem applySetup_enables (c : Chan) (u : Setup) (pins : Pins) (s : State) {n : Nat} (h : n < 8) :
    (applySetup c u pins s).sampler.enables.getD n false = (applySetup c u pins s).breakEnable n := by
  change ((List.range 8).map (applySetup c u pins s).breakEnable).getD n false = _
  simp [List.getD_eq_getElem?_getD, h]

/-- Settles O43: the fields by the payload's bytes, then the request's checks in order, and the setup replaced. -/
theorem setupChannelReplacesTheSetup : Obligations.SetupChannelReplacesTheSetup := by
  refine ⟨fun s a pins hr => ⟨fun hlen => ?_, fun hlen h => ?_, fun hlen h hout => ?_, fun hlen hin => ?_⟩,
    fun s a pins q c u hr hq hc hu => ⟨fun h => ?_, fun h => ?_⟩⟩
  · exact receiveKind_settles hr (settleSetupChannel_length hlen)
  · exact receiveKind_settles hr (settleSetupChannel_notSafe (s := s.heard a) (readChannelSetup_length hlen) h)
  · exact receiveKind_settles hr (settleSetupChannel_outOfRange (s := s.heard a) (readChannelSetup_length hlen) h
      (setupOutOfRange_iff.mp hout))
  · obtain ⟨hc, hu⟩ := not_or.mp (mt setupOutOfRange_iff.mpr hin)
    obtain ⟨c, hc⟩ := Option.ne_none_iff_exists'.mp hc
    obtain ⟨u, hu⟩ := Option.ne_none_iff_exists'.mp hu
    exact ⟨_, c, u, readChannelSetup_length hlen, hc, hu⟩
  · exact receiveKind_settles hr (settleSetupChannel_notSafe (s := s.heard a) hq h)
  · refine ⟨fun hpairs => ?_, fun hpairs hfree => ?_, fun hpairs hfree hrel => ?_, fun hpairs hfree hrate htravel => ?_⟩
    · exact receiveKind_settles hr (settleSetupChannel_pairs (s := s.heard a) hq h hc hu hpairs)
    · exact receiveKind_settles hr (settleSetupChannel_lines (s := s.heard a) hq h hc hu hpairs hfree)
    · exact receiveKind_settles hr ((settleSetupChannel_relations (s := s.heard a) hq h hc hu hpairs hfree).trans
        (if_pos (setupRelations_false hrel)))
    · have hrel := ne_false_of_eq_true (setupRelations_iff.mpr ⟨hrate, htravel⟩)
      have hsettle := settleSetupChannel_relations (pins := pins) (s := s.heard a) hq h hc hu hpairs hfree
      refine ⟨_, receiveKind_settles hr (hsettle.trans (if_neg hrel)), ?_⟩
      obtain ⟨enc, wheel, hchan⟩ := applySetup_chan c u pins (s.heard a)
      obtain ⟨hplain, htally, hslots⟩ := applySetup_leaves c u pins (s.heard a)
      obtain ⟨-, -, -, -, htake, hholds, -, hlog⟩ := applySetup_frame c u pins (s.heard a)
      refine ⟨congrArg Channel.configured hchan, congrArg Channel.setup hchan,
        congrFun (applySetup_engine c u pins (s.heard a)) c, ?_, fun d hd => applySetup_chan_ne hd u pins (s.heard a),
        htake, hholds, hlog, hplain, htally, fun n hn => ?_, hslots⟩
      · rw [State.drive, hchan]
        rfl
      · rw [applySetup_enables c u pins _ hn, breakEnable_iff]

end Sys2Proof.Machine
end

