-- ==== Sys2Proof/Proofs/FrontCommandTaken.lean ====
section
/-! One step of the station by its queue: the front command taken, or the block idling (log 4). -/

set_option Elab.async false

namespace Sys2Proof.Machine

variable {s : State} {c : Instr} {rest : List Instr}

theorem step_front (h : s.pending = c :: rest) : step s = exec c (s.withPending rest) := by
  rw [step, h]

theorem step_idle (h : s.pending = []) : step s = .next s := by
  rw [step, h]

theorem State.withPending_withPending (s : State) (q q' : List Instr) :
    (s.withPending q).withPending q' = s.withPending q' := rfl

/-- Settles O1: the queue is read off, and the rest replaces it. -/
theorem stepTakesTheFrontCommand : Obligations.StepTakesTheFrontCommand := by
  intro s c q
  refine ⟨?_, step_idle (State.pending_withPending s [])⟩
  rw [step_front (State.pending_withPending s (c :: q)), State.withPending_withPending]

end Sys2Proof.Machine
end

