-- ==== Sys2Proof/Proofs/UnknownKindsRouted.lean ====
section
/-! UNKNOWN_KIND at routing (R204): what a valid message of a kind outside the table leaves, by its target. -/

set_option Elab.async false

namespace Sys2Proof.Machine

variable {s : State} {a : Activity} {m : Arrival} {k : Nat}

/-- Addressed to this station, it leaves its outcome and nothing else. -/
theorem settleUnknown_here (h : m.target = some s.station) :
    settleUnknown m s = addOutcome m.sender m.seq .unknownKind s := if_pos h

/-- Addressed to another station or to ALL, it leaves nothing. -/
theorem settleUnknown_elsewhere (h : m.target ≠ some s.station) : settleUnknown m s = s := if_neg h

theorem receive_valid (act : Arrival → State → State) (h : s.admission a = .valid) :
    receive a act s = act (arrivalOf a) (s.heard a) := by
  rw [receive, h]

/-- A valid message of an unknown kind reaches the rule of R204. -/
theorem execUnknownKind_valid (ht : a.began ≤ a.ended) (hk : a.kind? = some k) (hu : knownKinds.contains k = false)
    (hv : s.admission a = .valid) :
    exec (.unknownKind a) s = .next (settleUnknown (arrivalOf a) (s.heard a)) := by
  have hunknown : (a.kind?.any fun k => !knownKinds.contains k) = true := by
    rw [hk, Option.any_some, hu, Bool.not_false]
  change execUnknownKind a s = _
  rw [execUnknownKind, if_pos ⟨ht, hunknown⟩, receive_valid _ hv]

/-- Settles O29: by the target. -/
theorem unknownKindRouting : Obligations.UnknownKindRouting := by
  intro s a k ht hk hu hv
  rw [execUnknownKind_valid ht hk hu hv]
  refine ⟨fun hhere => ?_, fun n hother hn => ?_, fun hall => ?_⟩
  · exact congrArg Host.Outcome.next (settleUnknown_here hhere)
  · refine congrArg Host.Outcome.next (settleUnknown_elsewhere fun hhere => hn ?_)
    exact Option.some.inj (hother.symm.trans hhere)
  · refine congrArg Host.Outcome.next (settleUnknown_elsewhere ?_)
    rw [hall]
    exact (Option.some_ne_none _).symm

end Sys2Proof.Machine
end

