-- ==== Sys2Proof/Proofs/PackedFields.lean ====
section
/-! Fields packed from bit 0 upward (R205): a field is read at the width of those before it; flags; and the closing check
(R203). -/

set_option Elab.async false

namespace Sys2Proof.Machine

variable {w v i : Nat} {fs gs : List (Nat × Nat)}

/-! ## Packed fields -/

/-- The bits that packed fields take. -/
def bitWidth : List (Nat × Nat) → Nat
  | [] => 0
  | (w, _) :: fs => w + bitWidth fs

theorem bitWidth_append (fs gs : List (Nat × Nat)) : bitWidth (fs ++ gs) = bitWidth fs + bitWidth gs := by
  induction fs with
  | nil => exact (Nat.zero_add _).symm
  | cons f fs ih => rw [List.cons_append, bitWidth, ih, bitWidth, Nat.add_assoc]

theorem packBits_lt (fs : List (Nat × Nat)) : packBits fs < 2 ^ bitWidth fs := by
  induction fs with
  | nil => exact Nat.one_pos
  | cons f fs ih =>
    rw [packBits, bitWidth, pow_add]
    have hfield : f.2 % 2 ^ f.1 < 2 ^ f.1 := Nat.mod_lt _ (Nat.two_pow_pos _)
    calc f.2 % 2 ^ f.1 + 2 ^ f.1 * packBits fs
      _ < 2 ^ f.1 * (packBits fs + 1) := by rw [Nat.mul_succ]; omega
      _ ≤ 2 ^ f.1 * 2 ^ bitWidth fs := Nat.mul_le_mul_left _ ih

/-- Fields fit the bytes that have room for their bits. -/
theorem packBits_lt_of_bytes {n : Nat} (h : bitWidth fs ≤ 8 * n) : packBits fs < 256 ^ n :=
  calc packBits fs
    _ < 2 ^ bitWidth fs := packBits_lt fs
    _ ≤ 2 ^ (8 * n) := Nat.pow_le_pow_right Nat.two_pos h
    _ = 256 ^ n := pow_mul 2 8 n

theorem packBits_cons_div (w v : Nat) (fs : List (Nat × Nat)) : packBits ((w, v) :: fs) / 2 ^ w = packBits fs := by
  rw [packBits, Nat.add_mul_div_left _ _ (Nat.two_pow_pos w), Nat.div_eq_of_lt (Nat.mod_lt _ (Nat.two_pow_pos w)),
    Nat.zero_add]

/-- The first field is read at bit 0. -/
theorem bitsAt_first (h : v < 2 ^ w) : bitsAt (packBits ((w, v) :: fs)) 0 w = v := by
  rw [bitsAt, packBits, pow_zero, Nat.div_one, Nat.add_mul_mod_self_left, Nat.mod_mod, Nat.mod_eq_of_lt h]

/-- Fields before the one read only move it. -/
theorem bitsAt_append (fs gs : List (Nat × Nat)) (i u : Nat) :
    bitsAt (packBits (fs ++ gs)) (bitWidth fs + i) u = bitsAt (packBits gs) i u := by
  induction fs with
  | nil => rw [List.nil_append, bitWidth, Nat.zero_add]
  | cons f fs ih =>
    rw [← ih, List.cons_append, bitWidth, bitsAt, bitsAt, Nat.add_assoc, pow_add, ← Nat.div_div_eq_div_mul,
      packBits_cons_div]

/-- A field is read at the width of those before it. -/
theorem bitsAt_field (h : v < 2 ^ w) (hi : bitWidth fs = i) : bitsAt (packBits (fs ++ (w, v) :: gs)) i w = v := by
  rw [← hi, ← Nat.add_zero (bitWidth fs), bitsAt_append, bitsAt_first h]

/-! ## Flags -/

theorem bit_lt (b : Bool) : bit b < 2 := by
  cases b <;> decide

theorem decide_bit (b : Bool) : decide (bit b = 1) = b := by
  cases b <;> rfl

theorem testBit_flagBits (bs : List Bool) (i : Nat) : (flagBits bs).testBit i = bs.getD i false := by
  induction bs generalizing i with
  | nil => exact Nat.zero_testBit i
  | cons b bs ih =>
    have hvalue : flagBits (b :: bs) = bit b + 2 * flagBits bs := by
      rw [flagBits, List.map_cons, packBits, pow_one, Nat.mod_eq_of_lt (bit_lt b), flagBits]
    cases i with
    | zero =>
      rw [hvalue, Nat.testBit_zero, Nat.add_mul_mod_self_left, Nat.mod_eq_of_lt (bit_lt b), decide_bit]
      rfl
    | succ i =>
      rw [hvalue, Nat.testBit_succ, Nat.add_mul_div_left _ _ Nat.two_pos, Nat.div_eq_of_lt (bit_lt b), Nat.zero_add, ih]
      rfl

/-! ## The check (R203) -/

/-- Bytes closed by their check pass it. -/
theorem checkPasses_withCheck (bs : List Byte) : checkPasses (withCheck bs) = true := by
  have hlength : (withCheck bs).length = bs.length + 2 := by
    rw [withCheck, List.length_append, leBytes_length]
  have hsum : leValue (leBytes 2 (crc16 bs).toNat) = (crc16 bs).toNat := leValue_leBytes_of_lt (crc16 bs).isLt
  rw [checkPasses, hlength, Nat.add_sub_cancel, withCheck, List.take_left, List.drop_left, hsum]
  simp

end Sys2Proof.Machine
end

