-- ==== Sys2Proof/Proofs/ReportReadBack.lean ====
section
/-! The 45 bytes of a report read back (R203, R205): the kind, then every field of the packed body at its offset, then the
check. The outcomes are not read back (R95), but take their place among the fields. -/

set_option Elab.async false

namespace Sys2Proof.Machine

variable {w v i : Nat} {fs gs : List (Nat × Nat)} {r : FullReport} {c : ChannelReport}

/-! ## The cause summary -/

theorem CauseFlags.value_lt (f : CauseFlags) : f.value < 2 ^ 6 := packBits_lt _

theorem readCauses_value (f : CauseFlags) : readCauses f.value = f := by
  simp only [readCauses, CauseFlags.value, testBit_flagBits]
  rfl

/-! ## A channel's fields -/

/-- The values the fields of a channel hold (R205). -/
def ChannelReport.fits (c : ChannelReport) : Prop :=
  c.state < 16 ∧ inFormat c.setPoint = true ∧ ∀ p, c.lastReported = some p → p < 1024

/-- 2047 stands for no reported position. -/
theorem lastReported_code (p : Option Nat) (h : ∀ q, p = some q → q < 1024) :
    p.getD 2047 < 2 ^ 11 ∧ (if p.getD 2047 = 2047 then none else some (p.getD 2047)) = p := by
  cases p with
  | none => exact ⟨by decide, rfl⟩
  | some q =>
    have hq := h q rfl
    rw [Option.getD_some]
    exact ⟨by omega, if_neg (by omega)⟩

theorem readChannelReport_first (h : c.fits) (gs : List (Nat × Nat)) :
    readChannelReport (packBits (c.fields ++ gs)) 0 = c := by
  obtain ⟨hstate, hformat, hlast⟩ := h
  obtain ⟨hcode, hback⟩ := lastReported_code c.lastReported hlast
  have hs : bitsAt (packBits (c.fields ++ gs)) 0 4 = c.state := bitsAt_first hstate
  have hr : bitsAt (packBits (c.fields ++ gs)) (0 + 4) 1 = bit c.ringLow :=
    bitsAt_field (fs := c.fields.take 1) (bit_lt _) rfl
  have hl : bitsAt (packBits (c.fields ++ gs)) (0 + 5) 11 = c.lastReported.getD 2047 :=
    bitsAt_field (fs := c.fields.take 2) hcode rfl
  have hp : bitsAt (packBits (c.fields ++ gs)) (0 + 16) 32 = (positionBits c.setPoint).toNat :=
    bitsAt_field (fs := c.fields.take 3) (positionBits c.setPoint).isLt rfl
  rw [readChannelReport, hs, hr, hl, hp, decide_bit, hback, BitVec.ofNat_toNat, BitVec.setWidth_eq,
    positionBits_toInt hformat]

theorem readChannelReport_append (fs gs : List (Nat × Nat)) (i : Nat) :
    readChannelReport (packBits (fs ++ gs)) (bitWidth fs + i) = readChannelReport (packBits gs) i := by
  simp only [readChannelReport, Nat.add_assoc, bitsAt_append]

/-- A channel's fields stand at its number times their 48 bits. -/
theorem readChannelReport_nth {cs : List ChannelReport} (hi : cs[i]? = some c) (h : c.fits) :
    readChannelReport (packBits (cs.map ChannelReport.fields).flatten) (48 * i) = c := by
  induction cs generalizing i with
  | nil => exact absurd hi (by simp)
  | cons d cs ih =>
    rw [List.map_cons, List.flatten_cons]
    cases i with
    | zero =>
      obtain rfl : d = c := by simpa using hi
      exact readChannelReport_first h _
    | succ i =>
      have hmove : 48 * (i + 1) = bitWidth d.fields + 48 * i := by
        change 48 * (i + 1) = 48 + 48 * i
        omega
      rw [hmove, readChannelReport_append]
      exact ih (by simpa using hi)

/-! ## The packed report -/

/-- The fields of a report before its channels: 137 bits. -/
def FullReport.front (r : FullReport) : List (Nat × Nat) :=
  r.body.leading ++ [(3, r.outcomes.length)] ++ outcomeFields r.outcomes

theorem bitWidth_outcomes (os : List OutcomeEntry) : bitWidth (os.map OutcomeEntry.fields).flatten = 17 * os.length := by
  induction os with
  | nil => rfl
  | cons o os ih =>
    rw [List.map_cons, List.flatten_cons, bitWidth_append, ih, List.length_cons]
    change 17 + _ = _
    omega

theorem bitWidth_replicate (n w v : Nat) : bitWidth (List.replicate n (w, v)) = w * n := by
  induction n with
  | zero => rfl
  | succ n ih => rw [List.replicate_succ, bitWidth, ih, Nat.mul_succ, Nat.add_comm]

/-- The outcome places take their 68 bits however many are held. -/
theorem bitWidth_outcomeFields (os : List OutcomeEntry) : bitWidth (outcomeFields os) = 68 := by
  rw [outcomeFields, bitWidth_append, bitWidth_outcomes, bitWidth_replicate, List.length_take]
  omega

theorem FullReport.bitWidth_front (r : FullReport) : bitWidth r.front = 137 := by
  rw [FullReport.front, bitWidth_append, bitWidth_append, bitWidth_outcomeFields]
  rfl

/-- The packed report, whose 42 bytes stand between the kind and the check. -/
def FullReport.packed (r : FullReport) : Nat := packBits (r.front ++ r.body.trailing)

/-- The packed report fits its 42 bytes. -/
theorem FullReport.packed_lt (r : FullReport) : r.packed < 256 ^ 42 := by
  have htrailing : bitWidth r.body.trailing = 192 := rfl
  have hwidth : bitWidth (r.front ++ r.body.trailing) ≤ 8 * 42 := by
    rw [bitWidth_append, r.bitWidth_front, htrailing]
    decide
  exact packBits_lt_of_bytes hwidth

/-- A channel's part is read where its fields stand, after the 137 bits. -/
theorem readChannelReport_trailing (hi : r.body.channels.toList[i]? = some c) (h : c.fits) :
    readChannelReport r.packed (137 + 48 * i) = c := by
  rw [FullReport.packed, ← r.bitWidth_front, readChannelReport_append]
  exact readChannelReport_nth hi h

/-- A field before the outcome count is read at the width of those before it. -/
theorem bitsAt_leading (n : Nat) (hn : r.body.leading = fs ++ (w, v) :: gs) (h : v < 2 ^ w) (hi : bitWidth fs = n) :
    bitsAt r.packed n w = v := by
  rw [FullReport.packed, FullReport.front, hn, List.append_assoc, List.append_assoc, List.append_assoc, List.cons_append]
  exact bitsAt_field h hi

/-- What R205 bounds of a report's values. -/
def Report.fits (r : Report) : Prop :=
  r.station < 16 ∧ r.takeState < 16 ∧ r.tag < 256 ∧ r.takeId < 65536 ∧ r.frame < 16777216 ∧
    ∀ c, (r.channels.get c).fits

theorem readReportBody_packed (h : r.body.fits) : readReportBody r.packed = r.body := by
  obtain ⟨hstation, hstate, htag, hid, hframe, hchannels⟩ := h
  have h0 := readChannelReport_trailing (r := r) (i := 0) rfl (hchannels 0)
  have h1 := readChannelReport_trailing (r := r) (i := 1) rfl (hchannels 1)
  have h2 := readChannelReport_trailing (r := r) (i := 2) rfl (hchannels 2)
  have h3 := readChannelReport_trailing (r := r) (i := 3) rfl (hchannels 3)
  rw [readReportBody, bitsAt_leading 0 (fs := []) rfl hstation rfl,
    bitsAt_leading 4 (fs := r.body.leading.take 1) rfl hstate rfl,
    bitsAt_leading 8 (fs := r.body.leading.take 2) rfl htag rfl,
    bitsAt_leading 16 (fs := r.body.leading.take 3) rfl hid rfl,
    bitsAt_leading 32 (fs := r.body.leading.take 4) rfl hframe rfl,
    bitsAt_leading 56 (fs := r.body.leading.take 5) rfl r.body.causes.value_lt rfl,
    bitsAt_leading 62 (fs := r.body.leading.take 6) rfl (bit_lt r.body.holdPulled) rfl,
    bitsAt_leading 63 (fs := r.body.leading.take 7) rfl (bit_lt r.body.captureGap) rfl,
    bitsAt_leading 64 (fs := r.body.leading.take 8) rfl (bit_lt r.body.duplicateFree) rfl,
    bitsAt_leading 65 (fs := r.body.leading.take 9) rfl (bit_lt r.body.overflow) rfl,
    readCauses_value, decide_bit, decide_bit, decide_bit, decide_bit, h0, h1, h2, h3]

/-! ## The message -/

/-- The 42 bytes behind the kind are the packed report. -/
theorem FullReport.body_bytes (r : FullReport) : leValue ((r.bytes.drop 1).take 42) = r.packed := by
  rw [FullReport.bytes, withCheck, List.cons_append, List.drop_one, List.tail_cons, List.take_left' (leBytes_length _ _)]
  exact leValue_leBytes_of_lt r.packed_lt

theorem readReport_bytes (r : FullReport) (began ended : Nat) :
    readReport { began := began, ended := ended, bytes := r.bytes } = some (readReportBody r.packed) := by
  rw [readReport, r.body_bytes]
  exact if_pos ⟨r.bytes_length, rfl, checkPasses_withCheck _⟩

/-- Settles O59: the body by its fields, behind the kind and before the check. -/
theorem reportsReadBack : Obligations.ReportsReadBack := by
  intro r began ended hstation hstate htag hid hframe hchannels
  refine ⟨r.bytes_length, ?_⟩
  rw [readReport_bytes, readReportBody_packed ⟨hstation, hstate, htag, hid, hframe, hchannels⟩]

end Sys2Proof.Machine
end
